-- ==== Sys2Proof/Word.lean ====
section
/-!
DEFINITION. The words of the Plynael P8 and their plainest arithmetic (spec/01_notation.md R31, spec/02_encoding.md R32).
-/

namespace Sys2Proof

/-- One byte. -/
abbrev Byte := BitVec 8

/-- A 32-bit register lane, scalar or instruction word (R32, R39). -/
abbrev Word := BitVec 32

/-- A 64-bit address or pair (R17). -/
abbrev DWord := BitVec 64

/-- A lane mask: bit `l` is lane `l` (R39). -/
abbrev Mask := BitVec 32

/-- One value per lane of a wave (R4). -/
abbrev Lanes (α : Type) := Vector α 32

/-- Pair of an even (low) and an odd (high) word (R17). -/
abbrev pair (lo hi : Word) : DWord := hi ++ lo

/-- Low word of a pair. -/
abbrev DWord.loWord (d : DWord) : Word := d.extractLsb' 0 32

/-- High word of a pair. -/
abbrev DWord.hiWord (d : DWord) : Word := d.extractLsb' 32 32

/-- The mask of one lane. -/
abbrev laneBit (l : Nat) : Mask := BitVec.ofNat 32 (2 ^ l)

/-- The 32 lane numbers, ascending (R30). -/
abbrev allLanes : List (Fin 32) := List.finRange 32

end Sys2Proof
end

