-- ==== Sys2Proof/Syntax.lean ====
section
/-!
DEFINITION. The steps of the P8, one constructor per row of spec/opcode_table.json: the 135 instruction words
(spec/02_encoding.md, spec/19 to spec/22) and the 84 further indivisible steps of its other agents
(spec/95_what_each_step_holds.md). Operands are typed; which operand a role admits is WellFormed's to say (R46).
-/

namespace Sys2Proof

/-- What a 7-bit operand code names (R33). A literal carries its trailing word; `ext` is code 0x7F. -/
inductive Operand where
  | v (r : Fin 88)
  | s (r : Fin 32)
  | q (p : Fin 4)
  | lpc
  | lid
  | lit (w : Word)
  | ext
  deriving DecidableEq, Repr

/-- Where a wave issues from: its program, its hinge handler (R98) or its supervisor handler (R238). -/
inductive Mode where
  | program
  | hinge
  | supervisor
  deriving DecidableEq, Repr

/-- The CH bit and the guard field of a word (R32). -/
structure Hdr where
  ch : Bool
  gd : Fin 8
  deriving DecidableEq, Repr

/-- Memory extension word of LD, ST and PREF (R55). -/
structure MemExt where
  ofs  : BitVec 20
  size : BitVec 3
  sx   : Bool
  pol  : BitVec 3
  bk   : Bool
  deriving DecidableEq, Repr

/-- Atomic extension word of ATOM and ATOMR (R56). -/
structure AtomExt where
  ofs : BitVec 20
  aop : BitVec 4
  bk  : Bool
  deriving DecidableEq, Repr

/-- Copy extension word of CPY and CPYS (R58). -/
structure CopyExt where
  crd : BitVec 5
  lat : BitVec 5
  qd  : Bool
  tv  : Bool
  thn : Fin 4
  deriving DecidableEq, Repr

/-- Gather extension word of GATH and SCAT (R59). -/
structure GathExt where
  spa : BitVec 5
  lat : BitVec 5
  esz : BitVec 3
  one : Bool
  deriving DecidableEq, Repr

/-- A request at a home: the physical bytes and what is done there (R165, R320). -/
inductive HomeReq where
  | load   (addr len : Nat)
  | store  (addr : Nat) (data : List Byte)
  | atomic (addr : Nat) (aop : BitVec 4) (data : List DWord)
  /-- A store tagged with the hypothesis it was made under (R363): the node's first version slot, 0 for committed memory. -/
  | tagged (addr : Nat) (data : List Byte) (ctx : Nat) (node : Nat)
  deriving DecidableEq, Repr

/-- What a peer package asks of this one (R306). -/
inductive PodOp where
  | load (len : Nat)
  | store
  | atomic (aop : BitVec 4) (data : DWord)
  deriving DecidableEq, Repr

/-- One field of a packet: M bit, type, body words (R279). -/
structure PField where
  m    : Bool
  typ  : BitVec 11
  body : List Word
  deriving DecidableEq, Repr

/-- A parsed packet: its header's ring index and length, FLAGS bits, and its fields in order (R279). -/
structure Packet where
  at_    : Word
  len    : Nat
  ord    : Bool
  irq    : Bool
  fields : List PField
  deriving DecidableEq, Repr

/-- The steps of the machine. Each constructor is one row of spec/opcode_table.json. -/
inductive Instr where
  /-- NOP (R402). -/
  | nop (ch : Bool)
  /-- SMOV (R417). -/
  | smov (ch : Bool) (d a : Operand)
  /-- SADD (R417). -/
  | sadd (ch : Bool) (d a b : Operand)
  /-- SSUB (R417). -/
  | ssub (ch : Bool) (d a b : Operand)
  /-- SMUL (R417). -/
  | smul (ch : Bool) (d a b : Operand)
  /-- SAND (R417). -/
  | sand (ch : Bool) (d a b : Operand)
  /-- SOR (R417). -/
  | sor (ch : Bool) (d a b : Operand)
  /-- SXOR (R417). -/
  | sxor (ch : Bool) (d a b : Operand)
  /-- SSHL (R417). -/
  | sshl (ch : Bool) (d a b : Operand)
  /-- SSHR (R417). -/
  | sshr (ch : Bool) (d a b : Operand)
  /-- SSHA (R417). -/
  | ssha (ch : Bool) (d a b : Operand)
  /-- SMIN (R417). -/
  | smin (ch : Bool) (d a b : Operand)
  /-- SMAX (R417). -/
  | smax (ch : Bool) (d a b : Operand)
  /-- SCMP (R422). -/
  | scmp (h : Hdr) (k : Fin 16) (cond : BitVec 3) (a b : Operand)
  /-- SRDV (R428). -/
  | srdv (ch : Bool) (d a b : Operand)
  /-- SWRV (R433). -/
  | swrv (ch : Bool) (d a b : Operand)
  /-- VADD (R445). -/
  | vadd (h : Hdr) (d a b : Operand)
  /-- VSUB (R445). -/
  | vsub (h : Hdr) (d a b : Operand)
  /-- VMUL (R445). -/
  | vmul (h : Hdr) (d a b : Operand)
  /-- VMULH (R445). -/
  | vmulh (h : Hdr) (d a b : Operand)
  /-- VMULHN (R445). -/
  | vmulhn (h : Hdr) (d a b : Operand)
  /-- VMAD (R445). -/
  | vmad (h : Hdr) (d a b : Operand)
  /-- VMIN (R445). -/
  | vmin (h : Hdr) (d a b : Operand)
  /-- VMAX (R445). -/
  | vmax (h : Hdr) (d a b : Operand)
  /-- VMINN (R445). -/
  | vminn (h : Hdr) (d a b : Operand)
  /-- VMAXN (R445). -/
  | vmaxn (h : Hdr) (d a b : Operand)
  /-- VAND (R445). -/
  | vand (h : Hdr) (d a b : Operand)
  /-- VOR (R445). -/
  | vor (h : Hdr) (d a b : Operand)
  /-- VXOR (R445). -/
  | vxor (h : Hdr) (d a b : Operand)
  /-- VSHL (R445). -/
  | vshl (h : Hdr) (d a b : Operand)
  /-- VSHR (R445). -/
  | vshr (h : Hdr) (d a b : Operand)
  /-- VSHA (R445). -/
  | vsha (h : Hdr) (d a b : Operand)
  /-- VADD64 (R447). -/
  | vadd64 (h : Hdr) (d a b : Operand)
  /-- VSEL (R451). -/
  | vsel (h : Hdr) (d a b : Operand)
  /-- VCMP (R450). -/
  | vcmp (h : Hdr) (k : Fin 16) (cond : BitVec 3) (a b : Operand)
  /-- VCMPN (R450). -/
  | vcmpn (h : Hdr) (k : Fin 16) (cond : BitVec 3) (a b : Operand)
  /-- VBFX (R448). -/
  | vbfx (h : Hdr) (d a b : Operand)
  /-- VBFI (R448). -/
  | vbfi (h : Hdr) (d a b : Operand)
  /-- VABS (R449). -/
  | vabs (h : Hdr) (d a : Operand)
  /-- VNEG (R449). -/
  | vneg (h : Hdr) (d a : Operand)
  /-- VNOT (R449). -/
  | vnot (h : Hdr) (d a : Operand)
  /-- VPOPC (R449). -/
  | vpopc (h : Hdr) (d a : Operand)
  /-- VCLZ (R449). -/
  | vclz (h : Hdr) (d a : Operand)
  /-- VSHUF (R458). -/
  | vshuf (h : Hdr) (d a b : Operand)
  /-- VBCAST (R458). -/
  | vbcast (h : Hdr) (d a b : Operand)
  /-- VSCAN (R460). -/
  | vscan (h : Hdr) (d a : Operand) (excl : Bool) (op : BitVec 4)
  /-- VRED (R460). -/
  | vred (h : Hdr) (d a : Operand) (op : BitVec 4)
  /-- VSEGSCAN (R460). -/
  | vsegscan (h : Hdr) (d a : Operand) (heads : BitVec 3) (op : BitVec 4)
  /-- VFADD (R452). -/
  | vfadd (h : Hdr) (d a b : Operand)
  /-- VFSUB (R452). -/
  | vfsub (h : Hdr) (d a b : Operand)
  /-- VFMUL (R452). -/
  | vfmul (h : Hdr) (d a b : Operand)
  /-- VFMA (R452). -/
  | vfma (h : Hdr) (d a b : Operand)
  /-- VFMIN (R452). -/
  | vfmin (h : Hdr) (d a b : Operand)
  /-- VFMAX (R452). -/
  | vfmax (h : Hdr) (d a b : Operand)
  /-- VFCMP (R453). -/
  | vfcmp (h : Hdr) (k : Fin 16) (cond : BitVec 3) (a b : Operand)
  /-- VFRCP (R454). -/
  | vfrcp (h : Hdr) (d a : Operand)
  /-- VFRSQ (R454). -/
  | vfrsq (h : Hdr) (d a : Operand)
  /-- VFEXP2 (R454). -/
  | vfexp2 (h : Hdr) (d a : Operand)
  /-- VFLOG2 (R454). -/
  | vflog2 (h : Hdr) (d a : Operand)
  /-- VFSQRT (R454). -/
  | vfsqrt (h : Hdr) (d a : Operand)
  /-- VFABS (R454). -/
  | vfabs (h : Hdr) (d a : Operand)
  /-- VFRND (R454). -/
  | vfrnd (h : Hdr) (d a : Operand) (mode : BitVec 2)
  /-- VCVT (R455). -/
  | vcvt (h : Hdr) (d a : Operand) (dt st : BitVec 3) (sat : Bool)
  /-- VPACK (R456). -/
  | vpack (h : Hdr) (d a : Operand) (et : BitVec 3) (sat : Bool)
  /-- VUNPK (R456). -/
  | vunpk (h : Hdr) (d a : Operand) (et : BitVec 3) (sat : Bool)
  /-- KAND (R369). -/
  | kand (ch : Bool) (d a b : Fin 16)
  /-- KOR (R369). -/
  | kor (ch : Bool) (d a b : Fin 16)
  /-- KXOR (R369). -/
  | kxor (ch : Bool) (d a b : Fin 16)
  /-- KNOT (R369). -/
  | knot (ch : Bool) (d a : Fin 16)
  /-- KMOV (R369). -/
  | kmov (ch : Bool) (d a : Fin 16)
  /-- KPOP (R369). -/
  | kpop (ch : Bool) (d : Operand) (a : Fin 16)
  /-- KFIRST (R369). -/
  | kfirst (ch : Bool) (d : Operand) (a : Fin 16)
  /-- KSET (R369). -/
  | kset (ch : Bool) (d : Fin 16) (a : Operand)
  /-- KGET (R369). -/
  | kget (ch : Bool) (d : Operand) (a : Fin 16)
  /-- KPCEQ (R369). -/
  | kpceq (ch : Bool) (d : Fin 16) (a : Operand) (b : Fin 16)
  /-- KPCMIN (R369). -/
  | kpcmin (ch : Bool) (d : Operand) (a : Fin 16)
  /-- BRA (R328). -/
  | bra (h : Hdr) (k : Fin 16) (ofs : BitVec 17)
  /-- BRS (R331). -/
  | brs (ch : Bool) (d : Operand) (ofs : BitVec 14)
  /-- JMPX (R366). -/
  | jmpx (h : Hdr) (a : Operand) (table : BitVec 20) (n : BitVec 12)
  /-- CALL (R333). -/
  | call (ch : Bool) (d : Operand) (ofs : BitVec 14)
  /-- RET (R415). -/
  | ret (h : Hdr) (a : Operand)
  /-- LOOP (R389). -/
  | loop (ch : Bool) (d : Operand) (dist : BitVec 14)
  /-- LBRK (R378). -/
  | lbrk (ch : Bool) (n : BitVec 3) (ofs : BitVec 14)
  /-- EXIT (R345). -/
  | exit (h : Hdr)
  /-- PARK (R403). -/
  | park (h : Hdr)
  /-- SPAWN (R424). -/
  | spawn (h : Hdr) (d a : Operand) (jn : BitVec 5) (j : Bool) (entry : BitVec 22)
  /-- TRET (R438). -/
  | tret (h : Hdr) (a : Operand)
  /-- HRET (R355). -/
  | hret (ch : Bool)
  /-- LEAFSET (R386). -/
  | leafset (ch : Bool) (held : Bool) (n : Fin 4) (a : Fin 16) (b : Operand)
  /-- LEAFGET (R386). -/
  | leafget (ch : Bool) (d : Fin 16) (a : Operand) (sel : BitVec 2) (n : Fin 4)
  /-- LEAFJOIN (R386). -/
  | leafjoin (ch : Bool) (n : Fin 4) (a : Operand)
  /-- LEAFCLR (R386). -/
  | leafclr (ch : Bool) (n : Fin 4)
  /-- LD (R380). -/
  | ld (h : Hdr) (d a : Operand) (x : MemExt)
  /-- ST (R429). -/
  | st (h : Hdr) (d a : Operand) (x : MemExt)
  /-- ATOM (R319). -/
  | atom (h : Hdr) (d a : Operand) (x : AtomExt)
  /-- ATOMR (R324). -/
  | atomr (h : Hdr) (d a : Operand) (x : AtomExt)
  /-- WAITC (R461). -/
  | waitc (h : Hdr) (d a : Operand)
  /-- FENCE (R347). -/
  | fence (h : Hdr) (scope : BitVec 3)
  /-- FENCEX (R349). -/
  | fencex (h : Hdr) (scope : BitVec 3) (before after : BitVec 6)
  /-- PREF (R408). -/
  | pref (h : Hdr) (a : Operand) (x : MemExt)
  /-- HYPNEW (R360). -/
  | hypnew (h : Hdr) (d : Operand)
  /-- HYPENT (R358). -/
  | hypent (h : Hdr) (one : Bool) (a : Operand)
  /-- HYPLV (R359). -/
  | hyplv (h : Hdr) (one : Bool)
  /-- HYPRES (R362). -/
  | hypres (h : Hdr) (a : Operand) (confirm : Bool)
  /-- HYPQ (R361). -/
  | hypq (h : Hdr) (d a : Operand)
  /-- LINIT (R373). -/
  | linit (h : Hdr) (one : Bool) (a b : Operand)
  /-- LARV (R373). -/
  | larv (h : Hdr) (one : Bool) (a b : Operand)
  /-- LEXP (R373). -/
  | lexp (h : Hdr) (one : Bool) (a b : Operand)
  /-- LWAIT (R373). -/
  | lwait (h : Hdr) (one : Bool) (a b : Operand)
  /-- QINIT (R410). -/
  | qinit (h : Hdr) (d a b : Operand)
  /-- QACQ (R410). -/
  | qacq (h : Hdr) (d a : Operand)
  /-- QPUB (R410). -/
  | qpub (h : Hdr) (a b : Operand)
  /-- QTAKE (R410). -/
  | qtake (h : Hdr) (d a : Operand)
  /-- QREL (R410). -/
  | qrel (h : Hdr) (a b : Operand)
  /-- QBIND (R410). -/
  | qbind (h : Hdr) (d a : Operand)
  /-- CPY (R337). -/
  | cpy (h : Hdr) (d a : Operand) (x : CopyExt)
  /-- CPYS (R341). -/
  | cpys (h : Hdr) (d a : Operand) (x : CopyExt)
  /-- GATH (R352). -/
  | gath (h : Hdr) (d a : Operand) (x : GathExt)
  /-- SCAT (R419). -/
  | scat (h : Hdr) (d a : Operand) (x : GathExt)
  /-- MLDS (R221). -/
  | mlds (h : Hdr) (a : Operand) (arr : Fin 2) (fmt : BitVec 3) (sp : Bool) (crd : BitVec 5) (mta : BitVec 5)
  /-- MSWAP (R224). -/
  | mswap (h : Hdr) (arr : Fin 2)
  /-- MSTREAM (R225). -/
  | mstream (h : Hdr) (a : Operand) (arr : Fin 2) (fmt : BitVec 3) (rows1 : BitVec 6) (qs : Bool) (dfr : Bool) (slot : Fin 4)
  /-- MDRAIN (R227). -/
  | mdrain (h : Hdr) (tile : Fin 16)
  /-- MZERO (R228). -/
  | mzero (h : Hdr) (tile : Fin 16)
  /-- MLD (R228). -/
  | mld (h : Hdr) (a : Operand) (tile : Fin 16) (mfmt : BitVec 3)
  /-- MST (R228). -/
  | mst (h : Hdr) (a : Operand) (tile : Fin 16) (mfmt : BitVec 3) (sat : Bool)
  /-- TRAP (R437). -/
  | trap (h : Hdr) (code : BitVec 7)
  /-- ERET (R343). -/
  | eret (ch : Bool)
  /-- SYSR (R434). -/
  | sysr (ch : Bool) (d : Operand) (num : BitVec 7)
  /-- SYSW (R434). -/
  | sysw (ch : Bool) (num : BitVec 7) (a : Operand)
  /-- PPOINT (R406). -/
  | ppoint (h : Hdr) (lit : Word)
  /-- CLK (R335). -/
  | clk (ch : Bool) (d : Operand) (sel : Bool)
  /-- PMON (R405). -/
  | pmon (ch : Bool) (d : Operand) (n : Fin 4)
  /-- BKPT (R326). -/
  | bkpt (h : Hdr) (code : BitVec 7)
  /-- SLEEP (R423). -/
  | sleep (ch : Bool) (a : Operand)
  /-- SLEEP_EXPIRY (R423). -/
  | sleepExpiry (wave : Nat) (leaf : Fin 4)
  /-- LEAF_TURN (R95). -/
  | leafTurn (wave : Nat) (leaf : Fin 4)
  /-- EVENT_DELIVERY (R97). -/
  | eventDelivery (wave : Nat)
  /-- HINGE_BUDGET_EXCEEDED (R99). -/
  | hingeBudgetExceeded (wave : Nat)
  /-- STARVE_STAGE1 (R103). -/
  | starveStage1 (wave : Nat)
  /-- STARVATION_OVERRIDE (R105). -/
  | starvationOverride (wave : Nat)
  /-- IDLE_ISSUE_CYCLE (R103). -/
  | idleIssueCycle (wave : Nat)
  /-- WAVE_AGED (R83). -/
  | waveAged (wave : Nat)
  /-- WORKGROUP_EXIT (R215). -/
  | workgroupExit (unit : Nat)
  /-- WORKGROUP_PLACEMENT (R286). -/
  | workgroupPlacement (launch : Nat)
  /-- NEIGHBOURHOOD_PLACEMENT (R287). -/
  | neighbourhoodPlacement (launch : Nat)
  /-- TASK_WAVE_START (R293). -/
  | taskWaveStart (ctx : Nat) (chiplet : Fin 8)
  /-- LANE_ACCESS_AT_HOME (R165). -/
  | laneAccessAtHome (core : Fin 384) (req : HomeReq)
  /-- LANE_ACCESS_REPLY (R165). -/
  | laneAccessReply (core : Fin 384) (time : Nat)
  /-- ATOMIC_MOVED_REISSUE (R163). -/
  | atomicMovedReissue (wave : Nat) (leaf : Fin 4)
  /-- MOV_WAIT_TIMEOUT (R158). -/
  | movWaitTimeout (wave : Nat) (leaf : Fin 4)
  /-- PAGE_FAULT_SERVICE_COMPLETE (R106). -/
  | pageFaultServiceComplete (wave : Nat) (lanes : Mask)
  /-- SHOOT_DOWN (R161). -/
  | shootDown (asid : BitVec 11) (lo hi : Nat)
  /-- PAGE_EXCHANGE_START (R162). -/
  | pageExchangeStart (nearPte farPte : Nat) (big : Bool)
  /-- PAGE_EXCHANGE_COMPLETE (R162). -/
  | pageExchangeComplete (nearPte farPte : Nat)
  /-- COPY_SECTOR_PERFORMED (R203). -/
  | copySectorPerformed (xfer sector : Nat)
  /-- COPY_PERMIT_ACQUIRE (R202). -/
  | copyPermitAcquire (xfer : Nat)
  /-- FOLLOW_ON_FIRE (R248). -/
  | followOnFire (wave : Nat) (slot : Fin 4)
  /-- LWAIT_WAKEUP (R208). -/
  | lwaitWakeup (wave : Nat) (leaf : Fin 4)
  /-- MONITOR_WAKEUP (R182). -/
  | monitorWakeup (wave : Nat) (leaf : Fin 4)
  /-- QUEUE_WAITER_RETRY (R411). -/
  | queueWaiterRetry (wave : Nat) (leaf : Fin 4)
  /-- SPAWN_RING_RESUME (R292). -/
  | spawnRingResume (wave : Nat) (leaf : Fin 4)
  /-- FENCEX_RETIRE (R172). -/
  | fencexRetire (wave : Nat) (leaf : Fin 4)
  /-- CONFIRM_COMMIT (R262). -/
  | confirmCommit (ctx : Nat)
  /-- REFUTE_APPLIED (R263). -/
  | refuteApplied (ctx : Nat)
  /-- HYPNEW_REPLY (R360). -/
  | hypnewReply (ctx : Nat)
  /-- MLDS_LAND (R221). -/
  | mldsLand (core : Fin 384) (arr : Fin 2)
  /-- MSWAP_EXECUTE (R224). -/
  | mswapExecute (core : Fin 384) (arr : Fin 2)
  /-- MSTREAM_START (R225). -/
  | mstreamStart (core : Fin 384) (arr : Fin 2)
  /-- MDRAIN_EXECUTE (R227). -/
  | mdrainExecute (core : Fin 384) (arr : Fin 2)
  /-- TILE_COMMAND_EXECUTE (R228). -/
  | tileCommandExecute (core : Fin 384) (arr : Fin 2)
  /-- TRAP_ENTRY (R238). -/
  | trapEntry (wave : Nat)
  /-- REGISTER_FILE_ECC_ERROR (R241). -/
  | registerFileEccError (wave : Nat)
  /-- CONTEXT_END (R299). -/
  | contextEnd (ctx : Nat)
  /-- WAVE_SWITCH_OUT (R242). -/
  | waveSwitchOut (unit : Nat)
  /-- PPOINT_PATIENCE_TIMEOUT (R233). -/
  | ppointPatienceTimeout (unit : Nat)
  /-- IMAGE_READBACK (R216). -/
  | imageReadback (unit : Nat)
  /-- DEBUG_LATCH_TIMEOUT (R197). -/
  | debugLatchTimeout (wave : Nat) (latch : DWord)
  /-- LAUNCH (R280). -/
  | launch (slot : Fin 256) (p : Packet)
  /-- NBHD_LAUNCH (R280). -/
  | nbhdLaunch (slot : Fin 256) (p : Packet)
  /-- TASK_SEED (R280). -/
  | taskSeed (slot : Fin 256) (p : Packet)
  /-- EDGE (R280). -/
  | edge (slot : Fin 256) (p : Packet)
  /-- SIGNAL (R280). -/
  | signal (slot : Fin 256) (p : Packet)
  /-- WAIT (R280). -/
  | wait (slot : Fin 256) (p : Packet)
  /-- WAIT_SATISFIED (R283). -/
  | waitSatisfied (slot : Fin 256)
  /-- COPY (R280). -/
  | copy (slot : Fin 256) (p : Packet)
  /-- WRITE (R280). -/
  | write (slot : Fin 256) (p : Packet)
  /-- STAMP (R280). -/
  | stamp (slot : Fin 256) (p : Packet)
  /-- HYP_SWEEP (R280). -/
  | hypSweep (slot : Fin 256) (p : Packet)
  /-- REPLAY (R280). -/
  | replay (slot : Fin 256) (p : Packet)
  /-- REPLAY_PASS (R314). -/
  | replayPass (slot : Fin 256)
  /-- NOP_PACKET (R283). -/
  | nopPacket (slot : Fin 256) (p : Packet)
  /-- LAUNCH_COMPLETION (R283). -/
  | launchCompletion (id : Nat)
  /-- DOORBELL (R278). -/
  | doorbell (qcb : Nat)
  /-- EVT_POP (R296). -/
  | evtPop
  /-- QUEUE_MAP (R277). -/
  | queueMap (slot : Fin 256)
  /-- FORCE_UNMAP (R289). -/
  | forceUnmap (slot : Fin 256)
  /-- UNMAP_COMPLETE (R289). -/
  | unmapComplete (slot : Fin 256)
  /-- QUEUE_IDLE_TIMEOUT (R288). -/
  | queueIdleTimeout (slot : Fin 256)
  /-- GANG_SWITCH_OUT_REQUEST (R242). -/
  | gangSwitchOutRequest (handle : BitVec 16)
  /-- GANG_RESTORE (R242). -/
  | gangRestore (handle : BitVec 16)
  /-- VHIGH_CLEAR (R313). -/
  | vhighClear (chiplet : Fin 8)
  /-- REGISTER_WRITE (R304). -/
  | registerWrite (addr : Nat) (value : DWord)
  /-- HOST_ACCESS (R305). -/
  | hostAccess (store : Bool) (addr : Nat) (data : List Byte)
  /-- POD_PEER_ACCESS (R306). -/
  | podPeerAccess (asid : BitVec 11) (op : PodOp) (ofs : Nat) (data : List Byte)
  /-- LINK_FLIT_RETRY (R305). -/
  | linkFlitRetry
  /-- LINK_DOWN_TIMEOUT (R305). -/
  | linkDownTimeout
  /-- THERMAL_REFRESH_THRESHOLD (R315). -/
  | thermalRefreshThreshold (stack : Fin 8) (temp : BitVec 12)
  /-- THERMAL_ALARM (R315). -/
  | thermalAlarm (stack : Fin 8) (temp : BitVec 12)
  /-- RESET_BOOT (R307). -/
  | resetBoot (trained : Bool)
  /-- CONFIG_RECORD_RECEIVE (R310). -/
  | configRecordReceive (record sig : List Byte)
  /-- BOOT_IMAGE_RECEIVE (R307). -/
  | bootImageReceive (tables tablesSig image imageSig : List Byte)
  /-- ATTESTATION_QUOTE (R309). -/
  | attestationQuote (nonce : List Byte)
  /-- UNASSIGNED_OPCODE (R52). -/
  | unassignedOpcode (w : Word)
  /-- UNKNOWN_PACKET_TYPE (R280). -/
  | unknownPacketType (slot : Fin 256) (p : Packet)
  /-- VERSION_SLOT_FREED (R264). -/
  | versionSlotFreed (ctx : Nat) (vslot : Nat)
  /-- JENWALD_LINK_LOST (R305). -/
  | jenwaldLinkLost
  /-- JENWALD_LINK_RESTORED (R305). -/
  | jenwaldLinkRestored
  /-- LINE_POISONED (R241). -/
  | linePoisoned (line : Nat)
  deriving DecidableEq, Repr

end Sys2Proof
end

