-- ==== Sys2Proof/Decode.lean ====
section
/-!
DEFINITION. Decoding and encoding of the instruction words (spec/02_encoding.md R32 to R71), and the checks the decoder
makes of every word: opcode, trailing word, function and reserved fields, operands (R70), in each mode (R98, R67, R239).
-/

namespace Sys2Proof

/-- Why a word is not decoded (R69). -/
inductive DecodeErr where
  /-- Required trailing word missing, more than one requested, or outside the packet: subcode 5. -/
  | trailing
  /-- Illegal function, op, type or condition code: subcode 2. -/
  | function
  /-- Nonzero zero-required field or illegal field value: subcode 3. -/
  | reserved
  /-- A of MSWAP, MDRAIN or MZERO is not 0 (R392, R399): subcode 4. -/
  | operand
  deriving DecidableEq, Repr

/-- The subcode of illegal instruction that reports a decode error (R69). -/
def DecodeErr.subcode : DecodeErr → Nat
  | .trailing => 5
  | .function => 2
  | .reserved => 3
  | .operand => 4

/-! ### Fields of a word (R32) -/

/-- CH [31]. -/
def chOf (w : Word) : Bool := w.extractLsb' 31 1 = 1
/-- GD [30:28]. -/
def gdOf (w : Word) : BitVec 3 := w.extractLsb' 28 3
/-- OP [27:21]. -/
def opOf (w : Word) : BitVec 7 := w.extractLsb' 21 7
/-- D [20:14]. -/
def dOf (w : Word) : BitVec 7 := w.extractLsb' 14 7
/-- A [13:7]. -/
def aOf (w : Word) : BitVec 7 := w.extractLsb' 7 7
/-- B [6:0]. -/
def bOf (w : Word) : BitVec 7 := w.extractLsb' 0 7
/-- CH and GD together. -/
def hdrOf (w : Word) : Hdr := ⟨chOf w, (gdOf w).toFin⟩

/-- An instruction word from its fields (R32). -/
def mkWord (ch : Bool) (gd : BitVec 3) (op d a b : BitVec 7) : Word :=
  (BitVec.ofBool ch) ++ gd ++ op ++ d ++ a ++ b

/-- The operand a 7-bit code names (R33); a literal takes the trailing word. -/
def operandOf (c : BitVec 7) (next : Word) : Operand :=
  let n := c.toNat
  if h : n < 88 then .v ⟨n, h⟩
  else if h : n - 88 < 32 then .s ⟨n - 88, h⟩
  else if h : n - 120 < 4 then .q ⟨n - 120, h⟩
  else if n = 0x7C then .lpc
  else if n = 0x7D then .lid
  else if n = 0x7E then .lit next
  else .ext

/-- The code of an operand (R33). -/
def codeOf : Operand → BitVec 7
  | .v r => BitVec.ofNat 7 r
  | .s r => BitVec.ofNat 7 (88 + r)
  | .q p => BitVec.ofNat 7 (120 + p)
  | .lpc => 0x7C
  | .lid => 0x7D
  | .lit _ => 0x7E
  | .ext => 0x7F

/-- A one-bit field. -/
def f1 (x : Fin 2) : BitVec 1 := BitVec.ofNat 1 x
/-- A two-bit field. -/
def f2 (x : Fin 4) : BitVec 2 := BitVec.ofNat 2 x
/-- A three-bit field. -/
def f3 (x : Fin 8) : BitVec 3 := BitVec.ofNat 3 x
/-- A four-bit field. -/
def f4 (x : Fin 16) : BitVec 4 := BitVec.ofNat 4 x

/-! ### Trailing words (R35) -/

/-- The system functions of opcode 0x7D that are assigned (R64). -/
def sysAssigned (b : BitVec 7) : Bool := b.toNat < 9

/-- Is the opcode assigned (R51, R52)? -/
def opAssigned (op : BitVec 7) : Bool :=
  let n := op.toNat
  !((0x2C ≤ n && n ≤ 0x2F) || (0x3B ≤ n && n ≤ 0x3F) || (0x4B ≤ n && n ≤ 0x4F) || n = 0x7B || n = 0x7E || n = 0x7F)

/-- Which of D, A and B hold operand codes that may request a trailing word in a word of this opcode (R51, R35); B is the
function of opcode 0x7D. JMPX's A is checked as an operand alone: 0x7E there is no second request (R368). -/
def operandFields (op b : BitVec 7) : Bool × Bool × Bool :=
  match op.toNat with
  | 0x01 | 0x26 | 0x37 | 0x38 | 0x29 | 0x2A | 0x2B | 0x64 | 0x6C | 0x72 | 0x74 | 0x76 => (true, true, false)
  | 0x02 | 0x03 | 0x04 | 0x05 | 0x06 | 0x07 | 0x08 | 0x09 | 0x0A | 0x0B | 0x0C | 0x0E | 0x0F => (true, true, true)
  | 0x10 | 0x11 | 0x12 | 0x13 | 0x14 | 0x15 | 0x16 | 0x17 | 0x18 | 0x19 | 0x1A | 0x1B | 0x1C | 0x1D | 0x1E | 0x1F
  | 0x20 | 0x21 | 0x24 | 0x25 | 0x27 | 0x28 | 0x30 | 0x31 | 0x32 | 0x33 | 0x34 | 0x35 | 0x39 | 0x3A => (true, true, true)
  | 0x0D | 0x22 | 0x23 | 0x36 | 0x67 | 0x6D | 0x6E | 0x6F | 0x70 | 0x73 | 0x75 | 0x7C => (false, true, true)
  | 0x45 | 0x46 | 0x48 | 0x4A | 0x51 | 0x53 | 0x55 | 0x68 => (true, false, false)
  | 0x47 | 0x49 | 0x54 | 0x5A | 0x5D | 0x5E | 0x69 | 0x6B => (false, true, false)
  | 0x52 | 0x5C => (false, false, true)
  | 0x59 | 0x60 | 0x61 | 0x62 | 0x63 | 0x71 | 0x77 | 0x78 | 0x79 | 0x7A => (true, true, true)
  | 0x7D =>
    match b.toNat with
    | 2 | 5 | 6 => (true, false, false)
    | 3 | 4 | 8 => (false, true, false)
    | _ => (false, false, false)
  | _ => (false, false, false)

/-- Does the opcode's format require an extension word, in B (R51, R35)? -/
def extRequired (op : BitVec 7) : Bool :=
  match op.toNat with
  | 0x39 | 0x3A | 0x52 | 0x59 | 0x60 | 0x61 | 0x62 | 0x63 | 0x67 | 0x77 | 0x78 | 0x79 | 0x7A | 0x7C => true
  | _ => false

/-- Does a code request a trailing word (R35)? -/
def requests (c : BitVec 7) : Bool := 0x7E ≤ c.toNat

/-- How many trailing words the fields of a word request (R35). -/
def trailingCount (w : Word) : Nat :=
  let (fd, fa, fb) := operandFields (opOf w) (bOf w)
  (if fd && requests (dOf w) then 1 else 0) + (if fa && requests (aOf w) then 1 else 0) +
    (if fb && requests (bOf w) then 1 else 0)

/-- The word's own trailing checks, by its slot in the packet (R35, R69 subcode 5). -/
def trailingOk (slot : Nat) (w : Word) : Bool :=
  let n := trailingCount w
  (!extRequired (opOf w) || bOf w = 0x7F) && n ≤ 1 && (n = 0 || slot < 2)

/-- The number of words the instruction takes: itself and its trailing word. -/
def wordCount (w : Word) : Nat := if trailingCount w = 0 then 1 else 2

/-! ### Extension words (R55 to R63) -/

/-- Memory extension word (R55); none where [3:0] is not zero. -/
def memExtOf (x : Word) : Option MemExt :=
  if x.extractLsb' 0 4 = 0 then
    some ⟨x.extractLsb' 12 20, x.extractLsb' 9 3, x.extractLsb' 8 1 = 1, x.extractLsb' 5 3, x.extractLsb' 4 1 = 1⟩
  else none

/-- The word of a memory extension (R55). -/
def MemExt.word (x : MemExt) : Word :=
  x.ofs ++ x.size ++ BitVec.ofBool x.sx ++ x.pol ++ BitVec.ofBool x.bk ++ (0 : BitVec 4)

/-- Atomic extension word (R56): AOP 11 to 15 is a function error, nonzero [7:5] or [3:0] a reserved one. -/
def atomExtOf (x : Word) : Except DecodeErr AtomExt :=
  if 11 ≤ (x.extractLsb' 8 4).toNat then .error .function
  else if x.extractLsb' 5 3 = 0 ∧ x.extractLsb' 0 4 = 0 then
    .ok ⟨x.extractLsb' 12 20, x.extractLsb' 8 4, x.extractLsb' 4 1 = 1⟩
  else .error .reserved

/-- The word of an atomic extension (R56). -/
def AtomExt.word (x : AtomExt) : Word :=
  x.ofs ++ x.aop ++ (0 : BitVec 3) ++ BitVec.ofBool x.bk ++ (0 : BitVec 4)

/-- Copy extension word (R58). -/
def copyExtOf (x : Word) : Option CopyExt :=
  if x.extractLsb' 0 18 = 0 then
    some ⟨x.extractLsb' 27 5, x.extractLsb' 22 5, x.extractLsb' 21 1 = 1, x.extractLsb' 20 1 = 1,
      (x.extractLsb' 18 2).toFin⟩
  else none

/-- The word of a copy extension (R58). -/
def CopyExt.word (x : CopyExt) : Word :=
  x.crd ++ x.lat ++ BitVec.ofBool x.qd ++ BitVec.ofBool x.tv ++ f2 x.thn ++ (0 : BitVec 18)

/-- Gather extension word (R59). -/
def gathExtOf (x : Word) : Option GathExt :=
  if x.extractLsb' 0 18 = 0 then
    some ⟨x.extractLsb' 27 5, x.extractLsb' 22 5, x.extractLsb' 19 3, x.extractLsb' 18 1 = 1⟩
  else none

/-- The word of a gather extension (R59). -/
def GathExt.word (x : GathExt) : Word :=
  x.spa ++ x.lat ++ x.esz ++ BitVec.ofBool x.one ++ (0 : BitVec 18)

/-! ### Words to instructions (R51) -/

/-- Accept `i` where the zero-required bits are zero. -/
def zeroReq (ok : Bool) (i : Instr) : Except DecodeErr Instr := if ok then .ok i else .error .reserved

/-- Accept where the zero-required fields are zero and then A is 0. -/
def zeroReqA (ok a0 : Bool) (i : Instr) : Except DecodeErr Instr :=
  if !ok then .error .reserved else if a0 then .ok i else .error .operand

/-- Accept what an optional extension gives. -/
def withExt {α : Type} (x : Option α) (f : α → Instr) : Except DecodeErr Instr :=
  match x with
  | some a => .ok (f a)
  | none => .error .reserved

/-- A mask field: [6:4] zero, [3:0] the mask (R46). -/
def maskOk (c : BitVec 7) : Bool := c.toNat < 16
/-- The mask a field names. -/
def maskOf (c : BitVec 7) : Fin 16 := (c.extractLsb' 0 4).toFin
/-- The leaf a field names. -/
def leafOf (c : BitVec 7) : Fin 4 := (c.extractLsb' 0 2).toFin
/-- D[20:17], the mask of the compare format and of BRA (R47, R48). -/
def hiMask (d : BitVec 7) : Fin 16 := (d.extractLsb' 3 4).toFin
/-- D[16:14]. -/
def lo3 (d : BitVec 7) : BitVec 3 := d.extractLsb' 0 3
/-- [13:0], the offset of a control word (R48). -/
def off14 (w : Word) : BitVec 14 := w.extractLsb' 0 14

/-- Scalar group, opcodes 0x00 to 0x0F (R51). -/
def decodeScalar (w next : Word) : Except DecodeErr Instr :=
  let ch := chOf w
  let d := operandOf (dOf w) next
  let a := operandOf (aOf w) next
  let b := operandOf (bOf w) next
  let g := gdOf w = 0
  match (opOf w).toNat with
  | 0x00 => zeroReq (g && dOf w = 0 && aOf w = 0 && bOf w = 0) (.nop ch)
  | 0x01 => zeroReq (g && bOf w = 0) (.smov ch d a)
  | 0x02 => zeroReq g (.sadd ch d a b)
  | 0x03 => zeroReq g (.ssub ch d a b)
  | 0x04 => zeroReq g (.smul ch d a b)
  | 0x05 => zeroReq g (.sand ch d a b)
  | 0x06 => zeroReq g (.sor ch d a b)
  | 0x07 => zeroReq g (.sxor ch d a b)
  | 0x08 => zeroReq g (.sshl ch d a b)
  | 0x09 => zeroReq g (.sshr ch d a b)
  | 0x0A => zeroReq g (.ssha ch d a b)
  | 0x0B => zeroReq g (.smin ch d a b)
  | 0x0C => zeroReq g (.smax ch d a b)
  | 0x0D => .ok (.scmp (hdrOf w) (hiMask (dOf w)) (lo3 (dOf w)) a b)
  | 0x0E => zeroReq g (.srdv ch d a b)
  | _ => zeroReq g (.swrv ch d a b)

/-- Vector group, opcodes 0x10 to 0x3A (R51, R50). -/
def decodeVector (w next : Word) : Except DecodeErr Instr :=
  let h := hdrOf w
  let d := operandOf (dOf w) next
  let a := operandOf (aOf w) next
  let b := operandOf (bOf w) next
  let bf := bOf w
  match (opOf w).toNat with
  | 0x10 => .ok (.vadd h d a b)
  | 0x11 => .ok (.vsub h d a b)
  | 0x12 => .ok (.vmul h d a b)
  | 0x13 => .ok (.vmulh h d a b)
  | 0x14 => .ok (.vmulhn h d a b)
  | 0x15 => .ok (.vmad h d a b)
  | 0x16 => .ok (.vmin h d a b)
  | 0x17 => .ok (.vmax h d a b)
  | 0x18 => .ok (.vminn h d a b)
  | 0x19 => .ok (.vmaxn h d a b)
  | 0x1A => .ok (.vand h d a b)
  | 0x1B => .ok (.vor h d a b)
  | 0x1C => .ok (.vxor h d a b)
  | 0x1D => .ok (.vshl h d a b)
  | 0x1E => .ok (.vshr h d a b)
  | 0x1F => .ok (.vsha h d a b)
  | 0x20 => .ok (.vadd64 h d a b)
  | 0x21 => .ok (.vsel h d a b)
  | 0x22 => .ok (.vcmp h (hiMask (dOf w)) (lo3 (dOf w)) a b)
  | 0x23 => .ok (.vcmpn h (hiMask (dOf w)) (lo3 (dOf w)) a b)
  | 0x24 => .ok (.vbfx h d a b)
  | 0x25 => .ok (.vbfi h d a b)
  | 0x26 =>
    match bf.toNat with
    | 0 => .ok (.vabs h d a)
    | 1 => .ok (.vneg h d a)
    | 2 => .ok (.vnot h d a)
    | 3 => .ok (.vpopc h d a)
    | 4 => .ok (.vclz h d a)
    | _ => .error .function
  | 0x27 => .ok (.vshuf h d a b)
  | 0x28 => .ok (.vbcast h d a b)
  | 0x29 =>
    if 11 ≤ (bf.extractLsb' 0 4).toNat then .error .function
    else zeroReq (bf.extractLsb' 5 2 = 0) (.vscan h d a (bf.extractLsb' 4 1 = 1) (bf.extractLsb' 0 4))
  | 0x2A =>
    if 11 ≤ (bf.extractLsb' 0 4).toNat || bf.extractLsb' 4 1 = 1 then .error .function
    else zeroReq (bf.extractLsb' 5 2 = 0) (.vred h d a (bf.extractLsb' 0 4))
  | 0x2B =>
    if 11 ≤ (bf.extractLsb' 0 4).toNat then .error .function
    else .ok (.vsegscan h d a (bf.extractLsb' 4 3) (bf.extractLsb' 0 4))
  | 0x30 => .ok (.vfadd h d a b)
  | 0x31 => .ok (.vfsub h d a b)
  | 0x32 => .ok (.vfmul h d a b)
  | 0x33 => .ok (.vfma h d a b)
  | 0x34 => .ok (.vfmin h d a b)
  | 0x35 => .ok (.vfmax h d a b)
  | 0x36 => .ok (.vfcmp h (hiMask (dOf w)) (lo3 (dOf w)) a b)
  | 0x37 =>
    match bf.toNat with
    | 0 => .ok (.vfrcp h d a)
    | 1 => .ok (.vfrsq h d a)
    | 2 => .ok (.vfexp2 h d a)
    | 3 => .ok (.vflog2 h d a)
    | 4 => .ok (.vfsqrt h d a)
    | 5 => .ok (.vfabs h d a)
    | 8 => .ok (.vfrnd h d a 0)
    | 9 => .ok (.vfrnd h d a 1)
    | 10 => .ok (.vfrnd h d a 2)
    | 11 => .ok (.vfrnd h d a 3)
    | _ => .error .function
  | 0x38 => .ok (.vcvt h d a (bf.extractLsb' 4 3) (bf.extractLsb' 1 3) (bf.extractLsb' 0 1 = 1))
  | 0x39 =>
    if (next.extractLsb' 29 3).toNat < 3 then .error .function
    else zeroReq (next.extractLsb' 0 28 = 0) (.vpack h d a (next.extractLsb' 29 3) (next.extractLsb' 28 1 = 1))
  | _ =>
    if (next.extractLsb' 29 3).toNat < 3 then .error .function
    else zeroReq (next.extractLsb' 0 28 = 0) (.vunpk h d a (next.extractLsb' 29 3) (next.extractLsb' 28 1 = 1))

/-- Mask group, opcodes 0x40 to 0x4A (R51, R372). -/
def decodeMask (w next : Word) : Except DecodeErr Instr :=
  let ch := chOf w
  let d := dOf w
  let a := aOf w
  let b := bOf w
  let g := gdOf w = 0
  match (opOf w).toNat with
  | 0x40 => zeroReq (g && maskOk d && maskOk a && maskOk b) (.kand ch (maskOf d) (maskOf a) (maskOf b))
  | 0x41 => zeroReq (g && maskOk d && maskOk a && maskOk b) (.kor ch (maskOf d) (maskOf a) (maskOf b))
  | 0x42 => zeroReq (g && maskOk d && maskOk a && maskOk b) (.kxor ch (maskOf d) (maskOf a) (maskOf b))
  | 0x43 => zeroReq (g && maskOk d && maskOk a && b = 0) (.knot ch (maskOf d) (maskOf a))
  | 0x44 => zeroReq (g && maskOk d && maskOk a && b = 0) (.kmov ch (maskOf d) (maskOf a))
  | 0x45 => zeroReq (g && maskOk a && b = 0) (.kpop ch (operandOf d next) (maskOf a))
  | 0x46 => zeroReq (g && maskOk a && b = 0) (.kfirst ch (operandOf d next) (maskOf a))
  | 0x47 => zeroReq (g && maskOk d && b = 0) (.kset ch (maskOf d) (operandOf a next))
  | 0x48 => zeroReq (g && maskOk a && b = 0) (.kget ch (operandOf d next) (maskOf a))
  | 0x49 => zeroReq (g && maskOk d && maskOk b) (.kpceq ch (maskOf d) (operandOf a next) (maskOf b))
  | _ => zeroReq (g && maskOk a && b = 0) (.kpcmin ch (operandOf d next) (maskOf a))

/-- Control group, opcodes 0x50 to 0x5F (R48, R51, R61, R62). -/
def decodeControl (w next : Word) : Except DecodeErr Instr :=
  let ch := chOf w
  let h := hdrOf w
  let d := dOf w
  let a := aOf w
  let b := bOf w
  let g := gdOf w = 0
  match (opOf w).toNat with
  | 0x50 => .ok (.bra h (hiMask d) (w.extractLsb' 0 17))
  | 0x51 => zeroReq g (.brs ch (operandOf d next) (off14 w))
  | 0x52 => zeroReq (d = 0) (.jmpx h (operandOf a next) (next.extractLsb' 12 20) (next.extractLsb' 0 12))
  | 0x53 => zeroReq g (.call ch (operandOf d next) (off14 w))
  | 0x54 => zeroReq (d = 0 && b = 0) (.ret h (operandOf a next))
  | 0x55 => zeroReq g (.loop ch (operandOf d next) (off14 w))
  | 0x56 => zeroReq (g && d.extractLsb' 3 4 = 0) (.lbrk ch (lo3 d) (off14 w))
  | 0x57 => zeroReq (d = 0 && a = 0 && b = 0) (.exit h)
  | 0x58 => zeroReq (d = 0 && a = 0 && b = 0) (.park h)
  | 0x59 => zeroReq (next.extractLsb' 22 4 = 0)
      (.spawn h (operandOf d next) (operandOf a next) (next.extractLsb' 27 5) (next.extractLsb' 26 1 = 1)
        (next.extractLsb' 0 22))
  | 0x5A => zeroReq (d = 0 && b = 0) (.tret h (operandOf a next))
  | 0x5B => zeroReq (g && d = 0 && a = 0 && b = 0) (.hret ch)
  | 0x5C => zeroReq (g && d.extractLsb' 3 4 = 0 && maskOk a)
      (.leafset ch (d.extractLsb' 2 1 = 1) (leafOf d) (maskOf a) (operandOf b next))
  | 0x5D => zeroReq (g && maskOk d && b.extractLsb' 4 3 = 0)
      (.leafget ch (maskOf d) (operandOf a next) (b.extractLsb' 2 2) (leafOf b))
  | 0x5E => zeroReq (g && d.extractLsb' 2 5 = 0 && b = 0) (.leafjoin ch (leafOf d) (operandOf a next))
  | _ => zeroReq (g && d.extractLsb' 2 5 = 0 && a = 0 && b = 0) (.leafclr ch (leafOf d))

/-- Memory group, opcodes 0x60 to 0x67 (R49, R51, R55, R56). -/
def decodeMemory (w next : Word) : Except DecodeErr Instr :=
  let h := hdrOf w
  let d := operandOf (dOf w) next
  let a := operandOf (aOf w) next
  match (opOf w).toNat with
  | 0x60 => withExt (memExtOf next) (fun x => .ld h d a x)
  | 0x61 => withExt (memExtOf next) (fun x => .st h d a x)
  | 0x62 => (atomExtOf next).map (fun x => .atom h d a x)
  | 0x63 => (atomExtOf next).map (fun x => .atomr h d a x)
  | 0x64 => zeroReq (bOf w = 0) (.waitc h d a)
  | 0x65 => zeroReq ((dOf w).extractLsb' 3 4 = 0 && aOf w = 0 && bOf w = 0) (.fence h (lo3 (dOf w)))
  | 0x66 => zeroReq ((dOf w).extractLsb' 3 4 = 0 && (aOf w).extractLsb' 6 1 = 0 && (bOf w).extractLsb' 6 1 = 0)
      (.fencex h (lo3 (dOf w)) ((aOf w).extractLsb' 0 6) ((bOf w).extractLsb' 0 6))
  | _ => if dOf w = 0 then withExt (memExtOf next) (fun x => .pref h a x) else .error .reserved

/-- Engine group, opcodes 0x68 to 0x7A (R51, R58 to R60). -/
def decodeEngine (w next : Word) : Except DecodeErr Instr :=
  let h := hdrOf w
  let df := dOf w
  let bf := bOf w
  let d := operandOf df next
  let a := operandOf (aOf w) next
  let b := operandOf bf next
  let one : Bool := df.extractLsb' 0 1 = 1
  let oneOk : Bool := df.extractLsb' 1 6 = 0
  match (opOf w).toNat with
  | 0x68 => zeroReq (aOf w = 0 && bf = 0) (.hypnew h d)
  | 0x69 => zeroReq (oneOk && bf = 0) (.hypent h one a)
  | 0x6A => zeroReq (oneOk && aOf w = 0 && bf = 0) (.hyplv h one)
  | 0x6B => zeroReq (df = 0 && bf.extractLsb' 1 6 = 0) (.hypres h a (bf.extractLsb' 0 1 = 1))
  | 0x6C => zeroReq (bf = 0) (.hypq h d a)
  | 0x6D => zeroReq oneOk (.linit h one a b)
  | 0x6E => zeroReq oneOk (.larv h one a b)
  | 0x6F => zeroReq oneOk (.lexp h one a b)
  | 0x70 => zeroReq oneOk (.lwait h one a b)
  | 0x71 => .ok (.qinit h d a b)
  | 0x72 => zeroReq (bf = 0) (.qacq h d a)
  | 0x73 => zeroReq (df = 0) (.qpub h a b)
  | 0x74 => zeroReq (bf = 0) (.qtake h d a)
  | 0x75 => zeroReq (df = 0) (.qrel h a b)
  | 0x76 => zeroReq (bf = 0) (.qbind h d a)
  | 0x77 => withExt (copyExtOf next) (fun x => .cpy h d a x)
  | 0x78 => withExt (copyExtOf next) (fun x => .cpys h d a x)
  | 0x79 => withExt (gathExtOf next) (fun x => .gath h d a x)
  | _ => withExt (gathExtOf next) (fun x => .scat h d a x)

/-- Matrix group, opcode 0x7C (R63, R392, R399). -/
def decodeMatrix (w next : Word) : Except DecodeErr Instr :=
  let h := hdrOf w
  let a := operandOf (aOf w) next
  let d0 : Bool := dOf w = 0
  let a0 : Bool := aOf w = 0
  let arr : Fin 2 := (next.extractLsb' 27 1).toFin
  let fmt := next.extractLsb' 24 3
  let tile : Fin 16 := (next.extractLsb' 24 4).toFin
  let mfmt := next.extractLsb' 21 3
  match (next.extractLsb' 28 4).toNat with
  | 0 =>
    if 6 ≤ fmt.toNat then .error .function
    else zeroReq (d0 && next.extractLsb' 0 13 = 0)
      (.mlds h a arr fmt (next.extractLsb' 23 1 = 1) (next.extractLsb' 18 5) (next.extractLsb' 13 5))
  | 1 => zeroReqA (d0 && next.extractLsb' 0 27 = 0) a0 (.mswap h arr)
  | 2 =>
    if 5 ≤ fmt.toNat then .error .function
    else zeroReq (d0 && next.extractLsb' 0 14 = 0)
      (.mstream h a arr fmt (next.extractLsb' 18 6) (next.extractLsb' 17 1 = 1) (next.extractLsb' 16 1 = 1)
        (next.extractLsb' 14 2).toFin)
  | 3 => zeroReqA (d0 && next.extractLsb' 0 24 = 0) a0 (.mdrain h tile)
  | 4 => zeroReqA (d0 && next.extractLsb' 0 24 = 0) a0 (.mzero h tile)
  | 5 =>
    if 6 ≤ mfmt.toNat then .error .function
    else zeroReq (d0 && next.extractLsb' 0 21 = 0) (.mld h a tile mfmt)
  | 6 =>
    if 6 ≤ mfmt.toNat then .error .function
    else zeroReq (d0 && next.extractLsb' 0 20 = 0) (.mst h a tile mfmt (next.extractLsb' 20 1 = 1))
  | _ => .error .function

/-- System group, opcode 0x7D with an assigned function (R64). -/
def decodeSystem (w next : Word) : Except DecodeErr Instr :=
  let ch := chOf w
  let h := hdrOf w
  let df := dOf w
  let af := aOf w
  let d := operandOf df next
  let a := operandOf af next
  let g := gdOf w = 0
  match (bOf w).toNat with
  | 0 => zeroReq (df = 0) (.trap h af)
  | 1 => zeroReq (g && df = 0 && af = 0) (.eret ch)
  | 2 => zeroReq g (.sysr ch d af)
  | 3 => zeroReq g (.sysw ch df a)
  | 4 => zeroReq (df = 0 && af = 0x7E && next.extractLsb' 18 14 = 0) (.ppoint h next)
  | 5 => zeroReq (g && af.toNat < 2) (.clk ch d (af = 1))
  | 6 => zeroReq (g && af.toNat < 4) (.pmon ch d (af.extractLsb' 0 2).toFin)
  | 7 => zeroReq (df = 0) (.bkpt h af)
  | _ => zeroReq (g && df = 0) (.sleep ch a)

/-- The instruction of a word whose opcode is assigned and whose trailing word is in place. -/
def decodeFields (w next : Word) : Except DecodeErr Instr :=
  let n := (opOf w).toNat
  if n < 0x10 then decodeScalar w next
  else if n < 0x40 then decodeVector w next
  else if n < 0x50 then decodeMask w next
  else if n < 0x60 then decodeControl w next
  else if n < 0x68 then decodeMemory w next
  else if n < 0x7B then decodeEngine w next
  else if n = 0x7C then decodeMatrix w next
  else decodeSystem w next

/-- Decode the word at slot `slot` of its packet, followed there by `next` (R70): opcode, then trailing word, then
function and reserved fields. A word whose opcode or system function is unassigned (R52, R64) is the step
UNASSIGNED_OPCODE. -/
def decode (slot : Nat) (w next : Word) : Except DecodeErr Instr :=
  if !opAssigned (opOf w) || (opOf w = 0x7D && !sysAssigned (bOf w)) then .ok (.unassignedOpcode w)
  else if !trailingOk slot w then .error .trailing
  else decodeFields w next

/-! ### Instructions to words -/

/-- The trailing word of a word with these operands: the literal one of them carries. -/
def litOf : List Operand → List Word
  | [] => []
  | .lit w :: _ => [w]
  | _ :: t => litOf t

/-- A word with CH alone, three operand codes and a literal if one asks for it. -/
def enc3 (ch : Bool) (op : BitVec 7) (d a b : Operand) : List Word :=
  mkWord ch 0 op (codeOf d) (codeOf a) (codeOf b) :: litOf [d, a, b]

/-- A guarded word with three operand codes. -/
def encG3 (h : Hdr) (op : BitVec 7) (d a b : Operand) : List Word :=
  mkWord h.ch (f3 h.gd) op (codeOf d) (codeOf a) (codeOf b) :: litOf [d, a, b]

/-- A guarded word with two operand codes and a raw B field. -/
def encG2 (h : Hdr) (op : BitVec 7) (d a : Operand) (b : BitVec 7) : List Word :=
  mkWord h.ch (f3 h.gd) op (codeOf d) (codeOf a) b :: litOf [d, a]

/-- A guarded word of the compare format (R47). -/
def encCmp (h : Hdr) (op : BitVec 7) (k : Fin 16) (c : BitVec 3) (a b : Operand) : List Word :=
  mkWord h.ch (f3 h.gd) op (f4 k ++ c) (codeOf a) (codeOf b) :: litOf [a, b]

/-- A guarded word with raw fields. -/
def encRaw (h : Hdr) (op d a b : BitVec 7) : Word := mkWord h.ch (f3 h.gd) op d a b

/-- The field that holds a mask number. -/
def kf (k : Fin 16) : BitVec 7 := (0 : BitVec 3) ++ f4 k

/-- The field that holds a ONE bit (R60). -/
def oneF (one : Bool) : BitVec 7 := (0 : BitVec 6) ++ BitVec.ofBool one

/-- The words of an instruction: one word, and its trailing word if it has one. The steps of other agents have none. -/
def encode : Instr → List Word
  | .nop ch => [mkWord ch 0 0x00 0 0 0]
  | .smov ch d a => mkWord ch 0 0x01 (codeOf d) (codeOf a) 0 :: litOf [d, a]
  | .sadd ch d a b => enc3 ch 0x02 d a b
  | .ssub ch d a b => enc3 ch 0x03 d a b
  | .smul ch d a b => enc3 ch 0x04 d a b
  | .sand ch d a b => enc3 ch 0x05 d a b
  | .sor ch d a b => enc3 ch 0x06 d a b
  | .sxor ch d a b => enc3 ch 0x07 d a b
  | .sshl ch d a b => enc3 ch 0x08 d a b
  | .sshr ch d a b => enc3 ch 0x09 d a b
  | .ssha ch d a b => enc3 ch 0x0A d a b
  | .smin ch d a b => enc3 ch 0x0B d a b
  | .smax ch d a b => enc3 ch 0x0C d a b
  | .scmp h k c a b => encCmp h 0x0D k c a b
  | .srdv ch d a b => enc3 ch 0x0E d a b
  | .swrv ch d a b => enc3 ch 0x0F d a b
  | .vadd h d a b => encG3 h 0x10 d a b
  | .vsub h d a b => encG3 h 0x11 d a b
  | .vmul h d a b => encG3 h 0x12 d a b
  | .vmulh h d a b => encG3 h 0x13 d a b
  | .vmulhn h d a b => encG3 h 0x14 d a b
  | .vmad h d a b => encG3 h 0x15 d a b
  | .vmin h d a b => encG3 h 0x16 d a b
  | .vmax h d a b => encG3 h 0x17 d a b
  | .vminn h d a b => encG3 h 0x18 d a b
  | .vmaxn h d a b => encG3 h 0x19 d a b
  | .vand h d a b => encG3 h 0x1A d a b
  | .vor h d a b => encG3 h 0x1B d a b
  | .vxor h d a b => encG3 h 0x1C d a b
  | .vshl h d a b => encG3 h 0x1D d a b
  | .vshr h d a b => encG3 h 0x1E d a b
  | .vsha h d a b => encG3 h 0x1F d a b
  | .vadd64 h d a b => encG3 h 0x20 d a b
  | .vsel h d a b => encG3 h 0x21 d a b
  | .vcmp h k c a b => encCmp h 0x22 k c a b
  | .vcmpn h k c a b => encCmp h 0x23 k c a b
  | .vbfx h d a b => encG3 h 0x24 d a b
  | .vbfi h d a b => encG3 h 0x25 d a b
  | .vabs h d a => encG2 h 0x26 d a 0
  | .vneg h d a => encG2 h 0x26 d a 1
  | .vnot h d a => encG2 h 0x26 d a 2
  | .vpopc h d a => encG2 h 0x26 d a 3
  | .vclz h d a => encG2 h 0x26 d a 4
  | .vshuf h d a b => encG3 h 0x27 d a b
  | .vbcast h d a b => encG3 h 0x28 d a b
  | .vscan h d a x op => encG2 h 0x29 d a ((0 : BitVec 2) ++ BitVec.ofBool x ++ op)
  | .vred h d a op => encG2 h 0x2A d a ((0 : BitVec 3) ++ op)
  | .vsegscan h d a k op => encG2 h 0x2B d a (k ++ op)
  | .vfadd h d a b => encG3 h 0x30 d a b
  | .vfsub h d a b => encG3 h 0x31 d a b
  | .vfmul h d a b => encG3 h 0x32 d a b
  | .vfma h d a b => encG3 h 0x33 d a b
  | .vfmin h d a b => encG3 h 0x34 d a b
  | .vfmax h d a b => encG3 h 0x35 d a b
  | .vfcmp h k c a b => encCmp h 0x36 k c a b
  | .vfrcp h d a => encG2 h 0x37 d a 0
  | .vfrsq h d a => encG2 h 0x37 d a 1
  | .vfexp2 h d a => encG2 h 0x37 d a 2
  | .vflog2 h d a => encG2 h 0x37 d a 3
  | .vfsqrt h d a => encG2 h 0x37 d a 4
  | .vfabs h d a => encG2 h 0x37 d a 5
  | .vfrnd h d a m => encG2 h 0x37 d a ((2 : BitVec 5) ++ m)
  | .vcvt h d a t f s => encG2 h 0x38 d a (t ++ f ++ BitVec.ofBool s)
  | .vpack h d a et sat =>
    [encRaw h 0x39 (codeOf d) (codeOf a) 0x7F, et ++ BitVec.ofBool sat ++ (0 : BitVec 28)]
  | .vunpk h d a et sat =>
    [encRaw h 0x3A (codeOf d) (codeOf a) 0x7F, et ++ BitVec.ofBool sat ++ (0 : BitVec 28)]
  | .kand ch d a b => [mkWord ch 0 0x40 (kf d) (kf a) (kf b)]
  | .kor ch d a b => [mkWord ch 0 0x41 (kf d) (kf a) (kf b)]
  | .kxor ch d a b => [mkWord ch 0 0x42 (kf d) (kf a) (kf b)]
  | .knot ch d a => [mkWord ch 0 0x43 (kf d) (kf a) 0]
  | .kmov ch d a => [mkWord ch 0 0x44 (kf d) (kf a) 0]
  | .kpop ch d a => mkWord ch 0 0x45 (codeOf d) (kf a) 0 :: litOf [d]
  | .kfirst ch d a => mkWord ch 0 0x46 (codeOf d) (kf a) 0 :: litOf [d]
  | .kset ch d a => mkWord ch 0 0x47 (kf d) (codeOf a) 0 :: litOf [a]
  | .kget ch d a => mkWord ch 0 0x48 (codeOf d) (kf a) 0 :: litOf [d]
  | .kpceq ch d a b => mkWord ch 0 0x49 (kf d) (codeOf a) (kf b) :: litOf [a]
  | .kpcmin ch d a => mkWord ch 0 0x4A (codeOf d) (kf a) 0 :: litOf [d]
  | .bra h k ofs =>
    [BitVec.ofBool h.ch ++ f3 h.gd ++ (0x50 : BitVec 7) ++ f4 k ++ ofs]
  | .brs ch d ofs => (BitVec.ofBool ch ++ (0 : BitVec 3) ++ (0x51 : BitVec 7) ++ codeOf d ++ ofs) :: litOf [d]
  | .jmpx h a t n => [encRaw h 0x52 0 (codeOf a) 0x7F, t ++ n]
  | .call ch d ofs => (BitVec.ofBool ch ++ (0 : BitVec 3) ++ (0x53 : BitVec 7) ++ codeOf d ++ ofs) :: litOf [d]
  | .ret h a => encRaw h 0x54 0 (codeOf a) 0 :: litOf [a]
  | .loop ch d dist => (BitVec.ofBool ch ++ (0 : BitVec 3) ++ (0x55 : BitVec 7) ++ codeOf d ++ dist) :: litOf [d]
  | .lbrk ch n ofs =>
    [BitVec.ofBool ch ++ (0 : BitVec 3) ++ (0x56 : BitVec 7) ++ (0 : BitVec 4) ++ n ++ ofs]
  | .exit h => [encRaw h 0x57 0 0 0]
  | .park h => [encRaw h 0x58 0 0 0]
  | .spawn h d a jn j entry =>
    [encRaw h 0x59 (codeOf d) (codeOf a) 0x7F, jn ++ BitVec.ofBool j ++ (0 : BitVec 4) ++ entry]
  | .tret h a => encRaw h 0x5A 0 (codeOf a) 0 :: litOf [a]
  | .hret ch => [mkWord ch 0 0x5B 0 0 0]
  | .leafset ch held n a b =>
    mkWord ch 0 0x5C ((0 : BitVec 4) ++ BitVec.ofBool held ++ f2 n) (kf a) (codeOf b) :: litOf [b]
  | .leafget ch d a sel n =>
    mkWord ch 0 0x5D (kf d) (codeOf a) ((0 : BitVec 3) ++ sel ++ f2 n) :: litOf [a]
  | .leafjoin ch n a => mkWord ch 0 0x5E ((0 : BitVec 5) ++ f2 n) (codeOf a) 0 :: litOf [a]
  | .leafclr ch n => [mkWord ch 0 0x5F ((0 : BitVec 5) ++ f2 n) 0 0]
  | .ld h d a x => [encRaw h 0x60 (codeOf d) (codeOf a) 0x7F, x.word]
  | .st h d a x => [encRaw h 0x61 (codeOf d) (codeOf a) 0x7F, x.word]
  | .atom h d a x => [encRaw h 0x62 (codeOf d) (codeOf a) 0x7F, x.word]
  | .atomr h d a x => [encRaw h 0x63 (codeOf d) (codeOf a) 0x7F, x.word]
  | .waitc h d a => encG2 h 0x64 d a 0
  | .fence h sc => [encRaw h 0x65 ((0 : BitVec 4) ++ sc) 0 0]
  | .fencex h sc bs as => [encRaw h 0x66 ((0 : BitVec 4) ++ sc) ((0 : BitVec 1) ++ bs) ((0 : BitVec 1) ++ as)]
  | .pref h a x => [encRaw h 0x67 0 (codeOf a) 0x7F, x.word]
  | .hypnew h d => encRaw h 0x68 (codeOf d) 0 0 :: litOf [d]
  | .hypent h one a => encRaw h 0x69 (oneF one) (codeOf a) 0 :: litOf [a]
  | .hyplv h one => [encRaw h 0x6A (oneF one) 0 0]
  | .hypres h a c => encRaw h 0x6B 0 (codeOf a) (oneF c) :: litOf [a]
  | .hypq h d a => encG2 h 0x6C d a 0
  | .linit h one a b => encRaw h 0x6D (oneF one) (codeOf a) (codeOf b) :: litOf [a, b]
  | .larv h one a b => encRaw h 0x6E (oneF one) (codeOf a) (codeOf b) :: litOf [a, b]
  | .lexp h one a b => encRaw h 0x6F (oneF one) (codeOf a) (codeOf b) :: litOf [a, b]
  | .lwait h one a b => encRaw h 0x70 (oneF one) (codeOf a) (codeOf b) :: litOf [a, b]
  | .qinit h d a b => encG3 h 0x71 d a b
  | .qacq h d a => encG2 h 0x72 d a 0
  | .qpub h a b => encRaw h 0x73 0 (codeOf a) (codeOf b) :: litOf [a, b]
  | .qtake h d a => encG2 h 0x74 d a 0
  | .qrel h a b => encRaw h 0x75 0 (codeOf a) (codeOf b) :: litOf [a, b]
  | .qbind h d a => encG2 h 0x76 d a 0
  | .cpy h d a x => [encRaw h 0x77 (codeOf d) (codeOf a) 0x7F, x.word]
  | .cpys h d a x => [encRaw h 0x78 (codeOf d) (codeOf a) 0x7F, x.word]
  | .gath h d a x => [encRaw h 0x79 (codeOf d) (codeOf a) 0x7F, x.word]
  | .scat h d a x => [encRaw h 0x7A (codeOf d) (codeOf a) 0x7F, x.word]
  | .mlds h a arr fmt sp crd mta =>
    [encRaw h 0x7C 0 (codeOf a) 0x7F,
      (0 : BitVec 4) ++ f1 arr ++ fmt ++ BitVec.ofBool sp ++ crd ++ mta ++ (0 : BitVec 13)]
  | .mswap h arr => [encRaw h 0x7C 0 0 0x7F, (1 : BitVec 4) ++ f1 arr ++ (0 : BitVec 27)]
  | .mstream h a arr fmt rows1 qs dfr slot =>
    [encRaw h 0x7C 0 (codeOf a) 0x7F,
      (2 : BitVec 4) ++ f1 arr ++ fmt ++ rows1 ++ BitVec.ofBool qs ++ BitVec.ofBool dfr ++
        f2 slot ++ (0 : BitVec 14)]
  | .mdrain h tile => [encRaw h 0x7C 0 0 0x7F, (3 : BitVec 4) ++ f4 tile ++ (0 : BitVec 24)]
  | .mzero h tile => [encRaw h 0x7C 0 0 0x7F, (4 : BitVec 4) ++ f4 tile ++ (0 : BitVec 24)]
  | .mld h a tile mf =>
    [encRaw h 0x7C 0 (codeOf a) 0x7F, (5 : BitVec 4) ++ f4 tile ++ mf ++ (0 : BitVec 21)]
  | .mst h a tile mf sat =>
    [encRaw h 0x7C 0 (codeOf a) 0x7F,
      (6 : BitVec 4) ++ f4 tile ++ mf ++ BitVec.ofBool sat ++ (0 : BitVec 20)]
  | .trap h code => [encRaw h 0x7D 0 code 0]
  | .eret ch => [mkWord ch 0 0x7D 0 0 1]
  | .sysr ch d num => mkWord ch 0 0x7D (codeOf d) num 2 :: litOf [d]
  | .sysw ch num a => mkWord ch 0 0x7D num (codeOf a) 3 :: litOf [a]
  | .ppoint h lit => [encRaw h 0x7D 0 0x7E 4, lit]
  | .clk ch d sel => mkWord ch 0 0x7D (codeOf d) (oneF sel) 5 :: litOf [d]
  | .pmon ch d n => mkWord ch 0 0x7D (codeOf d) ((0 : BitVec 5) ++ f2 n) 6 :: litOf [d]
  | .bkpt h code => [encRaw h 0x7D 0 code 7]
  | .sleep ch a => mkWord ch 0 0x7D 0 (codeOf a) 8 :: litOf [a]
  | .unassignedOpcode w => [w]
  | .sleepExpiry .. | .leafTurn .. | .eventDelivery .. | .hingeBudgetExceeded .. | .starveStage1 ..
  | .starvationOverride .. | .idleIssueCycle .. | .waveAged .. | .workgroupExit .. | .workgroupPlacement ..
  | .neighbourhoodPlacement .. | .taskWaveStart .. | .laneAccessAtHome .. | .laneAccessReply ..
  | .atomicMovedReissue .. | .movWaitTimeout .. | .pageFaultServiceComplete .. | .shootDown ..
  | .pageExchangeStart .. | .pageExchangeComplete .. | .copySectorPerformed .. | .copyPermitAcquire ..
  | .followOnFire .. | .lwaitWakeup .. | .monitorWakeup .. | .queueWaiterRetry .. | .spawnRingResume ..
  | .fencexRetire .. | .confirmCommit .. | .refuteApplied .. | .hypnewReply .. | .mldsLand .. | .mswapExecute ..
  | .mstreamStart .. | .mdrainExecute .. | .tileCommandExecute .. | .trapEntry .. | .registerFileEccError ..
  | .contextEnd .. | .waveSwitchOut .. | .ppointPatienceTimeout .. | .imageReadback .. | .debugLatchTimeout ..
  | .launch .. | .nbhdLaunch .. | .taskSeed .. | .edge .. | .signal .. | .wait .. | .waitSatisfied .. | .copy ..
  | .write .. | .stamp .. | .hypSweep .. | .replay .. | .replayPass .. | .nopPacket .. | .launchCompletion ..
  | .doorbell .. | .evtPop | .queueMap .. | .forceUnmap .. | .unmapComplete .. | .queueIdleTimeout ..
  | .gangSwitchOutRequest .. | .gangRestore .. | .vhighClear .. | .registerWrite .. | .hostAccess ..
  | .podPeerAccess .. | .linkFlitRetry | .linkDownTimeout | .thermalRefreshThreshold .. | .thermalAlarm ..
  | .resetBoot .. | .configRecordReceive .. | .bootImageReceive .. | .attestationQuote .. | .unknownPacketType ..
  | .versionSlotFreed .. | .jenwaldLinkLost | .jenwaldLinkRestored | .linePoisoned .. => []

/-- The trailing word an instruction's words carry, 0 where there is none. -/
def trailingWord : List Word → Word
  | _ :: x :: _ => x
  | _ => 0

/-! ### What the decoder checks of a decoded word (R70): values, then operands -/

/-- An even v register (R33). -/
def Operand.evenV : Operand → Bool
  | .v r => r.val % 2 = 0
  | _ => false
/-- An even s register (R33). -/
def Operand.evenS : Operand → Bool
  | .s r => r.val % 2 = 0
  | _ => false
/-- A v register whose number is a multiple of `n`. -/
def Operand.vMul (n : Nat) : Operand → Bool
  | .v r => r.val % n = 0
  | _ => false
/-- An s register whose number is a multiple of `n`. -/
def Operand.sMul (n : Nat) : Operand → Bool
  | .s r => r.val % n = 0
  | _ => false
/-- A queue port. -/
def Operand.isQ : Operand → Bool
  | .q _ => true
  | _ => false
/-- A v register. -/
def Operand.isV : Operand → Bool
  | .v _ => true
  | _ => false
/-- An s register. -/
def Operand.isS : Operand → Bool
  | .s _ => true
  | _ => false
/-- A literal. -/
def Operand.isLit : Operand → Bool
  | .lit _ => true
  | _ => false
/-- Role vs (R46). -/
def Operand.isVs : Operand → Bool
  | .ext => false
  | _ => true
/-- Role vd (R46). -/
def Operand.isVd (o : Operand) : Bool := o.isV || o.isQ
/-- Role ss (R46). -/
def Operand.isSs (o : Operand) : Bool := o.isS || o.isLit
/-- Role vp as a source (R46). -/
def Operand.isVp (o : Operand) : Bool := o.evenV || o.evenS || o.isLit
/-- Role ap with the extension's BK bit (R46, R55). -/
def Operand.isAp (bk : Bool) (o : Operand) : Bool := if bk then o.evenS else o.evenV
/-- A vector, port, lpc or lid operand, which hinge mode does not admit (R98). -/
def Operand.isVector : Operand → Bool
  | .v _ | .q _ | .lpc | .lid => true
  | _ => false

/-- The registers one 32-bit element of a memory access of SIZE takes (R55): 1, a pair, or a quad. -/
def sizeRegs (size : BitVec 3) : Nat := if size = 3 then 2 else if size = 4 then 4 else 1

/-- One operand field as the decoder checks it. -/
structure FieldCheck where
  /-- The operand. -/
  o : Operand
  /-- Does its role admit it (R46)? -/
  ok : Bool
  /-- May it be a vector operand in hinge mode (SRDV's source, SWRV's lpc; R98)? -/
  hingeOk : Bool
  deriving DecidableEq, Repr

/-- An operand under a role. -/
def fc (o : Operand) (ok : Bool) : FieldCheck := ⟨o, ok, false⟩

/-- D vd, A vs, B vs; one port in both A and B is illegal (R42). -/
def rolesVV (d a b : Operand) : List FieldCheck :=
  [fc d d.isVd, fc a a.isVs, fc b (b.isVs && !(a.isQ && a = b))]
/-- D v only, A vs, B vs (VMAD, VFMA, VBFI: R442). -/
def rolesVV' (d a b : Operand) : List FieldCheck :=
  [fc d d.isV, fc a a.isVs, fc b (b.isVs && !(a.isQ && a = b))]
/-- D vd, A vs. -/
def rolesV (d a : Operand) : List FieldCheck := [fc d d.isVd, fc a a.isVs]
/-- A vs, B vs of the compare format, whose destination may not be k0 (R40). -/
def rolesCmp (a b : Operand) : List FieldCheck := [fc a a.isVs, fc b (b.isVs && !(a.isQ && a = b))]
/-- D sd, A ss, B ss. -/
def rolesS (d a b : Operand) : List FieldCheck := [fc d d.isS, fc a a.isSs, fc b b.isSs]

/-- The list of `n` elements per word of VPACK and VUNPK (R57). -/
def packCount (et : BitVec 3) : Nat := if et = 3 ∨ et = 4 then 2 else 4

/-- Operand fields of a word, in the order D, A, B, with the roles of R51. In hinge mode LD and ST take scalars (R54). -/
def operandRoles (m : Mode) : Instr → List FieldCheck
  | .smov _ d a => [fc d d.isS, fc a a.isSs]
  | .sadd _ d a b | .ssub _ d a b | .smul _ d a b | .sand _ d a b | .sor _ d a b | .sxor _ d a b | .sshl _ d a b
  | .sshr _ d a b | .ssha _ d a b | .smin _ d a b | .smax _ d a b => rolesS d a b
  | .scmp _ _ _ a b => [fc a a.isSs, fc b b.isSs]
  | .srdv _ d a b => [fc d d.isS, ⟨a, a.isV || a = .lpc || a = .lid, !a.isQ⟩, fc b b.isSs]
  | .swrv _ d a b => [⟨d, d.isV || d = .lpc, d = .lpc⟩, fc a a.isSs, fc b b.isSs]
  | .vadd _ d a b | .vsub _ d a b | .vmul _ d a b | .vmulh _ d a b | .vmulhn _ d a b | .vmin _ d a b | .vmax _ d a b
  | .vminn _ d a b | .vmaxn _ d a b | .vand _ d a b | .vor _ d a b | .vxor _ d a b | .vshl _ d a b | .vshr _ d a b
  | .vsha _ d a b | .vsel _ d a b | .vbfx _ d a b | .vshuf _ d a b | .vfadd _ d a b | .vfsub _ d a b | .vfmul _ d a b
  | .vfmin _ d a b | .vfmax _ d a b => rolesVV d a b
  | .vmad _ d a b | .vbfi _ d a b | .vfma _ d a b => rolesVV' d a b
  | .vadd64 _ d a b => [fc d d.evenV, fc a a.isVp, fc b b.isVp]
  | .vcmp _ _ _ a b | .vcmpn _ _ _ a b | .vfcmp _ _ _ a b => rolesCmp a b
  | .vabs _ d a | .vneg _ d a | .vnot _ d a | .vpopc _ d a | .vclz _ d a | .vscan _ d a _ _ | .vred _ d a _
  | .vsegscan _ d a _ _ | .vfrcp _ d a | .vfrsq _ d a | .vfexp2 _ d a | .vflog2 _ d a | .vfsqrt _ d a | .vfabs _ d a
  | .vfrnd _ d a _ | .vcvt _ d a _ _ _ => rolesV d a
  | .vbcast _ d a b => [fc d d.isVd, fc a a.isVs, fc b b.isSs]
  | .vpack _ d a et _ => [fc d d.isVd, fc a (a.vMul (packCount et))]
  | .vunpk _ d a et _ => [fc d (d.vMul (packCount et)), fc a a.isVs]
  | .kpop _ d _ | .kfirst _ d _ | .kget _ d _ | .kpcmin _ d _ => [fc d d.isS]
  | .kset _ _ a | .kpceq _ _ a _ => [fc a a.isSs]
  | .brs _ d _ | .loop _ d _ => [fc d d.isSs]
  | .call _ d _ => [fc d d.isV]
  | .jmpx _ a _ _ | .ret _ a => [fc a a.isV]
  | .spawn _ d a _ _ _ => [fc d d.isS, fc a a.evenS]
  | .tret _ a => [fc a (a.evenV || a.evenS)]
  | .leafset _ _ _ _ b => [fc b b.isSs]
  | .leafget _ _ a _ _ => [fc a a.isS]
  | .leafjoin _ _ a => [fc a a.isSs]
  | .ld _ d a x =>
    let n := sizeRegs x.size
    [fc d (if m = .hinge then d.sMul n else d.vMul n || (d.isQ && x.size = 2)), fc a (a.isAp x.bk)]
  | .st _ d a x =>
    let n := sizeRegs x.size
    [fc d (if m = .hinge then d.sMul n else d.vMul n || d.sMul n || (d.isQ && x.size = 2)), fc a (a.isAp x.bk)]
  | .atom _ d a x =>
    let n := if x.aop = 10 then 2 else 1
    [fc d (d.vMul n || d.sMul n), fc a (a.isAp x.bk)]
  | .atomr _ d a x => [fc d (d.vMul (if x.aop = 10 then 2 else 1)), fc a (a.isAp x.bk)]
  | .waitc _ d a => [fc d d.isSs, fc a a.evenS]
  | .pref _ a x => [fc a (a.isAp x.bk)]
  | .hypnew _ d => [fc d d.isS]
  | .hypent _ _ a => [fc a a.isSs]
  | .hypres _ a _ => [fc a a.isSs]
  | .hypq _ d a => [fc d d.isS, fc a a.isSs]
  | .linit _ _ a b | .larv _ _ a b | .lexp _ _ a b | .lwait _ _ a b => [fc a (a.evenV || a.evenS), fc b b.isSs]
  | .qinit _ d a b => [fc d d.isSs, fc a a.evenS, fc b b.isSs]
  | .qacq _ d a | .qtake _ d a => [fc d d.isS, fc a a.evenS]
  | .qpub _ a b | .qrel _ a b => [fc a a.evenS, fc b b.isSs]
  | .qbind _ d a => [fc d d.isQ, fc a a.evenS]
  | .cpy _ d a _ | .cpys _ d a _ => [fc d d.isS, fc a a.evenS]
  | .gath _ d a _ | .scat _ d a _ => [fc d d.isV, fc a a.evenS]
  | .mlds _ a _ _ _ _ mta => [fc a (a.evenS && mta.toNat % 2 = 0)]
  | .mstream _ a .. | .mld _ a _ _ | .mst _ a _ _ _ => [fc a a.isS]
  | .sysr _ d _ | .pmon _ d _ => [fc d d.isS]
  | .sysw _ _ a | .sleep _ a => [fc a a.isSs]
  | .clk _ d _ => [fc d d.evenS]
  | _ => []

/-- System register numbers of R65. -/
def sysregKnown (n : BitVec 7) : Bool :=
  let k := n.toNat
  k ≤ 6 || k = 8 || k = 9 || (0x10 ≤ k && k ≤ 0x15) || k = 0x18 || k = 0x19 || (0x40 ≤ k && k ≤ 0x46)

/-- Registers reached in supervisor mode only: RW-P (R65, R67). -/
def sysregPriv (n : BitVec 7) : Bool := 0x40 ≤ n.toNat && n.toNat ≤ 0x46

/-- Registers no SYSW reaches: RO (R65). -/
def sysregRo (n : BitVec 7) : Bool :=
  let k := n.toNat
  (0x10 ≤ k && k ≤ 0x14) || k = 0x18 || k = 0x19

/-- Registers writable in hinge mode only: %evpc0, %evpc1, %evleaf (R65). -/
def sysregHingeW (n : BitVec 7) : Bool := n.toNat = 4 || n.toNat = 5 || n.toNat = 6

/-- Illegal function codes a constructor can hold: subcode 2. -/
def functionBad : Instr → Bool
  | .scmp _ _ c _ _ | .vcmp _ _ c _ _ | .vcmpn _ _ c _ _ => 6 ≤ c.toNat
  | .vfcmp _ _ c _ _ => c = 7
  | .vscan _ _ _ _ op | .vred _ _ _ op | .vsegscan _ _ _ _ op => 11 ≤ op.toNat
  | .vcvt _ _ _ t f _ => t = 7 || f = 7 || t = f
  | .vpack _ _ _ et _ | .vunpk _ _ _ et _ => et.toNat < 3
  | .atom _ _ _ x | .atomr _ _ _ x => 11 ≤ x.aop.toNat
  | .mlds _ _ _ fmt .. => 6 ≤ fmt.toNat
  | .mstream _ _ _ fmt .. => 5 ≤ fmt.toNat
  | .mld _ _ _ mf | .mst _ _ _ mf _ => 6 ≤ mf.toNat
  | _ => false

/-- Illegal field values a constructor can hold: subcode 3. -/
def valueBad : Instr → Bool
  | .vunpk _ _ _ _ sat => sat
  | .lbrk _ n _ => n = 0 || 5 ≤ n.toNat
  | .jmpx _ _ _ n => n = 0
  | .spawn _ _ _ jn j _ => !j && jn ≠ 0
  | .leafget _ _ _ sel _ => sel = 3
  | .ld _ _ _ x => 5 ≤ x.size.toNat || (x.sx && 2 ≤ x.size.toNat) || 4 ≤ x.pol.toNat
  | .st _ _ _ x | .pref _ _ x => 5 ≤ x.size.toNat || x.sx || 4 ≤ x.pol.toNat
  | .fence _ sc => sc = 7
  | .fencex _ sc b a => sc = 7 || b = 0 || a = 0
  | .cpy _ _ _ x => 28 ≤ x.crd.toNat || (!x.tv && x.thn ≠ 0)
  | .cpys _ _ _ x => 28 ≤ x.crd.toNat || x.tv || x.thn ≠ 0
  | .gath _ _ _ x | .scat _ _ _ x => 5 ≤ x.esz.toNat
  | .mlds _ _ _ fmt sp crd mta => (sp && 3 ≤ fmt.toNat) || 28 ≤ crd.toNat || (!sp && mta ≠ 0)
  | .mstream _ _ _ _ _ _ dfr slot => !dfr && slot ≠ 0
  | .mst _ _ _ mf sat => sat && (mf = 0 || mf = 5)
  | .ppoint _ lit => lit.extractLsb' 18 14 ≠ 0
  | .sysr _ _ n | .sysw _ n _ => !sysregKnown n
  | _ => false

/-- A mask destination that names k0 (R40): subcode 4. Likewise an odd JN of SPAWN. -/
def maskDestBad : Instr → Bool
  | .scmp _ k .. | .vcmp _ k .. | .vcmpn _ k .. | .vfcmp _ k .. => k = 0
  | .kand _ d _ _ | .kor _ d _ _ | .kxor _ d _ _ | .knot _ d _ | .kmov _ d _ | .kset _ d _ | .kpceq _ d _ _
  | .leafget _ d _ _ _ => d = 0
  | .spawn _ _ _ jn _ _ => jn.toNat % 2 = 1
  | _ => false

/-- The first operand outside its role, in field order: subcode 4, or the hinge fault for a vector operand in hinge
mode (R46, R98). -/
def operandFault (m : Mode) : List FieldCheck → Option (BitVec 8 × Nat)
  | [] => none
  | f :: t =>
    if m = .hinge && f.o.isVector && !f.hingeOk then some (0x03, 4)
    else if !f.ok then some (0x01, 4)
    else operandFault m t

/-- Privilege (R67): ERET and RW-P registers outside supervisor mode, SYSW to an RO register or, outside hinge mode,
to a hinge-only register; PARK and HRET in supervisor mode (R239). -/
def privilegeBad (m : Mode) : Instr → Bool
  | .eret _ => m ≠ .supervisor
  | .sysr _ _ n => sysregPriv n && m ≠ .supervisor
  | .sysw _ n _ => (sysregPriv n && m ≠ .supervisor) || sysregRo n || (sysregHingeW n && m ≠ .hinge)
  | .park _ | .hret _ => m = .supervisor
  | _ => false

/-- Hinge faults of subcode 4 for a decoded word: outside hinge and supervisor mode, the handler's instructions (R100);
in hinge mode, a per-lane base (R54) and a system register above 0x06 (R67). -/
def modeBad (m : Mode) : Instr → Bool
  | .hret _ | .leafset .. | .leafclr .. => m = .program
  | .swrv _ d _ _ => m = .program && d = .lpc
  | .ld _ _ _ x | .st _ _ _ x => m = .hinge && !x.bk
  | .sysr _ _ n | .sysw _ n _ => m = .hinge && 6 < n.toNat
  | _ => false

/-- Everything the decoder checks of a decoded word in a mode (R70): the fault's cause and subcode, if any. R70 places
neither the hinge faults of `modeBad`, which are tried first, nor the access rules of R67, which are tried between a word's
values and its operands (log 52: DESIGN CHOICE). -/
def checkFault (m : Mode) (i : Instr) : Option (BitVec 8 × Nat) :=
  if modeBad m i then some (0x03, 4)
  else if functionBad i then some (0x01, 2)
  else if valueBad i then some (0x01, 3)
  else if privilegeBad m i then some (0x01, 6)
  else if maskDestBad i then some (0x01, 4)
  else operandFault m (operandRoles m i)

/-- Opcodes legal in hinge mode (R98); SYSR and SYSW of opcode 0x7D are told by B. -/
def hingeOpcode (op b : BitVec 7) : Bool :=
  let n := op.toNat
  n < 0x10 || (0x40 ≤ n && n ≤ 0x4A) || n = 0x51 || (0x5B ≤ n && n ≤ 0x5F) || n = 0x60 || n = 0x61 ||
    (n = 0x7D && (b = 2 || b = 3))

/-- The opcodes whose zero-required fields are a hinge fault's in hinge mode: NOP and SMOV (R402, R418). -/
def hingeReserved (op : BitVec 7) : Bool := op.toNat < 2

/-- One word as the decoder checks it (R70), in a mode, in a task wave or not (R218): its instruction, or the cause and
subcode of the fault it raises. An unassigned word is the step UNASSIGNED_OPCODE, which takes its own fault; a word
illegal in hinge mode is a hinge fault before its fields are looked at (R98). -/
def checkWord (m : Mode) (task : Bool) (slot : Nat) (w next : Word) : Except (BitVec 8 × Nat) Instr :=
  if opOf w = 0x7C && task then .error (0x01, 1)
  else if !opAssigned (opOf w) then .ok (.unassignedOpcode w)
  else if m = .hinge && !hingeOpcode (opOf w) (bOf w) then .error (0x03, 4)
  else if m = .hinge && gdOf w ≠ 0 then .error (0x03, 4)
  else
    match decode slot w next with
    | .error e =>
      if m = .hinge && e = .reserved && hingeReserved (opOf w) then .error (0x03, 4) else .error (0x01, e.subcode)
    | .ok i =>
      match checkFault m i with
      | some f => .error f
      | none => .ok i

/-! ### Chains (R37) -/

/-- The issue pipes (R51); `alone` is the system group's. -/
inductive Pipe where
  | s | v | k | b | m | e | alone
  deriving DecidableEq, Repr

/-- The pipe of an opcode (R51). -/
def pipeOf (op : BitVec 7) : Pipe :=
  let n := op.toNat
  if n < 0x10 then .s
  else if 0x27 ≤ n ∧ n ≤ 0x2B then .k
  else if n < 0x40 then .v
  else if n < 0x50 then .k
  else if n < 0x60 then .b
  else if n < 0x68 then .m
  else if n = 0x7D then .alone
  else .e

/-- A register as the chain rules count it (R37 rules 5 and 6). -/
inductive Reg where
  | v (n : Nat) | s (n : Nat) | q (n : Nat) | k (n : Nat) | z (n : Nat) | leaf (n : Nat) | lpc
  deriving DecidableEq, Repr

/-- The `n` registers an operand names, from its own on. -/
def Operand.regs (n : Nat) : Operand → List Reg
  | .v r => (List.range n).map (fun i => .v (r + i))
  | .s r => (List.range n).map (fun i => .s (r + i))
  | .q p => [.q p]
  | .lpc => [.lpc]
  | _ => []

/-- The registers a word writes (R37 rule 5). -/
def writesOf : Instr → List Reg
  | .smov _ d _ | .sadd _ d _ _ | .ssub _ d _ _ | .smul _ d _ _ | .sand _ d _ _ | .sor _ d _ _ | .sxor _ d _ _
  | .sshl _ d _ _ | .sshr _ d _ _ | .ssha _ d _ _ | .smin _ d _ _ | .smax _ d _ _ | .srdv _ d _ _ | .swrv _ d _ _
  | .vadd _ d _ _ | .vsub _ d _ _ | .vmul _ d _ _ | .vmulh _ d _ _ | .vmulhn _ d _ _ | .vmin _ d _ _ | .vmax _ d _ _
  | .vminn _ d _ _ | .vmaxn _ d _ _ | .vand _ d _ _ | .vor _ d _ _ | .vxor _ d _ _ | .vshl _ d _ _ | .vshr _ d _ _
  | .vsha _ d _ _ | .vsel _ d _ _ | .vbfx _ d _ _ | .vshuf _ d _ _ | .vfadd _ d _ _ | .vfsub _ d _ _ | .vfmul _ d _ _
  | .vfmin _ d _ _ | .vfmax _ d _ _ | .vmad _ d _ _ | .vbfi _ d _ _ | .vfma _ d _ _ | .vabs _ d _ | .vneg _ d _
  | .vnot _ d _ | .vpopc _ d _ | .vclz _ d _ | .vscan _ d _ _ _ | .vred _ d _ _ | .vsegscan _ d _ _ _ | .vfrcp _ d _
  | .vfrsq _ d _ | .vfexp2 _ d _ | .vflog2 _ d _ | .vfsqrt _ d _ | .vfabs _ d _ | .vfrnd _ d _ _ | .vcvt _ d _ _ _ _
  | .vbcast _ d _ _ | .vpack _ d _ _ _ | .kpop _ d _ | .kfirst _ d _ | .kget _ d _ | .kpcmin _ d _ | .call _ d _
  | .atomr _ d _ _ | .hypnew _ d | .hypq _ d _ | .qacq _ d _ | .qtake _ d _ | .qbind _ d _ | .sysr _ d _ | .pmon _ d _ =>
    d.regs 1
  | .vadd64 _ d _ _ | .clk _ d _ => d.regs 2
  | .vunpk _ d _ et _ => d.regs (packCount et)
  | .ld _ d _ x => d.regs (sizeRegs x.size)
  | .scmp _ k .. | .vcmp _ k .. | .vcmpn _ k .. | .vfcmp _ k .. => [.k k]
  | .kand _ d _ _ | .kor _ d _ _ | .kxor _ d _ _ | .knot _ d _ | .kmov _ d _ | .kset _ d _ | .kpceq _ d _ _ => [.k d]
  | .leafset _ _ n _ _ | .leafjoin _ n _ | .leafclr _ n => [.leaf n]
  | .leafget _ d a _ _ => .k d :: a.regs 1
  | .mzero _ t | .mdrain _ t | .mld _ _ t _ => [.z t]
  | _ => []

/-- The scalars a copy's coordinates, latch and queue operands name. -/
def copyScalars (crd lat : BitVec 5) : List Reg := .s lat.toNat :: (List.range 5).map fun i => .s (crd.toNat + i)

/-- The registers a word reads besides masks, as the scoreboard counts them (R38). -/
def readsOf (i : Instr) : List Reg :=
  match i with
  | .vadd64 _ _ a b => a.regs 2 ++ b.regs 2
  | .vpack _ _ a et _ => a.regs (packCount et)
  | .vmad _ d a b | .vbfi _ d a b | .vfma _ d a b => d.regs 1 ++ a.regs 1 ++ b.regs 1
  | .ld _ _ a _ | .pref _ a _ | .qacq _ _ a | .qtake _ _ a | .qbind _ _ a | .tret _ a => a.regs 2
  | .st _ d a x => d.regs (sizeRegs x.size) ++ a.regs 2
  | .atom _ d a x | .atomr _ d a x => d.regs (if x.aop = 10 then 2 else 1) ++ a.regs 2
  | .waitc _ d a => d.regs 1 ++ a.regs 2
  | .linit _ _ a b | .larv _ _ a b | .lexp _ _ a b | .lwait _ _ a b | .qpub _ a b | .qrel _ a b => a.regs 2 ++ b.regs 1
  | .qinit _ d a b => d.regs 1 ++ a.regs 2 ++ b.regs 1
  | .spawn _ d a jn _ _ => d.regs 1 ++ a.regs 2 ++ [.s jn.toNat, .s (jn.toNat + 1)]
  | .cpy _ d a x | .cpys _ d a x => d.regs 1 ++ a.regs 2 ++ copyScalars x.crd x.lat
  | .gath _ d a x | .scat _ d a x => d.regs 1 ++ a.regs 2 ++ [.s x.spa.toNat, .s x.lat.toNat]
  | .mlds _ a _ _ _ crd mta => a.regs 2 ++ .s mta.toNat :: copyScalars crd crd
  | i => (operandRoles .program i).flatMap fun f => f.o.regs 1

/-- The queue ports a word reads: its sources of vector role, and ST's data (R42). -/
def portsRead : Instr → List (Fin 4)
  | .vadd _ _ a b | .vsub _ _ a b | .vmul _ _ a b | .vmulh _ _ a b | .vmulhn _ _ a b | .vmin _ _ a b | .vmax _ _ a b
  | .vminn _ _ a b | .vmaxn _ _ a b | .vand _ _ a b | .vor _ _ a b | .vxor _ _ a b | .vshl _ _ a b | .vshr _ _ a b
  | .vsha _ _ a b | .vsel _ _ a b | .vbfx _ _ a b | .vshuf _ _ a b | .vfadd _ _ a b | .vfsub _ _ a b | .vfmul _ _ a b
  | .vfmin _ _ a b | .vfmax _ _ a b | .vmad _ _ a b | .vbfi _ _ a b | .vfma _ _ a b | .vcmp _ _ _ a b
  | .vcmpn _ _ _ a b | .vfcmp _ _ _ a b => (a.regs 1 ++ b.regs 1).filterMap portOf
  | .vabs _ _ a | .vneg _ _ a | .vnot _ _ a | .vpopc _ _ a | .vclz _ _ a | .vscan _ _ a _ _ | .vred _ _ a _
  | .vsegscan _ _ a _ _ | .vfrcp _ _ a | .vfrsq _ _ a | .vfexp2 _ _ a | .vflog2 _ _ a | .vfsqrt _ _ a | .vfabs _ _ a
  | .vfrnd _ _ a _ | .vcvt _ _ a _ _ _ | .vunpk _ _ a _ _ | .vbcast _ _ a _ => (a.regs 1).filterMap portOf
  | .st _ d _ _ => (d.regs 1).filterMap portOf
  | _ => []
where
  /-- The port of a register, if it is one. -/
  portOf : Reg → Option (Fin 4)
    | .q n => if h : n < 4 then some ⟨n, h⟩ else none
    | _ => none

/-- The queue port a word writes (R42): its D operand, but ST's, which is read. -/
def portWritten (i : Instr) : Option (Fin 4) :=
  match i with
  | .st .. | .qbind .. => none
  | _ => (writesOf i).findSome? portsRead.portOf

/-- One word of a chain: where it stands, its bits, its instruction, and where the next word stands. -/
structure ChainWord where
  pc : Word
  word : Word
  i : Instr
  nxt : Word
  deriving DecidableEq, Repr

/-- The chain rules 2 to 6 (R37), each word against those before it; the failing word and the subcode of chain
violation. A rule is tried over the whole chain (R70). -/
def chainRule (f : List ChainWord → ChainWord → List ChainWord → Bool) (sub : Nat) :
    List ChainWord → List ChainWord → Option (ChainWord × Nat)
  | _, [] => none
  | pre, c :: t => if f pre c t then some (c, sub) else chainRule f sub (pre ++ [c]) t

/-- The first chain rule a chain breaks (R37 rules 2 to 6). A word of opcode 0x7D in a chain is subcode 4 whatever else the
chain breaks (R405, R407, R423, R436, R437); then the rules are tried in the order of their numbers (log 51: DESIGN
CHOICE). -/
def chainFault (c : List ChainWord) : Option (ChainWord × Nat) :=
  (chainRule (fun pre x post => pipeOf (opOf x.word) = .alone && !(pre.isEmpty && post.isEmpty)) 4 [] c).orElse fun _ =>
  (chainRule (fun pre x _ => pre.any (fun y => pipeOf (opOf y.word) = pipeOf (opOf x.word))) 2 [] c).orElse fun _ =>
  (chainRule (fun _ x post => pipeOf (opOf x.word) = .b && !post.isEmpty) 3 [] c).orElse fun _ =>
  (chainRule (fun pre x _ => (writesOf x.i).any (fun r => pre.any (fun y => (writesOf y.i).contains r))) 5 [] c).orElse
    fun _ =>
  chainRule (fun pre x _ => (portsRead x.i).any (fun q => pre.any (fun y => (portsRead y.i).contains q))) 6 [] c

/-- The instruction the decoder reads from an instruction whose bits are `w`: bit 0 is the least significant bit of the
first word, and the trailing word follows from bit 32 on. The words are taken at slot 0 of a packet. A row without bits
has no instruction word. -/
def decodeTableWord (nbits w : Nat) : Option Instr :=
  if nbits = 0 then none
  else
    match decode 0 (BitVec.ofNat 32 w) (BitVec.ofNat 32 (w / 2 ^ 32)) with
    | .ok i => some i
    | .error _ => none

end Sys2Proof
end

