-- ==== Sys2Proof/Config.lean ====
section
/-!
DEFINITION. The open values of the machine: constants with no body, so nothing can be proved of what they are
(log 5: DESIGN CHOICE), and what the boot ROM and the device's keys hold (log 12: DESIGN CHOICE).
-/

namespace Sys2Proof.Config

/-- A fresh free 32-bit value, by the number of its use. -/
opaque freeWord : Nat → Word

/-- A fresh free 64-bit value, by the number of its use. -/
opaque freeDWord : Nat → DWord

/-- A fresh free byte, by the number of its use. -/
opaque freeByte : Nat → Byte

/-- What another package's checks answer a pod access with, by the number of its use: a protection cause, or any other
value where the access is performed (R306). -/
opaque peerAnswer : Nat → BitVec 8

/-- The class a home's hash puts a line in, by the line's number (R183). -/
opaque lineClass : Nat → BitVec 12

/-- The SHA-256 digest, held in the ROM, of the public key that signed images are checked against (R307). -/
opaque romDigest : List Byte

/-- The identifier of a private key of the device, by its number: 0 the identity key, else a boot's (R309). -/
opaque lmsId : Nat → List Byte

/-- The start of a chain of a one-time key: key, leaf, chain (R309). -/
opaque lmsSecret : Nat → Nat → Nat → List Byte

/-- The randomizer of a signature: key, leaf (R309). -/
opaque lmsRandom : Nat → Nat → List Byte

/-- The ROM version that quotes name (R309). -/
opaque romVersion : List Byte

/-- A lease length λ, 16 to 4,096 (R165), from a free value. -/
def lease (n : Nat) : Nat := 16 + (freeWord n).toNat % 4081

end Sys2Proof.Config
end

