-- ==== Sys2Proof/Machine/Flags.lean ====
section
/-!
DEFINITION. Number formats, exact arithmetic and the flags it sets (spec/07_arithmetic.md R125 to R141): values are
taken exactly and rounded once.
-/

namespace Sys2Proof.Machine

/-! ### Formats -/

/-- A binary float format: fraction bits, exponent bits, bias, and whether it is E4M3, which has no infinity (R125). -/
structure Fmt where
  f    : Nat
  x    : Nat
  bias : Int
  e4m3 : Bool := false
  deriving DecidableEq, Repr

/-- binary32. -/
def Fmt.f32 : Fmt := ⟨23, 8, 127, false⟩
/-- binary16. -/
def Fmt.f16 : Fmt := ⟨10, 5, 15, false⟩
/-- BF16. -/
def Fmt.bf16 : Fmt := ⟨7, 8, 127, false⟩
/-- E4M3. -/
def Fmt.fe4m3 : Fmt := ⟨3, 4, 7, true⟩
/-- E5M2. -/
def Fmt.fe5m2 : Fmt := ⟨2, 5, 15, false⟩

/-- The canonical NaN of a format (R126). -/
def Fmt.nan (p : Fmt) : Nat :=
  if p.e4m3 then 0x7F else (2 ^ p.x - 1) * 2 ^ p.f + 2 ^ (p.f - 1)

/-- The code of an infinity, or in E4M3 of the NaN that stands in for it (R131). -/
def Fmt.infCode (p : Fmt) : Nat := if p.e4m3 then 0x7F else (2 ^ p.x - 1) * 2 ^ p.f

/-- The code of the largest finite magnitude (R125). -/
def Fmt.maxCode (p : Fmt) : Nat := p.infCode - 1

/-- The sign bit's weight. -/
def Fmt.signBit (p : Fmt) : Nat := 2 ^ (p.f + p.x)

/-- A value: NaN, an infinity, or sign × m × 2^e exactly. -/
inductive FVal where
  | nan
  | inf (neg : Bool)
  | fin (neg : Bool) (m : Nat) (e : Int)
  deriving DecidableEq, Repr

/-- The value of a code (R125). -/
def Fmt.value (p : Fmt) (c : Nat) : FVal :=
  let neg : Bool := (c / p.signBit) % 2 = 1
  let x := (c / 2 ^ p.f) % 2 ^ p.x
  let f := c % 2 ^ p.f
  if x = 0 then .fin neg f (1 - p.bias - p.f)
  else if p.e4m3 then
    if x = 15 ∧ f = 7 then .nan else .fin neg (2 ^ p.f + f) (x - p.bias - p.f)
  else if x = 2 ^ p.x - 1 then (if f = 0 then .inf neg else .nan)
  else .fin neg (2 ^ p.f + f) (x - p.bias - p.f)

/-- A code with its sign. -/
def Fmt.withSign (p : Fmt) (neg : Bool) (c : Nat) : Nat := if neg then p.signBit + c else c

/-! ### Flags (R66) -/

/-- %fstat FLAGS: inexact, underflow, overflow, divide-by-zero, invalid. -/
abbrev Flags := BitVec 5

/-- Inexact. -/
def fInexact : Flags := 0x10
/-- Underflow. -/
def fUnderflow : Flags := 0x08
/-- Overflow. -/
def fOverflow : Flags := 0x04
/-- Divide by zero. -/
def fDivZero : Flags := 0x02
/-- Invalid. -/
def fInvalid : Flags := 0x01

/-- A result code with the flags it raises. -/
structure FRes where
  code  : Nat
  flags : Flags := 0
  deriving DecidableEq, Repr

/-- Rounding modes of %round (R66): 0 RNE, 1 RTZ, 2 RDN, 3 RUP. -/
abbrev RMode := BitVec 2

/-! ### Rounding -/

/-- The bits a natural number takes. -/
def bitLen (m : Nat) : Nat := if m = 0 then 0 else m.log2 + 1

/-- Does the magnitude round up, given the kept part, the rest and half a unit? -/
def roundsUp (mode : RMode) (neg : Bool) (n rest half : Nat) : Bool :=
  match mode.toNat with
  | 0 => half < rest || (rest = half && half ≠ 0 && n % 2 = 1)
  | 1 => false
  | 2 => neg && rest ≠ 0
  | _ => !neg && rest ≠ 0

/-- m × 2^e as a multiple of 2^q, rounded; with whether it was inexact. -/
def roundAt (mode : RMode) (neg : Bool) (m : Nat) (e q : Int) : Nat × Bool :=
  if q ≤ e then (m * 2 ^ (e - q).toNat, false)
  else
    let sh := (q - e).toNat
    let n := m / 2 ^ sh
    let rest := m % 2 ^ sh
    (if roundsUp mode neg n rest (2 ^ (sh - 1)) then n + 1 else n, rest ≠ 0)

/-- The result of a finite overflow (R128, R131). -/
def overflowCode (p : Fmt) (mode : RMode) (neg : Bool) : Nat :=
  let toInf : Bool :=
    match mode.toNat with
    | 0 => true
    | 1 => false
    | 2 => neg
    | _ => !neg
  p.withSign neg (if toInf then p.infCode else p.maxCode)

/-- Round ± m × 2^e, m not zero, once into a format: flags as IEEE 754 with tininess after rounding (R128). -/
def roundTo (p : Fmt) (mode : RMode) (neg : Bool) (m : Nat) (e : Int) : FRes :=
  if m = 0 then ⟨p.withSign neg 0, 0⟩
  else
    let top := e + bitLen m - 1
    let emin := 1 - p.bias
    let q := max top emin - p.f
    let (n, inexact) := roundAt mode neg m e q
    let (u, _) := roundAt mode neg m e (top - p.f)
    let tiny : Bool := top < emin && !(top = emin - 1 && u = 2 ^ (p.f + 1))
    let fl : Flags := if inexact then (if tiny then fInexact ||| fUnderflow else fInexact) else 0
    let code :=
      if n < 2 ^ p.f then n
      else
        let (n', q') := if n = 2 ^ (p.f + 1) then (2 ^ p.f, q + 1) else (n, q)
        (q' + p.f + p.bias).toNat * 2 ^ p.f + (n' - 2 ^ p.f)
    if p.maxCode < code then ⟨overflowCode p mode neg, fOverflow ||| fInexact⟩
    else ⟨p.withSign neg code, fl⟩

/-- Round a value into a format; an infinity keeps its sign. -/
def roundVal (p : Fmt) (mode : RMode) : FVal → FRes
  | .nan => ⟨p.nan, 0⟩
  | .inf neg => ⟨p.withSign neg p.infCode, 0⟩
  | .fin neg m e => roundTo p mode neg m e

/-! ### Binary32 arithmetic (R128, R129) -/

/-- %round as an instruction reads it: MODE and FTZ. -/
structure Rnd where
  mode : RMode := 0
  ftz  : Bool := false
  deriving DecidableEq, Repr

/-- MODE and FTZ of the %round word (R66). -/
def Rnd.ofWord (w : Word) : Rnd := ⟨w.extractLsb' 0 2, w.extractLsb' 2 1 = 1⟩

/-- A binary32 operand, its subnormals read as zeros under FTZ (R128). -/
def inF32 (r : Rnd) (w : Word) : FVal :=
  match Fmt.f32.value w.toNat with
  | .fin neg m e => if r.ftz && m < 2 ^ 23 then .fin neg 0 e else .fin neg m e
  | v => v

/-- A binary32 result, its subnormals written as zeros under FTZ (R128). -/
def outF32 (r : Rnd) (x : FRes) : Word × Flags :=
  let mag := x.code % 2 ^ 31
  if r.ftz && mag ≠ 0 && mag < 2 ^ 23 then
    (BitVec.ofNat 32 (x.code - mag), x.flags ||| fUnderflow ||| fInexact)
  else (BitVec.ofNat 32 x.code, x.flags)

/-- The canonical NaN of binary32. -/
def nanF32 : Word := 0x7FC00000

/-- Sum of two finite values as sign, magnitude and exponent; an exact zero of opposite signs is −0 under RDN only
(R128). -/
def addFin (mode : RMode) (n1 : Bool) (m1 : Nat) (e1 : Int) (n2 : Bool) (m2 : Nat) (e2 : Int) : FVal :=
  let e := min e1 e2
  let a : Int := (if n1 then -1 else 1) * (m1 * 2 ^ (e1 - e).toNat : Nat)
  let b : Int := (if n2 then -1 else 1) * (m2 * 2 ^ (e2 - e).toNat : Nat)
  let t := a + b
  if t = 0 then .fin (if n1 = n2 then n1 else mode = 2) 0 e
  else .fin (t < 0) t.natAbs e

/-- Exact sum of two values; invalid for ∞ − ∞. -/
def addVal (mode : RMode) : FVal → FVal → FVal × Flags
  | .nan, _ => (.nan, 0)
  | _, .nan => (.nan, 0)
  | .inf a, .inf b => if a = b then (.inf a, 0) else (.nan, fInvalid)
  | .inf a, .fin .. => (.inf a, 0)
  | .fin .., .inf b => (.inf b, 0)
  | .fin n1 m1 e1, .fin n2 m2 e2 => (addFin mode n1 m1 e1 n2 m2 e2, 0)

/-- Negation of a value. -/
def negVal : FVal → FVal
  | .nan => .nan
  | .inf a => .inf (!a)
  | .fin n m e => .fin (!n) m e

/-- Exact product of two values; invalid for 0 × ∞. -/
def mulVal : FVal → FVal → FVal × Flags
  | .nan, _ => (.nan, 0)
  | _, .nan => (.nan, 0)
  | .inf a, .inf b => (.inf (a != b), 0)
  | .inf a, .fin n m _ => if m = 0 then (.nan, fInvalid) else (.inf (a != n), 0)
  | .fin n m _, .inf b => if m = 0 then (.nan, fInvalid) else (.inf (n != b), 0)
  | .fin n1 m1 e1, .fin n2 m2 e2 => (.fin (n1 != n2) (m1 * m2) (e1 + e2), 0)

/-- Round an exact value with the flags that came with it (log 37: DEDUCED). -/
def finish (r : Rnd) (x : FVal × Flags) : Word × Flags :=
  let y := roundVal Fmt.f32 r.mode x.1
  outF32 r ⟨y.code, y.flags ||| x.2⟩

/-- VFADD (R452). -/
def fadd (r : Rnd) (a b : Word) : Word × Flags := finish r (addVal r.mode (inF32 r a) (inF32 r b))

/-- VFSUB. -/
def fsub (r : Rnd) (a b : Word) : Word × Flags := finish r (addVal r.mode (inF32 r a) (negVal (inF32 r b)))

/-- VFMUL. -/
def fmul (r : Rnd) (a b : Word) : Word × Flags := finish r (mulVal (inF32 r a) (inF32 r b))

/-- VFMA: a × b + c exactly, rounded once; 0 × ∞ is invalid whatever c is (R126, R128). -/
def ffma (r : Rnd) (a b c : Word) : Word × Flags :=
  let p := mulVal (inF32 r a) (inF32 r b)
  let s := addVal r.mode p.1 (inF32 r c)
  finish r (s.1, p.2 ||| s.2)

/-- −1, 0, 1 as a compares to b, both finite or infinite; −0 is below +0 (R129). -/
def ordLess (a b : FVal) : Bool :=
  match a, b with
  | .inf true, .inf true => false
  | .inf true, _ => true
  | _, .inf true => false
  | .inf false, _ => false
  | _, .inf false => true
  | .fin n1 m1 e1, .fin n2 m2 e2 =>
    let e := min e1 e2
    let x : Int := (if n1 then -1 else 1) * (m1 * 2 ^ (e1 - e).toNat : Nat)
    let y : Int := (if n2 then -1 else 1) * (m2 * 2 ^ (e2 - e).toNat : Nat)
    x < y || (x = y && m1 = 0 && m2 = 0 && n1 && !n2)
  | _, _ => false

/-- A binary32 code as FTZ reads it. -/
def ftzCode (r : Rnd) (w : Word) : Word :=
  if r.ftz && w.toNat % 2 ^ 31 < 2 ^ 23 then w &&& 0x80000000 else w

/-- VFMIN (R129). -/
def fmin (r : Rnd) (a b : Word) : Word × Flags :=
  match inF32 r a, inF32 r b with
  | .nan, .nan => (nanF32, 0)
  | .nan, _ => (ftzCode r b, 0)
  | _, .nan => (ftzCode r a, 0)
  | x, y => (if ordLess y x then ftzCode r b else ftzCode r a, 0)

/-- VFMAX (R129). -/
def fmax (r : Rnd) (a b : Word) : Word × Flags :=
  match inF32 r a, inF32 r b with
  | .nan, .nan => (nanF32, 0)
  | .nan, _ => (ftzCode r b, 0)
  | _, .nan => (ftzCode r a, 0)
  | x, y => (if ordLess x y then ftzCode r b else ftzCode r a, 0)

/-- Are two values equal, −0 and +0 alike? -/
def valEq (a b : FVal) : Bool :=
  match a, b with
  | .fin _ 0 _, .fin _ 0 _ => true
  | .nan, _ => false
  | _, .nan => false
  | x, y => !ordLess x y && !ordLess y x

/-- VFCMP conditions 0 eq, 1 ne, 2 lt, 3 le, 4 gt, 5 ge, 6 un (R129, R453). -/
def fcmp (r : Rnd) (cond : BitVec 3) (a b : Word) : Bool :=
  let x := inF32 r a
  let y := inF32 r b
  let un : Bool := x = .nan || y = .nan
  let eq := valEq x y
  let lt := !un && !eq && ordLess x y
  match cond.toNat with
  | 0 => !un && eq
  | 1 => un || !eq
  | 2 => lt
  | 3 => !un && (lt || eq)
  | 4 => !un && !lt && !eq
  | 5 => !un && !lt
  | _ => un

/-! ### The float unary group (R130) -/

/-- A magnitude whose true value lies strictly between m and m + 1 where `sticky`, as m with a low bit that says so. -/
def stick (m : Nat) (sticky : Bool) : Nat := 2 * m + (if sticky then 1 else 0)

/-- VFRCP. -/
def frcp (r : Rnd) (a : Word) : Word × Flags :=
  match inF32 r a with
  | .nan => (nanF32, 0)
  | .inf neg => (BitVec.ofNat 32 (Fmt.f32.withSign neg 0), 0)
  | .fin neg m e =>
    if m = 0 then (BitVec.ofNat 32 (Fmt.f32.withSign neg Fmt.f32.infCode), fDivZero)
    else
      let k := bitLen m + 40
      outF32 r (roundTo Fmt.f32 0 neg (stick (2 ^ k / m) (2 ^ k % m ≠ 0)) (-e - k - 1))

/-- Integer square root, bit by bit from bit `n` down. -/
def isqrt (x : Nat) : Nat → Nat → Nat
  | 0, acc => if (acc + 1) * (acc + 1) ≤ x then acc + 1 else acc
  | n + 1, acc =>
    let t := acc + 2 ^ (n + 1)
    isqrt x n (if t * t ≤ x then t else acc)

/-- Square root of m × 2^e, m not zero, as a magnitude with its low bit sticky, and an exponent. -/
def sqrtMag (m : Nat) (e : Int) : Nat × Int :=
  let (m, e) := if e % 2 = 0 then (m, e) else (2 * m, e - 1)
  let x := m * 2 ^ 120
  let s := isqrt x 80 0
  (stick s (s * s ≠ x), (e - 120) / 2 - 1)

/-- VFSQRT. -/
def fsqrt (r : Rnd) (a : Word) : Word × Flags :=
  match inF32 r a with
  | .nan => (nanF32, 0)
  | .inf neg => if neg then (nanF32, fInvalid) else (0x7F800000, 0)
  | .fin neg m e =>
    if m = 0 then (BitVec.ofNat 32 (Fmt.f32.withSign neg 0), 0)
    else if neg then (nanF32, fInvalid)
    else
      let (s, q) := sqrtMag m e
      outF32 r (roundTo Fmt.f32 0 false s q)

/-- VFRSQ. -/
def frsq (r : Rnd) (a : Word) : Word × Flags :=
  match inF32 r a with
  | .nan => (nanF32, 0)
  | .inf neg => if neg then (nanF32, fInvalid) else (0, 0)
  | .fin neg m e =>
    if m = 0 then (BitVec.ofNat 32 (Fmt.f32.withSign neg Fmt.f32.infCode), fDivZero)
    else if neg then (nanF32, fInvalid)
    else
      let (m, e) := if e % 2 = 0 then (m, e) else (2 * m, e - 1)
      let x := 2 ^ 160 / m
      let s := isqrt x 80 0
      outF32 r (roundTo Fmt.f32 0 false (stick s (s * s * m ≠ 2 ^ 160)) (-e / 2 - 80 - 1))

/-- Fixed-point precision of the logarithm and exponential series, in bits. -/
def serBits : Nat := 240

/-- Σ 1 / (k 2^k), k from 1 to n, in units of 2^-serBits: ln 2. -/
def ln2Series : Nat → Nat
  | 0 => 0
  | k + 1 => ln2Series k + 2 ^ serBits / ((k + 1) * 2 ^ (k + 1))

/-- ln 2 in units of 2^-serBits. -/
def ln2Fixed : Nat := ln2Series 250

/-- Σ y^k / k!, the terms from `k` on, with `t` the term before. -/
def expSeries (y : Nat) : Nat → Nat → Nat → Nat
  | 0, _, _ => 0
  | n + 1, k, t =>
    let t' := t * y / (2 ^ serBits * k)
    t' + expSeries y n (k + 1) t'

/-- VFEXP2: the exact power rounded RNE; a power of a non-integer is irrational, so its low bit is sticky. -/
def fexp2 (r : Rnd) (a : Word) : Word × Flags :=
  match inF32 r a with
  | .nan => (nanF32, 0)
  | .inf neg => (if neg then 0 else 0x7F800000, 0)
  | .fin neg m e =>
    if m = 0 then (0x3F800000, 0)
    else if 12 < e + bitLen m then
      if neg then (0, fUnderflow ||| fInexact) else (0x7F800000, fOverflow ||| fInexact)
    else if 0 ≤ e then
      let x : Int := (if neg then -1 else 1) * (m * 2 ^ e.toNat : Nat)
      outF32 r (roundTo Fmt.f32 0 false 1 x)
    else
      let d : Int := 2 ^ (-e).toNat
      let x : Int := (if neg then -1 else 1) * (m : Int)
      let n := x / d
      let f := (x % d).toNat
      if f = 0 then outF32 r (roundTo Fmt.f32 0 false 1 n)
      else
        let y := f * ln2Fixed / d.toNat
        let p := 2 ^ serBits + expSeries y 64 1 (2 ^ serBits)
        outF32 r (roundTo Fmt.f32 0 false (stick p true) (n - serBits - 1))

/-- Σ t^(2k+1) / (2k+1), the terms from `k` on, in units of 2^-serBits; `t2` is t², `p` the power so far. -/
def atanhSeries (t2 : Nat) : Nat → Nat → Nat → Nat
  | 0, _, _ => 0
  | n + 1, k, p => p / (2 * k + 1) + atanhSeries t2 n (k + 1) (p * t2 / 2 ^ serBits)

/-- VFLOG2. -/
def flog2 (r : Rnd) (a : Word) : Word × Flags :=
  match inF32 r a with
  | .nan => (nanF32, 0)
  | .inf neg => if neg then (nanF32, fInvalid) else (0x7F800000, 0)
  | .fin neg m e =>
    if m = 0 then (0xFF800000, fDivZero)
    else if neg then (nanF32, fInvalid)
    else
      let k := bitLen m - 1
      let c := e + k
      if m = 2 ^ k then
        outF32 r (roundTo Fmt.f32 0 (c < 0) c.natAbs 0)
      else
        let t := (m - 2 ^ k) * 2 ^ serBits / (m + 2 ^ k)
        let l := 2 * atanhSeries (t * t / 2 ^ serBits) 100 0 t
        let v : Int := c * 2 ^ serBits + (l * 2 ^ serBits / ln2Fixed : Nat)
        outF32 r (roundTo Fmt.f32 0 (v < 0) (stick v.natAbs true) (-(serBits : Int) - 1))

/-- VFABS (R129). -/
def fabs (r : Rnd) (a : Word) : Word × Flags :=
  match inF32 r a with
  | .nan => (nanF32, 0)
  | _ => (ftzCode r a &&& 0x7FFFFFFF, 0)

/-- VFRND in a direction (R129): an integral value, no flag. -/
def frnd (r : Rnd) (mode : RMode) (a : Word) : Word × Flags :=
  match inF32 r a with
  | .nan => (nanF32, 0)
  | .inf _ => (a, 0)
  | .fin neg m e =>
    if 0 ≤ e then (ftzCode r a, 0)
    else
      let (n, _) := roundAt mode neg m e 0
      (BitVec.ofNat 32 (roundTo Fmt.f32 0 neg n 0).code, 0)

/-! ### Conversions (R131) -/

/-- Convert a value into a float format, with saturation. -/
def toFloat (p : Fmt) (mode : RMode) (sat : Bool) : FVal → FRes
  | .nan => ⟨p.nan, 0⟩
  | .inf neg =>
    if sat then ⟨p.withSign neg p.maxCode, 0⟩
    else ⟨p.withSign neg p.infCode, if p.e4m3 then fInvalid else 0⟩
  | .fin neg m e =>
    let x := roundTo p mode neg m e
    if sat && (x.flags &&& fOverflow) ≠ 0 then ⟨p.withSign neg p.maxCode, x.flags⟩ else x

/-- Convert a value to an integer between `lo` and `hi`; `bad` is what NaN and out-of-range give without saturation. -/
def toInt (mode : RMode) (sat : Bool) (lo hi : Int) (bad : Word) : FVal → Word × Flags
  | .nan => (if sat then 0 else bad, fInvalid)
  | .inf neg => (if sat then BitVec.ofInt 32 (if neg then lo else hi) else bad, fInvalid)
  | .fin neg m e =>
    let (n, inexact) := roundAt mode neg m e 0
    let x : Int := if neg then -n else n
    if x < lo then (if sat then BitVec.ofInt 32 lo else bad, fInvalid)
    else if hi < x then (if sat then BitVec.ofInt 32 hi else bad, fInvalid)
    else (BitVec.ofInt 32 x, if inexact then fInexact else 0)

/-- The exact value of an integer. -/
def ofInt (x : Int) : FVal := .fin (x < 0) x.natAbs 0

/-- The formats of the VCVT type codes 2 to 6 (R50). -/
def cvtFmt (t : BitVec 3) : Fmt :=
  match t.toNat with
  | 2 => .f32
  | 3 => .f16
  | 4 => .bf16
  | 5 => .fe4m3
  | _ => .fe5m2

/-- A source lane of VCVT type `t` as a value; a binary32 subnormal is a zero under FTZ; 16-bit and 8-bit sources stand
in the low bits (R127). -/
def cvtSource (r : Rnd) (t : BitVec 3) (w : Word) : FVal :=
  match t.toNat with
  | 0 => ofInt w.toInt
  | 1 => ofInt w.toNat
  | 2 => inF32 r w
  | 3 => Fmt.f16.value (w.toNat % 2 ^ 16)
  | 4 => Fmt.bf16.value (w.toNat % 2 ^ 16)
  | 5 => Fmt.fe4m3.value (w.toNat % 2 ^ 8)
  | _ => Fmt.fe5m2.value (w.toNat % 2 ^ 8)

/-- Rounding of a destination type: the 8-bit formats round RNE (R131). -/
def cvtMode (r : Rnd) (t : BitVec 3) : RMode := if t = 5 ∨ t = 6 then 0 else r.mode

/-- A value into the destination type `t` (R131). -/
def cvtDest (r : Rnd) (t : BitVec 3) (sat : Bool) (v : FVal) : Word × Flags :=
  match t.toNat with
  | 0 => toInt r.mode sat (-2147483648) 2147483647 0x80000000 v
  | 1 => toInt r.mode sat 0 4294967295 0xFFFFFFFF v
  | 2 => outF32 r (toFloat .f32 r.mode sat v)
  | _ =>
    let x := toFloat (cvtFmt t) (cvtMode r t) sat v
    (BitVec.ofNat 32 x.code, x.flags)

/-- VCVT from type `f` to type `t` (R131, R455). s32 and n32 pass their bits, or clamp with no flag; an 8-bit float to f16 or
bf16 is exact, where saturate has no effect. -/
def cvt (r : Rnd) (t f : BitVec 3) (sat : Bool) (w : Word) : Word × Flags :=
  if t = 1 ∧ f = 0 then (if sat ∧ w.toInt < 0 then 0 else w, 0)
  else if t = 0 ∧ f = 1 then (if sat ∧ 2147483647 < w.toNat then 0x7FFFFFFF else w, 0)
  else if t = 2 ∧ 3 ≤ f.toNat then outF32 r (toFloat .f32 r.mode false (cvtSource r f w))
  else cvtDest r t (sat && !(5 ≤ f.toNat && (t = 3 || t = 4))) (cvtSource r f w)

/-- An element code of pack type `et` from a word (R57, R131): i8 wraps, or clamps under SAT. -/
def packElem (r : Rnd) (et : BitVec 3) (sat : Bool) (w : Word) : Nat × Flags :=
  if et = 7 then
    if sat then
      let x := w.toInt
      ((BitVec.ofInt 8 (if x < -128 then -128 else if 127 < x then 127 else x)).toNat, 0)
    else (w.toNat % 256, 0)
  else
    let (c, fl) := cvt r et 2 sat w
    (c.toNat, fl)

/-- A word from an element code of pack type `et` (R57, R457). -/
def unpackElem (r : Rnd) (et : BitVec 3) (c : Nat) : Word × Flags :=
  if et = 7 then ((BitVec.ofNat 8 c).signExtend 32, 0)
  else cvt r 2 et false (BitVec.ofNat 32 c)

/-! ### Scans and reductions (R50, R132, R133) -/

/-- One combination of a scan op, with its flags. FTZ of %round acts in min.f32 and max.f32 as in add.f32, since they follow
R129, though R132 names it for add.f32 alone (log 54: DESIGN CHOICE). -/
def scanOp (r : Rnd) (op : BitVec 4) (a b : Word) : Word × Flags :=
  match op.toNat with
  | 0 => (a + b, 0)
  | 1 => fadd r a b
  | 2 => (if b.toInt < a.toInt then b else a, 0)
  | 3 => (if a.toInt < b.toInt then b else a, 0)
  | 4 => (if b.toNat < a.toNat then b else a, 0)
  | 5 => (if a.toNat < b.toNat then b else a, 0)
  | 6 => (a &&& b, 0)
  | 7 => (a ||| b, 0)
  | 8 => (a ^^^ b, 0)
  | 9 => fmin r a b
  | _ => fmax r a b

/-- The identity of a scan op (R132). -/
def scanId (op : BitVec 4) : Word :=
  match op.toNat with
  | 1 => 0x80000000
  | 2 => 0x7FFFFFFF
  | 3 => 0x80000000
  | 4 => 0xFFFFFFFF
  | 6 => 0xFFFFFFFF
  | 9 => 0x7F800000
  | 10 => 0xFF800000
  | _ => 0

/-- A tree node: empty, or a value with the flags its combinations raised. -/
abbrev Node := Option (Word × Flags)

/-- op(left, right) where both are full, else the full one (R132). -/
def joinNode (r : Rnd) (op : BitVec 4) (a b : Node) : Node :=
  match a, b with
  | none, x => x
  | x, none => x
  | some (x, f), some (y, g) =>
    let (z, h) := scanOp r op x y
    some (z, f ||| g ||| h)

/-- The node of the aligned 2^j lanes from `base` on (R132). -/
def treeNode (r : Rnd) (op : BitVec 4) (leaf : Nat → Node) : Nat → Nat → Node
  | 0, base => leaf base
  | j + 1, base => joinNode r op (treeNode r op leaf j base) (treeNode r op leaf j (base + 2 ^ j))

/-- The scan loop of R133 over bits j − 1 down to 0 of `n` = lane + 1. -/
def scanLoop (r : Rnd) (op : BitVec 4) (leaf : Nat → Node) (n : Nat) : Nat → Nat → Node → Node
  | 0, _, acc => acc
  | j + 1, base, acc =>
    if (n / 2 ^ j) % 2 = 1 then
      scanLoop r op leaf n j (base + 2 ^ j) (joinNode r op acc (treeNode r op leaf j base))
    else scanLoop r op leaf n j base acc

/-- The inclusive value of lane l, as a node (R133). -/
def inclusive (r : Rnd) (op : BitVec 4) (leaf : Nat → Node) (l : Nat) : Node := scanLoop r op leaf (l + 1) 6 0 none

/-- A node's value, or the op's identity. -/
def nodeVal (op : BitVec 4) : Node → Word
  | some (x, _) => x
  | none => scanId op

/-- A node's flags. -/
def nodeFlags : Node → Flags
  | some (_, f) => f
  | none => 0

/-! ### NQ4 and the array's sums (R134 to R140) -/

/-- The NQ4 codebook, binary16 codes (R134). -/
def codebook : List (BitVec 16) :=
  [0xBC00, 0xB990, 0xB834, 0xB650, 0xB48C, 0xB1E8, 0xADD0, 0x0000,
   0x2D10, 0x3128, 0x33E0, 0x3568, 0x370C, 0x3880, 0x39C8, 0x3C00]

/-- RNE without FTZ, the array's rounding. -/
def rne : Rnd := {}

/-- The combined scale of a block (R136). -/
def blockScale (f : Word) (s : Byte) : Word :=
  if s = 0 then 0
  else
    match Fmt.f32.value f.toNat with
    | .nan => nanF32
    | v =>
      let x := (roundVal .f32 0 (mulVal v (ofInt s.toNat)).1).code
      (fmul rne (BitVec.ofNat 32 x) 0x3B808081).1

/-- The element formats of FMT (R63); 2 is INT8, 5 the decoded codebook. -/
def elemFmt (fmt : BitVec 3) : Fmt :=
  match fmt.toNat with
  | 0 => .fe4m3
  | 1 => .fe5m2
  | 3 => .bf16
  | _ => .f16

/-- Exact sum of products in one group, its zero's sign as R138 gives: `none` so far, then a value. -/
def groupAdd (acc : Option FVal) (p : FVal) : Option FVal :=
  match acc with
  | none => some p
  | some a => some (addVal 0 a p).1

/-- One group's products summed exactly and rounded once (R138, R139). -/
def groupSum (ps : List FVal) : Word :=
  match ps.foldl groupAdd none with
  | none => 0
  | some v => BitVec.ofNat 32 (roundVal .f32 0 v).code

/-- A tile element as stored from 32 bits under MFMT (R228): the code of its size. -/
def tileOut (mf : BitVec 3) (sat : Bool) (w : Word) : Nat :=
  match mf.toNat with
  | 0 => w.toNat
  | 5 => w.toNat
  | 1 => (toFloat .f16 0 sat (Fmt.f32.value w.toNat)).code
  | 2 => (toFloat .bf16 0 sat (Fmt.f32.value w.toNat)).code
  | 3 => (toFloat .fe4m3 0 sat (Fmt.f32.value w.toNat)).code
  | _ => (toFloat .fe5m2 0 sat (Fmt.f32.value w.toNat)).code

/-- A tile element as loaded under MFMT (R228). -/
def tileIn (mf : BitVec 3) (c : Nat) : Word :=
  match mf.toNat with
  | 0 => BitVec.ofNat 32 c
  | 5 => BitVec.ofNat 32 c
  | 1 => BitVec.ofNat 32 (roundVal .f32 0 (Fmt.f16.value c)).code
  | 2 => BitVec.ofNat 32 (roundVal .f32 0 (Fmt.bf16.value c)).code
  | 3 => BitVec.ofNat 32 (roundVal .f32 0 (Fmt.fe4m3.value c)).code
  | _ => BitVec.ofNat 32 (roundVal .f32 0 (Fmt.fe5m2.value c)).code

/-- Bytes of one element under MFMT (R228). -/
def mfSize (mf : BitVec 3) : Nat :=
  match mf.toNat with
  | 0 => 4
  | 5 => 4
  | 1 => 2
  | 2 => 2
  | _ => 1

end Sys2Proof.Machine
end

