-- ==== Sys2Proof/Machine/State.lean ====
section
/-!
DEFINITION. Everything the spec gives the P8, as plain data, and the machine right after reset. The package is one
machine: `w` is the wave that issues, `others` the rest of the resident and saved waves, `agenda` the steps of the other
agents that move next (log 4: DESIGN CHOICE).
-/

namespace Sys2Proof.Machine

/-- Why a step stops. -/
inductive Fault where
  /-- A front-end, host or home access to a physical address at which nothing stands: no range of R149 holds it, or it lies
  in the storage of a component out of service (R10). Raised by the steps whose operand names a physical address directly;
  safe: the spec says nothing stands there. -/
  | unmappedPhysical (addr : Nat)
  deriving DecidableEq, Repr

/-- Why an instruction has no meaning. -/
inductive Refusal where
  /-- An instruction not modelled yet, by its mnemonic; raised by Dispatch alone; safe. -/
  | notModelled (mnemonic : String)
  deriving DecidableEq, Repr

/-! ### Faults, events and leaves of a wave -/

/-- A fault as the trap registers take it (R235, R238). -/
structure FaultRec where
  cause : BitVec 8
  info0 : Word := 0
  info1 : Word := 0
  info2 : Word := 0
  info3 : Word := 0
  deriving DecidableEq, Repr

/-- A hinge event with its captured values (R94, R96). `order` is the raise order, `leaf` %evleaf. -/
structure Event where
  cause : BitVec 3
  mask  : Mask
  k14   : Mask
  k15   : Mask := 0
  pc0   : Word
  pc1   : Word := 0
  leaf  : Fin 4
  order : Nat := 0
  /-- A starve event that R104 raised. -/
  at104 : Bool := false
  deriving DecidableEq, Repr

/-- A spawn entry (R292) with the time it entered, its origin (R282) and the seed it serves. -/
structure SpawnEntry where
  kdesc : DWord
  args  : DWord
  join  : DWord
  entry : Word
  n     : Nat
  next  : Nat := 0
  qcb   : Nat := 0
  hdr   : Word := 0
  seed  : Nat := 0
  time  : DWord := 0
  /-- The class of the issuer's queue (R292, R293). -/
  cls   : Fin 4 := 0
  /-- The 64 bytes of the spill area it lies in, by number, if it does (R292, R426). -/
  spill : Option Nat := none
  deriving DecidableEq, Repr

/-- What a TRET's arrivals, or a SPAWN's, have still to bring about (R295, R424, R468): an arrival of a lane at a parent
record, the enqueue of a continuation that a lane's arrival brought about, or the enqueue of a SPAWN whose join count has grown. -/
inductive JoinWork where
  | parent (l : Fin 32) (g : DWord)
  | enqueue (l : Fin 32) (args : DWord) (entry : Word)
  | child (x : SpawnEntry)
  deriving DecidableEq, Repr

/-- What a waiting leaf waits for (R74, R77). -/
inductive WaitKind where
  /-- WAITC: a write wakes it, and it goes on at the next word (R182). -/
  | monitor
  /-- LWAIT: a write wakes it, and it issues the word again (R208). -/
  | latch
  /-- QACQ, QTAKE or a queue port: it issues the word again (R411). -/
  | queue
  /-- SPAWN without a join record at a full ring: it issues the word again (R292). -/
  | spawn
  /-- TRET whose arrivals are made, until what they bring about is made too; then its lanes become absent (R468). Also,
  with no lanes, a SPAWN whose join count has grown, at a full ring (R424). -/
  | tret (lanes : Mask) (todo : List JoinWork)
  /-- FENCEX until it retires (R172): the transfers' sectors, MLDSs, array commands ahead and pod accesses waited for, the
  retire cost's end, its scope, its before-set, its after-set and its lanes. -/
  | fencex (xfers : List (Nat × Nat)) (mlds : List Nat) (m0 m1 : Nat) (pods : List Nat) (ends : Nat) (scope : BitVec 3)
      (before after : BitVec 6) (lanes : Mask)
  /-- SLEEP until a cycle count is reached (R423). -/
  | sleep (ends : Nat)
  /-- HYPRES until its resolution completes (R261). -/
  | hypres
  /-- HYPNEW until the slot map answers (R360). -/
  | hypnew
  /-- An access at R158 step 9, until the exchange is over or 256 CCLK have gone by. -/
  | mov (lanes : Mask) (since : Nat)
  /-- A matrix word until its array can accept it (R84, R221). -/
  | busy (arr : Fin 2)
  /-- A handler or supervisor access, until service completes (R98). -/
  | service
  /-- A word with an access to host memory, until the link that carries it is up (R305). -/
  | link
  /-- A word the scoreboard holds back: a register it names has a pending write, or an earlier lane-path access of its wave
  is held (R38, R158). -/
  | score
  deriving DecidableEq, Repr

/-- A leaf's wait: where it goes on if the wait completes the word, and the address a monitor watches. -/
structure Wait where
  kind : WaitKind
  next : Word
  addr : Nat := 0
  deriving DecidableEq, Repr

/-- A leaf-table entry (R44) with its waiting state and pending event (R96). -/
structure Leaf where
  mask : Mask := 0
  pc   : Word := 0
  join : Word := 0xFFFFFFFF
  held : Bool := false
  wait : Option Wait := none
  pend : Option Event := none
  /-- The queue a waiting port word was issued against (R411). -/
  bound : Option (Fin 4 × DWord) := none
  deriving DecidableEq, Repr

/-- A loop-stack entry with its entry mask (R44, R87). -/
structure LoopEntry where
  start  : Word
  finish : Word
  count  : Word
  mask   : Mask
  deriving DecidableEq, Repr

/-! ### Registers -/

/-- The register files of a wave (R39): `k[0]` is never read (R40). -/
structure Regs where
  v : Vector (Lanes Word) 88 := Vector.replicate 88 (Vector.replicate 32 0)
  s : Vector Word 32 := Vector.replicate 32 0
  k : Vector Mask 16 := Vector.replicate 16 0
  h : Vector Word 8 := Vector.replicate 8 0
  deriving DecidableEq, Repr

/-- What SYSR and SYSW reach in a wave (R65, R66). -/
structure SysRegs where
  hinge     : Word := 0
  patience  : Word := 65536
  budget    : Word := 256
  evcause   : Word := 0
  evpc0     : Word := 0
  evpc1     : Word := 0
  evleaf    : Word := 0
  round     : Word := 0
  fstat     : Word := 0
  wave      : Word := 0
  wg        : Word := 0
  nbhd      : Word := 0
  scope     : Word := 0
  ctx       : Word := 0
  asid      : Word := 0
  trapcause : Word := 0
  trapinfo0 : Word := 0
  trapinfo1 : Word := 0
  trapinfo2 : Word := 0
  trapinfo3 : Word := 0
  deriving DecidableEq, Repr

/-- The state of a follow-on slot (R205, R243). -/
inductive FollowState where
  | empty | parked | armed | fired
  deriving DecidableEq, Repr

/-- A follow-on slot: its state, the MSTREAM word's offset, its fields, the A value at parking, and its words (R243). -/
structure Follow where
  st    : FollowState := .empty
  pc    : Word := 0
  leader : Fin 32 := 0
  arr   : Fin 2 := 0
  fmt   : BitVec 3 := 0
  rows1 : BitVec 6 := 0
  qs    : Bool := false
  slot  : Fin 4 := 0
  a     : Word := 0
  /-- The MSTREAM word and its extension word (R243). -/
  word  : Word := 0
  ext   : Word := 0
  deriving DecidableEq, Repr

/-- Who issues the word: a leaf, the hinge handler or the supervisor handler. -/
inductive Agent where
  | leaf (n : Fin 4)
  | handler
  | supervisor
  deriving DecidableEq, Repr

/-- What the operands of a chain are read from: the registers, per-lane offsets, hypotheses, orphan bits and port bindings
as they stood before its first word (R20, R38). -/
structure Snap where
  r      : Regs := {}
  lpc    : Lanes Word := Vector.replicate 32 0
  cur    : Lanes (BitVec 6) := Vector.replicate 32 0
  orphan : Mask := 0
  ports  : Vector DWord 4 := Vector.replicate 4 0
  deriving DecidableEq, Repr

/-- The issue in progress (the model's own, log 2: DESIGN CHOICE): the agent, the word's and the chain's offsets, where
the agent goes on, the operand snapshot of a chain (R20, R30), the lanes a chain leaves out (R236), and what the words so far did. -/
structure Issue where
  agent  : Agent := .leaf 0
  pc     : Word := 0
  first  : Word := 0
  next   : Word := 0
  snap   : Option Snap := none
  /-- The lanes alone that a held access acts for, when it is performed (R158 step 9). -/
  only   : Option Mask := none
  /-- The entries the ports of a chain's words have popped, by word and port, before any word writes (R20, R42). -/
  popped : List (Word × Fin 4 × Lanes Word) := []
  /-- The first name not yet given out when the chain began: what its own words issue is named from there on (R350). -/
  born   : Nat := 0
  excl   : Mask := 0
  parked : Mask := 0
  fault  : Option FaultRec := none
  /-- The fault taken undoes nothing: its word's effects stand (R468). -/
  keep   : Bool := false
  redo   : Bool := false
  deriving DecidableEq, Repr

/-- A lane-path access held at R158 step 9: the word, its operands as read, its leaf and lanes, the cycle count of the check
that found MOV, and whether the exchange is over, so that its checks start again. -/
structure Held where
  i     : Instr
  pc    : Word
  leaf  : Fin 4
  snap  : Snap
  lanes : Mask
  since : Nat
  /-- Those of its lanes that were found under exchange. -/
  moving : Mask := lanes
  ready : Bool := false
  /-- The time it is performed above, if its hypothesis was confirmed meanwhile (R363). -/
  floor : Nat := 0
  /-- The entries its word's ports have popped. -/
  popped : List (Word × Fin 4 × Lanes Word) := []
  deriving DecidableEq, Repr

/-- The greatest performance time of a wave's engine accesses of one class, leader and required scope (R171, R172). -/
structure Perf where
  cls    : Fin 6
  leader : Fin 32
  scope  : Nat
  time   : Nat
  deriving DecidableEq, Repr

/-- Is a wave on a core, or saved (R242)? -/
inductive Residency where
  | resident | stopped | out
  deriving DecidableEq, Repr

/-- A wave (R39 to R45, R74 to R112, R243). -/
structure Wave where
  /-- The model's name of the wave. -/
  id       : Nat := 0
  ctx      : Nat := 0
  /-- The gang unit's handle and its member. -/
  unit     : Nat := 0
  member   : Nat := 0
  core     : Fin 384 := 0
  quad     : Fin 4 := 0
  res      : Residency := .resident
  task     : Bool := false
  /-- R83. -/
  age      : Nat := 0
  waitCtr  : Nat := 0
  r        : Regs := {}
  sr       : SysRegs := {}
  ports    : Vector DWord 4 := Vector.replicate 4 0
  leaves   : Vector Leaf 4 := Vector.replicate 4 {}
  loops    : List LoopEntry := []
  rot      : Fin 4 := 0
  /-- Per lane: resumption offset, hypothesis, park counter, fault reason and leaf (R243). -/
  lpc      : Lanes Word := Vector.replicate 32 0
  cur      : Lanes (BitVec 6) := Vector.replicate 32 0
  park     : Lanes DWord := Vector.replicate 32 0
  reason   : Lanes (BitVec 2) := Vector.replicate 32 0
  faultLf  : Lanes (Fin 4) := Vector.replicate 32 0
  orphan   : Mask := 0
  notified : Mask := 0
  absent   : Mask := 0xFFFFFFFF
  fparked  : Mask := 0
  /-- Lanes entered in the starve mask since their counter was zeroed (R103). -/
  starved  : Mask := 0
  /-- The pending starve event (R96). -/
  starve   : Option Event := none
  /-- Resumes that wait for their leaf's slot (R96). -/
  resumes  : List Event := []
  evOrder  : Nat := 0
  /-- Leaf 3 was placed by the override and has not issued (R92). -/
  override : Bool := false
  /-- In the handler of a starve event of R104 its mask; after that handler, the lanes of its sequence still to be
  placed, one group at a time. -/
  seq104   : Mask := 0
  /-- The handler running is that of a starve event of R104. -/
  at104    : Bool := false
  /-- Lanes whose park counters go on rising while the handler runs: those that counted at delivery (R101, R115). -/
  hcounts  : Mask := 0
  mode     : Mode := .program
  hpc      : Word := 0
  hcount   : Nat := 0
  /-- A handler access waits for page service (R98). -/
  hwait    : Option Wait := none
  /-- Supervisor mode (R238): its leaf, its loop stack, and whether it was entered from hinge mode. -/
  sup      : Leaf := {}
  supLoops : List LoopEntry := []
  supHinge : Bool := false
  /-- Supervisor mode was entered by a hinge fault raised in hinge mode (R102). -/
  supFault : Bool := false
  /-- Accesses held at R158 step 9, oldest first. -/
  held     : List Held := []
  /-- Imprecise faults that wait (R237). -/
  pending  : List FaultRec := []
  follow   : Vector Follow 4 := Vector.replicate 4 {}
  blk      : BitVec 24 := 0
  lastTime : DWord := 0
  /-- Wave issue cycles (R78) and idle cycles since the last idle charge (R103). -/
  cycles   : Nat := 0
  idle     : Nat := 0
  kdesc    : DWord := 0
  code     : DWord := 0
  lpriv    : Nat := 65536
  /-- The queue the wave's work descends from, and its packet's header index (R282). -/
  qcb      : Nat := 0
  hdr      : Word := 0
  /-- The seed each lane's task counts toward, 0 if none (R283). -/
  seeds    : Lanes Nat := Vector.replicate 32 0
  /-- The packet each lane's task descends from: its queue's QCB and its header's index (R282). -/
  origins  : Lanes (Nat × Word) := Vector.replicate 32 (0, 0)
  /-- CRC-32C of the wave's path under replay (R314). -/
  sig      : Word := 0xFFFFFFFF
  /-- The performance times of its engine accesses (R172). -/
  perf     : List Perf := []
  /-- Its save record while it is switched out (R243). -/
  saved    : List Byte := []
  iss      : Issue := {}
  deriving DecidableEq, Repr

/-! ### Arrays and cores -/

/-- A weight plane with its scale registers (R217): `fmt` 7 is none; weights by row k then column n, `[]` all zero;
the 2:4 metadata bytes; scales by half then column, `[]` all 1.0. -/
structure Plane where
  fmt    : BitVec 3 := 7
  sp     : Bool := false
  wts    : List (BitVec 16) := []
  mta    : List Byte := []
  scales : List Word := []
  deriving DecidableEq, Repr

/-- Run partials (R217): rows in force, values by half, row, column, whether they are INT8 sums, and the scales of the
plane that formed them (R227). -/
structure Partials where
  rows   : Nat := 0
  vals   : List Word := []
  int    : Bool := false
  scales : List Word := []
  deriving DecidableEq, Repr

/-- What a matrix command does (R217): `base` is a scratchpad address in the unit's window (R144). -/
inductive CmdOp where
  | swap
  | stream (fmt : BitVec 3) (rows : Nat) (queue : Bool) (base : Nat)
  | drain (tile : Fin 16)
  | zero (tile : Fin 16)
  | load (tile : Fin 16) (mf : BitVec 3) (base : Nat)
  | store (tile : Fin 16) (mf : BitVec 3) (sat : Bool) (base : Nat)
  deriving DecidableEq, Repr

/-- A matrix command in an array's queue (R217), with the word that issued it. -/
structure Cmd where
  op     : CmdOp
  wave   : Nat
  unit   : Nat
  pc     : Word
  leader : Fin 32
  /-- The model's name of the command, in order of issue. -/
  id     : Nat := 0
  deriving DecidableEq, Repr

/-- A tensor record (R198). -/
structure TensorRec where
  base  : DWord
  dtype : BitVec 8
  rank1 : BitVec 3
  circ  : BitVec 5
  swz   : BitVec 4
  ext   : Vector Word 5
  str   : Vector Word 5
  box   : Vector Byte 5
  deriving DecidableEq, Repr

/-- An MLDS between issue and landing (R221). -/
structure MldsFlight where
  id   : Nat
  leader : Fin 32
  unit : Nat
  wave : Nat
  ctx  : Nat
  pc   : Word
  fmt  : BitVec 3
  sp   : Bool
  tr   : TensorRec
  crd  : Vector Word 5
  mta  : List Byte
  hyp  : BitVec 6
  qcb  : Nat := 0
  hdr  : Word := 0
  sup  : Bool := false
  deriving DecidableEq, Repr

/-- One array of a core (R217). -/
structure ArrayState where
  active : Plane := {}
  shadow : Plane := {}
  part   : Partials := {}
  queue  : List Cmd := []
  mlds   : Option MldsFlight := none
  deriving DecidableEq, Repr

/-- A 64 × 64 tile, row by row; `[]` is all +0.0 (R217). -/
abbrev Tile := List Word

/-- A histogram unit (R312). -/
structure Hist where
  shift : Byte := 0
  en    : Bool := false
  log   : Bool := false
  src   : BitVec 3 := 0
  base  : Word := 0
  min   : Word := 0xFFFFFFFF
  max   : Word := 0
  bins  : Vector Word 16 := Vector.replicate 16 0
  deriving DecidableEq, Repr

/-- A core: its logical time's lead over the cycle count (R164), its arrays and tiles, and its monitors (R311). -/
structure Core where
  n      : Fin 384
  lead   : Nat := 0
  arrays : Vector ArrayState 2 := Vector.replicate 2 {}
  tiles  : Vector Tile 16 := Vector.replicate 16 []
  cnt    : Vector (BitVec 48) 4 := Vector.replicate 4 0
  ctl    : Vector (BitVec 7) 4 := Vector.replicate 4 0
  hist   : Vector Hist 2 := Vector.replicate 2 {}
  deriving DecidableEq, Repr

/-! ### Transfers -/

/-- What an engine moves. -/
inductive XferKind where
  | cpy | cpys | gath | scat | packet
  deriving DecidableEq, Repr

/-- One lane of a gather or scatter: its element's address and its hypothesis at issue. -/
structure XferLane where
  lane   : Fin 32
  addr   : DWord
  hyp    : BitVec 6
  orphan : Bool
  deriving DecidableEq, Repr

/-- A transfer in flight (R202 to R206; COPY packets R283). `spad`, `queue` and `latch` are scratchpad addresses in the
unit's window (R144), `spad` unset until a queue slot is held; `left` the sectors still to perform. -/
structure Xfer where
  id     : Nat
  kind   : XferKind
  ctx    : Nat
  wave   : Nat
  unit   : Nat
  member : Nat
  /-- The core that issued it. -/
  core   : Fin 384 := 0
  pc     : Word
  leader : Fin 32 := 0
  qcb    : Nat := 0
  hdr    : Word := 0
  tr     : Option TensorRec := none
  crd    : Vector Word 5 := Vector.replicate 5 0
  spad   : Option Nat := none
  queue  : Option Nat := none
  latch  : Option Nat := none
  thn    : Option (Fin 4) := none
  esz    : Nat := 1
  lanes  : List XferLane := []
  hyp    : BitVec 6 := 0
  orphan : Bool := false
  left   : List Nat := []
  poison : Bool := false
  sup    : Bool := false
  irq    : Bool := false
  src    : DWord := 0
  dst    : DWord := 0
  /-- The greatest time one of its sectors was performed at (R212). -/
  tmax   : Nat := 0
  /-- The time its stores are performed above: its hypothesis' commit time (R257). -/
  floor  : Nat := 0
  deriving DecidableEq, Repr

/-! ### Memory side -/

/-- A home line's times (R164): of committed memory, or of a context's version slot (R255). -/
structure LineTime where
  line : Nat
  wts  : Nat
  rts  : Nat
  ctx  : Nat := 0
  /-- 0 for committed memory. -/
  slot : Nat := 0
  deriving DecidableEq, Repr

/-- Where an agent or a home sits (R149, R170, R171). -/
inductive Pos where
  | core (n : Fin 384)
  | chiplet (c : Fin 8)
  | package
  | pod
  deriving DecidableEq, Repr

/-- Sectors of a line a core's L1 holds under a lease (R150, R165): which ones, their write time, the lease's end, and the
line's bytes. -/
structure L1Line where
  core : Fin 384
  line : Nat
  secs : BitVec 4
  wts  : Nat
  ends : Nat
  data : List Byte
  deriving DecidableEq, Repr

/-- A condition monitor (R182): the bytes watched, the waiting leaf, and whether a write has met it, at which time. -/
structure Monitor where
  addr  : Nat
  len   : Nat
  wave  : Nat
  leaf  : Option (Fin 4)
  woken : Bool := false
  /-- The time of the first write that met it (R464). -/
  at_   : Nat := 0
  /-- The slot whose WAIT packet waits here (R283). -/
  slot  : Option (Fin 256) := none
  /-- Held by its line's class (R183). -/
  coarse : Bool := false
  deriving DecidableEq, Repr

/-- A page exchange in progress (R162): the two leaf entries' physical addresses, the pages' size, and when MOV was set. -/
structure Exchange where
  near  : Nat
  far   : Nat
  big   : Bool
  since : Nat
  /-- Lines of the frames whose copy is done. -/
  done  : Nat := 0
  deriving DecidableEq, Repr

/-- A request of a core at a home whose frame is under exchange (R162, R163). -/
structure Stalled where
  core : Fin 384
  req  : HomeReq
  deriving DecidableEq, Repr

/-- An atomic answered "moved" (R163), until its core reissues it: the leaf entry of its page and its offset there. -/
structure Moved where
  core : Fin 384
  pte  : Nat
  ofs  : Nat
  req  : HomeReq
  deriving DecidableEq, Repr

/-- A TLB (R160): a core's, a die layer's, a chiplet's last level, or the walk-ahead TLB of a stack's stream unit. -/
inductive TlbAt where
  | core (n : Fin 384)
  | layer (n : Fin 16)
  | chiplet (n : Fin 8)
  | stream (n : Fin 8)
  deriving DecidableEq, Repr

/-- An entry of a TLB (R160), tagged by its ASID and its page: the page's first virtual address and its level, and the leaf entry
it is a copy of, with that entry's address. -/
structure TlbEntry where
  at_   : TlbAt
  asid  : BitVec 11
  va    : Nat
  level : Nat
  pte   : Nat
  entry : Nat
  deriving DecidableEq, Repr

/-- A peer's access that waits here for a page (R306). -/
structure PodWait where
  asid : BitVec 11
  op   : PodOp
  ofs  : Nat
  data : List Byte
  deriving DecidableEq, Repr

/-- A service request of a recoverable fault (R106, R159). -/
structure Service where
  wave   : Nat
  lanes  : Mask
  reason : BitVec 2
  deriving DecidableEq, Repr

/-- A pod access that its peer has not acknowledged (R178, R306). -/
structure PodAccess where
  id   : Nat
  wave : Nat
  unit : Nat := 0
  member : Nat := 0
  lane : Fin 32
  pkg  : Nat
  asid : BitVec 11
  ofs  : Nat
  op   : PodOp
  data : List Byte
  deriving DecidableEq, Repr

/-- A debug hazard record (R197): a sector written off the lane path, its class and its writer's position; the wave and leader
it was written for, the transfer, and the latch it is counted on (unit, member, offset); and the fences of its accesses,
the latest first: the after-set, the scope and the place of each. -/
structure Hazard where
  sector : Nat := 0
  cls    : BitVec 6
  pos    : Pos
  wave   : Nat := 0
  leader : Fin 32 := 0
  xfer   : Nat := 0
  latch  : Option (Nat × Nat × Nat) := none
  fences : List (BitVec 6 × BitVec 3 × Pos) := []
  deriving DecidableEq, Repr

/-- An NQ4 range register (R154). -/
structure Nq4Range where
  stack : Fin 8
  idx   : Fin 64
  w0    : DWord
  w1    : DWord
  w2    : DWord
  w3    : DWord
  deriving DecidableEq, Repr

/-! ### Contexts -/

/-- Node states, with HYPQ's codes (R259). -/
inductive NodeState where
  | free | live | confirmed | refuted
  deriving DecidableEq, Repr

/-- A node of the hypothesis tree (R252) with its version slots, newest first (R261). -/
structure HypNode where
  st     : NodeState := .free
  parent : BitVec 6 := 0
  depth  : BitVec 3 := 0
  slots  : List Nat := []
  deriving DecidableEq, Repr

/-- A version of one sector (R256): slot, physical sector number, the 32 bytes, the version pool's entry that holds its
line, if one does, and the line's place in the order in which version lines were made (R264). -/
structure Version where
  slot   : Nat
  sector : Nat
  data   : List Byte
  pool   : Option Nat := none
  born   : Nat := 0
  deriving DecidableEq, Repr

/-- What a request at the slot map asks (R261): of `refute`, 0 is every node (HYP_SWEEP, R283). -/
inductive HypOp where
  | new (d : Fin 32)
  | confirm (id : BitVec 6)
  | refute (id : BitVec 6)
  | query (d : Fin 32) (id : BitVec 6)
  deriving DecidableEq, Repr

/-- A request at the slot map (R261): the wave's leaf (none for HYP_SWEEP and teardown), the leader. -/
structure HypReq where
  wave   : Nat
  leaf   : Option (Fin 4)
  leader : Fin 32
  op     : HypOp
  /-- Of HYP_SWEEP: the slot whose packet it is, and the first version slot of the node it names (R283). -/
  slot   : Option (Fin 256) := none
  gen    : Option Nat := none
  deriving DecidableEq, Repr

/-- A bound context (R143, R277). -/
structure Context where
  ctx     : Nat
  asid    : BitVec 11 := 0
  table   : Nat := 0
  lbase   : DWord := 0
  pbase   : DWord := 0
  psize   : DWord := 0
  ibase   : DWord := 0
  vbase   : DWord := 0
  vsize   : DWord := 0
  wtab    : DWord := 0
  supco   : DWord := 0
  trapent : Word := 0
  dbg     : Bool := false
  spill   : DWord := 0
  spsize  : DWord := 0
  tbase   : Word := 0
  tcount  : Word := 0
  /-- The ERRAT an ended context recorded (R282, R299). -/
  ended   : Option Word := none
  nodes   : Vector HypNode 64 := (Vector.replicate 64 {}).set 0 { st := .live, slots := [] }
  vers    : List Version := []
  nextVs  : Nat := 1
  /-- Slots whose lines are still to be folded or discarded (R264). -/
  lazy    : List Nat := []
  /-- Slots that confirms have passed on (R262): the time of the last confirm of each, and whether that was into committed
  memory. -/
  passed  : List (Nat × Nat × Bool) := []
  reqs    : List HypReq := []
  /-- Cores that have not applied the refute at the head of the requests, with the nodes as they still see them (R263). -/
  lag     : List (Fin 384 × Vector HypNode 64) := []
  /-- Every QCB of the context the front end has mapped (R277). -/
  qcbs    : List Nat := []
  deriving DecidableEq, Repr

/-! ### Launches, units and the front end -/

/-- A kernel descriptor as read (R284), with the chosen bucket's entry and bounds. -/
structure Kernel where
  addr  : DWord := 0
  code  : DWord := 0
  waves : Nat := 1
  nw    : Nat := 1
  nh    : Nat := 1
  mx    : Bool := false
  scr   : Nat := 0
  lpriv : Nat := 65536
  hinge : Word := 0
  entry : Word := 0
  shape : Vector Nat 4 := Vector.replicate 4 1
  pad   : Vector Nat 4 := Vector.replicate 4 1
  deriving DecidableEq, Repr

/-- A launch in progress (R283 to R287): `next` is the next workgroup or neighbourhood, `lb` and `li` the first private
block and image granule once taken. -/
structure Launch where
  id     : Nat
  qcb    : Nat
  hdr    : Word
  ctx    : Nat
  k      : Kernel
  nbhd   : Bool
  args   : List Word
  pscr   : Nat := 0
  /-- The granules of its package scratchpad grant, in window order (R148). -/
  grant  : Option (List Nat) := none
  /-- The bytes of a grant reclaimed while the launch is switched out, by window offset (R148). -/
  saved  : Option (List Host.Cell) := none
  /-- Memory as the launch's waves fetch it (R168). -/
  mem0   : Option (List Host.Cell) := none
  next   : Nat := 0
  lb     : Option Nat := none
  li     : Option Nat := none
  /-- Units placed and not yet exited. -/
  live   : Nat := 0
  irq    : Bool := false
  replay : Bool := false
  /-- Its queue was unmapped before it was all placed (R289). -/
  held   : Bool := false
  deriving DecidableEq, Repr

/-- A member of a gang unit: one workgroup, or a task wave (R72, R146, R232). -/
structure Member where
  wg      : Nat
  core    : Fin 384
  base    : Nat
  alloc   : Nat
  image   : Option Nat := none
  /-- The physical address of each 2 KiB of its image, as registered (R147). -/
  frames  : List Nat := []
  /-- It has executed a matrix instruction (R232). -/
  live    : Bool := false
  ppoint  : Word := 0
  stopped : Bool := false
  full    : Bool := false
  exited  : Bool := false
  /-- No wave of it was created: its core stays reserved and idle until the neighbourhood retires (R287). -/
  empty   : Bool := false
  /-- Array save record (R244): tiles and arrays as saved. -/
  tiles   : List (Fin 16 × Tile) := []
  arrays  : List (Fin 2 × ArrayState) := []
  /-- The array save record while its unit is switched out (R244). -/
  record  : List Byte := []
  /-- Latch words a late completion touched (R216). -/
  late    : List Nat := []
  /-- Tiles not named at the last PPOINT, for the debug detector (R233). -/
  unnamed : BitVec 16 := 0
  deriving DecidableEq, Repr

/-- A gang unit: a workgroup, a neighbourhood or a task wave (R72, R242). -/
structure GangUnit where
  handle  : Nat
  ctx     : Nat
  launch  : Option Nat
  task    : Bool := false
  nbhdIx  : Nat := 0
  mx      : Bool := false
  nw      : Nat := 1
  /-- A neighbourhood, placed by R287's search, be it of one member. -/
  nbhd    : Bool := false
  members : List Member
  /-- A switch-out is asked for, since a cycle count (R242). -/
  preempt : Option Nat := none
  out     : Bool := false
  /-- A restore is asked for and waits for cores, transfers or pages (R147, R216, R242). -/
  restore : Bool := false
  /-- Memory as its waves fetch it (R168). -/
  mem0    : Option (List Host.Cell) := none
  /-- The queue its work descends from (R282, R296). -/
  qcb     : Nat := 0
  deriving DecidableEq, Repr

/-- A spawn ring: one per chiplet and context (R292). -/
structure SpawnRing where
  chiplet : Fin 8
  ctx     : Nat
  entries : List SpawnEntry
  deriving DecidableEq, Repr

/-- A TASK_SEED in progress (R283). -/
structure Seed where
  id   : Nat
  qcb  : Nat
  hdr  : Word
  left : Nat
  irq  : Bool
  deriving DecidableEq, Repr

/-- The replay a slot runs (R314): its packet's launch, passes asked and run, and the units captured. -/
structure Replay where
  qcb     : Nat
  launch  : Launch
  reps    : Nat
  passes  : Nat := 0
  sum     : Word := 0
  units   : List (Nat × List Host.Cell) := []
  capfull : Bool := false
  /-- The next pass has restored the captured units, and its refutes are at the slot map. -/
  begun   : Bool := false
  deriving DecidableEq, Repr

/-- Replay status of a slot (R314). -/
structure ReplayStat where
  slot   : Fin 256
  w0     : Word := 0
  first  : Word := 0
  sig1   : Word := 0
  sigN   : Word := 0
  deriving DecidableEq, Repr

/-- A slot with a mapped queue (R288, R289). -/
structure Slot where
  n        : Fin 256
  qcb      : Nat
  ctx      : Nat
  cls      : Fin 4
  mappedAt : Nat
  idleAt   : Nat
  idle     : Bool := false
  /-- The cycle of the last movement of RD or completion, and whether the stall watch has recorded it (R297). -/
  movedAt  : Nat := 0
  stalled  : Bool := false
  /-- Drain step of a forced unmapping, 0 when none (R289). -/
  drain    : Nat := 0
  /-- The WAIT the queue holds (R283). -/
  wait     : Option Packet := none
  /-- Its HYP_SWEEP that is being performed (R283). -/
  sweep    : Option Packet := none
  replay   : Option Replay := none
  deriving DecidableEq, Repr

/-- An event for the Hasp (R296). -/
structure HaspEvent where
  kind   : BitVec 4
  slot   : BitVec 8 := 0
  detail : BitVec 20 := 0
  qcb    : Nat := 0
  deriving DecidableEq, Repr

/-- The Hasp's core (R296): its registers, its 256 KiB of memory, and whether it runs. -/
structure HaspCore where
  pc  : Word := 0
  x   : Vector Word 32 := Vector.replicate 32 0
  mem : List Host.Cell := []
  run : Bool := false
  deriving DecidableEq, Repr

/-- The Hasp and its window (R296). -/
structure Hasp where
  events : List HaspEvent := []
  evq    : DWord := 0
  /-- The value the last read of EVT gave. -/
  evt    : Word := 0
  mapq   : DWord := 0
  min    : Vector (BitVec 9) 4 := Vector.replicate 4 64
  pcur   : BitVec 9 := 0
  seed   : BitVec 3 := 0
  pexcl  : Vector Word 12 := Vector.replicate 12 0
  /-- The ready lists of the classes (R289). -/
  ready  : Vector (List Nat) 4 := Vector.replicate 4 []
  trbase : DWord := 0
  trsize : Word := 0
  tridx  : Word := 0
  /-- The loaded image (R296, R307). -/
  image  : List Byte := []
  core   : HaspCore := {}
  deriving DecidableEq, Repr

/-- The configuration record as applied (R310). -/
structure ConfigRec where
  pkg    : BitVec 6
  pod1   : BitVec 6
  hbm    : BitVec 8
  ports  : BitVec 18
  cores  : BitVec 384
  debug  : Bool
  bytes  : List Byte
  deriving DecidableEq, Repr

/-- The Strike tables as applied (R308). -/
structure StrikeTables where
  types : BitVec 12
  done  : Vector (BitVec 16) 4
  err   : Vector (BitVec 16) 4
  bytes : List Byte
  deriving DecidableEq, Repr

/-- What one of the device's keys has signed (R309): the key's number, its leaf, the message. -/
structure Signed where
  key  : Nat
  leaf : Nat
  msg  : List Byte
  deriving DecidableEq, Repr

/-- Boot status and progress (R307): `step` is the last step done; `halted` a failed step. -/
structure Boot where
  step   : Nat := 0
  stage  : BitVec 4 := 0
  att    : Bool := false
  up     : Bool := false
  leaf   : Nat := 0
  quotes : Nat := 0
  /-- The boot ROM started: RESET_BOOT ran. -/
  on     : Bool := false
  /-- Step 6 signed the boot attestation key (R307): the identity key's leaf and the boot key's number. -/
  cert   : Option (Nat × Nat) := none
  /-- The quotes sent to the host (R309). -/
  sent   : List Signed := []
  deriving DecidableEq, Repr

/-- Jenwald Link (R305). -/
structure Link where
  up      : Bool := true
  since   : Nat := 0
  retries : Nat := 0
  /-- Interrupt messages sent to the host: vector and QCB (R308). -/
  irqs    : List (BitVec 16 × Nat) := []
  /-- The data of the last host read (R305). -/
  read    : List Byte := []
  /-- Lines the host's side still holds of its earlier reads (R302). -/
  buf     : List (Nat × List Byte) := []
  /-- What the package has written to host memory, and the interrupt messages it has sent, while the link is down: they go
  when it is up (R305). -/
  posted  : List Host.Cell := []
  late    : List (BitVec 16 × Nat) := []
  deriving DecidableEq, Repr

/-- A stack's thermal block (R315). -/
structure Thermal where
  temp   : BitVec 12 := 0
  refx   : Bool := false
  tallow : BitVec 7 := 100
  alarm  : BitVec 12 := 680
  /-- TALLOW before the firmware's answer to an alarm, while that answer stands (R316). -/
  before : Option (BitVec 7) := none
  deriving DecidableEq, Repr

/-- A chiplet's monitors (R313); VLINES is computed. -/
structure ChipMon where
  vhigh  : Word := 0
  vpool  : DWord := 0
  merged : DWord := 0
  mcast  : DWord := 0
  coarse : Word := 0
  deriving DecidableEq, Repr

/-- The machine. -/
structure State where
  /-- The wave that issues. -/
  w         : Wave
  /-- The other waves, resident or saved. -/
  others    : List Wave
  /-- Steps of other agents that move next, the model's own (log 4: DESIGN CHOICE). -/
  agenda    : List Instr
  /-- Counter of fresh free values, the model's own (log 5: DESIGN CHOICE). -/
  freeCtr   : Nat
  /-- Names the model gives out: waves, units, launches, transfers. -/
  nextId    : Nat
  /-- Package cycle count (R335, R296). -/
  clk       : DWord
  mem       : List Host.Cell
  lines     : List LineTime
  copies    : List L1Line
  poisoned  : List Nat
  monitors  : List Monitor
  /-- Homes whose monitors are held by class (R183). -/
  coarse    : List Pos
  cores     : List Core
  xfers     : List Xfer
  pods      : List PodAccess
  exchanges : List Exchange
  stalled   : List Stalled
  moved     : List Moved
  tlb       : List TlbEntry
  podWaits  : List PodWait
  services  : List Service
  hazards   : List Hazard
  ranges    : List Nq4Range
  shootSeq  : Nat
  ctxs      : List Context
  launches  : List Launch
  units     : List GangUnit
  rings     : List SpawnRing
  seeds     : List Seed
  slots     : List Slot
  replays   : List ReplayStat
  hasp      : Hasp
  feTime    : DWord
  /-- Rotation of the packers, by chiplet (R293). -/
  packRot   : Vector Nat 8
  config    : Option ConfigRec
  tables    : Option StrikeTables
  boot      : Boot
  link      : Link
  thermal   : Vector Thermal 8
  chips     : Vector ChipMon 8
  deriving DecidableEq, Repr

/-- The machine right after reset (R307): nothing booted, no wave, memory with nothing listed. The idle issuing wave
holds R45's values (log 2: DESIGN CHOICE). -/
def State.reset : State where
  w := {}
  others := []
  agenda := []
  freeCtr := 0
  nextId := 1
  clk := 0
  mem := []
  lines := []
  copies := []
  poisoned := []
  monitors := []
  coarse := []
  cores := []
  xfers := []
  pods := []
  exchanges := []
  stalled := []
  moved := []
  tlb := []
  podWaits := []
  services := []
  hazards := []
  ranges := []
  shootSeq := 0
  ctxs := []
  launches := []
  units := []
  rings := []
  seeds := []
  slots := []
  replays := []
  hasp := {}
  feTime := 0
  packRot := Vector.replicate 8 0
  config := none
  tables := none
  boot := {}
  link := {}
  thermal := Vector.replicate 8 {}
  chips := Vector.replicate 8 {}

end Sys2Proof.Machine
end

