-- ==== Sys2Proof/Machine/Memory.lean ====
section
/-!
DEFINITION. The one byte memory under every window (spec/08_memory.md R149), decoded NQ4 views (R154, R155), the image
lines a scratchpad holds (R147), line times (R164, R165) and condition monitors (R182).
-/

namespace Sys2Proof.Machine

/-! ### The byte list -/

/-- What an unlisted address reads as (log 1: DESIGN CHOICE). -/
def memDefault : Byte := 0

/-- The byte at an address. -/
def memGet : List Host.Cell → Nat → Byte
  | [], _ => memDefault
  | (b, x) :: t, a => if b = a then x else memGet t a

/-- List an address with a byte, in rising order. -/
def memIns (a : Nat) (x : Byte) : List Host.Cell → List Host.Cell
  | [] => [(a, x)]
  | (b, y) :: t => if a < b then (a, x) :: (b, y) :: t else if a = b then (a, x) :: t else (b, y) :: memIns a x t

/-- Write one byte: a byte that reads as an unlisted address does is not listed. -/
def memSet (m : List Host.Cell) (a : Nat) (x : Byte) : List Host.Cell :=
  if x = memDefault then m.filter (fun c => c.1 ≠ a) else memIns a x m

/-- The canonical form: addresses strictly rising, no entry equal to the default. -/
def memWf : List Host.Cell → Bool
  | [] => true
  | [(_, x)] => x ≠ memDefault
  | (a, x) :: (b, y) :: t => x ≠ memDefault && a < b && memWf ((b, y) :: t)

/-- Little-endian bytes to a number (R12). -/
def leNat : List Byte → Nat
  | [] => 0
  | b :: t => b.toNat + 256 * leNat t

/-- A number's `n` little-endian bytes. -/
def leBytes : Nat → Nat → List Byte
  | 0, _ => []
  | n + 1, x => BitVec.ofNat 8 x :: leBytes n (x / 256)

/-- The addresses from `a` on. -/
def span (a n : Nat) : List Nat := (List.range n).map (a + ·)

/-! ### Physical ranges (R149) -/

/-- What a physical range holds. -/
inductive PhysKind where
  | hbm | view | pkgSpad | coreSpad | device | host
  deriving DecidableEq, Repr

/-- The range a physical address lies in, whatever the configuration record enables. -/
def physKind (a : Nat) : Option PhysKind :=
  if a ≤ 0x007FFFFFFFFF then some .hbm
  else if 0x010000000000 ≤ a ∧ a ≤ 0x01FFFFFFFFFF then some .view
  else if 0x020000000000 ≤ a ∧ a ≤ 0x02000FFFFFFF then some .pkgSpad
  else if 0x021000000000 ≤ a ∧ a ≤ 0x021005FFFFFF then some .coreSpad
  else if 0x030000000000 ≤ a ∧ a ≤ 0x0300FFFFFFFF then some .device
  else if 0x8000000000000 ≤ a ∧ a ≤ 0xFFFFFFFFFFFFF then some .host
  else none

/-- First physical address of core n's scratchpad (R149). -/
def spadBase (core : Nat) : Nat := 0x021000000000 + core * 0x40000

/-- First physical address of the package scratchpad (R149). -/
def pkgBase : Nat := 0x020000000000

/-- The stack, and chiplet, of an HBM or view address (R149). -/
def stackOf (a : Nat) : Nat := (a / 2 ^ 12 % 8) ^^^ (a / 2 ^ 21 % 8)

/-- The chiplet that homes a line (R149): a core's scratchpad is homed at the core, on the core's chiplet. -/
def chipletOf (a : Nat) : Nat :=
  match physKind a with
  | some .hbm => stackOf a
  | some .view => stackOf a
  | some .pkgSpad => (a - pkgBase) / 0x2000000
  | some .coreSpad => (a - 0x021000000000) / 0x40000 / 48
  | some .host => a / 2 ^ 12 % 8
  | _ => 0

/-- The enabled cores (R310). -/
def coreMask (s : State) : BitVec 384 :=
  match s.config with
  | some c => c.cores
  | none => BitVec.allOnes 384

/-- Is any core of a chiplet enabled (R310)? -/
def chipletOn (s : State) (c : Nat) : Bool := (List.range 48).any fun i => (coreMask s).getLsbD (48 * c + i)

/-- The enabled stacks (R310). -/
def stackMask (s : State) : BitVec 8 :=
  match s.config with
  | some c => c.hbm
  | none => BitVec.allOnes 8

/-- Is there storage, or a register, at a physical address? The capacities shrink to the stacks, chiplets and cores that the
configuration record enables, and the numbers of the others stay (R10, R310). What an access to the storage of a disabled
component does is not stated: the model answers it as it does an address of no range (log 53: DESIGN CHOICE). -/
def thereAt (s : State) (a : Nat) : Bool :=
  match physKind a with
  | none => false
  | some .hbm | some .view => (stackMask s).getLsbD (stackOf a)
  | some .pkgSpad => chipletOn s ((a - pkgBase) / 0x2000000)
  | some .coreSpad => (coreMask s).getLsbD ((a - 0x021000000000) / 0x40000)
  | some .device | some .host => true

/-- Do bytes lie in host memory while the link, which carries far-tier lines, is down (R305)? -/
def linkHolds (s : State) (pas : List Nat) : Bool := !s.link.up && pas.any fun a => physKind a = some .host

/-! ### Cores -/

/-- A core's record; a core nothing has touched is as at reset. -/
def coreOf (s : State) (n : Fin 384) : Core := (s.cores.find? (fun c => c.n = n)).getD { n := n }

/-- Put a core's record back, in rising order. -/
def insCore (c : Core) : List Core → List Core
  | [] => [c]
  | d :: t => if c.n < d.n then c :: d :: t else if c.n = d.n then c :: t else d :: insCore c t

/-- Replace a core's record. -/
def setCore (s : State) (c : Core) : State := { s with cores := insCore c s.cores }

/-- The core's logical time (R164): it rises with the cycle count. -/
def ltOf (s : State) (n : Fin 384) : Nat := s.clk.toNat + (coreOf s n).lead

/-- Raise a core's logical time to `t` (R165). -/
def raiseLt (s : State) (n : Fin 384) (t : Nat) : State :=
  let c := coreOf s n
  { s with cores := insCore { c with lead := max c.lead (t - s.clk.toNat) } s.cores }

/-! ### Image lines (R147) -/

/-- The scratchpad byte that holds image byte `a`, among a member's registered frames. -/
def routeFrames (base : Nat) (a : Nat) : List Nat → Nat → Option Nat
  | [], _ => none
  | f :: t, j => if f ≤ a ∧ a < f + 2048 then some (base + 2048 * j + (a - f)) else routeFrames base a t (j + 1)

/-- The scratchpad byte that holds image byte `a`, if a resident allocation's image is registered there. -/
def routeOf (s : State) (a : Nat) : Option Nat :=
  s.units.findSome? fun u =>
    if u.out then none else u.members.findSome? fun m => if m.exited then none else routeFrames m.base a m.frames 0

/-- Where a physical byte is kept. -/
def route (s : State) (a : Nat) : Nat := (routeOf s a).getD a

/-! ### NQ4 views (R154, R155) -/

/-- Is a range in force? -/
def Nq4Range.enabled (r : Nq4Range) : Bool := r.w0.extractLsb' 63 1 = 1
/-- CODE. -/
def Nq4Range.code (r : Nq4Range) : Nat := (r.w0.extractLsb' 0 52).toNat
/-- LEN. -/
def Nq4Range.len (r : Nq4Range) : Nat := (r.w1.extractLsb' 0 40).toNat
/-- VIEW. -/
def Nq4Range.view (r : Nq4Range) : Nat := (r.w2.extractLsb' 0 52).toNat
/-- SUP. -/
def Nq4Range.sup (r : Nq4Range) : Nat := (r.w3.extractLsb' 0 52).toNat
/-- SCO = SCXH × 4,096 + SCX. -/
def Nq4Range.sco (r : Nq4Range) : Nat :=
  (r.w1.extractLsb' 40 24).toNat * 4096 + (r.w2.extractLsb' 52 12).toNat

/-- Does a range's view claim the line of an address? -/
def Nq4Range.claims (r : Nq4Range) (a : Nat) : Bool :=
  let l := a / 128 * 128
  r.enabled && r.view ≤ l && l < r.view + 4 * r.len

/-- The lowest-numbered enabled range of the line's own stack that claims it (R155). -/
def rangeFor (s : State) (a : Nat) : Option Nq4Range :=
  (s.ranges.filter (fun r => r.stack.val = stackOf a && r.claims a)).foldl
    (fun best r => match best with
      | none => some r
      | some b => if r.idx < b.idx then some r else some b) none

/-- A byte of memory at its home, views apart. -/
def plainByte (s : State) (a : Nat) : Byte := memGet s.mem (route s a)

/-- A byte of a decoded view: the codebook value of its element (R154); zero where no range claims the line. -/
def viewByte (s : State) (a : Nat) : Byte :=
  match rangeFor s a with
  | none => 0
  | some r =>
    let i := (a - r.view) / 2
    let c := (plainByte s (r.code + i / 2)).toNat / (if i % 2 = 0 then 1 else 16) % 16
    let x := (codebook.getD c 0).toNat
    BitVec.ofNat 8 (if (a - r.view) % 2 = 0 then x else x / 256)

/-- A committed byte by physical address. -/
def physByte (s : State) (a : Nat) : Byte :=
  if physKind a = some .view then viewByte s a else plainByte s a

/-- `n` committed bytes from a physical address, as a number. -/
def physNat (s : State) (a n : Nat) : Nat := leNat ((span a n).map (physByte s))

/-- The view lines that a code sector feeds (R155). -/
def fedViews (s : State) (sec : Nat) : List Nat :=
  (s.ranges.filter fun r => r.enabled && r.code ≤ 32 * sec && 32 * sec < r.code + r.len).filterMap fun r =>
    let v := r.view + 4 * (32 * sec - r.code)
    if (rangeFor s v).any fun x => x.idx = r.idx && x.stack = r.stack then some (v / 128) else none

/-! ### Homes (R149) -/

/-- The L2 slice of an HBM, view or host line (R149). -/
def sliceOf (a : Nat) : Nat := (a / 2 ^ 7 % 32) ^^^ (a / 2 ^ 24 % 32)

/-- The home of the line an address is kept in: a core, or a chiplet's base die; a device register's block sits at the
package. -/
def homeOf (a : Nat) : Pos :=
  match physKind a with
  | some .coreSpad => .core ⟨(a - 0x021000000000) / 0x40000 % 384, Nat.mod_lt _ (by decide)⟩
  | some .device | none => .package
  | some _ => .chiplet ⟨chipletOf a % 8, Nat.mod_lt _ (by decide)⟩

/-! ### Line times (R164, R165) -/

/-- The times of a line: of committed memory, or of a context's version slot. One a home first takes in has the home's
current time, and a version the time and the leases of what it is a copy of (R255). -/
def timeOf (s : State) (ctx slot l : Nat) : LineTime :=
  match s.lines.find? fun x => x.line = l && x.ctx = ctx && x.slot = slot with
  | some x => x
  | none =>
    let top (f : LineTime → Nat) : Nat := if slot = 0 then s.clk.toNat
      else s.lines.foldl (fun t x => if x.line = l && (x.slot = 0 || x.ctx = ctx) then max t (f x) else t) s.clk.toNat
    ⟨l, top (·.wts), top (·.rts), ctx, slot⟩

/-- The times of a line of committed memory. -/
def lineOf (s : State) (l : Nat) : LineTime := timeOf s 0 0 l

/-- Does a line's record stand before another's? -/
def LineTime.before (x y : LineTime) : Bool :=
  x.line < y.line || (x.line = y.line && (x.ctx < y.ctx || (x.ctx = y.ctx && x.slot < y.slot)))

/-- Put a line's times back, in rising order. -/
def insLine (x : LineTime) : List LineTime → List LineTime
  | [] => [x]
  | y :: t => if x.before y then x :: y :: t else if y.before x then y :: insLine x t else x :: t

/-- The line an address is kept in (R147: an image line and its scratchpad line are one). -/
def homeLine (s : State) (a : Nat) : Nat := route s a / 128

/-- The sectors of a list of bytes, grouped by the line they are kept in. -/
def byLine (s : State) (pas : List Nat) : List (List Nat) :=
  let secs := (pas.map (· / 32)).eraseDups
  ((secs.map fun x => homeLine s (32 * x)).eraseDups).map fun l => secs.filter fun x => homeLine s (32 * x) = l

/-- A read at home of a line (R165, R170): its time, given the time sent, and a lease to `ends` at least. -/
def readAt (s : State) (lt ends ctx slot l : Nat) : Nat × State :=
  let x := timeOf s ctx slot l
  let t := max lt x.wts
  (t, { s with lines := insLine { x with rts := max x.rts (max t ends) } s.lines })

/-- A write at home of sectors of one line (R155, R165, R170): its time is past every lease on the line and on the view
lines it feeds, whose time it becomes. -/
def writeAt (s : State) (lt ctx slot : Nat) (secs : List Nat) : Nat × State :=
  let l := homeLine s (32 * secs.headD 0)
  let vs := if slot = 0 then secs.flatMap (fedViews s) else []
  let t := vs.foldl (fun t v => max t ((lineOf s v).rts + 1)) (max lt ((timeOf s ctx slot l).rts + 1))
  (t, { s with lines := vs.foldl (fun y v => insLine ⟨v, t, t, 0, 0⟩ y) (insLine ⟨l, t, t, ctx, slot⟩ s.lines) })

/-- Writes of committed bytes by a path other than the lane path, each line at its time (R170): the greatest. -/
def writeTimes (s : State) (lt : Nat) (pas : List Nat) : Nat × State :=
  (byLine s pas).foldl (fun r g => let x := writeAt r.2 lt 0 0 g; (max r.1 x.1, x.2)) (lt, s)

/-- A read that reaches a chiplet's home may be merged in a miss register there and answered by its multicast reply (R152):
which ones are is timing, so the home's counts rise by what is free (R313; log 5: DESIGN CHOICE). -/
def noteMiss (s : State) (l : Nat) : State :=
  let s1 := { s with freeCtr := s.freeCtr + 1 }
  match homeOf (128 * l) with
  | .chiplet c =>
    let b := Config.freeByte s.freeCtr
    let x := s.chips[c]
    { s1 with chips := s.chips.set c { x with merged := x.merged + (b.extractLsb' 0 1).zeroExtend 64,
                                              mcast := x.mcast + (b.extractLsb' 1 1).zeroExtend 64 } }
  | _ => s1

/-- Reads of committed bytes by a path other than the lane path: the greatest time. -/
def readTimes (s : State) (lt : Nat) (pas : List Nat) : Nat × State :=
  (byLine s pas).foldl (fun r g =>
    let x := readAt r.2 lt 0 0 0 (homeLine s (32 * g.headD 0)); (max r.1 x.1, x.2)) (lt, s)

/-- Writes by another path than the lane path, at times from now on. -/
def touchEngine (s : State) (pas : List Nat) : State := (writeTimes s s.clk.toNat pas).2

/-! ### Writes -/

/-- Does a write of a byte meet a monitor (R182): it watches the byte, or a view line the byte's sector feeds?
(log 27: DEDUCED) -/
def Monitor.meets (s : State) (a b : Nat) (m : Monitor) : Bool :=
  let w := route s m.addr
  (w ≤ b && b < w + m.len) || (fedViews s (a / 32)).contains (m.addr / 128)

/-- Is a monitor held by its line's class met by a write of a line of that class at its home (R183)? -/
def Monitor.classMeets (s : State) (b : Nat) (m : Monitor) : Bool :=
  let w := route s m.addr
  m.coarse && homeOf w = homeOf b && Config.lineClass (w / 128) = Config.lineClass (b / 128)

/-- A monitor that a write at a time has met: the first such write ends its wait (R182, R464). -/
def Monitor.wake (m : Monitor) (t : Nat) : Monitor := if m.woken then m else { m with woken := true, at_ := t }

/-- Mark the monitors that a write of byte `a`, kept at `b`, meets, at the time its line has. -/
def wakeAt (s : State) (a b : Nat) : List Monitor :=
  s.monitors.map fun m => if m.meets s a b || m.classMeets s b then m.wake (lineOf s (b / 128)).wts else m

/-- Write committed bytes at their homes and wake their monitors. The line of each has the write's time already. -/
def writeCells (s : State) : List (Nat × Byte) → State
  | [] => s
  | (a, x) :: t =>
    let b := route s a
    writeCells { s with mem := memSet s.mem b x, monitors := wakeAt s a b } t

/-! ### Monitors of a home (R182, R183) -/

/-- The monitor entries of a home: 256 at a core; at a chiplet 65,536, those of its package scratchpad's lines among them
(log 44: DESIGN CHOICE). -/
def monitorCap : Pos → Nat
  | .core _ => 256
  | _ => 65536

/-- The home of a monitor. -/
def Monitor.home (s : State) (m : Monitor) : Pos := homeOf (route s m.addr)

/-- The entries in use at a home: those of exact monitors. -/
def monitorsAt (s : State) (h : Pos) : Nat := (s.monitors.filter fun m => !m.coarse && m.home s = h).length

/-- Put a monitor at its home: by its line's class while the home's entries are all in use, or have not yet fallen below
three quarters since (R183). An entry into that state is counted (R313). -/
def putMonitor (s : State) (m : Monitor) : State :=
  let h := m.home s
  let was := s.coarse.contains h
  let now := was || monitorCap h ≤ monitorsAt s h
  let s1 := { s with monitors := s.monitors ++ [{ m with coarse := now }], coarse := if now && !was then h :: s.coarse else s.coarse }
  if now && !was then
    let c := chipletOf (route s m.addr) % 8
    let x := s.chips[c]'(Nat.mod_lt _ (by decide))
    { s1 with chips := s1.chips.set c { x with coarse := x.coarse + 1 } (Nat.mod_lt _ (by decide)) }
  else s1

/-- Remove monitors; a home with fewer than three quarters of its entries in use holds new ones exactly again (R183). -/
def dropMonitors (s : State) (p : Monitor → Bool) : State :=
  let s1 := { s with monitors := s.monitors.filter fun m => !p m }
  { s1 with coarse := s1.coarse.filter fun h => 3 * monitorCap h ≤ 4 * monitorsAt s1 h }

/-- Write bytes from a physical address on. -/
def physWrite (s : State) (a : Nat) (bs : List Byte) : State := writeCells s ((span a bs.length).zip bs)

/-- Write a number as `n` little-endian bytes. -/
def physPut (s : State) (a n x : Nat) : State := physWrite s a (leBytes n x)

/-- Write a number on the H path (R170): the bytes at their home, at a time past every lease. -/
def hPut (s : State) (a n x : Nat) : State := physPut (touchEngine s (span a n)) a n x

/-! ### Writes of the package's agents to host memory (R305) -/

/-- Cells that wait for the link. -/
def postCells (s : State) (cells : List (Nat × Byte)) : State :=
  let put (l : List Host.Cell) (c : Nat × Byte) : List Host.Cell := l.filter (fun x => x.1 ≠ c.1) ++ [(c.1, c.2)]
  { s with link := { s.link with posted := cells.foldl put s.link.posted } }

/-- A byte as the package's agents see it, which know what they have posted. -/
def postedByte (s : State) (a : Nat) : Byte := ((s.link.posted.find? fun c => c.1 = a).map (·.2)).getD (physByte s a)

/-- Write a number on the H path, or post it while the link that carries it is down. -/
def postPut (s : State) (a n x : Nat) : State :=
  if linkHolds s [a] then postCells s ((span a n).zip (leBytes n x)) else hPut s a n x

end Sys2Proof.Machine
end

