-- ==== Sys2Proof/Machine/Translate.lean ====
section
/-!
DEFINITION. Windows, page walks and the checks of an access (spec/08_memory.md R142 to R159), and the view a hypothesis
has of memory (spec/14_hypotheses.md R254 to R256).
-/

namespace Sys2Proof.Machine

/-- What an access does. -/
inductive AccKind where
  | load | store | atomic | fetch
  deriving DecidableEq, Repr

/-- Why an access does not go on (R158): a cause that traps, or a recoverable reason 1 not present, 2 MOV, 3 far; 0 is a line
or table in host memory while the link is down, which it waits for (R305). -/
inductive Miss where
  | trap (cause : BitVec 8)
  | recov (reason : BitVec 2)
  deriving DecidableEq, Repr

/-- The TLBs an access looks up (R160): a lane's or a fetch's are its core's, die layer's and chiplet's; a tensor tile's is its
stream unit's; none for an agent that has none. -/
inductive TlbUse where
  | none
  | lane (n : Fin 384)
  | stream
  deriving DecidableEq, Repr

/-- Who makes an access: its context, its gang unit and member, the lane whose slice window 0x01 reaches, supervisor
mode, the hypothesis of the access (0 for accesses that act on committed memory), and its TLBs. -/
structure Accessor where
  ctx    : Nat
  unit   : Nat
  member : Nat
  task   : Bool
  blk    : Nat
  lpriv  : Nat
  lane   : Nat := 0
  sup    : Bool := false
  hyp    : BitVec 6 := 0
  tlb    : TlbUse := .none
  deriving DecidableEq, Repr

/-- An access found legal: where each of its bytes lies, the leaf entries it went through, its first page's attribute and each
byte's, if it goes through pages, and whether it is versioned (R254), with the bytes of a versioned access that are not. A pod access to another package names
it with the offset there; one whose peer-side check in this package failed holds the cause (R306). -/
structure Loc where
  pas     : List Nat
  entries : List Nat := []
  ca      : Nat := 0
  cas     : List Nat := []
  vers    : Bool := false
  plain   : List Nat := []
  peer    : Option (Nat × Nat) := none
  bad     : Option (BitVec 8) := none
  deriving DecidableEq, Repr

/-! ### Contexts and units -/

/-- A context's record, by number. -/
def ctxOf (s : State) (c : Nat) : Option Context := s.ctxs.find? (fun x => x.ctx = c)

/-- Put a context's record back. -/
def setCtx (s : State) (c : Context) : State :=
  { s with ctxs := s.ctxs.map (fun x => if x.ctx = c.ctx then c else x) }

/-- A gang unit, by handle. -/
def unitOf (s : State) (h : Nat) : Option GangUnit := s.units.find? (fun u => u.handle = h)

/-- Put a gang unit's record back. -/
def setUnit (s : State) (u : GangUnit) : State :=
  { s with units := s.units.map (fun x => if x.handle = u.handle then u else x) }

/-- A unit's k-th member. -/
def GangUnit.at (u : GangUnit) (k : Nat) : Option Member := u.members[k]?

/-- Replace a unit's k-th member. -/
def setMember (s : State) (h k : Nat) (f : Member → Member) : State :=
  match unitOf s h with
  | none => s
  | some u =>
    setUnit s { u with members := u.members.zipIdx.map (fun p => if p.2 = k then f p.1 else p.1) }

/-- The launch a unit belongs to. -/
def launchOf (s : State) (h : Nat) : Option Launch :=
  (unitOf s h).bind fun u => u.launch.bind fun l => s.launches.find? (fun x => x.id = l)

/-! ### Page walk (R156, R157) -/

/-- Bit `i` of an entry. -/
def ebit (e i : Nat) : Bool := e / 2 ^ i % 2 = 1

/-- Bits hi..lo of a number. -/
def bitsOf (e hi lo : Nat) : Nat := e / 2 ^ lo % 2 ^ (hi + 1 - lo)

/-- Index bits of a level. -/
def levelIndex (level va : Nat) : Nat :=
  match level with
  | 1 => bitsOf va 56 48
  | 2 => bitsOf va 47 39
  | 3 => bitsOf va 38 30
  | 4 => bitsOf va 29 21
  | _ => bitsOf va 20 16

/-- Bits of the offset in a leaf's page. -/
def leafBits (level : Nat) : Nat := if level = 3 then 30 else if level = 4 then 21 else 16

/-- Is a leaf entry well formed at its level (R157)? -/
def leafOk (level e : Nat) : Bool :=
  3 ≤ level && bitsOf e 63 52 = 0 && bitsOf e 15 14 = 0 && (ebit e 9 || !ebit e 12) && bitsOf e 8 6 ≤ 4 &&
    (bitsOf e 51 16 * 2 ^ 16) % 2 ^ leafBits level = 0 && (physKind (bitsOf e 51 16 * 2 ^ 16)).isSome &&
    physKind (bitsOf e 51 16 * 2 ^ 16) = physKind (bitsOf e 51 16 * 2 ^ 16 + 2 ^ leafBits level - 1)

/-- Is a non-leaf entry well formed at its level (R156)? -/
def tableOk (level e : Nat) : Bool :=
  level < 5 && bitsOf e 63 52 = 0 && (if level = 4 then bitsOf e 7 1 = 0 else bitsOf e 11 1 = 0)

/-- The walk from a table on: the leaf entry's address, the entry, and its level (R156, R158 steps 2 and 3) (log 39: DEDUCED). -/
def walkFrom (s : State) (va : Nat) : Nat → Nat → Nat → Except Miss (Nat × Nat × Nat)
  | 0, _, _ => .error (.trap 0x10)
  | n + 1, level, table =>
    let a := table + 8 * levelIndex level va
    if !thereAt s a then .error (.trap 0x10)
    else if linkHolds s [a] then .error (.recov 0)
    else
      let e := physNat s a 8
      if !ebit e 0 then (if ebit e 63 then .error (.recov 1) else .error (.trap 0x10))
      else if ebit e 13 then (if leafOk level e then .ok (a, e, level) else .error (.trap 0x10))
      else if tableOk level e then walkFrom s va n (level + 1) (bitsOf e 51 8 * 256)
      else .error (.trap 0x10)

/-- Walk a 57-bit virtual address of a context. -/
def walk (s : State) (c : Context) (va : Nat) : Except Miss (Nat × Nat × Nat) := walkFrom s va 5 1 c.table

/-- The physical address a leaf gives. -/
def leafPa (e level va : Nat) : Nat := bitsOf e 51 16 * 2 ^ 16 + va % 2 ^ leafBits level

/-! ### TLBs (R160) -/

/-- Does an entry translate an address of an ASID? -/
def TlbEntry.covers (t : TlbEntry) (asid : BitVec 11) (va : Nat) : Bool :=
  t.asid = asid && t.va / 2 ^ leafBits t.level = va / 2 ^ leafBits t.level

/-- May an access look up an entry: a lane's in its own three TLBs, a stream unit's in that of its stack? -/
def TlbUse.sees (u : TlbUse) (t : TlbEntry) : Bool :=
  match u, t.at_ with
  | .lane n, .core m => n = m
  | .lane n, .layer m => m.val = n.val / 24
  | .lane n, .chiplet m => m.val = n.val / 48
  | .stream, .stream k => chipletOf (leafPa t.entry t.level t.va) % 8 = k.val
  | _, _ => false

/-- The entry an access finds, a lane's in its core's TLB first, then in the die layer's, then in the chiplet's. -/
def tlbFind (s : State) (u : TlbUse) (asid : BitVec 11) (va : Nat) : Option TlbEntry :=
  let found := s.tlb.filter fun t => u.sees t && t.covers asid va
  let level (t : TlbEntry) : Nat := match t.at_ with
    | .core _ | .stream _ => 0
    | .layer _ => 1
    | .chiplet _ => 2
  (List.range 3).findSome? fun k => found.find? fun t => level t = k

/-- Translate an address: by a TLB, else by a walk. -/
def translate (s : State) (u : TlbUse) (c : Context) (va : Nat) : Except Miss (Nat × Nat × Nat) :=
  match tlbFind s u c.asid va with
  | some t => .ok (t.pte, t.entry, t.level)
  | none => walk s c va

/-- How many entries a TLB holds. -/
def tlbSize : TlbAt → Nat
  | .core _ => 128
  | .layer _ => 4096
  | .chiplet _ => 16384
  | .stream _ => 2048

/-- A TLB takes in an entry; the one longest there goes when it is full (log 63: DESIGN CHOICE). -/
def tlbPut (t : TlbEntry) (l : List TlbEntry) : List TlbEntry :=
  let rest := l.filter fun x => !(x.at_ = t.at_ && x.covers t.asid t.va)
  let mine := rest.filter fun x => x.at_ = t.at_
  t :: if tlbSize t.at_ ≤ mine.length then rest.erase (mine.getLastD t) else rest

/-- The entry a walk gives a TLB, if it may hold it: one with MOV only while its exchange lasts. -/
def tlbFill (s : State) (at_ : TlbAt) (c : Context) (va : Nat) : List TlbEntry :=
  match walk s c va with
  | .ok (p, e, level) =>
    if ebit e 10 && s.exchanges.all fun x => x.near ≠ p && x.far ≠ p then s.tlb
    else tlbPut ⟨at_, c.asid, va / 2 ^ leafBits level * 2 ^ leafBits level, level, p, e⟩ s.tlb
  | .error _ => s.tlb

/-- A TLB drawn by a number. -/
def tlbAt (x : Nat) : TlbAt :=
  match x % 4 with
  | 0 => .core ⟨x / 4 % 384, Nat.mod_lt _ (by decide)⟩
  | 1 => .layer ⟨x / 4 % 16, Nat.mod_lt _ (by decide)⟩
  | 2 => .chiplet ⟨x / 4 % 8, Nat.mod_lt _ (by decide)⟩
  | _ => .stream ⟨x / 4 % 8, Nat.mod_lt _ (by decide)⟩

/-- What the TLBs may have done by the end of a cycle: entries have been replaced, and walks of lanes and of stream units that
walk ahead have filled them. Which, the spec leaves to the addresses and the replacement, so it is free (log 63: DESIGN
CHOICE). -/
def tlbTurn (s : State) : State :=
  let n := s.freeCtr
  let kept := (s.tlb.zipIdx.filter fun x => (Config.freeByte (n + x.2)).getLsbD 0).map (·.1)
  let fill (t : List TlbEntry) (i : Nat) : List TlbEntry :=
    let x := (Config.freeDWord (n + i)).toNat
    match s.ctxs[x % (s.ctxs.length + 1)]? with
    | some c => tlbFill { s with tlb := t } (tlbAt (Config.freeWord (n + i)).toNat) c (x / 2 ^ 7)
    | none => t
  { s with freeCtr := n + 1 + s.tlb.length + 4096
           tlb := (List.range ((Config.freeWord n).toNat % 4096)).foldl (fun t i => fill t (i + 1)) kept }

/-- The TLBs give up the entries that `p` picks (R161). -/
def tlbDrop (s : State) (p : TlbEntry → Bool) : State := { s with tlb := s.tlb.filter fun t => !p t }

/-- Checks 4 to 10 of R158 on a leaf entry, for one page of an access. An atomic to a view raises 0x12 as a store does,
before step 8 (log 42: DESIGN CHOICE). -/
def leafMiss (sup : Bool) (kind : AccKind) (vers : Bool) (e pa : Nat) : Option Miss :=
  let ca := bitsOf e 8 6
  let stores : Bool := kind = .store || kind = .atomic
  if (ebit e 5 && !sup) || physKind pa = some .device then some (.trap 0x15)
  else if (kind = .load || kind = .atomic) && !ebit e 1 then some (.trap 0x11)
  else if stores && (!ebit e 2 || physKind pa = some .view) then some (.trap 0x12)
  else if kind = .store && vers && (ca = 2 || ca = 4) then some (.trap 0x12)
  else if kind = .fetch && !ebit e 3 then some (.trap 0x13)
  else if kind = .atomic && (!ebit e 4 || ca = 4) then some (.trap 0x14)
  else if ebit e 10 then some (.recov 2)
  else if ebit e 9 && ebit e 12 then some (.recov 3)
  else none

/-! ### What is versioned (R254) -/

/-- Does a virtual address lie in [base, base + len), all as 57-bit numbers? -/
def within (va base len : Nat) : Bool := base ≤ va && va < base + len

/-- A virtual address as a 57-bit number. -/
def va57 (g : DWord) : Nat := g.toNat % 2 ^ 57

/-- Bytes of one workgroup's lane-private slices. -/
def sliceBytes (lpriv : Nat) : Nat := 32 * lpriv

/-- Does the address lie in a lane-private slice of a launch of the context, or of a task wave of it (R145)? -/
def inSlice (s : State) (c : Context) (va : Nat) : Bool :=
  (s.launches.any fun l => l.ctx = c.ctx && match l.lb with
    | none => false
    | some b => within va (va57 c.lbase + b * sliceBytes l.k.lpriv)
        (((l.k.pad.toList.foldl (· * ·) 1 + 32 * l.k.waves - 1) / (32 * l.k.waves)) * l.k.waves * sliceBytes l.k.lpriv)) ||
  ((s.w :: s.others).any fun w => w.ctx = c.ctx && w.task &&
    within va (va57 c.lbase + w.blk.toNat * sliceBytes w.lpriv) (sliceBytes w.lpriv))

/-- Does the address lie in a scratchpad image of the context (R147)? -/
def inImage (s : State) (c : Context) (va : Nat) : Bool :=
  (s.launches.any fun l => l.ctx = c.ctx && match l.li with
    | none => false
    | some g => within va (va57 c.ibase + 2048 * g)
        (((l.k.pad.toList.foldl (· * ·) 1 + 32 * l.k.waves - 1) / (32 * l.k.waves)) * l.k.scr)) ||
  ((s.w :: s.others).any fun w => w.ctx = c.ctx && w.task && within va (va57 c.ibase + 2048 * w.blk.toNat) 2048)

/-! ### Windows (R142, R144 to R148) -/

/-- The selector of a generic address. -/
def selOf (g : DWord) : Nat := g.toNat / 2 ^ 57

/-- The offset of a generic address. -/
def offOf (g : DWord) : Nat := g.toNat % 2 ^ 57

/-- Is the address in the pod window? -/
def isPod (g : DWord) : Bool := selOf g = 5

/-- Bytes of a virtual access in one page: the first page's part of `n` bytes at `va`. -/
def firstPart (va n : Nat) : Nat := min n (0x10000 - va % 0x10000)

/-- What of a virtual access is versioned (R254): whether its hypothesis counts, and the virtual bytes that act on
committed memory all the same. -/
structure Versioning where
  on    : Bool
  plain : Nat → Bool

/-- Is any byte of a page's part versioned? -/
def Versioning.any (v : Versioning) (va n : Nat) : Bool := v.on && (span va n).any fun a => !v.plain a

/-- One page's part of a virtual access; `mis`: the access is not aligned to its size, which a device page refuses at
step 1 (R381, R430). -/
def pagePart (s : State) (c : Context) (x : Accessor) (kind : AccKind) (v : Versioning) (mis : Bool) (va n : Nat) : Except Miss Loc :=
  match translate s x.tlb c va with
  | .error m => .error m
  | .ok (a, e, level) =>
    let pa := leafPa e level va
    if mis && bitsOf e 8 6 = 4 || !(span pa n).all (thereAt s) then .error (.trap 0x10) else
    match leafMiss x.sup kind (v.any va n) e pa with
    | some m => .error m
    | none =>
      if linkHolds s (span pa n) then .error (.recov 0)
      else .ok { pas := span pa n, entries := [a], ca := bitsOf e 8 6, cas := List.replicate n (bitsOf e 8 6)
                 vers := v.any va n
                 plain := if v.on then (span 0 n).filterMap fun o => if v.plain (va + o) then some (pa + o) else none else [] }

/-- A virtual access of `n` bytes, at most two pages, both checked (R158). Where both fail, the first page's outcome is
taken, whichever step the second fails at (log 43: DESIGN CHOICE). -/
def virtAcc (s : State) (x : Accessor) (kind : AccKind) (va n : Nat) (slice : Bool) : Except Miss Loc :=
  match ctxOf s x.ctx with
  | none => .error (.trap 0x10)
  | some c =>
    let v : Versioning :=
      { on := x.hyp ≠ 0 && kind ≠ .atomic && kind ≠ .fetch && !slice
        plain := fun a => inSlice s c (a % 2 ^ 57) || inImage s c (a % 2 ^ 57) }
    let k := firstPart va n
    match pagePart s c x kind v (kind ≠ .atomic && va % n ≠ 0) va k with
    | .error m => .error m
    | .ok l =>
      if k = n then .ok l
      else
        match pagePart s c x kind v (kind ≠ .atomic && va % n ≠ 0) ((va + k) % 2 ^ 57) (n - k) with
        | .error m => .error m
        | .ok l' =>
          .ok { l with pas := l.pas ++ l'.pas, entries := l.entries ++ l'.entries, cas := l.cas ++ l'.cas, vers := l.vers || l'.vers
                       plain := l.plain ++ l'.plain }

/-- An access inside an on-chip allocation: no page entry checks it (R142). -/
def spadAcc (base limit off n : Nat) : Except Miss Loc :=
  if off + n ≤ limit then .ok { pas := span (base + off) n } else .error (.trap 0x10)

/-- An access of `n` bytes at a generic address, outside the pod window (R142, R158). -/
def resolve (s : State) (x : Accessor) (kind : AccKind) (g : DWord) (n : Nat) : Except Miss Loc :=
  let off := offOf g
  match selOf g with
  | 0x00 => if off + n ≤ 2 ^ 56 then virtAcc s x kind off n false else .error (.trap 0x10)
  | 0x7F => if 2 ^ 56 ≤ off ∧ off + n ≤ 2 ^ 57 then virtAcc s x kind off n false else .error (.trap 0x10)
  | 0x01 =>
    if off + n ≤ x.lpriv then
      match ctxOf s x.ctx with
      | none => .error (.trap 0x10)
      | some c => virtAcc s x kind ((va57 c.lbase + (32 * x.blk + x.lane) * x.lpriv + off) % 2 ^ 57) n true
    else .error (.trap 0x10)
  | 0x02 =>
    match (unitOf s x.unit).bind (·.at x.member) with
    | some m => spadAcc m.base m.alloc off n
    | none => .error (.trap 0x10)
  | 0x03 =>
    match unitOf s x.unit with
    | some u =>
      if x.task then .error (.trap 0x10)
      else
        let a := (u.members[0]?.map (·.alloc)).getD 0
        if a = 0 ∨ u.members.length * a < off + n then .error (.trap 0x10)
        else
          .ok { pas := (span off n).map fun o => ((u.at (o / a)).map (·.base)).getD 0 + o % a }
    | none => .error (.trap 0x10)
  | 0x04 =>
    match launchOf s x.unit with
    | some l =>
      match l.grant with
      | some gs =>
        if off + n ≤ gs.length * 0x10000 then
          .ok { pas := (span off n).map fun o => gs.getD (o / 0x10000) 0 + o % 0x10000 }
        else .error (.trap 0x10)
      | none => .error (.trap 0x10)
    | none => .error (.trap 0x10)
  | _ => .error (.trap 0x10)

/-- The generic address of a scratchpad address (R144): in the neighbourhood window, or in a task wave's granule. -/
def spadGeneric (task : Bool) (a : Nat) : DWord :=
  BitVec.ofNat 64 ((if task then 0x0400000000000000 else 0x0600000000000000) + a)

/-- The bytes of a scratchpad range, if it lies in the accessor's window (R144). -/
def spadRange (s : State) (x : Accessor) (a n : Nat) : Option (List Nat) :=
  match resolve s x .load (spadGeneric x.task a) n with
  | .ok l => some l.pas
  | .error _ => none

/-! ### Views of hypotheses (R255, R256) -/

/-- A node of the tree. -/
def Context.node (c : Context) (h : BitVec 6) : HypNode := c.nodes[h.toNat]

/-- The path from a hypothesis up to, not including, committed memory. -/
def hypChain (c : Context) : Nat → BitVec 6 → List (BitVec 6)
  | 0, _ => []
  | n + 1, h => if h = 0 then [] else h :: hypChain c n (c.node h).parent

/-- A slot's version of a sector. -/
def versionIn (c : Context) (slot sector : Nat) : Option Version :=
  c.vers.find? (fun v => v.slot = slot && v.sector = sector)

/-- The newest version a hypothesis itself holds of a sector. -/
def versionOf (c : Context) (h : BitVec 6) (sector : Nat) : Option Version :=
  (c.node h).slots.findSome? (fun sl => versionIn c sl sector)

/-- The version a party under `h` sees of a sector: of `h`, else of its nearest ancestor (R255). -/
def versionSeen (c : Context) (h : BitVec 6) (sector : Nat) : Option Version :=
  (hypChain c 8 h).findSome? (fun x => versionOf c x sector)

/-- A byte as a party under `h` sees it. -/
def seenByte (s : State) (c : Context) (h : BitVec 6) (a : Nat) : Byte :=
  match versionSeen c h (a / 32) with
  | some v => v.data.getD (a % 32) 0
  | none => physByte s a

/-- A byte of an access as its accessor reads it. -/
def locByte (s : State) (x : Accessor) (l : Loc) (a : Nat) : Byte :=
  if l.vers && !l.plain.contains a then
    match ctxOf s x.ctx with
    | some c => seenByte s c x.hyp a
    | none => physByte s a
  else physByte s a

/-- The bytes an access reads. -/
def locBytes (s : State) (x : Accessor) (l : Loc) : List Byte := l.pas.map (locByte s x l)

/-- The version slot an access of a sector reaches, 0 for committed memory: the newest a load sees (R255); for a store its own
hypothesis' newest version of the sector, else the slot a new one is made in (R256). -/
def versSlot (s : State) (x : Accessor) (l : Loc) (load : Bool) (sector : Nat) : Nat :=
  if l.vers && (span (32 * sector) 32).any fun a => l.pas.contains a && !l.plain.contains a then
    match ctxOf s x.ctx with
    | some c =>
      if load then ((versionSeen c x.hyp sector).map (·.slot)).getD 0 else (((versionOf c x.hyp sector).map (·.slot)).orElse fun _ => (c.node x.hyp).slots.head?).getD 0
    | none => 0
  else 0

/-- How many version lines a chiplet's L2 holds now, over all contexts (R264, R313). -/
def versLines (s : State) (chip : Nat) : Nat :=
  ((s.ctxs.map fun c => ((c.vers.filter fun v => v.pool.isNone && chipletOf (32 * v.sector) = chip).map
    fun v => (c.ctx, v.slot, v.sector / 4)).eraseDups).flatten).length

/-- Version lines a chiplet's L2 can hold: 32 MiB (R152, R264). -/
def versCapacity : Nat := 262144

/-- Are two versions of one line? -/
def Version.sameLine (v w : Version) : Bool := v.slot = w.slot && v.sector / 4 = w.sector / 4

/-- Replay capture of a 64 KiB unit before its first store (R314) (log 15: DEDUCED). -/
def captureUnit (s : State) (ctx : Nat) (u : Nat) : State :=
  { s with slots := s.slots.map fun sl =>
      match sl.replay with
      | some r =>
        if sl.ctx = ctx && r.passes = 0 && !r.capfull && !(r.units.any (fun p => p.1 = u)) then
          if 16384 ≤ r.units.length then { sl with replay := some { r with capfull := true } }
          else
            let cells := s.mem.filter (fun c => c.1 / 0x10000 = u)
            { sl with replay := some { r with units := r.units ++ [(u, cells)] } }
        else sl
      | none => sl }

/-- Capture every unit a store of a context touches. -/
def captureUnits (s : State) (ctx : Nat) (pas : List Nat) : State :=
  ((pas.map (· / 0x10000)).eraseDups).foldl (fun s u => captureUnit s ctx u) s

/-- Does a page table map a 64 KiB unit of physical memory? -/
def mapsUnit (s : State) (u : Nat) : Nat → Nat → Nat → Bool
  | 0, _, _ => false
  | n + 1, level, table => (List.range (if level = 5 then 32 else 512)).any fun i =>
    let e := physNat s (table + 8 * i) 8
    ebit e 0 && (if ebit e 13 then bitsOf e 51 16 ≤ u && u < bitsOf e 51 16 + 2 ^ leafBits level / 0x10000
      else mapsUnit s u n (level + 1) (bitsOf e 51 8 * 256))

/-- Capture the units a write by physical address touches, for every context under replay that maps them (R314). -/
def captureAny (s : State) (pas : List Nat) : State :=
  if s.slots.all fun x => x.replay.isNone then s
  else
    (s.slots.filter fun x => x.replay.isSome).foldl (fun s x => match ctxOf s x.ctx with
      | some c => captureUnits s x.ctx (pas.filter fun a => mapsUnit s (a / 0x10000) 5 1 c.table)
      | none => s) s

/-- Write committed bytes on a path that names physical addresses, after the units they touch are captured (R314). -/
def capturedWrite (s : State) (cells : List (Nat × Byte)) : State := writeCells (captureAny s (cells.map (·.1))) cells

/-- The same at times past every lease, or posted while the link that carries it is down (R305). -/
def sentWrite (s : State) (cells : List (Nat × Byte)) : State :=
  if linkHolds s (cells.map (·.1)) then postCells s cells else capturedWrite (touchEngine s (cells.map (·.1))) cells

/-- The lowest free entry of a context's version pool (R264). -/
def poolEntry (c : Context) : Option Nat :=
  (List.range (min (c.vsize.toNat / 144) (c.vers.length + 1))).find? fun i => c.vers.all fun v => v.pool ≠ some i

/-- Put a pool entry's bytes at its virtual address: the line's sectors, and a tag whose layout is not given (R264, log 55:
DESIGN CHOICE). A page of the pool that is not there takes nothing. -/
def poolPut (s : State) (c : Context) (v : Version) : State :=
  match v.pool with
  | none => s
  | some i =>
    let va := va57 c.vbase + 144 * i
    let cell (o : Nat) (x : Byte) (s : State) : State := match walk s c ((va + o) % 2 ^ 57) with
      | .ok (_, e, level) => sentWrite s [(leafPa e level ((va + o) % 2 ^ 57), x)]
      | .error _ => s
    let s1 := v.data.zipIdx.foldl (fun s (x, j) => cell (32 * (v.sector % 4) + j) x s) s
    (List.range 16).foldl (fun s j => cell (128 + j) (Config.freeByte (s.freeCtr + j)) s) { s1 with freeCtr := s1.freeCtr + 16 }

/-- The oldest version line a chiplet's L2 holds, of the contexts whose pool has a free entry, with that entry (log 55:
DESIGN CHOICE). -/
def oldestLine (s : State) (chip : Nat) : Option (Context × Version × Nat) :=
  (s.ctxs.flatMap fun c => match poolEntry c with
    | none => []
    | some i => (c.vers.filter fun v => v.pool.isNone && chipletOf (32 * v.sector) = chip).map fun v => (c, v, i)).foldl
    (fun b x => match b with
      | none => some x
      | some y => if x.2.1.born < y.2.1.born then some x else some y) none

/-- Write a version line to its context's pool. -/
def spillLine (s : State) (c : Context) (v : Version) (i : Nat) : State :=
  let c' := { c with vers := c.vers.map fun (w : Version) => if w.sameLine v then { w with pool := some i } else w }
  (c'.vers.filter fun (w : Version) => w.sameLine v).foldl (fun s w => poolPut s c' w) (setCtx s c')

/-- Count one line written to a pool (R313 VPOOL), and the greatest VLINES (R313 VHIGH). -/
def noteVers (s : State) (chip : Nat) (spilled : Bool) : State :=
  let m := s.chips[chip % 8]'(Nat.mod_lt _ (by decide))
  let n := versLines s chip
  let m' : ChipMon :=
    { m with vpool := (if spilled then m.vpool + 1 else m.vpool)
             vhigh := (if m.vhigh.toNat < n then BitVec.ofNat 32 n else m.vhigh) }
  { s with chips := s.chips.set (chip % 8) m' (Nat.mod_lt _ (by decide)) }

/-- Make room in a chiplet's L2 for a new version line homed there (R264, R265): where it has none, the oldest line goes to its
context's pool. None where neither has any. -/
def versRoom (s : State) (chip : Nat) : Option State :=
  if versLines s chip < versCapacity then some s
  else (oldestLine s chip).map fun (c, v, i) => noteVers (spillLine s c v i) chip true

/-- Replace a version, or add it last. -/
def putVersion (v : Version) : List Version → List Version
  | [] => [v]
  | x :: t => if x.slot = v.slot ∧ x.sector = v.sector then v :: t else x :: putVersion v t

/-- Put a version in its context's record, and in the pool entry that holds its line. -/
def keepVersion (s : State) (ctx : Nat) (v : Version) : State :=
  match ctxOf s ctx with
  | none => s
  | some c => poolPut (setCtx s { c with vers := putVersion v c.vers }) c v

/-- Store one byte under a hypothesis (R256): its version of the sector is made from what it sees, in its line's pool
entry if that lies there, then written; where the L2 can make no room, in a free entry of its own context's pool. None where
no version line is to be had (R265). A store of a refuted hypothesis is discarded (R263). -/
def versStoreByte (s : State) (ctx : Nat) (h : BitVec 6) (a : Nat) (x : Byte) : Option State :=
  match ctxOf s ctx with
  | none => some s
  | some c =>
    let sec := a / 32
    match versionOf c h sec with
    | some v => some (keepVersion s ctx { v with data := v.data.set (a % 32) x })
    | none =>
      match (c.node h).slots with
      | [] => some s
      | sl :: _ =>
        let d := ((span (32 * sec) 32).map (seenByte s c h)).set (a % 32) x
        let v : Version := { slot := sl, sector := sec, data := d, born := s.nextId }
        match c.vers.find? fun w => w.sameLine v with
        | some w => some (keepVersion s ctx { v with pool := w.pool, born := w.born })
        | none =>
          match versRoom s (chipletOf a) with
          | some s1 => some (noteVers (keepVersion { s1 with nextId := s1.nextId + 1 } ctx v) (chipletOf a) false)
          | none => (poolEntry c).map fun i =>
              noteVers (keepVersion { s with nextId := s.nextId + 1 } ctx { v with pool := some i }) (chipletOf a) true

/-- Store bytes under a hypothesis. -/
def versStore (s : State) (ctx : Nat) (h : BitVec 6) : List (Nat × Byte) → Option State
  | [] => some s
  | (a, x) :: t =>
    match versStoreByte s ctx h a x with
    | none => none
    | some s' => versStore s' ctx h t

/-- Set DIRTY in the leaf entries a store went through (R157, R266). -/
def setDirty (s : State) : List Nat → State
  | [] => s
  | e :: t =>
    let b := physByte s (e + 1)
    setDirty (if b.extractLsb' 3 1 = 1 then s else physWrite s (e + 1) [b ||| 0x08]) t

/-- What every store through page entries does first: units are captured, DIRTY is set. -/
def storeEntries (s : State) (ctx : Nat) (l : Loc) : State :=
  if l.entries = [] then s else setDirty (captureUnits s ctx l.pas) l.entries

/-- Store bytes where an access lies, in the hypothesis's version or in committed memory; none where no version line is
to be had (R265). -/
def storeLoc (s : State) (x : Accessor) (l : Loc) (bs : List Byte) : Option State :=
  let s0 := storeEntries s x.ctx l
  let cells := l.pas.zip bs
  if l.vers then
    versStore (writeCells s0 (cells.filter fun c => l.plain.contains c.1)) x.ctx x.hyp
      (cells.filter fun c => !l.plain.contains c.1)
  else some (writeCells s0 cells)

end Sys2Proof.Machine
end

