-- ==== Sys2Proof/Machine/Ops.lean ====
section
/-!
DEFINITION. What every meaning is built from: the executing agent and its masks, events, waits, the loop stack, lanes that
leave, taking a fault (spec/12_traps.md R235 to R241), returning from one (R240), and ending a unit or a context (R215,
R299).
-/

namespace Sys2Proof.Machine

/-! ### Lanes and masks -/

/-- Is lane `l` in a mask? -/
def inMask (m : Mask) (l : Fin 32) : Bool := m.getLsbD l

/-- The lanes of a mask, ascending (R30). -/
def lanesOf (m : Mask) : List (Fin 32) := allLanes.filter (inMask m)

/-- The lowest lane of a mask, lane 0 of an empty one: the leader (R22). -/
def leaderOf (m : Mask) : Fin 32 := ((lanesOf m).head?).getD 0

/-- How many lanes a mask holds. -/
def popCount (m : Mask) : Nat := (lanesOf m).length

/-- The mask of the lanes where `p` holds. -/
def maskWhere (p : Fin 32 → Bool) : Mask :=
  allLanes.foldl (fun m l => if p l then m ||| laneBit l else m) 0

/-- Lanes of `a` that are not in `b`. -/
def maskDiff (a b : Mask) : Mask := a &&& ~~~b

/-- A per-lane register from a function of the lane. -/
def lanes {α : Type} (f : Fin 32 → α) : Lanes α := Vector.ofFn f

/-- A per-lane register with the lanes of a mask given new values. -/
def setLanes {α : Type} (v : Lanes α) (m : Mask) (f : Fin 32 → α) : Lanes α :=
  Vector.ofFn fun l => if inMask m l then f l else v[l]

/-! ### Waves -/

/-- A wave, by the model's name for it. -/
def waveOf (s : State) (id : Nat) : Option Wave :=
  if s.w.id = id then some s.w else s.others.find? (fun x => x.id = id)

/-- Put a wave's record back. -/
def setWave (s : State) (w : Wave) : State :=
  if s.w.id = w.id then { s with w := w }
  else { s with others := s.others.map (fun x => if x.id = w.id then w else x) }

/-- Every wave of the machine; the idle issuing wave (id 0) is none. -/
def allWaves (s : State) : List Wave := if s.w.id = 0 then s.others else s.w :: s.others

/-- Change every wave. -/
def mapWaves (s : State) (f : Wave → Wave) : State := { s with w := f s.w, others := s.others.map f }

/-- Change the issuing wave. -/
def updW (s : State) (f : Wave → Wave) : State := { s with w := f s.w }

/-- Change the issue record. -/
def updIss (s : State) (f : Issue → Issue) : State := updW s fun w => { w with iss := f w.iss }

/-- Lanes present (R74). -/
def Wave.present (w : Wave) : Mask := ~~~w.absent

/-- The executing agent's mask: its leaf's, the present lanes that are not fault-parked in the handler (R98), the
supervisor leaf's (R239). It is what k0 reads (R40). -/
def Wave.agentMask (w : Wave) : Mask :=
  match w.iss.only, w.iss.agent with
  | some m, _ => m &&& w.present
  | none, .leaf n => w.leaves[n].mask
  | none, .handler => w.present &&& ~~~w.fparked
  | none, .supervisor => w.sup.mask

/-- Registers as a word of the issue reads them: as they stood before the chain (R20). -/
def Wave.src (w : Wave) : Regs := (w.iss.snap.map (·.r)).getD w.r

/-- A lane's hypothesis as a word of the issue reads it (R20, R357). -/
def Wave.hypOf (w : Wave) (l : Fin 32) : BitVec 6 := ((w.iss.snap.map (·.cur)).getD w.cur)[l]

/-- The orphans as a word of the issue reads them (R20, R357). -/
def Wave.orphans (w : Wave) : Mask := (w.iss.snap.map (·.orphan)).getD w.orphan

/-- The port bindings as a word of the issue reads them (R20, R38). -/
def Wave.binding (w : Wave) (p : Fin 4) : DWord := ((w.iss.snap.map (·.ports)).getD w.ports)[p]

/-- A mask register as a source (R40). -/
def Wave.maskReg (w : Wave) (k : Fin 16) : Mask := if k = 0 then w.agentMask else w.src.k[k]

/-- The effective mask under a guard (R19), without the lanes a recoverable fault took out of the chain (R236). -/
def Wave.eff (w : Wave) (gd : Fin 8) : Mask :=
  maskDiff (if gd = 0 then w.agentMask else w.agentMask &&& w.src.k[Fin.castLE (by decide : 8 ≤ 16) gd]) w.iss.excl

/-- The accessor of the issuing wave's lane `l`, under its hypothesis. -/
def Wave.accessor (w : Wave) (l : Fin 32) : Accessor :=
  { ctx := w.ctx, unit := w.unit, member := w.member, task := w.task, blk := w.blk.toNat, lpriv := w.lpriv,
    lane := l, sup := w.mode = .supervisor, hyp := w.hypOf l, tlb := .lane w.core }

/-- The packet the work of a lane descends from: its queue's QCB and its header's index (R282); a task's is its entry's. -/
def Wave.origin (w : Wave) (l : Fin 32) : Nat × Word := if w.task then w.origins[l] else (w.qcb, w.hdr)

/-- The accessor of an access on committed memory. -/
def Wave.committed (w : Wave) (l : Fin 32) : Accessor := { w.accessor l with hyp := 0 }

/-! ### Times of the lane path (R165, R166) -/

/-- An access of the issuing wave has been performed at a time: its core's rises to it, and it is the wave's last. -/
def laneTime (s : State) (t : Nat) : State :=
  updW (raiseLt s s.w.core t) fun w => { w with lastTime := BitVec.ofNat 64 (max w.lastTime.toNat t) }

/-- A load of a line by the issuing wave at the line's home (R165): a lease of λ past the time sent. -/
def laneRead (s : State) (lease ctx slot l : Nat) : State :=
  let lt := ltOf s s.w.core
  let r := readAt s lt (lt + lease) ctx slot l
  laneTime r.2 r.1

/-- A load that may be merged at the home (R152). -/
def laneLoad (s : State) (ctx slot l : Nat) : State := laneRead (noteMiss s l) (Config.lease s.freeCtr) ctx slot l

/-- The mask of a line's sectors among a list (R150). -/
def secMask (secs : List Nat) : BitVec 4 := secs.foldl (fun m x => m ||| BitVec.ofNat 4 (2 ^ (x % 4))) 0

/-- A core's L1 gives up sectors of a line (R151). -/
def l1Drop (n : Fin 384) (l : Nat) (m : BitVec 4) (cs : List L1Line) : List L1Line :=
  cs.filterMap fun x =>
    if x.core ≠ n || x.line ≠ l then some x
    else if x.secs &&& ~~~m = 0 then none else some { x with secs := x.secs &&& ~~~m }

/-- A store or atomic of the issuing wave to sectors of one line (R165): its core's L1 keeps no copy of them (R151). -/
def laneStore (s : State) (ctx slot : Nat) (secs : List Nat) : State :=
  let r := writeAt s (ltOf s s.w.core) ctx slot secs
  let l := homeLine s (32 * secs.headD 0)
  laneTime { r.2 with copies := l1Drop s.w.core l (secMask secs) r.2.copies } r.1

/-- A load of committed bytes, a line at a time. -/
def laneLoads (s : State) (pas : List Nat) : State :=
  (byLine s pas).foldl (fun s g => laneLoad s 0 0 (homeLine s (32 * g.headD 0))) s

/-- A store of committed bytes, a line at a time. -/
def laneStores (s : State) (pas : List Nat) : State := (byLine s pas).foldl (fun s g => laneStore s 0 0 g) s

/-- %round as the wave holds it. -/
def Wave.rnd (w : Wave) : Rnd := Rnd.ofWord w.sr.round

/-! ### Monitors of a core (R311, R312) -/

/-- Count `n` events of a code on the counters that select it (R311). -/
def bump (s : State) (n : Fin 384) (code : BitVec 6) (k : Nat) : State :=
  let c := coreOf s n
  let sel (i : Fin 4) : Bool := c.ctl[i].extractLsb' 6 1 = 1 && c.ctl[i].extractLsb' 0 6 = code
  if k ≠ 0 && (List.finRange 4).any sel then
    setCore s { c with cnt := Vector.ofFn fun i => if sel i then c.cnt[i] + BitVec.ofNat 48 k else c.cnt[i] }
  else s

/-- The bin of a sample (R312). -/
def histBin (h : Hist) (v : Nat) : Nat :=
  if h.log then min 15 (v + 1).log2
  else if v < h.base.toNat then 0 else min 15 ((v - h.base.toNat) / 2 ^ (h.shift.toNat % 32))

/-- One sample in one unit. -/
def histAdd (h : Hist) (v : Nat) : Hist :=
  let b := histBin h v
  { h with
    min := (if v < h.min.toNat then BitVec.ofNat 32 v else h.min)
    max := (if h.max.toNat < v then BitVec.ofNat 32 v else h.max)
    bins := Vector.ofFn fun i => if i.val = b && h.bins[i] ≠ 0xFFFFFFFF then h.bins[i] + 1 else h.bins[i] }

/-- Sample a source on a core's histogram units (R312). -/
def sample (s : State) (n : Fin 384) (src : BitVec 3) (v : Nat) : State :=
  let c := coreOf s n
  if (List.finRange 2).any (fun j => c.hist[j].en && c.hist[j].src = src) then
    setCore s { c with hist := Vector.ofFn fun j =>
      if c.hist[j].en && c.hist[j].src = src then histAdd c.hist[j] v else c.hist[j] }
  else s

/-! ### Leaves -/

/-- The leaf the agent issues from: the supervisor's own, or the numbered one; the handler has none. -/
def Wave.agentLeaf (w : Wave) : Leaf :=
  match w.iss.agent with
  | .leaf n => w.leaves[n]
  | .handler => { mask := w.agentMask, pc := w.hpc, wait := w.hwait }
  | .supervisor => w.sup

/-- Change the agent's leaf; the handler keeps only its wait. -/
def Wave.setAgentLeaf (w : Wave) (f : Leaf → Leaf) : Wave :=
  match w.iss.agent with
  | .leaf n => { w with leaves := w.leaves.set n (f w.leaves[n]) }
  | .handler => { w with hwait := (f w.agentLeaf).wait }
  | .supervisor => { w with sup := f w.sup }

/-- The lowest leaf that names a lane (R74). -/
def leafOfLane (w : Wave) (l : Fin 32) : Option (Fin 4) := (List.finRange 4).find? (fun n => inMask w.leaves[n].mask l)

/-- A lane's resumption offset: its leaf's PC while it is in one, else its own (R74, R77). -/
def laneOffset (w : Wave) (l : Fin 32) : Word :=
  match leafOfLane w l with
  | some n => w.leaves[n].pc
  | none => w.lpc[l]

/-- What a chain that begins now reads its operands from (R20). -/
def Wave.snapNow (w : Wave) : Snap :=
  { r := w.r, lpc := lanes (laneOffset w), cur := w.cur, orphan := w.orphan, ports := w.ports }

/-- A lane's resumption offset as a word of the issue reads it (R20). -/
def Wave.offsetOf (w : Wave) (l : Fin 32) : Word :=
  match w.iss.snap with
  | some x => x.lpc[l]
  | none => laneOffset w l

/-- Take lanes out of every leaf; their offsets stay as given. -/
def Wave.removeLanes (w : Wave) (m : Mask) : Wave :=
  { w with leaves := Vector.ofFn fun n => { w.leaves[n] with mask := maskDiff w.leaves[n].mask m } }

/-- The agent's next PC (R77). -/
def setNext (s : State) (pc : Word) : State := updIss s fun i => { i with next := pc }

/-- Is a lane held or parked and not waiting (R74, R93)? `join` lanes wait at a loop's join. -/
def joinWaiters (w : Wave) : Mask :=
  match w.loops with
  | [] => 0
  | e :: _ =>
    let at_ (l : Fin 32) : Bool := laneOffset w l = e.finish + 4
    let here := maskWhere fun l => inMask (e.mask &&& w.present) l && at_ l
    let live := maskWhere fun l => match leafOfLane w l with
      | some n => !w.leaves[n].held
      | none => false
    if here = (e.mask &&& w.present) then 0 else maskDiff here live

/-- Does a leaf wait as R74 counts it: at a latch, queue, port, spawn queue or condition monitor? -/
def Leaf.waiting (lf : Leaf) : Bool :=
  match lf.wait with
  | some ⟨.monitor, _, _⟩ | some ⟨.latch, _, _⟩ | some ⟨.queue, _, _⟩ | some ⟨.spawn, _, _⟩ | some ⟨.tret .., _, _⟩ => true
  | _ => false

/-- Lanes whose leaf waits (R74). -/
def waitingLanes (w : Wave) : Mask :=
  maskWhere fun l => match leafOfLane w l with
    | some n => w.leaves[n].waiting
    | none => false

/-- Lanes held, or present in no leaf, that are not fault-parked and not waiting: they count toward patience (R74). -/
def countingLanes (w : Wave) : Mask :=
  maskDiff (maskWhere fun l => inMask w.present l && !inMask w.fparked l && match leafOfLane w l with
    | some n => w.leaves[n].held
    | none => true) (waitingLanes w ||| joinWaiters w)

/-- Zero the park counters of lanes (R103). -/
def Wave.unpark (w : Wave) (m : Mask) : Wave :=
  { w with park := setLanes w.park m (fun _ => 0), starved := maskDiff w.starved m }

/-- The least offset over a mask, all ones if it is empty (R100). -/
def leastOffset (w : Wave) (m : Mask) : Word :=
  (lanesOf m).foldl (fun p l => if (laneOffset w l).toNat < p.toNat then laneOffset w l else p) 0xFFFFFFFF

/-! ### Events (R94, R96) -/

/-- Raise an event of a leaf: the leaf is suspended until delivery. A resume that stood in the slot, of a leaf 3 that the
override has placed (R105), waits for the slot to be free again (R96). -/
def Wave.raiseLeaf (w : Wave) (n : Fin 4) (e : Event) : Wave :=
  { w with leaves := w.leaves.set n { w.leaves[n] with pend := some { e with order := w.evOrder } },
           resumes := w.resumes ++ (w.leaves[n].pend.filter fun x => x.cause = 5).toList
           evOrder := w.evOrder + 1 }

/-- Raise a starve event, `imm` by R104: a pending one takes the mask too (R96). -/
def Wave.raiseStarve (w : Wave) (m : Mask) (imm : Bool) : Wave :=
  match w.starve with
  | some e =>
    let m' := e.mask ||| m
    let e' : Event := { e with mask := m', k14 := m', pc0 := leastOffset w m', at104 := e.at104 || imm }
    { w with starve := some e' }
  | none =>
    let e' : Event := { cause := 4, mask := m, k14 := m, pc0 := leastOffset w m, leaf := 0, order := w.evOrder,
                        at104 := imm }
    { w with starve := some e', evOrder := w.evOrder + 1 }

/-- R104: no live leaf holds a lane while some lane is held or parked and not waiting. -/
def starvedNow (w : Wave) : Mask :=
  let live : Bool := (List.finRange 4).any fun n => !w.leaves[n].held && w.leaves[n].mask ≠ 0
  if live then 0 else countingLanes w

/-- A starve event is raised at once where R104 says so; a pending one takes the mask too (R96). -/
def Wave.checkStarved (w : Wave) : Wave :=
  let m := starvedNow w
  if w.mode = .program && m ≠ 0 then w.raiseStarve m true else w

/-! ### Wave issue cycles (R78, R103) -/

/-- The lanes whose park counters rise in a wave issue cycle (R103): held or parked and not waiting; while the handler
runs also those it has placed, until HRET (R101, R115) (log 41: DEDUCED). -/
def Wave.counts (w : Wave) : Mask :=
  if w.mode = .hinge then countingLanes w ||| (w.hcounts &&& w.present) else countingLanes w

/-- Stage 1 (R103): lanes whose counter has reached %patience enter the starve mask once. -/
def Wave.stage1 (w : Wave) : Wave :=
  let m := maskDiff (w.counts &&& maskWhere fun l => w.sr.patience.toNat ≤ w.park[l].toNat) w.starved
  if m = 0 then w else { w with starved := w.starved ||| m }.raiseStarve m false

/-- One wave issue cycle in which the lanes `m` count (R78, R103): in supervisor mode counters do not rise (R238). -/
def Wave.cycle (w : Wave) (m : Mask) : Wave :=
  let w := { w with cycles := w.cycles + 1, waitCtr := 0 }
  if w.mode = .supervisor then w
  else
    let cap := 2 * w.sr.patience.toNat
    let m := m &&& w.counts
    let up (l : Fin 32) : DWord := if w.park[l].toNat < cap then w.park[l] + 1 else w.park[l]
    { w with park := setLanes w.park m up }.stage1

/-- `n` wave issue cycles. -/
def Wave.cyclesN (w : Wave) : Nat → Wave
  | 0 => w
  | n + 1 => (w.cycle w.counts).cyclesN n

/-! ### The loop stack (R87 to R89) -/

/-- The loop stack the agent's words act on (R365). -/
def Wave.agentLoops (w : Wave) : List LoopEntry :=
  match w.iss.agent with
  | .supervisor => w.supLoops
  | _ => w.loops

/-- Replace the agent's loop stack. -/
def Wave.setLoops (w : Wave) (ls : List LoopEntry) : Wave :=
  match w.iss.agent with
  | .supervisor => { w with supLoops := ls }
  | _ => { w with loops := ls }

/-- Pop the entries on top whose mask is empty (R89). -/
def popEmpty (ls : List LoopEntry) : List LoopEntry := ls.dropWhile (fun e => e.mask = 0)

/-- Does an offset lie in an entry's range? -/
def inRange (e : LoopEntry) (pc : Word) : Bool := e.start.toNat ≤ pc.toNat && pc.toNat ≤ e.finish.toNat

/-- A taken branch from `src` takes each lane out of the entries whose range it leaves (R89). -/
def unwind (ls : List LoopEntry) (m : Mask) (src : Word) (tgt : Fin 32 → Word) : List LoopEntry :=
  popEmpty (ls.map fun e =>
    if inRange e src then { e with mask := maskDiff e.mask (maskWhere fun l => inMask m l && !inRange e (tgt l)) }
    else e)

/-- Unwind the agent's stack; the handler has none. -/
def Wave.unwindAgent (w : Wave) (m : Mask) (src : Word) (tgt : Fin 32 → Word) : Wave :=
  match w.iss.agent with
  | .handler => w
  | _ => w.setLoops (unwind w.agentLoops m src tgt)

/-! ### Trace, interrupts and queue control blocks (R276, R282, R298, R308) -/

/-- Read a field of a queue control block. -/
def qcbGet (s : State) (q off n : Nat) : Nat := leNat ((span (q + off) n).map (postedByte s))

/-- Write a field of a queue control block, on the H path. -/
def qcbPut (s : State) (q off n x : Nat) : State := postPut s (q + off) n x

/-- Write a trace record (R298); REASON is the firmware's own code, a free byte (log 18: DESIGN CHOICE). -/
def trace (s : State) (kind slot cls qcb core cores ctx : Nat) : State :=
  let h := s.hasp
  if h.trsize = 0 then s
  else
    let a := h.trbase.toNat + 32 * (h.tridx.toNat % h.trsize.toNat)
    let rec_ := leBytes 8 s.clk.toNat ++ leBytes 2 kind ++ leBytes 2 slot ++ leBytes 1 cls ++ [Config.freeByte s.freeCtr] ++
      leBytes 2 0 ++ leBytes 8 qcb ++ leBytes 4 (core + 512 * cores) ++ leBytes 4 ctx
    let s1 := { s with freeCtr := s.freeCtr + 1 }
    let s' := if linkHolds s [a] then postCells s1 ((span a 32).zip rec_) else physWrite (touchEngine s1 (span a 32)) a rec_
    { s' with hasp := { h with tridx := BitVec.ofNat 32 ((h.tridx.toNat + 1) % h.trsize.toNat) } }

/-- Post an event for the Hasp (R296). -/
def haspEvent (s : State) (kind : BitVec 4) (slot : Nat) (detail : Nat) (qcb : Nat) : State :=
  { s with hasp := { s.hasp with
      events := s.hasp.events ++ [⟨kind, BitVec.ofNat 8 slot, BitVec.ofNat 20 detail, qcb⟩] } }

/-- Send a host interrupt of a queue's class: the completion or the error vector (R308); it waits for the link (R305). -/
def hostIrq (s : State) (cls : Fin 4) (error : Bool) (qcb : Nat) : State :=
  match s.tables with
  | none => s
  | some t =>
    let m := (if error then t.err[cls] else t.done[cls], qcb)
    { s with link := if s.link.up then { s.link with irqs := s.link.irqs ++ [m] } else { s.link with late := s.link.late ++ [m] } }

/-- The class of a queue (R276). -/
def qcbClass (s : State) (q : Nat) : Fin 4 := (BitVec.ofNat 2 (qcbGet s q 0x18 4 / 16)).toFin

/-- A held WAIT is given back (R283): RD returns to its header and its monitor goes. -/
def giveBack (s : State) (x : Slot) : State :=
  match x.wait with
  | none => s
  | some p =>
    let s1 := qcbPut s x.qcb 0x0C 4 p.at_.toNat
    let s2 := qcbPut s1 x.qcb 0x40 8 (qcbGet s x.qcb 0x40 8 + 2 ^ 64 - 1)
    dropMonitors s2 fun m => m.wave = 0 && m.leaf.isNone && m.slot = some x.n

/-- A queue's slot is released (R289): its cycles are counted, SLOT is written. -/
def releaseSlot (s : State) (x : Slot) : State :=
  let s1 := qcbPut (giveBack s x) x.qcb 0x50 8 (qcbGet s x.qcb 0x50 8 + (s.clk.toNat - x.mappedAt))
  let s2 := qcbPut s1 x.qcb 0x34 4 0xFFFF
  { s2 with slots := s2.slots.filter fun y => y.n ≠ x.n }

/-- A queue error (R282): STATE 5, ERR and ERRAT, a host interrupt, an event and a trace record; the queue is no longer
mapped (log 9: DEDUCED). -/
def queueError (s : State) (q : Nat) (code : Nat) (errat : Word) : State :=
  let slot := (s.slots.find? (fun x => x.qcb = q)).map (·.n.val)
  let s := (s.slots.filter fun x => x.qcb = q).foldl releaseSlot s
  let cls := qcbClass s q
  let flags := qcbGet s q 0x18 4
  let s := qcbPut s q 0x18 4 (flags / 8 * 8 + 5)
  let s := qcbPut s q 0x38 4 code
  let s := qcbPut s q 0x3C 4 errat.toNat
  let s := hostIrq s cls true q
  let s := haspEvent s 7 (slot.getD 0) code q
  trace s 11 (slot.getD 0xFFFF) cls q 0 0 (qcbGet s q 0x1C 2)

/-! ### Ending units and contexts (R215, R299) -/

/-- Zero a range of memory. -/
def memZero (m : List Host.Cell) (a n : Nat) : List Host.Cell := m.filter fun c => !(a ≤ c.1 && c.1 < a + n)

/-- Is an address in a member's allocation? -/
def inMember (m : Member) (a : Nat) : Bool := m.base ≤ a && a < m.base + m.alloc

/-- The physical byte of a saved allocation's image (R147); none while its page cannot be reached. -/
def imageByte (s : State) (u : GangUnit) (m : Member) (o : Nat) : Option Nat :=
  match m.image, ctxOf s u.ctx with
  | some g, some c =>
    let va := (va57 c.ibase + 2048 * g + o) % 2 ^ 57
    match walk s c va with
    | .ok (_, e, level) => some (leafPa e level va)
    | .error _ => none
  | _, _ => none

/-- Where a unit's scratchpad address lies now (R144): in the allocation, or in its image while the unit is out (R216). -/
def winByte (s : State) (unit member o : Nat) : Option Nat :=
  match unitOf s unit with
  | none => none
  | some u =>
    let a := max 1 ((u.members[0]?.map (·.alloc)).getD 1)
    match u.at (if u.task then member else o / a) with
    | none => none
    | some m => if u.out then imageByte s u m (if u.task then o else o % a) else some (m.base + (if u.task then o else o % a))

/-- The bytes of a scratchpad range. -/
def winBytes (s : State) (unit member o n : Nat) : Option (List Nat) := (span o n).mapM (winByte s unit member ·)

/-- The frames of a member's image, a 2 KiB granule each: as registered, or of a switched-out unit those whose page can be
reached (R147). -/
def granules (s : State) (u : GangUnit) (m : Member) : List Nat :=
  if u.out then (List.range (m.alloc / 2048)).filterMap fun j => imageByte s u m (2048 * j) else m.frames

/-- Zero a member's allocation, if it is resident, and its image, all at one logical time, past every lease on their
lines; their monitors are woken (R147, R182). -/
def zeroMember (s : State) (u : GangUnit) (m : Member) : State :=
  let fs := granules s u m
  let s := captureAny s fs
  let pad (a : Nat) : Bool := !u.out && inMember m a
  let inside (a : Nat) : Bool := pad a || fs.any fun f => f ≤ a && a < f + 2048
  let t := s.lines.foldl (fun t x => if inside (128 * x.line) then max t (x.rts + 1) else t) s.clk.toNat
  let mem := if u.out then s.mem else memZero s.mem m.base m.alloc
  let lines := s.lines.map fun x => if pad (128 * x.line) then { x with wts := t, rts := t } else x
  { s with
    mem := fs.foldl (fun x f => memZero x f 2048) mem
    copies := s.copies.filter fun c => !inside (128 * c.line)
    monitors := s.monitors.map fun x => if inside (route s x.addr) then x.wake t else x
    lines := if t = s.clk.toNat then lines
      else (fs.flatMap fun f => span (f / 128) 16).foldl (fun y l => insLine ⟨l, t, t, 0, 0⟩ y) lines }

/-- Poison a latch at a physical address (R215, R204). -/
def poisonLatch (s : State) (a : Nat) : State := hPut (captureAny s (span a 16)) a 16 (physNat s a 16 ||| 0x20)

/-- Cancel a member's transfers (R215): a latch outside the allocation is poisoned. -/
def cancelXfers (s : State) (u : GangUnit) (k : Nat) : State :=
  let mine := s.xfers.filter fun x => x.unit = u.handle && x.member = k
  let a := max 1 ((u.members[0]?.map (·.alloc)).getD 1)
  let s := mine.foldl (fun s x => match x.latch with
    | none => s
    | some o =>
      if u.task || o / a = k then s
      else match winByte s u.handle k o with
        | some b => poisonLatch s b
        | none => s) s
  { s with xfers := s.xfers.filter fun x => !(x.unit = u.handle && x.member = k) }

/-- Reset the arrays of a core (R217, R234). -/
def resetArrays (s : State) (n : Fin 384) : State :=
  if s.cores.any (fun c => c.n = n) then
    setCore s { coreOf s n with arrays := Vector.replicate 2 {}, tiles := Vector.replicate 16 [] }
  else s

/-- Drop the waves of a gang unit's member, and their monitors. The issuing wave becomes idle if it is one. -/
def dropWaves (s : State) (p : Wave → Bool) : State :=
  let ids := ((allWaves s).filter p).map (·.id)
  let s := dropMonitors s fun m => ids.contains m.wave
  { s with
    w := if p s.w && s.w.id ≠ 0 then {} else s.w
    others := s.others.filter (fun w => !p w)
    services := s.services.filter fun m => !ids.contains m.wave }

/-- Kill a member of a gang unit (R215). -/
def killMember (s : State) (h k : Nat) : State :=
  match unitOf s h, (unitOf s h).bind (·.at k) with
  | some u, some m =>
    let s := cancelXfers s u k
    let s := dropWaves s fun w => w.unit = h && w.member = k
    let s := if m.exited then s else zeroMember s u m
    let s := if m.live && !m.exited && !u.out then resetArrays s m.core else s
    setMember s h k fun m => { m with exited := true, frames := [] }
  | _, _ => s

/-- Kill a gang unit and forget it. -/
def killUnit (s : State) (h : Nat) : State :=
  let n := ((unitOf s h).map (·.members.length)).getD 0
  let s := (List.range n).foldl (fun s k => killMember s h k) s
  { s with units := s.units.filter fun u => u.handle ≠ h }

/-- The nodes of a subtree: `h` and every node whose path leads to it. -/
def inSubtree (c : Context) (h x : BitVec 6) : Bool := (hypChain c 8 x).contains h

/-- The hypothesis of engine work and held accesses of a context changes (R257, R363): `f` gives the new one, `gone` says
whose stores are discarded, and those whose hypothesis changes are performed above `floor`. -/
def remapEngines (s : State) (ctx : Nat) (f : BitVec 6 → BitVec 6) (gone : BitVec 6 → Bool) (floor : Nat) : State :=
  let lane (x : XferLane) : XferLane := { x with hyp := f x.hyp, orphan := x.orphan || gone x.hyp }
  let held (h : Held) : Held :=
    let m := maskWhere fun l => gone h.snap.cur[l]
    { h with
      floor := if allLanes.any fun l => f h.snap.cur[l] ≠ h.snap.cur[l] then max h.floor floor else h.floor
      snap := { h.snap with cur := lanes fun l => f h.snap.cur[l], orphan := h.snap.orphan ||| m } }
  let moved (x : Xfer) : Bool := f x.hyp ≠ x.hyp || x.lanes.any fun l => f l.hyp ≠ l.hyp
  let s1 := mapWaves s fun w => if w.ctx = ctx && w.held ≠ [] then { w with held := w.held.map held } else w
  { s1 with
    xfers := s.xfers.map fun x =>
      if x.ctx = ctx then
        { x with hyp := f x.hyp, orphan := x.orphan || gone x.hyp, lanes := x.lanes.map lane
                 floor := if moved x then max x.floor floor else x.floor }
      else x
    cores := s.cores.map fun c => { c with arrays := Vector.ofFn fun i =>
      { c.arrays[i] with mlds := c.arrays[i].mlds.map fun m => if m.ctx = ctx then { m with hyp := f m.hyp } else m } } }

/-- A node's part of a subtree being refuted (R263): its slots go with it until they are discarded. -/
def refutedNodes (c : Context) (h : BitVec 6) : BitVec 6 → Bool := fun x =>
  x ≠ 0 && (c.node x).st = .live && inSubtree c h x

/-- The slot map after a refute. -/
def refuteMap (c : Context) (h : BitVec 6) : Context :=
  let sub := refutedNodes c h
  let gone := ((List.finRange 64).filter fun (i : Fin 64) => sub (BitVec.ofNat 6 i)).flatMap fun i => c.nodes[i].slots
  { c with
    nodes := Vector.ofFn fun i => if sub (BitVec.ofNat 6 i) then { c.nodes[i] with st := .refuted } else c.nodes[i]
    lazy := c.lazy ++ gone }

/-- The nearest hypothesis on the path from `h` up that is not refuted. -/
def liveAbove (c : Context) : Nat → BitVec 6 → BitVec 6
  | 0, _ => 0
  | n + 1, h => if h = 0 then 0 else if (c.node h).st = .refuted then liveAbove c n (c.node h).parent else h

/-- State code of a lane: 0 live, 1 held, 2 parked, 3 fault-parked, 4 absent (R243). -/
def laneState (w : Wave) (l : Fin 32) : Nat :=
  if inMask w.absent l then 4
  else if inMask w.fparked l then 3
  else match leafOfLane w l with
    | some n => if w.leaves[n].held then 1 else 0
    | none => 2

/-- A lane's status word (R243). -/
def laneStatus (w : Wave) (l : Fin 32) : Word :=
  BitVec.ofNat 32 (w.cur[l].toNat + (if inMask w.orphan l then 64 else 0) + (if inMask w.notified l then 128 else 0) +
    256 * laneState w l + 2048 * (if inMask w.fparked l then w.reason[l].toNat else 0))

/-- The status words of a saved wave's record follow its lanes (R243, R266). -/
def Wave.resaved (w : Wave) : Wave :=
  let part (o n : Nat) : List Byte := (w.saved.drop o).take n
  let lane (l : Fin 32) : List Byte :=
    part (0x2EC0 + 16 * l) 4 ++ leBytes 4 (laneStatus w l).toNat ++ part (0x2EC0 + 16 * l + 8) 8
  if w.res = .out then { w with saved := part 0 0x2EC0 ++ allLanes.flatMap lane ++ w.saved.drop 0x30C0 } else w

/-- A wave's lanes under a refuted node become orphans and stand under its parent, in its save record too (R263, R266). -/
def Wave.applyRefute (w : Wave) (c : Context) : Wave :=
  let m := maskWhere fun l => (c.node w.cur[l]).st = .refuted
  if m = 0 then w
  else
    { w with orphan := w.orphan ||| m, notified := maskDiff w.notified m, cur := setLanes w.cur m fun l => liveAbove c 64 w.cur[l] }.resaved

/-- Refute a subtree (R263): its nodes, its versions, the engine work under it, and the lanes of the waves that `now` names;
the others' cores apply it later. -/
def refuteFor (s : State) (ctx : Nat) (h : BitVec 6) (now : Wave → Bool) : State :=
  match ctxOf s ctx with
  | none => s
  | some c =>
    let p := (c.node h).parent
    let sub := refutedNodes c h
    let c' := refuteMap c h
    let s1 := remapEngines (setCtx s c') ctx (fun x => if sub x then p else x) sub 0
    mapWaves s1 fun w => if w.ctx = ctx && w.id ≠ 0 && now w then w.applyRefute c' else w

/-- Refute a subtree, everywhere at once. -/
def refuteNode (s : State) (ctx : Nat) (h : BitVec 6) : State := refuteFor s ctx h fun _ => true

/-- Refute every live node of a context (R266, R299), for the lanes of the waves that `now` names. -/
def refuteAllFor (s : State) (ctx : Nat) (now : Wave → Bool) : State :=
  (List.finRange 64).foldl (fun s (i : Fin 64) =>
    match ctxOf s ctx with
    | none => s
    | some c =>
      if i ≠ 0 && c.nodes[i].st = .live && c.nodes[i].parent = 0 then refuteFor s ctx (BitVec.ofNat 6 i) now else s) s

/-- Refute every live node of a context, everywhere at once. -/
def refuteAll (s : State) (ctx : Nat) : State := refuteAllFor s ctx fun _ => true

/-- ERRAT of an ended context (R282). -/
def endErrat (core code sub : Nat) : Word := BitVec.ofNat 32 (core * 0x10000 + code * 0x100 + sub)

/-- A context ends (R299): its units are killed, its hypotheses refuted, its queues get ERR 0x28, its slots are
released. `core` is 0x1FF when no core is concerned. -/
def endContext (s : State) (ctx code sub core : Nat) : State :=
  match ctxOf s ctx with
  | none => s
  | some c =>
    if c.ended.isSome then s
    else
      let errat := endErrat core code sub
      let us := (s.units.filter fun u => u.ctx = ctx).map (·.handle)
      let s := us.foldl killUnit s
      let s := dropWaves s fun w => w.ctx = ctx
      let s := refuteAll s ctx
      let s := setCtx s { (ctxOf s ctx).getD c with ended := some errat, reqs := [], lag := [] }
      let s := c.qcbs.foldl (fun s q => queueError s q 0x28 errat) s
      let s := haspEvent s 8 0 ctx 0
      let s := trace s 10 0xFFFF 0 0 0 0 ctx
      { s with
        launches := s.launches.filter fun l => l.ctx ≠ ctx
        rings := s.rings.filter fun r => r.ctx ≠ ctx
        seeds := s.seeds.filter fun x => !c.qcbs.contains x.qcb
        xfers := s.xfers.filter fun x => x.ctx ≠ ctx }

/-! ### Taking a fault, and returning (R236 to R240) -/

/-- The wave enters supervisor mode with a fault's trap registers (R238): the program's leaves, rotation and loop stack
stand as the interrupted state; one supervisor leaf of the present lanes starts at the trap entry. A wave that stood
stopped for a switch-out runs its trap handler first (R242), and one that takes its trap waits for its turn no more (R83). -/
def Wave.enterTrap (w : Wave) (f : FaultRec) (entry : Word) : Wave :=
  { w with
    sr := { w.sr with trapcause := f.cause.zeroExtend 32, trapinfo0 := f.info0, trapinfo1 := f.info1,
                      trapinfo2 := f.info2, trapinfo3 := f.info3 }
    sup := { mask := w.present, pc := entry }
    supLoops := []
    supHinge := w.mode = .hinge
    supFault := w.mode = .hinge && f.cause = 0x03
    hpc := if w.mode = .hinge then w.iss.first else w.hpc
    hwait := none
    mode := .supervisor
    res := if w.res = .stopped then .resident else w.res
    waitCtr := 0
    iss := { w.iss with fault := some f } }

/-- The trap entry offset of the wave's context (R238). -/
def trapEntryOf (s : State) : Word := ((ctxOf s s.w.ctx).map (·.trapent)).getD 0

/-- The issuing wave takes a fault (R236, R238): trap entry, or in supervisor mode the end of its context with 0x0F
(R239). -/
def takeFault (s : State) (f : FaultRec) : State :=
  if s.w.mode = .supervisor then endContext s s.w.ctx 0x0F 0 s.w.core
  else { s with w := s.w.enterTrap f (trapEntryOf s) }

/-- A precise fault of the word being issued: its offset goes to %trapinfo1 (R235). -/
def fault (s : State) (cause : BitVec 8) (info0 : Word) (info2 : Word := 0) (info3 : Word := 0) : State :=
  takeFault s ⟨cause, info0, s.w.iss.pc, info2, info3⟩

/-- A precise fault that names a generic address (R159, R214). -/
def faultAt (s : State) (cause : BitVec 8) (info0 : Word) (g : DWord) : State :=
  fault s cause info0 g.loWord g.hiWord

/-- A bad-handle fault (R214). -/
def badHandle (s : State) (sub : Nat) (g : DWord) : State := faultAt s 0x07 (BitVec.ofNat 32 sub) g

/-- An imprecise fault arrives at a wave's pending list (R237): a ninth ends the context. -/
def pushPending (s : State) (wave : Nat) (f : FaultRec) : State :=
  match waveOf s wave with
  | none => s
  | some w =>
    if 8 ≤ w.pending.length then endContext s w.ctx 0x0F 0 w.core
    else setWave s { w with pending := w.pending ++ [f] }

/-! ### The costs of fences (R177) -/

/-- The costs of a pair of classes by scope (R177); none for a dash. The full package's values hold in every
partition, whose own the spec only bounds by them (log 46: DESIGN CHOICE). -/
def costRow (b a : Nat) : List (Option Nat) :=
  let n : Option Nat := none
  match min b a, max b a with
  | 0, 0 => [some 0, some 0, some 0, some 0, some 0, some 0, some 900]
  | 0, 1 | 1, 1 => [n, some 40, some 60, some 120, some 260, some 420, some 1400]
  | 0, 3 => [n, some 12, some 12, some 12, some 12, some 12, some 900]
  | 1, 3 => [n, some 20, some 60, some 120, some 260, some 420, some 1400]
  | 3, 3 => [n, some 12, some 12, some 12, some 12, some 12, some 12]
  | 0, 2 | 1, 2 | 2, 2 | 2, 3 => [n, n, n, some 150, some 300, some 460, some 1500]
  | 0, 5 | 1, 5 | 2, 5 | 3, 5 | 5, 5 => [n, n, n, n, n, some 600, some 1600]
  | 0, 4 | 3, 4 | 4, 4 => [n, n, n, n, n, n, some 1200]
  | 1, 4 => [n, n, n, n, n, n, some 1400]
  | 2, 4 => [n, n, n, n, n, n, some 1500]
  | 4, 5 => [n, n, n, n, n, n, some 1600]
  | _, _ => [n, n, n, n, n, n, n]

/-- The cost of one pair at a scope. -/
def fenceCost (b a s : Nat) : Option Nat := (costRow b a).getD s none

/-- The classes of a set. -/
def classesOf (m : BitVec 6) : List Nat := (List.range 6).filter fun i => m.getLsbD i

/-- The cost of a FENCEX: the greatest entry over every pair, a dash counting 0 (R177). -/
def fencexCost (scope : BitVec 3) (before after : BitVec 6) : Nat :=
  (classesOf before).foldl (fun c b => (classesOf after).foldl (fun c a => max c ((fenceCost b a scope.toNat).getD 0)) c) 0

/-! ### The debug detector (R197) -/

/-- The instance of a scope's level that a position lies in, if one instance holds it whole (R171). -/
def Pos.unitAt (p : Pos) (scope : Nat) : Option Nat :=
  match p, scope with
  | .core n, 1 => some n.val
  | .core n, 2 => some (n.val / 24)
  | .core n, 3 => some (n.val / 48)
  | .core n, 4 => some (n.val / 192)
  | .chiplet c, 3 => some c.val
  | .chiplet c, 4 => some (c.val / 4)
  | .core _, 5 | .chiplet _, 5 | .package, 5 => some 0
  | _, 6 => some 0
  | _, _ => none

/-- The lowest scope, core or above, of which one instance holds every position of a list (R171). -/
def scopeOfAll (ps : List Pos) : Nat :=
  ((List.range 6).find? fun i => match ps with
    | [] => true
    | p :: t => (p.unitAt (i + 1)).isSome && t.all fun q => q.unitAt (i + 1) = p.unitAt (i + 1)).map (· + 1) |>.getD 6

/-- The home of the line that holds a byte (R147, R149). -/
def homeAt (s : State) (a : Nat) : Pos := homeOf (route s a)

/-- The lowest scope that holds a position and every home of a list of bytes. -/
def homesScope (s : State) (p : Pos) (pas : List Nat) : Nat :=
  scopeOfAll (p :: ((pas.map (· / 32)).eraseDups).map fun x => homeAt s (32 * x))

/-- Is a context in debug mode? -/
def debugCtx (s : State) (ctx : Nat) : Bool := ((ctxOf s ctx).map (·.dbg)).getD false

/-- Does a fence of a record order it for a class of access at a position: the class is in its after-set, and one instance
of its scope holds the writer, the fencer, the reader and the home (R171, R172)? -/
def Hazard.ordered (s : State) (h : Hazard) (cls : BitVec 6) (pos : Pos) : Bool :=
  h.fences.any fun f => (f.1 &&& cls) ≠ 0 && scopeOfAll [h.pos, f.2.2, pos, homeAt s (32 * h.sector)] ≤ f.2.1.toNat

/-- An access of class `cls` by an agent at `pos`, for a wave's word, that meets a kept record of another class with no fence
that orders it (R197): the first byte that does is reported by its sector's generic address. -/
def hazardRead (s : State) (ctx wave : Nat) (pc : Word) (cls : BitVec 6) (pos : Nat → Pos) (xs : List (Nat × DWord)) : State :=
  if s.hazards.isEmpty || !debugCtx s ctx then s
  else
    let meets (a : Nat) (h : Hazard) : Bool := h.sector = a / 32 && h.cls ≠ cls && !h.ordered s cls (pos a)
    match xs.findSome? fun x => (s.hazards.find? (meets x.1)).map fun h => (x, h) with
    | none => s
    | some (x, h) =>
      let need := scopeOfAll [h.pos, pos x.1, homeAt s x.1]
      let short := h.fences.find? fun f => (f.1 &&& cls) ≠ 0
      let sc : Nat := (short.map (·.2.1.toNat)).getD 7
      let i3 : Word := BitVec.ofNat 32 (h.cls.toNat + 256 * (need % 8) + 2048 * sc)
      pushPending s wave ⟨0x09, if short.isNone then 2 else 1, pc, (x.2.loWord &&& 0xFFFFFFE0), i3⟩

/-- The records that `p` picks are fenced: for the classes of an after-set, at a scope, from a position. -/
def coverHazards (s : State) (after : BitVec 6) (scope : BitVec 3) (pos : Pos) (p : Hazard → Bool) : State :=
  if s.hazards.isEmpty then s
  else
    let f := (after, scope, pos)
    { s with hazards := s.hazards.map fun h => if p h then { h with fences := f :: h.fences.filter (· ≠ f) } else h }

/-- A token, or a packet's or a copy's completion, orders what stands in bytes for a class of access, wherever it sits
(R212). -/
def orderBytes (s : State) (cls : BitVec 6) (pas : List Nat) : State :=
  coverHazards s cls 6 .package fun h => pas.contains (32 * h.sector)

/-- The lane path's accesses of a word. -/
def hazardCheck (s : State) (g : Fin 32 → DWord) (p : List (Fin 32 × Loc)) : State :=
  if s.hazards.isEmpty then s
  else hazardRead s s.w.ctx s.w.id s.w.iss.pc 1 (fun _ => .core s.w.core)
    (p.flatMap fun x => x.2.pas.zipIdx.map fun (a, i) => (a, g x.1 + BitVec.ofNat 64 i))

/-- Record sectors written off the lane path, in debug mode (R197): a record for each, after the pattern of `h`. -/
def hazardWrite (s : State) (ctx : Nat) (h : Hazard) (pas : List Nat) : State :=
  if !debugCtx s ctx then s
  else
    let secs := (pas.map (· / 32)).eraseDups
    { s with hazards := (s.hazards.filter fun y => !secs.contains y.sector) ++ secs.map fun x => { h with sector := x } }

/-! ### Lanes that leave (R75, R106, R108) -/

/-- Lanes leave every entry mask (R89). -/
def Wave.leaveLoops (w : Wave) (m : Mask) : Wave :=
  { w with
    loops := popEmpty (w.loops.map fun e => { e with mask := maskDiff e.mask m })
    supLoops := popEmpty (w.supLoops.map fun e => { e with mask := maskDiff e.mask m }) }

/-- Lanes become absent (R75, R108): out of every leaf, the supervisor's too, and of every loop entry. -/
def Wave.exitLanes (w : Wave) (m : Mask) : Wave :=
  let w := { w with lpc := setLanes w.lpc m (fun l => laneOffset w l) }
  let w := (w.removeLanes m).leaveLoops m
  { w with absent := w.absent ||| m, fparked := maskDiff w.fparked m,
           sup := { w.sup with mask := maskDiff w.sup.mask m } }

/-- The lanes of a wave a service request stands for. -/
def askedLanes (s : State) (wave : Nat) : Mask :=
  (s.services.filter fun x => x.wave = wave).foldl (fun a x => a ||| x.lanes) 0

/-- Ask for service of a wave's lanes, but for those it is already asked for (R100, R159). -/
def askServiceOf (s : State) (wave : Nat) (m : Mask) (reason : BitVec 2) : State :=
  let fresh := maskDiff m (askedLanes s wave)
  if fresh = 0 || reason = 0 then s else { s with services := s.services ++ [⟨wave, fresh, reason⟩] }

/-- Ask for service of lanes of the issuing wave. -/
def askService (s : State) (m : Mask) (reason : BitVec 2) : State := askServiceOf s s.w.id m reason

/-- Ask for service of a page that a handler's word waits for: the wave's request, of no lane of its program (R98). -/
def askForWave (s : State) (wave : Nat) (reason : BitVec 2) : State :=
  if reason = 0 || s.services.any fun x => x.wave = wave && x.lanes = 0 && x.reason = reason then s
  else { s with services := s.services ++ [⟨wave, 0, reason⟩] }

/-- The agent waits with its word to be issued again (R77): nothing of the chain takes effect. -/
def waitRedo (s : State) (kind : WaitKind) (addr : Nat) : State :=
  let s := updW s fun w => w.setAgentLeaf fun lf => { lf with wait := some ⟨kind, w.iss.first, addr⟩ }
  updIss s fun i => { i with redo := true }

/-- A recoverable fault parks lanes at the word (R106, R159) and asks for service; lanes already waiting for service are
not asked for twice (R100). Reason 0 is the link's being down: the word waits for it (R305). In the handler or the
supervisor the word waits for service instead (R98, log 20: DEDUCED). -/
def faultPark (s : State) (m : Mask) (reason : BitVec 2) : State :=
  if m = 0 then s
  else if reason = 0 then waitRedo s .link 0
  else
    let w := s.w
    match w.iss.agent with
    | .leaf n =>
      let w := { w with
        lpc := setLanes w.lpc m (fun _ => w.iss.first)
        reason := setLanes w.reason m (fun _ => reason)
        faultLf := setLanes w.faultLf m (fun _ => n)
        fparked := w.fparked ||| m
        iss := { w.iss with parked := w.iss.parked ||| m } }
      let s := { s with w := w.removeLanes m }
      askService (bump s w.core 20 1) m reason
    | _ =>
      let s := updW s fun w => w.setAgentLeaf fun lf => { lf with wait := some ⟨.service, w.iss.first, 0⟩ }
      let s := updIss s fun i => { i with redo := true }
      askForWave (bump s w.core 20 1) w.id reason

/-- The agent waits and then goes on at its next word; `next` is completed when the chain ends. -/
def waitOn (s : State) (kind : WaitKind) (addr : Nat) : State :=
  updW s fun w => w.setAgentLeaf fun lf => { lf with wait := some ⟨kind, w.iss.next, addr⟩ }

/-- The agent's word retires no sooner than `cost` CCLK from now, beside what the leaf waits for already (R172, R413). -/
def waitCost (s : State) (cost : Nat) : State :=
  let ends := s.clk.toNat + cost
  let put (k : WaitKind) (x : Wait) : State := updW s fun w => w.setAgentLeaf fun lf => { lf with wait := some { x with kind := k } }
  if cost = 0 then s
  else
    match s.w.agentLeaf.wait with
    | none => waitOn s (.sleep ends) 0
    | some x =>
      match x.kind with
      | .sleep e => put (.sleep (max e ends)) x
      | .fencex xs ms m0 m1 ps e sc b a l => put (.fencex xs ms m0 m1 ps (max e ends) sc b a l) x
      | _ => s

/-- Put a monitor on a physical address for the agent's leaf (R182). -/
def addMonitor (s : State) (addr len : Nat) : State :=
  let leaf : Option (Fin 4) := match s.w.iss.agent with
    | .leaf n => some n
    | _ => none
  putMonitor s { addr := addr, len := len, wave := s.w.id, leaf := leaf }

/-- Is a byte's line poisoned (R241)? -/
def poisonedAt (s : State) (a : Nat) : Bool := s.poisoned.contains (homeLine s a)

/-- The wave stops and its context ends: poisoned data consumed (R241, R282). -/
def poisonEnd (s : State) : State := endContext s s.w.ctx 0x20 1 s.w.core

/-- The first pair of leaves that name one lane (R101). -/
def overlapPair (w : Wave) : Option (Fin 4 × Fin 4) :=
  ((List.finRange 4).flatMap fun i => (List.finRange 4).filterMap fun j =>
    if i < j ∧ w.leaves[i].mask &&& w.leaves[j].mask ≠ 0 then some (i, j) else none).head?

/-- The first leaf that names an absent lane (R101). -/
def absentLeaf (w : Wave) : Option (Fin 4) := (List.finRange 4).find? fun i => w.leaves[i].mask &&& w.absent ≠ 0

/-- Every lane of a leaf takes the leaf's PC (R101, R240). -/
def Wave.settleLanes (w : Wave) : Wave := { w with lpc := lanes fun l => laneOffset w l }

/-- The trap handler returns (R240): the interrupted leaves are checked as HRET checks them, and every lane takes its
leaf's PC; after a hinge fault the handler goes on at the word %trapinfo1 names then (R102). A failed check ends the
context; with no present lane the wave retires (its supervisor leaf is empty). -/
def returnFromTrap (s : State) : State :=
  let w := s.w
  if w.present ≠ 0 && ((overlapPair w).isSome || (absentLeaf w).isSome) then endContext s w.ctx 0x0F 0 w.core
  else
    let w := w.settleLanes
    { s with w := { w with
        mode := if w.supHinge then .hinge else .program
        hcount := if w.supHinge then 0 else w.hcount
        hpc := if w.supFault then w.sr.trapinfo1 else w.hpc
        fparked := maskDiff w.fparked (maskWhere fun l => (leafOfLane w l).isSome)
        sup := {}, supLoops := [], supHinge := false, supFault := false } }

end Sys2Proof.Machine
end

