-- ==== Sys2Proof/Machine/Operands.lean ====
section
/-!
DEFINITION. Operand forms: scalars, vectors, pairs, masks and queue ports (spec/02_encoding.md R33, R42, R43, R46), the
lane-wise mould (spec/22 R441, R442), tumbler-queue objects (spec/10_engines.md R210 to R213), and accesses of a wave's
lanes.
-/

namespace Sys2Proof.Machine

/-- A step of a meaning: it goes on with a value, or the instruction has ended in a state: a fault taken, or a wait. -/
abbrev Res (α : Type) := Except State α

/-- The state a meaning ends in. -/
def Res.state (r : Res State) : State :=
  match r with
  | .ok s => s
  | .error s => s

/-- A meaning's outcome. -/
def done (r : Res State) : Host.Outcome State Fault Refusal := .next r.state

/-! ### Scalars -/

/-- A scalar register; in hinge mode s24 to s31 are the shadows (R43). -/
def getS (w : Wave) (r : Nat) : Word :=
  if w.mode = .hinge ∧ 24 ≤ r then w.src.h.toArray.getD (r - 24) 0 else w.src.s.toArray.getD r 0

/-- Write a scalar register, or a shadow in hinge mode (R43). -/
def setS (w : Wave) (r : Nat) (x : Word) : Wave :=
  if w.mode = .hinge ∧ 24 ≤ r then
    (if h : r - 24 < 8 then { w with r := { w.r with h := w.r.h.set (r - 24) x h } } else w)
  else (if h : r < 32 then { w with r := { w.r with s := w.r.s.set r x h } } else w)

/-- A scalar source: register or literal (role ss). -/
def scalarVal (w : Wave) : Operand → Word
  | .s r => getS w r
  | .lit x => x
  | _ => 0

/-- The number of a register operand in its file. -/
def regNum : Operand → Nat
  | .v r => r
  | .s r => r
  | .q p => p
  | _ => 0

/-- Write a scalar destination (role sd). -/
def writeS (s : State) (d : Operand) (x : Word) : State := updW s fun w => setS w (regNum d) x

/-- A scalar pair (role sp), even register first. -/
def scalarPair (w : Wave) (o : Operand) : DWord := pair (getS w (regNum o)) (getS w (regNum o + 1))

/-! ### Vectors -/

/-- A vector register as a source. -/
def getV (w : Wave) (r : Nat) (l : Fin 32) : Word := (w.src.v.toArray.getD r (Vector.replicate 32 0))[l]

/-- Write the lanes of a mask in a vector register. -/
def setV (w : Wave) (r : Nat) (m : Mask) (f : Fin 32 → Word) : Wave :=
  if h : r < 88 then { w with r := { w.r with v := w.r.v.set r (setLanes w.r.v[r] m f) h } } else w

/-- A vector source but a port (role vs): a scalar or literal gives every lane its value; lpc the word's offset; lid the
lane (R17, R41). -/
def vecVal (w : Wave) (o : Operand) (l : Fin 32) : Word :=
  match o with
  | .v r => getV w r l
  | .s r => getS w r
  | .lit x => x
  | .lpc => w.iss.pc
  | .lid => BitVec.ofNat 32 l
  | _ => 0

/-- A vector pair source (role vp): a literal is sign-extended. -/
def pairVal (w : Wave) (o : Operand) (l : Fin 32) : DWord :=
  match o with
  | .v r => pair (getV w r l) (getV w (r + 1) l)
  | .s r => pair (getS w r) (getS w (r + 1))
  | .lit x => x.signExtend 64
  | _ => 0

/-- A lane's address under a base operand (role ap). -/
def addrVal (w : Wave) (o : Operand) (l : Fin 32) : DWord := pairVal w o l

/-- Write a mask register k1 to k15. -/
def writeK (s : State) (k : Fin 16) (m : Mask) : State :=
  updW s fun w => if k = 0 then w else { w with r := { w.r with k := w.r.k.set k m } }

/-- OR flags into %fstat (R441). -/
def raiseFlags (s : State) (f : Flags) : State :=
  updW s fun w => { w with sr := { w.sr with fstat := w.sr.fstat ||| f.zeroExtend 32 } }

/-- The flags of every lane of a mask. -/
def orFlags (m : Mask) (f : Fin 32 → Flags) : Flags := (lanesOf m).foldl (fun a l => a ||| f l) 0

/-! ### Tumbler queues (R210, R211) -/

/-- A queue object's fields (R210). -/
structure Queue where
  slots   : Nat
  permits : Nat
  tokens  : Nat
  head    : Nat
  tail    : Nat
  ssize   : Nat
  sbase   : Nat
  pcls    : Nat
  ccls    : Nat
  deriving DecidableEq, Repr

/-- The fields of the 128 bits of a queue object. -/
def queueOf (x : Nat) : Queue :=
  { slots := bitsOf x 7 0, permits := bitsOf x 15 8, tokens := bitsOf x 23 16, head := bitsOf x 31 24,
    tail := bitsOf x 39 32, ssize := bitsOf x 55 40, sbase := bitsOf x 87 56, pcls := bitsOf x 95 88,
    ccls := bitsOf x 103 96 }

/-- The 128 bits of a queue object. -/
def queueBits (q : Queue) : Nat :=
  q.slots % 256 + 2 ^ 8 * (q.permits % 256) + 2 ^ 16 * (q.tokens % 256) + 2 ^ 24 * (q.head % 256) +
    2 ^ 32 * (q.tail % 256) + 2 ^ 40 * (q.ssize % 2 ^ 16) + 2 ^ 56 * (q.sbase % 2 ^ 32) +
    2 ^ 88 * (q.pcls % 256) + 2 ^ 96 * (q.ccls % 256)

/-- Take a permit and the tail slot (QACQ, R211). -/
def Queue.acquire (q : Queue) : Queue := { q with permits := q.permits - 1, tail := (q.tail + 1) % max 1 q.slots }
/-- Publish a token (QPUB). -/
def Queue.publish (q : Queue) : Queue := { q with tokens := q.tokens + 1 }
/-- Take a token and the head slot (QTAKE). -/
def Queue.take (q : Queue) : Queue := { q with tokens := q.tokens - 1, head := (q.head + 1) % max 1 q.slots }
/-- Return a permit (QREL). -/
def Queue.release (q : Queue) : Queue := { q with permits := q.permits + 1 }
/-- Scratchpad address of a slot. -/
def Queue.slotAddr (q : Queue) (i : Nat) : Nat := q.sbase + 32 * q.ssize * i

/-- The head slot once `k` further tokens have been taken. -/
def Queue.headAfter (q : Queue) (k : Nat) : Nat := if k = 0 then q.head else (q.head + k) % max 1 q.slots

/-- Read a queue object at a physical address. -/
def readQueue (s : State) (a : Nat) : Queue := queueOf (physNat s a 16)

/-- Write a queue object: one performance at its home (R211), with the core's time raised (R413). -/
def writeQueue (s : State) (a : Nat) (q : Queue) : State :=
  physPut (laneStores s (span a 16)) a 16 (queueBits q)

/-- Locate the queue object a generic address names, for the leader (R411): misaligned or outside windows 0x02 and 0x03, or
past the end of its window, is bad handle 5 (R412). -/
def locateQueue (s : State) (e : Mask) (g : DWord) : Res Nat :=
  if g.toNat % 16 ≠ 0 ∨ (selOf g ≠ 2 ∧ selOf g ≠ 3) then .error (badHandle s 5 g)
  else
    match resolve s (s.w.committed (leaderOf e)) .atomic g 16 with
    | .ok l => .ok (l.pas.headD 0)
    | .error (.trap _) => .error (badHandle s 5 g)
    | .error (.recov r) => .error (faultPark s e r)

/-- Locate a queue object whose fields the word consumes: poisoned ones end the context (R241). -/
def liveQueue (s : State) (e : Mask) (g : DWord) : Res Nat :=
  match locateQueue s e g with
  | .ok a => if (span a 16).any (poisonedAt s) then .error (poisonEnd s) else .ok a
  | .error s' => .error s'

/-- The leaf waits at a queue and issues its word again when the object is written (R411). -/
def waitQueue (s : State) (a : Nat) (port : Option (Fin 4 × DWord)) : State :=
  let s := waitRedo (addMonitor s a 16) .queue a
  updW s fun w => w.setAgentLeaf fun lf => { lf with bound := port }

/-- The path class of a queue's consumer: lanes, copies, or an array (R210). -/
def Queue.consumer (q : Queue) : Nat := if q.ccls = 0 then 0 else if q.ccls = 1 then 1 else 3

/-- What QPUB costs as a fence of the lane path toward the consumer's class, at the lowest scope that holds the producer's
core and the object (R212, R413). -/
def pubCost (s : State) (pa : Nat) (q : Queue) : Nat :=
  (fenceCost 0 q.consumer (scopeOfAll [.core s.w.core, homeAt s pa])).getD 0

/-- The debug detector looks at an access to a queue object (R197). -/
def queueSeen (s : State) (pa : Nat) (g : DWord) : State :=
  hazardRead s s.w.ctx s.w.id s.w.iss.pc 1 (fun _ => .core s.w.core) ((span pa 16).zipIdx.map fun (b, i) => (b, g + BitVec.ofNat 64 i))

/-! ### Queue ports (R42, R213) -/

/-- The queue a port word is against: the one it was issued against if it waited (R411), else the binding. -/
def portAddr (w : Wave) (p : Fin 4) : DWord :=
  match w.agentLeaf.bound with
  | some (q, g) => if q = p then g else w.binding p
  | none => w.binding p

/-- The queue of a port, checked for use: no task wave (R86), bound, and the class of the use 0 (R213). -/
def portQueue (s : State) (e : Mask) (p : Fin 4) (producer : Bool) : Res (Nat × Queue) :=
  let g := portAddr s.w p
  if s.w.task then .error (fault s 0x08 0)
  else if g = 0 then .error (badHandle s 7 g)
  else
    match liveQueue s e g with
    | .error s' => .error s'
    | .ok a =>
      let q := readQueue s a
      if (if producer then q.pcls else q.ccls) ≠ 0 then .error (badHandle s 6 g) else .ok (a, q)

/-- The 128 bytes of the slot a pop reads, `k` pops of the same queue having gone before it: a wait where no token is
left for it, a fault, or the end of the context where they are poisoned (R213, R241). -/
def popSlot (s : State) (e : Mask) (p : Fin 4) (k : Nat) : Res (Nat × Queue × List Nat) :=
  match portQueue s e p false with
  | .error s' => .error s'
  | .ok (a, q) =>
    if q.tokens ≤ k then .error (waitQueue s a (some (p, portAddr s.w p)))
    else
      match spadRange s (s.w.committed (leaderOf e)) (q.slotAddr (q.headAfter k)) 128 with
      | none => .error (badHandle s 9 (BitVec.ofNat 64 (q.slotAddr (q.headAfter k))))
      | some pas => if pas.any (poisonedAt s) then .error (poisonEnd s) else .ok (a, q, pas)

/-- Pop one entry of a port: take, read of 128 bytes, and release, in one step (R213); its token orders the slot (R212), and
TOKENS is sampled as QTAKE does (R312). -/
def popPort (s : State) (e : Mask) (p : Fin 4) : Res (State × Lanes Word) :=
  match popSlot s e p 0 with
  | .error s' => .error s'
  | .ok (a, q, pas) =>
    let bs := pas.map (physByte s)
    let s1 := orderBytes (queueSeen s a (portAddr s.w p)) 1 pas
    .ok (sample (writeQueue (laneLoads s1 pas) a q.take.release) s.w.core 3 (q.tokens - 1), lanes fun l => BitVec.ofNat 32 (leNat ((bs.drop (4 * l)).take 4)))

/-- The entry a port of the word being issued has popped already, with the chain's other operands (R20). -/
def stashed (w : Wave) (p : Fin 4) : Option (Lanes Word) :=
  (w.iss.popped.find? fun x => x.1 = w.iss.pc && x.2.1 = p).map fun x => x.2.2

/-- The queue object a port's pop takes from, if it can be located. -/
def popHome (s : State) (e : Mask) (o : Operand) : Option Nat :=
  match o with
  | .q p => if (stashed s.w p).isSome then none else match locateQueue s e (portAddr s.w p) with
    | .ok a => some a
    | .error _ => none
  | _ => none

/-- May a port be pushed: it needs a permit, or a pop of the same word frees one on that queue (R42). -/
def pushReady (s : State) (e : Mask) (d : Operand) (srcs : List Operand) : Res Unit :=
  match d with
  | .q p =>
    match portQueue s e p true with
    | .error s' => .error s'
    | .ok (a, q) =>
      if q.permits = 0 ∧ srcs.all (fun o => popHome s e o ≠ some a) then .error (waitQueue s a (some (p, portAddr s.w p)))
      else
        match spadRange s (s.w.committed (leaderOf e)) (q.slotAddr q.tail) 128 with
        | none => .error (badHandle s 9 (BitVec.ofNat 64 (q.slotAddr q.tail)))
        | some _ => .ok ()
  | _ => .ok ()

/-- Push one entry on a port: acquire, write of 128 bytes, publish (R213). Lanes outside the mask write zero. The word retires
after QPUB's fence (R413), and TOKENS is sampled as QPUB does (R312). -/
def pushPort (s : State) (e : Mask) (p : Fin 4) (x : Fin 32 → Word) : State :=
  match portQueue s e p true with
  | .error s' => s'
  | .ok (a, q) =>
    match spadRange s (s.w.committed (leaderOf e)) (q.slotAddr q.tail) 128 with
    | none => s
    | some pas =>
      let bs := allLanes.flatMap fun l => leBytes 4 (if inMask e l then (x l).toNat else 0)
      let s1 := writeQueue (writeCells (laneStores s pas) (pas.zip bs)) a q.acquire.publish
      waitCost (sample (queueSeen s1 a (portAddr s.w p)) s.w.core 3 (q.tokens + 1)) (pubCost s a q)

/-- May a source be read, after the sources `before` of its word: a port needs a token that none of them takes. -/
def popReady (s : State) (e : Mask) (before : List Operand) (o : Operand) : Res Unit :=
  match o with
  | .q p =>
    if (stashed s.w p).isSome then .ok ()
    else
      let k := (before.filter fun b => (popHome s e b).isSome && popHome s e b = popHome s e o).length
      match popSlot s e p k with
      | .error s' => .error s'
      | .ok _ => .ok ()
  | _ => .ok ()

/-- Every port of a word, sources then destination, before any moves: a word with several ports waits or faults whole. -/
def portsReady (s : State) (e : Mask) (d : Operand) : List Operand → List Operand → Res Unit
  | [], all => pushReady s e d all
  | o :: t, all =>
    match popReady s e (all.take (all.length - (t.length + 1))) o with
    | .error s' => .error s'
    | .ok _ => portsReady s e d t all

/-- Read a vector source, popping a port (role vs) unless its chain has. -/
def readVec (s : State) (e : Mask) (o : Operand) : Res (State × Lanes Word) :=
  match o with
  | .q p => match stashed s.w p with
    | some x => .ok (s, x)
    | none => popPort s e p
  | _ => .ok (s, lanes (vecVal s.w o))

/-- Write a vector destination: the lanes of the mask, or one entry of a port (role vd). -/
def writeVec (s : State) (e : Mask) (d : Operand) (x : Fin 32 → Word) : State :=
  match d with
  | .v r => updW s fun w => setV w r e x
  | .q p => pushPort s e p x
  | _ => s

/-! ### The lane-wise mould (R441) -/

/-- A lane-wise instruction of two sources: `f` gives each lane's result and flags from both sources. -/
def laneOp2 (s : State) (h : Hdr) (d a b : Operand) (f : Wave → Fin 32 → Word → Word → Word × Flags) : State :=
  let e := s.w.eff h.gd
  if e = 0 then s
  else
    let w := s.w
    match portsReady s e d [a, b] [a, b] with
    | .error s' => s'
    | .ok _ =>
      match readVec s e a with
      | .error s' => s'
      | .ok (s1, x) =>
        match readVec s1 e b with
        | .error s' => s'
        | .ok (s2, y) =>
          let r (l : Fin 32) : Word × Flags := f w l x[l] y[l]
          raiseFlags (writeVec s2 e d fun l => (r l).1) (orFlags e fun l => (r l).2)

/-- A lane-wise instruction of one source. -/
def laneOp1 (s : State) (h : Hdr) (d a : Operand) (f : Wave → Fin 32 → Word → Word × Flags) : State :=
  let e := s.w.eff h.gd
  if e = 0 then s
  else
    let w := s.w
    match portsReady s e d [a] [a] with
    | .error s' => s'
    | .ok _ =>
      match readVec s e a with
      | .error s' => s'
      | .ok (s1, x) =>
        let r (l : Fin 32) : Word × Flags := f w l x[l]
        raiseFlags (writeVec s1 e d fun l => (r l).1) (orFlags e fun l => (r l).2)

/-- A lane-wise compare: the destination mask gets the lanes of the effective mask where `f` holds (R450). -/
def laneCmp (s : State) (h : Hdr) (k : Fin 16) (a b : Operand) (f : Word → Word → Bool) : State :=
  let e := s.w.eff h.gd
  if e = 0 then s
  else
    match portsReady s e .lid [a, b] [a, b] with
    | .error s' => s'
    | .ok _ =>
      match readVec s e a with
      | .error s' => s'
      | .ok (s1, x) =>
        match readVec s1 e b with
        | .error s' => s'
        | .ok (s2, y) => writeK s2 k (maskWhere fun l => inMask e l && f x[l] y[l])

/-- A result without flags. -/
def pureLane (x : Word) : Word × Flags := (x, 0)

/-- A condition on two signed values: 0 eq, 1 ne, 2 lt, 3 le, 4 gt, 5 ge (R47). -/
def condSigned (c : BitVec 3) (a b : Word) : Bool :=
  match c.toNat with
  | 0 => a = b
  | 1 => a ≠ b
  | 2 => a.toInt < b.toInt
  | 3 => a.toInt ≤ b.toInt
  | 4 => b.toInt < a.toInt
  | _ => b.toInt ≤ a.toInt

/-- A condition on two natural values. -/
def condNatural (c : BitVec 3) (a b : Word) : Bool :=
  match c.toNat with
  | 0 => a = b
  | 1 => a ≠ b
  | 2 => a.toNat < b.toNat
  | 3 => a.toNat ≤ b.toNat
  | 4 => b.toNat < a.toNat
  | _ => b.toNat ≤ a.toNat

end Sys2Proof.Machine
end

