-- ==== Sys2Proof/Machine/Vector.lean ====
section
/-!
DEFINITION. The vector family: integer lane-wise instructions, compares, selects, bit fields and pairs (spec/22 R445 to
R451), and the cross-lane instructions (R458 to R460, R132, R133).
-/

namespace Sys2Proof.Machine

/-- What a meaning answers. -/
abbrev Out := Host.Outcome State Fault Refusal

/-! ### Integer results (R445, R448, R449) -/

/-- Bits [63:32] of the signed product. -/
def mulHigh (x y : Word) : Word := BitVec.ofInt 32 (x.toInt * y.toInt / 2 ^ 32)
/-- Bits [63:32] of the natural product. -/
def mulHighN (x y : Word) : Word := BitVec.ofNat 32 (x.toNat * y.toNat / 2 ^ 32)
/-- The lesser value, signed. -/
def minS (x y : Word) : Word := if y.toInt < x.toInt then y else x
/-- The greater value, signed. -/
def maxS (x y : Word) : Word := if x.toInt < y.toInt then y else x
/-- The lesser value, natural. -/
def minN (x y : Word) : Word := if y.toNat < x.toNat then y else x
/-- The greater value, natural. -/
def maxN (x y : Word) : Word := if x.toNat < y.toNat then y else x
/-- A shift left by the whole natural count: 0 from 32 on. -/
def shiftL (x y : Word) : Word := if y.toNat < 32 then x <<< y.toNat else 0
/-- A shift right with zeros: 0 from 32 on. -/
def shiftR (x y : Word) : Word := if y.toNat < 32 then x >>> y.toNat else 0
/-- A shift right with copies of the sign. -/
def shiftA (x y : Word) : Word := x.sshiftRight (min y.toNat 32)

/-- Field position of VBFX and VBFI (R448). -/
def bfPos (y : Word) : Nat := (y.extractLsb' 0 5).toNat
/-- Effective field width of VBFX and VBFI (R448). -/
def bfWidth (y : Word) : Nat := min (y.extractLsb' 8 6).toNat (32 - bfPos y)
/-- VBFX's value. -/
def bfExtract (x y : Word) : Word := BitVec.ofNat 32 (x.toNat / 2 ^ bfPos y % 2 ^ bfWidth y)
/-- VBFI's value over the target `t`. -/
def bfInsert (t x y : Word) : Word :=
  let m : Word := BitVec.ofNat 32 ((2 ^ bfWidth y - 1) * 2 ^ bfPos y)
  (t &&& ~~~m) ||| ((x <<< bfPos y) &&& m)

/-- VABS's value. -/
def absW (x : Word) : Word := if x.toInt < 0 then 0 - x else x
/-- VPOPC's value. -/
def popW (x : Word) : Word := BitVec.ofNat 32 (popCount x)
/-- VCLZ's value. -/
def clzW (x : Word) : Word := BitVec.ofNat 32 (32 - bitLen x.toNat)

/-- VADD (R445). -/
def execVadd (h : Hdr) (d a b : Operand) (s : State) : Out :=
  .next (laneOp2 s h d a b fun _ _ x y => pureLane (x + y))

/-- VSUB (R445). -/
def execVsub (h : Hdr) (d a b : Operand) (s : State) : Out :=
  .next (laneOp2 s h d a b fun _ _ x y => pureLane (x - y))

/-- VMUL (R445). -/
def execVmul (h : Hdr) (d a b : Operand) (s : State) : Out :=
  .next (laneOp2 s h d a b fun _ _ x y => pureLane (x * y))

/-- VMULH (R445). -/
def execVmulh (h : Hdr) (d a b : Operand) (s : State) : Out :=
  .next (laneOp2 s h d a b fun _ _ x y => pureLane (mulHigh x y))

/-- VMULHN (R445). -/
def execVmulhn (h : Hdr) (d a b : Operand) (s : State) : Out :=
  .next (laneOp2 s h d a b fun _ _ x y => pureLane (mulHighN x y))

/-- VMAD (R445): D is read as the addend before the write. -/
def execVmad (h : Hdr) (d a b : Operand) (s : State) : Out :=
  .next (laneOp2 s h d a b fun w l x y => pureLane (x * y + getV w (regNum d) l))

/-- VMIN (R445). -/
def execVmin (h : Hdr) (d a b : Operand) (s : State) : Out :=
  .next (laneOp2 s h d a b fun _ _ x y => pureLane (minS x y))

/-- VMAX (R445). -/
def execVmax (h : Hdr) (d a b : Operand) (s : State) : Out :=
  .next (laneOp2 s h d a b fun _ _ x y => pureLane (maxS x y))

/-- VMINN (R445). -/
def execVminn (h : Hdr) (d a b : Operand) (s : State) : Out :=
  .next (laneOp2 s h d a b fun _ _ x y => pureLane (minN x y))

/-- VMAXN (R445). -/
def execVmaxn (h : Hdr) (d a b : Operand) (s : State) : Out :=
  .next (laneOp2 s h d a b fun _ _ x y => pureLane (maxN x y))

/-- VAND (R445). -/
def execVand (h : Hdr) (d a b : Operand) (s : State) : Out :=
  .next (laneOp2 s h d a b fun _ _ x y => pureLane (x &&& y))

/-- VOR (R445). -/
def execVor (h : Hdr) (d a b : Operand) (s : State) : Out :=
  .next (laneOp2 s h d a b fun _ _ x y => pureLane (x ||| y))

/-- VXOR (R445). -/
def execVxor (h : Hdr) (d a b : Operand) (s : State) : Out :=
  .next (laneOp2 s h d a b fun _ _ x y => pureLane (x ^^^ y))

/-- VSHL (R445). -/
def execVshl (h : Hdr) (d a b : Operand) (s : State) : Out :=
  .next (laneOp2 s h d a b fun _ _ x y => pureLane (shiftL x y))

/-- VSHR (R445). -/
def execVshr (h : Hdr) (d a b : Operand) (s : State) : Out :=
  .next (laneOp2 s h d a b fun _ _ x y => pureLane (shiftR x y))

/-- VSHA (R445). -/
def execVsha (h : Hdr) (d a b : Operand) (s : State) : Out :=
  .next (laneOp2 s h d a b fun _ _ x y => pureLane (shiftA x y))

/-- VADD64 (R447): both halves of the pair sum. -/
def execVadd64 (h : Hdr) (d a b : Operand) (s : State) : Out :=
  let w := s.w
  let e := w.eff h.gd
  let sum (l : Fin 32) : DWord := pairVal w a l + pairVal w b l
  .next (updW s fun w => setV (setV w (regNum d) e fun l => (sum l).loWord) (regNum d + 1) e fun l => (sum l).hiWord)

/-- VSEL (R451, R53): the guard selects; every lane of the leaf is written. -/
def execVsel (h : Hdr) (d a b : Operand) (s : State) : Out :=
  let g := if h.gd = 0 then s.w.agentMask else s.w.src.k[Fin.castLE (by decide : 8 ≤ 16) h.gd]
  .next (laneOp2 s { h with gd := 0 } d a b fun _ l x y => pureLane (if inMask g l then x else y))

/-- VCMP (R450). -/
def execVcmp (h : Hdr) (k : Fin 16) (cond : BitVec 3) (a b : Operand) (s : State) : Out :=
  .next (laneCmp s h k a b (condSigned cond))

/-- VCMPN (R450). -/
def execVcmpn (h : Hdr) (k : Fin 16) (cond : BitVec 3) (a b : Operand) (s : State) : Out :=
  .next (laneCmp s h k a b (condNatural cond))

/-- VBFX (R448). -/
def execVbfx (h : Hdr) (d a b : Operand) (s : State) : Out :=
  .next (laneOp2 s h d a b fun _ _ x y => pureLane (bfExtract x y))

/-- VBFI (R448): the target is D. -/
def execVbfi (h : Hdr) (d a b : Operand) (s : State) : Out :=
  .next (laneOp2 s h d a b fun w l x y => pureLane (bfInsert (getV w (regNum d) l) x y))

/-- VABS (R449). -/
def execVabs (h : Hdr) (d a : Operand) (s : State) : Out :=
  .next (laneOp1 s h d a fun _ _ x => pureLane (absW x))

/-- VNEG (R449). -/
def execVneg (h : Hdr) (d a : Operand) (s : State) : Out :=
  .next (laneOp1 s h d a fun _ _ x => pureLane (0 - x))

/-- VNOT (R449). -/
def execVnot (h : Hdr) (d a : Operand) (s : State) : Out :=
  .next (laneOp1 s h d a fun _ _ x => pureLane (~~~x))

/-- VPOPC (R449). -/
def execVpopc (h : Hdr) (d a : Operand) (s : State) : Out :=
  .next (laneOp1 s h d a fun _ _ x => pureLane (popW x))

/-- VCLZ (R449). -/
def execVclz (h : Hdr) (d a : Operand) (s : State) : Out :=
  .next (laneOp1 s h d a fun _ _ x => pureLane (clzW x))

/-! ### Cross-lane (R458 to R460) -/

/-- A cross-lane instruction of two sources: `f` sees every lane of both. -/
def crossOp2 (s : State) (h : Hdr) (d a b : Operand) (f : Lanes Word → Lanes Word → Fin 32 → Word) : State :=
  let e := s.w.eff h.gd
  if e = 0 then s
  else
    match portsReady s e d [a, b] [a, b] with
    | .error s' => s'
    | .ok _ =>
      match readVec s e a with
      | .error s' => s'
      | .ok (s1, x) =>
        match readVec s1 e b with
        | .error s' => s'
        | .ok (s2, y) => writeVec s2 e d (f x y)

/-- A cross-lane instruction of one source: `f` gives each lane's node of the tree, and the identity's op. -/
def crossOp1 (s : State) (h : Hdr) (d a : Operand) (op : BitVec 4) (f : Rnd → Mask → Lanes Word → Fin 32 → Node) :
    State :=
  let e := s.w.eff h.gd
  if e = 0 then s
  else
    let r := s.w.rnd
    match portsReady s e d [a] [a] with
    | .error s' => s'
    | .ok _ =>
      match readVec s e a with
      | .error s' => s'
      | .ok (s1, x) =>
        let n := f r e x
        raiseFlags (writeVec s1 e d fun l => nodeVal op (n l)) (orFlags e fun l => nodeFlags (n l))

/-- The source lane [4:0] of a lane number. -/
def srcLane (y : Word) : Fin 32 := (y.extractLsb' 0 5).toFin

/-- The leaf positions of the tree: full for the lanes of a mask (R132). -/
def leafNodes (m : Mask) (x : Lanes Word) (p : Nat) : Node :=
  if h : p < 32 then (if inMask m ⟨p, h⟩ then some (x[p], 0) else none) else none

/-- The lanes of lane l's segment, up to l: from the last head at or below it (R133). -/
def segmentMask (heads : Mask) (l : Fin 32) : Mask :=
  maskWhere fun i => i ≤ l && !(allLanes.any fun j => i < j && j ≤ l && inMask heads j)

/-- VSHUF (R458). -/
def execVshuf (h : Hdr) (d a b : Operand) (s : State) : Out :=
  .next (crossOp2 s h d a b fun x y l => x[srcLane y[l]])

/-- VBCAST (R458). -/
def execVbcast (h : Hdr) (d a b : Operand) (s : State) : Out :=
  .next (crossOp2 s h d a b fun x y _ => x[srcLane y[0]])

/-- VSCAN (R460): inclusive, or with `excl` the lane below's value. -/
def execVscan (h : Hdr) (d a : Operand) (excl : Bool) (op : BitVec 4) (s : State) : Out :=
  .next (crossOp1 s h d a op fun r e x l =>
    if excl then (if l.val = 0 then none else inclusive r op (leafNodes e x) (l - 1)) else inclusive r op (leafNodes e x) l)

/-- VRED (R460): the root, in every lane. -/
def execVred (h : Hdr) (d a : Operand) (op : BitVec 4) (s : State) : Out :=
  .next (crossOp1 s h d a op fun r e x _ => treeNode r op (leafNodes e x) 5 0)

/-- VSEGSCAN (R460): inclusive within the lane's segment; a kH of k0 makes every lane of the leaf a head. -/
def execVsegscan (h : Hdr) (d a : Operand) (heads : BitVec 3) (op : BitVec 4) (s : State) : Out :=
  let hm := s.w.maskReg (Fin.castLE (by decide : 8 ≤ 16) heads.toFin)
  .next (crossOp1 s h d a op fun r e x l => inclusive r op (leafNodes (e &&& segmentMask hm l) x) l)

end Sys2Proof.Machine
end

