-- ==== Sys2Proof/Machine/Scalar.lean ====
section
/-!
DEFINITION. The scalar family (spec/21 R402, R417, R418, R422, R428, R433) and the mask family (spec/20 R369 to R372).
-/

namespace Sys2Proof.Machine

/-! ### Scalar arithmetic (R417) -/

/-- NOP (R402): no effect. -/
def execNop (_ch : Bool) (s : State) : Out := .next s

/-- SMOV. -/
def execSmov (_ch : Bool) (d a : Operand) (s : State) : Out := .next (writeS s d (scalarVal s.w a))

/-- SADD. -/
def execSadd (_ch : Bool) (d a b : Operand) (s : State) : Out :=
  .next (writeS s d (scalarVal s.w a + scalarVal s.w b))

/-- SSUB. -/
def execSsub (_ch : Bool) (d a b : Operand) (s : State) : Out :=
  .next (writeS s d (scalarVal s.w a - scalarVal s.w b))

/-- SMUL. -/
def execSmul (_ch : Bool) (d a b : Operand) (s : State) : Out :=
  .next (writeS s d (scalarVal s.w a * scalarVal s.w b))

/-- SAND. -/
def execSand (_ch : Bool) (d a b : Operand) (s : State) : Out :=
  .next (writeS s d (scalarVal s.w a &&& scalarVal s.w b))

/-- SOR. -/
def execSor (_ch : Bool) (d a b : Operand) (s : State) : Out :=
  .next (writeS s d (scalarVal s.w a ||| scalarVal s.w b))

/-- SXOR. -/
def execSxor (_ch : Bool) (d a b : Operand) (s : State) : Out :=
  .next (writeS s d (scalarVal s.w a ^^^ scalarVal s.w b))

/-- SSHL. -/
def execSshl (_ch : Bool) (d a b : Operand) (s : State) : Out :=
  .next (writeS s d (shiftL (scalarVal s.w a) (scalarVal s.w b)))

/-- SSHR. -/
def execSshr (_ch : Bool) (d a b : Operand) (s : State) : Out :=
  .next (writeS s d (shiftR (scalarVal s.w a) (scalarVal s.w b)))

/-- SSHA. -/
def execSsha (_ch : Bool) (d a b : Operand) (s : State) : Out :=
  .next (writeS s d (shiftA (scalarVal s.w a) (scalarVal s.w b)))

/-- SMIN. -/
def execSmin (_ch : Bool) (d a b : Operand) (s : State) : Out :=
  .next (writeS s d (minS (scalarVal s.w a) (scalarVal s.w b)))

/-- SMAX. -/
def execSmax (_ch : Bool) (d a b : Operand) (s : State) : Out :=
  .next (writeS s d (maxS (scalarVal s.w a) (scalarVal s.w b)))

/-- The mask SCMP writes for true: the effective mask, in hinge mode every present lane (R98, R422). -/
def scmpMask (w : Wave) (gd : Fin 8) : Mask :=
  match w.iss.agent with
  | .handler => w.present
  | _ => w.eff gd

/-- SCMP (R422): it writes whatever its effective mask is. -/
def execScmp (h : Hdr) (k : Fin 16) (cond : BitVec 3) (a b : Operand) (s : State) : Out :=
  .next (writeK s k (if condSigned cond (scalarVal s.w a) (scalarVal s.w b) then scmpMask s.w h.gd else 0))

/-! ### Lane offsets (R41, R371) -/

/-- The offset KPCEQ, KPCMIN and SRDV read for a lane (R371, R428): of the executing leaf's lanes, the word's own; of an absent
lane that at which it became absent, whatever leaf names it. -/
def offsetRead (w : Wave) (l : Fin 32) : Word :=
  if inMask w.absent l then w.lpc[l]
  else match w.iss.agent with
  | .leaf n => if leafOfLane w l = some n then w.iss.pc else w.offsetOf l
  | _ => w.offsetOf l

/-- The lane a lane operand names: its low five bits (R428, R433). -/
def laneOfVal (x : Word) : Fin 32 := (x.extractLsb' 0 5).toFin

/-- SRDV (R428). -/
def execSrdv (_ch : Bool) (d a b : Operand) (s : State) : Out :=
  let j := laneOfVal (scalarVal s.w b)
  .next (writeS s d (match a with
    | .lpc => offsetRead s.w j
    | _ => vecVal s.w a j))

/-- SWRV (R433): an absent lane's lpc is not written. -/
def execSwrv (_ch : Bool) (d a b : Operand) (s : State) : Out :=
  let j := laneOfVal (scalarVal s.w b)
  let x := scalarVal s.w a
  .next (match d with
    | .lpc =>
      if inMask s.w.present j then updW s fun w => { w with lpc := w.lpc.set j (x &&& 0xFFFFFFFC) } else s
    | _ => updW s fun w => setV w (regNum d) (laneBit j) (fun _ => x))

/-! ### Masks (R369, R370) -/

/-- KAND. -/
def execKand (_ch : Bool) (d a b : Fin 16) (s : State) : Out := .next (writeK s d (s.w.maskReg a &&& s.w.maskReg b))

/-- KOR. -/
def execKor (_ch : Bool) (d a b : Fin 16) (s : State) : Out := .next (writeK s d (s.w.maskReg a ||| s.w.maskReg b))

/-- KXOR. -/
def execKxor (_ch : Bool) (d a b : Fin 16) (s : State) : Out := .next (writeK s d (s.w.maskReg a ^^^ s.w.maskReg b))

/-- KNOT. -/
def execKnot (_ch : Bool) (d a : Fin 16) (s : State) : Out := .next (writeK s d (~~~ s.w.maskReg a))

/-- KMOV. -/
def execKmov (_ch : Bool) (d a : Fin 16) (s : State) : Out := .next (writeK s d (s.w.maskReg a))

/-- KPOP. -/
def execKpop (_ch : Bool) (d : Operand) (a : Fin 16) (s : State) : Out :=
  .next (writeS s d (BitVec.ofNat 32 (popCount (s.w.maskReg a))))

/-- Index of the lowest set bit, 32 where there is none. -/
def firstBit (m : Mask) : Nat := match (lanesOf m).head? with
  | some l => l
  | none => 32

/-- KFIRST. -/
def execKfirst (_ch : Bool) (d : Operand) (a : Fin 16) (s : State) : Out :=
  .next (writeS s d (BitVec.ofNat 32 (firstBit (s.w.maskReg a))))

/-- KSET. -/
def execKset (_ch : Bool) (d : Fin 16) (a : Operand) (s : State) : Out := .next (writeK s d (scalarVal s.w a))

/-- KGET. -/
def execKget (_ch : Bool) (d : Operand) (a : Fin 16) (s : State) : Out := .next (writeS s d (s.w.maskReg a))

/-- KPCEQ (R369, R371). -/
def execKpceq (_ch : Bool) (d : Fin 16) (a : Operand) (b : Fin 16) (s : State) : Out :=
  let w := s.w
  let x := scalarVal w a
  .next (writeK s d (maskWhere fun l => inMask (w.maskReg b &&& w.present) l && offsetRead w l = x))

/-- The least offset over lanes, all ones if there is none (R369). -/
def leastRead (w : Wave) (m : Mask) : Word :=
  (lanesOf m).foldl (fun p l => if (offsetRead w l).toNat < p.toNat then offsetRead w l else p) 0xFFFFFFFF

/-- KPCMIN (R369, R371). -/
def execKpcmin (_ch : Bool) (d : Operand) (a : Fin 16) (s : State) : Out :=
  .next (writeS s d (leastRead s.w (s.w.maskReg a &&& s.w.present)))

end Sys2Proof.Machine
end

