-- ==== Sys2Proof/Machine/Access.lean ====
section
/-!
DEFINITION. The memory family on the lane path: the checks of an instruction's lanes (spec/08_memory.md R158, R159), loads,
stores and atomics (spec/19 R319 to R325, spec/20 R380 to R385, spec/21 R408, R409, R429 to R432), pod-window accesses
(R178, R306), and condition monitors (R182, R461 to R464).
-/

namespace Sys2Proof.Machine

/-! ### Free bytes and poison -/

/-- `n` fresh free bytes (log 5: DESIGN CHOICE). -/
def freeBytes (s : State) (n : Nat) : List Byte × State :=
  ((List.range n).map fun i => Config.freeByte (s.freeCtr + i), { s with freeCtr := s.freeCtr + n })

/-- Does a load consume poisoned data: of a byte no version holds? -/
def poisonLoc (s : State) (x : Accessor) (l : Loc) : Bool :=
  !s.poisoned.isEmpty && l.pas.any fun a => poisonedAt s a && !(l.vers && match ctxOf s x.ctx with
    | some c => (versionSeen c x.hyp (a / 32)).isSome
    | none => false)

/-! ### Checks (R158, R159) -/

/-- A pod access's checks (R306): the package and, in this one, the export region and the page (log 36: DEDUCED). -/
def podAcc (s : State) (x : Accessor) (kind : AccKind) (g : DWord) (n : Nat) : Except Miss Loc :=
  let p := bitsOf g.toNat 56 51
  let off := bitsOf g.toNat 50 0
  match s.config with
  | none => .error (.trap 0x10)
  | some c =>
    if c.pod1.toNat < p then .error (.trap 0x10)
    else if p ≠ c.pkg.toNat then .ok { pas := [], peer := some (p, off) }
    else
      let asid := ((ctxOf s x.ctx).map (·.asid)).getD 0
      match s.ctxs.find? (fun k => k.asid = asid && k.ended.isNone) with
      | none => .ok { pas := [], bad := some 0x10 }
      | some k =>
        if k.psize.toNat < off + n then .ok { pas := [], bad := some 0x10 }
        else
          match virtAcc s { x with ctx := k.ctx, sup := false, hyp := 0, tlb := .none } kind ((va57 k.pbase + off) % 2 ^ 57) n false with
          | .ok l => .ok l
          | .error (.trap e) => .ok { pas := [], bad := some e }
          | .error (.recov r) => .error (.recov r)

/-- The checks of one lane's access (R158). -/
def laneChk (s : State) (x : Accessor) (kind : AccKind) (g : DWord) (n : Nat) : Except Miss Loc :=
  if isPod g then podAcc s x kind g n else resolve s x kind g n

/-- Lanes whose check answers one recoverable reason. -/
def recovMask (m : Mask) (chk : Fin 32 → Except Miss Loc) (p : Fin 32 → BitVec 2 → Bool) : Mask :=
  maskWhere fun l => inMask m l && match chk l with
    | .error (.recov r) => p l r
    | _ => false

/-- The agent's word waits for page service of some lanes, and is issued again (R98, R159). -/
def waitService (s : State) (m : Mask) (reason : BitVec 2) : State :=
  let s1 := bump (waitRedo s .service 0) s.w.core 20 1
  match s.w.iss.agent with
  | .leaf _ => askService s1 m reason
  | _ => askForWave s1 s.w.id reason

/-- The first lane of a mask whose check traps, with its cause. -/
def firstTrap (m : Mask) (chk : Fin 32 → Except Miss Loc) : Option (Fin 32 × BitVec 8) :=
  (lanesOf m).findSome? fun l => match chk l with
    | .error (.trap c) => some (l, c)
    | _ => none

/-- The reason of the first lane of a mask whose check answers a recoverable one. -/
def firstReason (m : Mask) (chk : Fin 32 → Except Miss Loc) : BitVec 2 :=
  ((lanesOf m).findSome? fun l => match chk l with
    | .error (.recov r) => some r
    | _ => none).getD 1

/-- Hold the word's access for lanes under exchange (R158 step 9): the leaf goes on, and the access is made when the
exchange is over. -/
def holdLanes (s : State) (i : Instr) (n : Fin 4) (m : Mask) : State :=
  updW s fun w => { w with held := w.held ++ [{ i := i, pc := w.iss.pc, leaf := n, snap := w.iss.snap.getD w.snapNow,
                                                lanes := m, since := s.clk.toNat, popped := w.iss.popped }] }

/-- The other lanes of the access last held wait with it: a load into a port pushes one entry for all (R42, R158). -/
def holdRest (s : State) (m : Mask) : State :=
  updW s fun w => match w.held.reverse with
    | h :: t => { w with held := ({ h with lanes := h.lanes ||| m } :: t).reverse }
    | [] => w

/-- Lanes under exchange (R158 step 9): a program leaf's load, store, atomic or latch word is held for them and its leaf goes
on; any other word, and a handler's (R98), waits whole, 256 CCLK at most. -/
def settleMov (s : State) (m : Mask) (hold : Option Instr) : Res State :=
  if m = 0 then .ok s
  else
    match s.w.iss.agent, hold with
    | .leaf n, some i => .ok (holdLanes s i n m)
    | _, _ => .error (waitRedo s (.mov m s.clk.toNat) 0)

/-- The checks of the lanes of one instruction (R159). A cause of steps 1 and 3 to 8 traps for the lowest such lane; a
word with an access to host memory waits for the link (R305), a pod access for its peer page (R306); lanes under exchange are
settled by `settleMov`; the other recoverable lanes are fault-parked. The rest perform. -/
def settle (s : State) (m : Mask) (g : Fin 32 → DWord) (chk : Fin 32 → Except Miss Loc) (hold : Option Instr := none) :
    Res (State × List (Fin 32 × Loc)) :=
  match firstTrap m chk with
  | some (l, c) => .error (faultAt s c (BitVec.ofNat 32 l) (g l))
  | none =>
    let mov := recovMask m chk fun l r => !isPod (g l) && r = 2
    let pod := recovMask m chk fun l _ => isPod (g l)
    if recovMask m chk (fun _ r => r = 0) ≠ 0 then .error (waitRedo s .link 0)
    else if pod ≠ 0 then .error (waitService s pod (firstReason pod chk))
    else
      match settleMov s mov hold with
      | .error s' => .error s'
      | .ok s0 =>
        let s1 := faultPark s0 (recovMask m chk fun _ r => r = 1) 1
        let s2 := faultPark s1 (recovMask m chk fun _ r => r = 3) 3
        if s2.w.iss.redo then .error s2
        else
          .ok (s2, (lanesOf m).filterMap fun l => match chk l with
            | .ok x => some (l, x)
            | .error _ => none)

/-- The checks of one access that every lane of a mask shares, `l` of them making it (R376): a recoverable cause is
theirs together. -/
def settleOne (s : State) (m : Mask) (l : Fin 32) (g : DWord) (chk : Except Miss Loc) (hold : Option Instr := none) :
    Res (State × List (Fin 32 × Loc)) :=
  match settle s m (fun _ => g) (fun _ => chk) hold with
  | .error s' => .error s'
  | .ok (s1, p) => .ok (s1, p.filter fun x => x.1 = l)

/-- The lanes that perform. -/
def lanesIn (p : List (Fin 32 × Loc)) : Mask := maskWhere fun l => p.any fun x => x.1 = l

/-- Does any performing lane consume poison? -/
def poisonAny (s : State) (acc : Fin 32 → Accessor) (p : List (Fin 32 × Loc)) : Bool :=
  p.any fun x => poisonLoc s (acc x.1) x.2

/-- An imprecise fault of the issuing wave (R237). -/
def imprecise (s : State) (cause : BitVec 8) (info0 : Nat) (g : DWord) : State :=
  pushPending s s.w.id ⟨cause, BitVec.ofNat 32 info0, s.w.iss.pc, g.loWord, g.hiWord⟩

/-- The cause another package's checks answer an access with, if they refuse it: its state is not this machine's, so the
answer is free (R306, log 5: DESIGN CHOICE). -/
def peerCause (n : Nat) : Option (BitVec 8) :=
  let c := Config.peerAnswer n
  if 0x10 ≤ c.toNat && c.toNat ≤ 0x15 then some c else none

/-- Peer-side failures of the lanes that performed, lowest lane first (R306). -/
def reportPeers (s : State) (g : Fin 32 → DWord) (p : List (Fin 32 × Loc)) : State :=
  p.foldl (fun s x =>
    match x.2.peer, x.2.bad with
    | some _, _ =>
      let s1 := { s with freeCtr := s.freeCtr + 1 }
      match peerCause s.freeCtr with
      | some c => imprecise s1 c 33 (g x.1)
      | none => s1
    | none, some c => imprecise s c 33 (g x.1)
    | none, none => s) s

/-! ### Requests at the homes (R150, R153, R165) -/

/-- The version slots and sectors that accesses name, each once. -/
def slotSectors (s : State) (acc : Fin 32 → Accessor) (load : Bool) (p : List (Fin 32 × Loc)) : List (Nat × Nat) :=
  (p.flatMap fun x => ((x.2.pas.map (· / 32)).eraseDups).map fun sec => (versSlot s (acc x.1) x.2 load sec, sec)).eraseDups

/-- One request per line touched: its version slot and its sectors. -/
def lineRequests (s : State) (xs : List (Nat × Nat)) : List (Nat × List Nat) :=
  ((xs.map fun y => (y.1, homeLine s (32 * y.2))).eraseDups).map fun k =>
    (k.1, (xs.filter fun y => (y.1, homeLine s (32 * y.2)) = k).map (·.2))

/-- The bytes of an access on pages whose CA satisfies `p` (R153). -/
def Loc.onPages (l : Loc) (p : Nat → Bool) : List Nat := (l.pas.zip l.cas).filterMap fun x => if p x.2 then some x.1 else none

/-- An access without some of its bytes. -/
def Loc.without (l : Loc) (bs : List Nat) : Loc := { l with pas := l.pas.filter fun a => !bs.contains a }

/-- The requests of a word's lanes: those of a device page make one each, in ascending lane order. -/
def requestsOf (s : State) (acc : Fin 32 → Accessor) (load : Bool) (p : List (Fin 32 × Loc)) : List (Nat × List Nat) :=
  let dev (x : Fin 32 × Loc) : List Nat := x.2.onPages (· = 4)
  lineRequests s (slotSectors s acc load (p.map fun x => (x.1, x.2.without (dev x)))) ++
    p.flatMap fun x => lineRequests s (slotSectors s acc load [(x.1, { x.2 with pas := dev x })])

/-- Is an odd free byte drawn? -/
def freeOdd (s : State) : Bool := (Config.freeByte s.freeCtr).getLsbD 0

/-- Of a core's L1 copies, those of a set beyond `k` are gone. -/
def l1Ways (n : Fin 384) (set : Nat) : Nat → List L1Line → List L1Line
  | _, [] => []
  | k, x :: t =>
    if x.core ≠ n || x.line % 128 ≠ set then x :: l1Ways n set k t
    else match k with
      | 0 => l1Ways n set 0 t
      | k + 1 => x :: l1Ways n set k t

/-- The L1 takes in sectors of a line, under its lease: beside those it holds of the same write time; of the 20 lines of a
set the latest stay (R150, R151; log 7: DESIGN CHOICE); copies whose lease is past are dropped. -/
def l1Put (s : State) (l : Nat) (m : BitVec 4) : List L1Line :=
  let n := s.w.core
  let x := lineOf s l
  let mine (y : L1Line) : Bool := y.core = n && y.line = l
  let had := ((s.copies.find? fun y => mine y && y.wts = x.wts).map (·.secs)).getD 0
  let old := s.copies.filter fun y => !(mine y || (y.core = n && y.ends < ltOf s n))
  l1Ways n (l % 128) 20 (⟨n, l, m ||| had, x.wts, x.rts, (span (128 * l) 128).map (physByte s)⟩ :: old)

/-- The L1 may keep what a load brought in (log 7: DESIGN CHOICE). -/
def l1Fill (s : State) (l : Nat) (m : BitVec 4) : State :=
  { s with freeCtr := s.freeCtr + 1, copies := if freeOdd s then l1Put s l m else s.copies }

/-- One request of a load (R165): a hit on sectors under a live lease, if the L1 has not dropped them since, or a load at
home; `join`: it may join a miss there (R151 to R153). -/
def loadRequest (s : State) (l1 join : Bool) (ctx : Nat) (r : Nat × List Nat) : List L1Line × State :=
  let n := s.w.core
  let l := homeLine s (32 * r.2.headD 0)
  let m := secMask r.2
  let hit (x : L1Line) : Bool := x.core = n && x.line = l && x.secs &&& m = m && ltOf s n ≤ x.ends
  let home (s : State) (ctx : Nat) : State :=
    if join then laneLoad s ctx r.1 l else laneRead s (Config.lease s.freeCtr) ctx r.1 l
  match if l1 && r.1 = 0 then s.copies.find? hit else none with
  | some c =>
    let s1 := { s with freeCtr := s.freeCtr + 1 }
    if freeOdd s then ([], home { s1 with copies := s1.copies.erase c } ctx)
    else ([c], laneTime s1 (max (ltOf s n) c.wts))
  | none =>
    let s1 := home s (if r.1 = 0 then 0 else ctx)
    ([], if l1 && r.1 = 0 then l1Fill s1 l m else s1)

/-- The sectors an L1 may hold: of pages whose CA lets it allocate (R153). -/
def l1Sectors (p : List (Fin 32 × Loc)) : List Nat :=
  p.flatMap fun x => ((x.2.onPages (· ≤ 1)).map (· / 32)).eraseDups

/-- The sectors no miss is joined or merged for: of uncached and device pages (R151, R153). -/
def loneSectors (ls : List Loc) : List Nat :=
  ls.flatMap fun l => ((l.onPages fun ca => ca = 2 || ca = 4).map (· / 32)).eraseDups

/-- The requests of a load, with the lines that hit. -/
def loadRequests (s : State) (acc : Fin 32 → Accessor) (bypass : Bool) (p : List (Fin 32 × Loc)) : List L1Line × State :=
  let keep := if bypass then [] else l1Sectors p
  let lone := loneSectors (p.map (·.2))
  (requestsOf s acc true p).foldl (fun t r =>
    let u := loadRequest t.2 (r.2.all keep.contains) (!r.2.any lone.contains) s.w.ctx r
    (t.1 ++ u.1, u.2)) ([], s)

/-- The requests of a store. -/
def storeRequests (s : State) (acc : Fin 32 → Accessor) (p : List (Fin 32 × Loc)) : State :=
  (requestsOf s acc false p).foldl (fun t r => laneStore t (if r.1 = 0 then 0 else s.w.ctx) r.1 r.2) s

/-- Does a lane's access go by the lane path (R168)? The pod window's does not: in this package it is performed as a
peer's is. -/
def byLane (g : Fin 32 → DWord) (p : List (Fin 32 × Loc)) : List (Fin 32 × Loc) := p.filter fun x => !isPod (g x.1)

/-- The bytes that pod accesses of a word reach in this package. -/
def podBytes (g : Fin 32 → DWord) (p : List (Fin 32 × Loc)) : List Nat :=
  (p.filter fun x => isPod (g x.1)).flatMap fun x => x.2.pas

/-- The pod stores of a word in this package take their times, and are recorded (R178, R197). -/
def podWrites (s : State) (g : Fin 32 → DWord) (p : List (Fin 32 × Loc)) : State :=
  match podBytes g p with
  | [] => s
  | as =>
    let rec_ (s : State) (x : Fin 32 × Loc) : State :=
      hazardWrite s s.w.ctx { cls := 0x10, pos := .pod, wave := s.w.id, leader := x.1 } x.2.pas
    (p.filter fun x => isPod (g x.1)).foldl rec_ (touchEngine s as)

/-! ### Loads (R380 to R385) -/

/-- A byte of a load, from the line that hit if one did. -/
def hitByte (s : State) (hits : List L1Line) (x : Accessor) (l : Loc) (a : Nat) : Byte :=
  match if hits.isEmpty || versSlot s x l true (a / 32) ≠ 0 then none else hits.find? fun c => c.line = homeLine s a with
  | some c => c.data.getD (route s a % 128) 0
  | none => locByte s x l a

/-- The bytes one lane's load reads; what another package's memory holds is free. -/
def readLane (s : State) (hits : List L1Line) (x : Accessor) (l : Loc) (n : Nat) : List Byte × State :=
  if l.peer.isSome || l.bad.isSome then freeBytes s n else (l.pas.map (hitByte s hits x l), s)

/-- The bytes of each performing lane. -/
def readEach (s : State) (hits : List L1Line) (acc : Fin 32 → Accessor) (n : Nat) :
    List (Fin 32 × Loc) → List (Fin 32 × List Byte) × State
  | [] => ([], s)
  | (l, x) :: t =>
    let r := readLane s hits (acc l) x n
    let u := readEach r.2 hits acc n t
    ((l, r.1) :: u.1, u.2)

/-- The bytes of each performing lane. With a uniform base a pod load is one access, whose value every lane gets
(R381). -/
def readLanes (s : State) (hits : List L1Line) (acc : Fin 32 → Accessor) (n : Nat) (bk : Bool) (p : List (Fin 32 × Loc)) :
    List (Fin 32 × List Byte) × State :=
  if bk && p.any fun x => x.2.peer.isSome || x.2.bad.isSome then
    let r := freeBytes s n
    (p.map fun x => (x.1, r.1), r.2)
  else readEach s hits acc n p

/-- A loaded value's j-th register word (R381). -/
def loadWord (bs : List Byte) (sx : Bool) (j : Nat) : Word :=
  let b := (bs.drop (4 * j)).take 4
  let v := leNat b
  if sx && b.length = 1 then (BitVec.ofNat 8 v).signExtend 32
  else if sx && b.length = 2 then (BitVec.ofNat 16 v).signExtend 32
  else BitVec.ofNat 32 v

/-- The bytes a lane got, none for a lane that did not perform. -/
def bytesOf (vs : List (Fin 32 × List Byte)) (l : Fin 32) : List Byte := ((vs.find? fun x => x.1 = l).map (·.2)).getD []

/-- Who accesses for a lane: with a uniform base every lane reaches lane 0's slice (R142); the handler's access is the
wave's, under hypothesis 0 (R98). -/
def memAccessor (w : Wave) (bk : Bool) (l : Fin 32) : Accessor :=
  match w.iss.agent with
  | .handler => w.committed 0
  | _ => { w.accessor l with lane := if bk then 0 else l }

/-- The lanes a memory word acts for: the handler's is performed once (R382), and %trapinfo0 names lane 0 for it, present or
not (log 60: DESIGN CHOICE). -/
def memLanes (w : Wave) (gd : Fin 8) : Mask :=
  match w.iss.agent with
  | .handler => laneBit 0
  | _ => w.eff gd

/-- Write `k` destination registers from the lanes' bytes: vectors by lane, scalars from the one access, or a port. -/
def writeLoaded (s : State) (d : Operand) (p : Mask) (vs : List (Fin 32 × List Byte)) (sx : Bool) (k : Nat) : State :=
  match d with
  | .v r =>
    (List.range k).foldl (fun s j => updW s fun w => setV w (r + j) p fun l => loadWord (bytesOf vs l) sx j) s
  | .s r => (List.range k).foldl (fun s j => updW s fun w => setS w (r + j) (loadWord (bytesOf vs 0) sx j)) s
  | .q q => if p = 0 then s else pushPort s p q fun l => loadWord (bytesOf vs l) sx 0
  | _ => s

/-- Sample a load's latency (R312): its CCLK are free. -/
def sampleLoad (s : State) : State := sample s s.w.core 0 (Config.freeWord s.freeCtr).toNat

/-- LD (R381). -/
def execLd (h : Hdr) (d a : Operand) (x : MemExt) (s : State) : Out :=
  let w := s.w
  let e := memLanes w h.gd
  let n := 2 ^ x.size.toNat
  let acc := memAccessor w x.bk
  let g (l : Fin 32) : DWord := addrVal w a l + x.ofs.signExtend 64
  .next <|
    if e = 0 then s
    else
      match pushReady s e d [] with
      | .error s' => s'
      | .ok _ =>
        match settle s e g (fun l => laneChk s (acc l) .load (g l) n) (some (.ld h d a x)) with
        | .error s' => s'
        | .ok (s1, p) =>
          if d.isQ && s1.w.held.length ≠ w.held.length then holdRest s1 (lanesIn p)
          else if poisonAny s1 acc p then poisonEnd s1
          else
            let s2 := hazardCheck (reportPeers s1 g p) g (byLane g p)
            let (hits, s3) := loadRequests (readTimes s2 s2.clk.toNat (podBytes g p)).2 acc (x.pol = 3) (byLane g p)
            let (vs, s4) := readLanes s3 hits acc n x.bk p
            writeLoaded (sampleLoad s4) d (lanesIn p) vs x.sx (max 1 (n / 4))

/-! ### Stores (R429 to R432) -/

/-- The bytes a lane stores: its data registers, lowest address first. -/
def storeData (n : Nat) (ws : List Word) : List Byte := (ws.flatMap fun x => leBytes 4 x.toNat).take n

/-- The data words of one lane: `k` registers from D, or a port's entry. -/
def dataWords (w : Wave) (d : Operand) (k : Nat) (l : Fin 32) : List Word :=
  match d with
  | .v r => (List.range k).map fun j => getV w (r + j) l
  | .s r => (List.range k).map fun j => getS w (r + j)
  | _ => []

/-- An access to another package, still to be acknowledged (R178). -/
def sendPod (s : State) (l : Fin 32) (pkg off : Nat) (op : PodOp) (bs : List Byte) : State :=
  { s with
    nextId := s.nextId + 1
    pods := s.pods ++ [{ id := s.nextId, wave := s.w.id, unit := s.w.unit, member := s.w.member, lane := l
                         pkg := pkg, ofs := off, op := op, data := bs
                         asid := ((ctxOf s s.w.ctx).map (·.asid)).getD 0 }] }

/-- The stores of the performing lanes, ascending, so that the highest lane remains (R181); a lane for which no version
line is to be had stops them (R265). All of them are made in one step, though the events of different lines, and the
sectors of an access that crosses one, may be performed at different times (R179, R180; log 45: DESIGN CHOICE). -/
def storeLanes (s : State) (acc : Fin 32 → Accessor) (data : Fin 32 → List Byte) :
    List (Fin 32 × Loc) → Except (Fin 32) State
  | [] => .ok s
  | (l, x) :: t =>
    match x.peer, x.bad with
    | some (p, o), _ => storeLanes (sendPod s l p o .store (data l)) acc data t
    | none, some _ => storeLanes s acc data t
    | none, none =>
      match storeLoc s (acc l) x (data l) with
      | none => .error l
      | some s' => storeLanes s' acc data t

/-- How many lanes' stores are versioned (R311). -/
def versCount (p : List (Fin 32 × Loc)) : Nat := (p.filter fun x => x.2.vers).length

/-- The lanes' checks of a word whose data a port may give: a port's entry is popped once, before the lanes under exchange are
held with it. -/
def settlePopped (s : State) (e m : Mask) (d : Operand) (g : Fin 32 → DWord) (chk : Fin 32 → Except Miss Loc) (i : Instr) :
    Res (State × Lanes Word × List (Fin 32 × Loc)) :=
  match popReady s e [] d, settle s m g chk (some i) with
  | .error s', _ => .error s'
  | .ok _, .error s' => .error s'
  | .ok _, .ok (s1, p) =>
    match d with
    | .q r =>
      match readVec s e d with
      | .error s' => .error s'
      | .ok (s2, q) =>
        match settle (updIss s2 fun j => { j with popped := j.popped ++ [(j.pc, r, q)] }) m g chk (some i) with
        | .error s' => .error s'
        | .ok (s3, p3) => .ok (s3, q, p3)
    | _ => .ok (s1, Vector.replicate 32 0, p)

/-- ST (R430). -/
def execSt (h : Hdr) (d a : Operand) (x : MemExt) (s : State) : Out :=
  let w := s.w
  let e := memLanes w h.gd
  let n := 2 ^ x.size.toNat
  let acc := memAccessor w x.bk
  let g (l : Fin 32) : DWord := addrVal w a l + x.ofs.signExtend 64
  let o : Mask := if w.iss.agent = .handler then 0 else w.orphans
  .next <|
    if e = 0 then s
    else
      match settlePopped s e (maskDiff e o) d g (fun l => laneChk s (acc l) .store (g l) n) (.st h d a x) with
      | .error s' => s'
      | .ok (s2, q, p) =>
        let data (l : Fin 32) : List Byte :=
          storeData n (match d with
            | .q _ => [q[l]]
            | _ => dataWords w d (max 1 (n / 4)) l)
        let s3 := podWrites (storeRequests (hazardCheck (reportPeers s2 g p) g (byLane g p)) acc (byLane g p)) g p
        match storeLanes s3 acc data p with
        | .error l => faultAt s 0x30 (BitVec.ofNat 32 l) (g l)
        | .ok s4 => bump s4 w.core 36 (versCount p)

/-! ### Atomics (R319 to R325) -/

/-- f(op, m, d) of R320; `dn` is the new value of cas. -/
def atomFn (aop : BitVec 4) (m d dn : Word) : Word :=
  match aop.toNat with
  | 0 => m + d
  | 1 => (fadd rne m d).1
  | 2 => minS m d
  | 3 => maxS m d
  | 4 => minN m d
  | 5 => maxN m d
  | 6 => m &&& d
  | 7 => m ||| d
  | 8 => m ^^^ d
  | 9 => d
  | _ => if m = d then dn else m

/-- One atomic at a located word, on committed memory: the old value and the state after. -/
def atomAt (s : State) (ctx : Nat) (l : Loc) (f : Word → Word) : Word × State :=
  let old : Word := BitVec.ofNat 32 (leNat (l.pas.map (physByte s)))
  let s1 := storeEntries s ctx l
  (old, writeCells s1 (l.pas.zip (leBytes 4 (f old).toNat)))

/-- The atomics of the performing lanes, ascending (R181), with each lane's old value. -/
def atomLanes (s : State) (aop : BitVec 4) (d dn : Fin 32 → Word) :
    List (Fin 32 × Loc) → List (Fin 32 × List Byte) × State
  | [] => ([], s)
  | (l, x) :: t =>
    match x.peer, x.bad with
    | some (p, o), _ =>
      let r := freeBytes s 4
      let u := atomLanes (sendPod r.2 l p o (.atomic aop (pair (d l) (dn l))) []) aop d dn t
      ((l, r.1) :: u.1, u.2)
    | none, some _ =>
      let r := freeBytes s 4
      let u := atomLanes r.2 aop d dn t
      ((l, r.1) :: u.1, u.2)
    | none, none =>
      let r := atomAt s s.w.ctx x fun m => atomFn aop m (d l) (dn l)
      let u := atomLanes r.2 aop d dn t
      ((l, leBytes 4 r.1.toNat) :: u.1, u.2)

/-- CRC-32C of one byte (R314). -/
def crcByte (c : Word) (b : Byte) : Word :=
  (List.range 8).foldl (fun c _ => if c.getLsbD 0 then (c >>> 1) ^^^ 0x82F63B78 else c >>> 1) (c ^^^ b.zeroExtend 32)

/-- CRC-32C of words, little-endian. -/
def crcWords (c : Word) (ws : List Word) : Word := (ws.flatMap fun x => leBytes 4 x.toNat).foldl crcByte c

/-- Is a slot running a replay of the wave's queue (R314)? -/
def replaying (s : State) (w : Wave) : Bool := s.slots.any fun x => x.qcb = w.qcb && x.replay.isSome

/-- Shared by ATOM and ATOMR, `i` (R320): the lanes' old values, or the state the instruction ends in. -/
def atomics (i : Instr) (h : Hdr) (d a : Operand) (x : AtomExt) (s : State) : Res (State × Mask × List (Fin 32 × List Byte)) :=
  let w := s.w
  let e := w.eff h.gd
  let acc (l : Fin 32) : Accessor := { memAccessor w x.bk l with hyp := 0 }
  let g (l : Fin 32) : DWord := addrVal w a l + x.ofs.signExtend 64
  let chk (l : Fin 32) : Except Miss Loc :=
    if (g l).toNat % 4 ≠ 0 then .error (.trap 0x10) else laneChk s (acc l) .atomic (g l) 4
  let d0 (l : Fin 32) : Word := vecVal w d l
  let d1 (l : Fin 32) : Word := match d with
    | .v r => getV w (r + 1) l
    | .s r => getS w (r + 1)
    | _ => 0
  if e = 0 then .error s
  else
    match settle s e g chk (some i) with
    | .error s' => .error s'
    | .ok (s1, p) =>
      if poisonAny s1 acc p then .error (poisonEnd s1)
      else
        let reqs := (((byLane g p).map fun x => x.2.pas).eraseDups).length + (p.length - (byLane g p).length)
        let s2 := podWrites (storeRequests (hazardCheck (reportPeers s1 g p) g (byLane g p)) acc (byLane g p)) g p
        let s3 := bump (bump s2 w.core 34 reqs) w.core 35 p.length
        let (old, s4) := atomLanes s3 x.aop d0 d1 p
        .ok (s4, lanesIn p, old)

/-- ATOM (R320). -/
def execAtom (h : Hdr) (d a : Operand) (x : AtomExt) (s : State) : Out :=
  .next (match atomics (.atom h d a x) h d a x s with
    | .error s' => s'
    | .ok (s', _, _) => s')

/-- ATOMR (R324): the old values go to D; under replay they enter the wave's path signature (R314). -/
def execAtomr (h : Hdr) (d a : Operand) (x : AtomExt) (s : State) : Out :=
  .next (match atomics (.atomr h d a x) h d a x s with
    | .error s' => s'
    | .ok (s', p, old) =>
      let s2 := writeLoaded s' d p old false 1
      updW s2 fun w => { w with sig := crcWords w.sig (old.map fun v => loadWord v.2 false 0) })

/-! ### PREF and WAITC -/

/-- A prefetch of sectors of one line (R408): unless it is dropped, the home gives a lease, and the L1 holds them under it; the
core's time does not move (R409; log 7: DESIGN CHOICE). -/
def prefLine (s : State) (secs : List Nat) : State :=
  let l := homeLine s (32 * secs.headD 0)
  let lt := ltOf s s.w.core
  let s1 := noteMiss s l
  let r := readAt s1 lt (lt + Config.lease s.freeCtr) 0 0 l
  { s1 with freeCtr := s1.freeCtr + 1, lines := if freeOdd s1 then r.2.lines else s.lines
            copies := if freeOdd s1 then l1Put r.2 l (secMask secs) else s.copies }

/-- PREF (R408): of the lanes under hypothesis 0 whose checks pass for a load, each line of a page that the L1 may hold is
prefetched, under a policy other than bypass, whatever SIZE is (R55). A line that only the L2 takes leaves nothing behind
that software sees. -/
def execPref (h : Hdr) (a : Operand) (x : MemExt) (s : State) : Out :=
  let w := s.w
  let e := memLanes w h.gd
  let acc := memAccessor w x.bk
  let g (l : Fin 32) : DWord := addrVal w a l + x.ofs.signExtend 64
  let ok := (lanesOf e).filterMap fun l =>
    if (acc l).hyp ≠ 0 || isPod (g l) then none
    else match resolve s (acc l) .load (g l) 1 with
      | .ok y => some (l, y)
      | .error _ => none
  let secs := if x.pol = 3 then [] else (l1Sectors ok).eraseDups
  .next ((byLine s (secs.map (32 * ·))).foldl prefLine s)

/-- WAITC (R182, R462): the compare is performed at the home, at a time no later write is given (R167). -/
def execWaitc (h : Hdr) (d a : Operand) (s : State) : Out :=
  let w := s.w
  let e := w.eff h.gd
  let l := leaderOf e
  let g := scalarPair w a
  let i0 : Word := BitVec.ofNat 32 l
  let device (c : Nat) : Bool := c = 4
  .next <|
    if e = 0 then s
    else if w.task then fault s 0x08 0
    else if g.toNat % 4 ≠ 0 || isPod g || selOf g = 1 then faultAt s 0x10 i0 g
    else
      match resolve s (w.committed l) .load g 4 with
      | .error (.trap c) => faultAt s c i0 g
      | .error (.recov r) =>
        if r = 2 then waitRedo s (.mov e s.clk.toNat) 0 else faultPark s e r
      | .ok x =>
        if device x.ca then faultAt s 0x14 i0 g
        else if x.pas.any (poisonedAt s) then poisonEnd s
        else
          let pa := x.pas.headD 0
          let v : Word := BitVec.ofNat 32 (leNat (x.pas.map (physByte s)))
          let r := readAt (hazardCheck s (fun _ => g) [(l, x)]) (ltOf s w.core) 0 0 0 (homeLine s pa)
          if v ≠ scalarVal w d then laneTime r.2 r.1 else waitOn (addMonitor r.2 pa 4) .monitor pa

end Sys2Proof.Machine
end

