-- ==== Sys2Proof/Machine/Control.lean ====
section
/-!
DEFINITION. The control family: branches, calls, loops, lanes that leave, the hinge handler's instructions (spec/04 R100,
R101, spec/19 R328 to R334, R345, R355, spec/20 R366 to R368, R378, R386 to R390, spec/21 R403, R415), and tasks (spec/16
R292 to R295, R468, spec/21 R424 to R427, R438).
-/

namespace Sys2Proof.Machine

/-! ### Branches -/

/-- A branch target: `n` words from `next` (R36). -/
def target {k : Nat} (next : Word) (ofs : BitVec k) : Word := next + 4 * ofs.signExtend 32

/-- The lanes part: the wave raises a split or multi-split, in supervisor mode its context ends (R94, R239). -/
def raiseParting (s : State) (e : Event) (tgt : Fin 32 → Word) : State :=
  match s.w.iss.agent with
  | .leaf n => updW s fun w => { w with lpc := setLanes w.lpc e.mask tgt }.raiseLeaf n { e with leaf := n }
  | _ => endContext s s.w.ctx 0x0F 0 s.w.core

/-- BRA (R329). -/
def execBra (h : Hdr) (k : Fin 16) (ofs : BitVec 17) (s : State) : Out :=
  let w := s.w
  let leaf := maskDiff w.agentMask w.iss.excl
  let t := w.eff h.gd &&& w.maskReg k
  let n := maskDiff leaf t
  let fall := w.iss.pc + 4
  let goal := target fall ofs
  let tgt (l : Fin 32) : Word := if inMask t l then goal else fall
  .next <|
    if t = 0 then setNext s fall
    else
      let s1 := updW s fun w => w.unwindAgent leaf w.iss.pc tgt
      if n = 0 then setNext s1 goal
      else raiseParting s1 { cause := 1, mask := leaf, k14 := t, k15 := n, pc0 := goal, pc1 := fall, leaf := 0 } tgt

/-- BRS (R332): in hinge mode it moves the handler alone. -/
def execBrs (_ch : Bool) (d : Operand) (ofs : BitVec 14) (s : State) : Out :=
  let w := s.w
  let goal := target w.iss.next ofs
  .next <|
    if scalarVal w d = 0 then s
    else setNext (updW s fun w => w.unwindAgent w.agentMask w.iss.pc fun _ => goal) goal

/-- CALL (R333). -/
def execCall (_ch : Bool) (d : Operand) (ofs : BitVec 14) (s : State) : Out :=
  let w := s.w
  let link := w.iss.pc + 4
  .next (setNext (updW s fun w => setV w (regNum d) (maskDiff w.agentMask w.iss.excl) fun _ => link) (target link ofs))

/-- The lanes `m` of the agent go to their own targets: together, or by a multi-split (R94, R367, R415). -/
def scatterLanes (s : State) (m : Mask) (unw : Bool) (tgt : Fin 32 → Word) : State :=
  match lanesOf m with
  | [] => s
  | l :: t =>
    let s1 := if unw then updW s fun w => w.unwindAgent m w.iss.pc tgt else s
    if t.all fun j => tgt j = tgt l then setNext s1 (tgt l)
    else raiseParting s1 { cause := 2, mask := m, k14 := m, k15 := 0, pc0 := s.w.iss.pc, pc1 := 0, leaf := 0 } tgt

/-- RET (R415). -/
def execRet (h : Hdr) (a : Operand) (s : State) : Out :=
  let w := s.w
  let e := w.eff h.gd
  let tgt (l : Fin 32) : Word := if inMask e l then vecVal w a l &&& 0xFFFFFFFC else w.iss.next
  .next (scatterLanes s (maskDiff w.agentMask w.iss.excl) false tgt)

/-- The code object the agent's words stand in (R34, R238). -/
def codeBase (s : State) : DWord :=
  if s.w.mode = .supervisor then ((ctxOf s s.w.ctx).map (·.supco)).getD 0 else s.w.code

/-- The word of code an access found. A program reads its code object as memory stood when its launch began (R168); what was
not there then, and the supervisor's code object, it reads as it stands (log 48: DESIGN CHOICE). -/
def codeWord (s : State) (x : Accessor) (g : DWord) (l : Loc) : Word :=
  let now := BitVec.ofNat 32 (leNat (l.pas.map (physByte s)))
  match if x.sup then none else (unitOf s x.unit).bind (·.mem0) with
  | none => now
  | some m =>
    let s0 := { s with mem := m }
    match resolve s0 x .fetch g 4 with
    | .ok l0 => BitVec.ofNat 32 (leNat (l0.pas.map (physByte s0)))
    | .error _ => now

/-- JMPX (R122, R367): an index outside the table sends the wave to the trap handler with that lane's index and the mask of
all such lanes. Once lanes have fault-parked it is a JMPX without them. -/
def execJmpx (h : Hdr) (a : Operand) (table : BitVec 20) (n : BitVec 12) (s : State) : Out :=
  let w := s.w
  let e := w.eff h.gd
  let ix (l : Fin 32) : Nat := (vecVal w a l).toNat
  let g (l : Fin 32) : DWord := codeBase s + BitVec.ofNat 64 (4 * (table.toNat + ix l))
  let bad := maskWhere fun l => inMask e l && n.toNat ≤ ix l
  .next <|
    if bad ≠ 0 then fault s 0x04 (BitVec.ofNat 32 (leaderOf bad)) (vecVal w a (leaderOf bad)) bad
    else
      match settle s e g fun l => resolve s (w.committed l) .fetch (g l) 4 with
      | .error s' => s'
      | .ok (s1, p) =>
        if p.any fun x => x.2.pas.any (poisonedAt s) then poisonEnd s1
        else
          let word (l : Fin 32) : Word :=
            match p.find? fun x => x.1 = l with
            | some x => codeWord s (w.committed l) (g l) x.2 &&& 0xFFFFFFFC
            | none => w.iss.next
          scatterLanes s1 (maskDiff s1.w.agentMask s1.w.iss.excl) (p ≠ []) word

/-! ### Loops (R87 to R89, R378, R390) -/

/-- LOOP (R390). -/
def execLoop (_ch : Bool) (d : Operand) (dist : BitVec 14) (s : State) : Out :=
  let w := s.w
  let c := scalarVal w d
  let start := w.iss.next
  let finish := start + 4 * dist.zeroExtend 32
  let ls := w.agentLoops
  .next <|
    if c = 0 then setNext s (finish + 4)
    else if 4 ≤ ls.length then fault s 0x05 4
    else
      let e : LoopEntry := { start := start, finish := finish, count := c, mask := maskDiff w.agentMask w.iss.excl }
      updW s fun w => w.setLoops (e :: ls)

/-- LBRK (R378). -/
def execLbrk (_ch : Bool) (n : BitVec 3) (ofs : BitVec 14) (s : State) : Out :=
  let w := s.w
  let ls := w.agentLoops
  .next <|
    if ls.length < n.toNat then fault s 0x05 (BitVec.ofNat 32 ls.length)
    else setNext (updW s fun w => w.setLoops (ls.drop n.toNat)) (target (w.iss.pc + 4) ofs)

/-! ### Lanes that leave (R75, R108, R345, R403) -/

/-- Seeded tasks of lanes that leave are counted off their seeds (R283). -/
def countSeeds (s : State) (m : Mask) : State :=
  let n (id : Nat) : Nat := ((lanesOf m).filter fun l => s.w.seeds[l] = id).length
  { s with seeds := s.seeds.map fun x => { x with left := x.left - n x.id } }

/-- The wave's path signature enters its replay's pass signature (R314). -/
def countSig (s : State) : State :=
  { s with slots := s.slots.map fun x => match x.replay with
      | some r => if x.qcb = s.w.qcb then { x with replay := some { r with sum := r.sum + ~~~s.w.sig } } else x
      | none => x }

/-- The wave retires (R75): it leaves its slot and its monitors go. -/
def retireWave (s : State) : State :=
  let id := s.w.id
  dropWaves (countSig s) fun w => w.id = id

/-- Lanes become absent at a word (R345); with none left, the wave retires, in supervisor mode too (R75, R123). -/
def exitFrom (s : State) (m : Mask) (pc : Word) : State :=
  let m := m &&& s.w.present
  let s1 := updW (countSeeds s m) fun w => { w.exitLanes m with lpc := setLanes w.lpc m fun _ => pc }
  if s1.w.present = 0 then retireWave s1 else s1

/-- Lanes become absent at the word being issued. -/
def exitAt (s : State) (m : Mask) : State := exitFrom s m s.w.iss.pc

/-- EXIT (R345). -/
def execExit (h : Hdr) (s : State) : Out := .next (exitAt s (s.w.eff h.gd))

/-- PARK (R403). -/
def execPark (h : Hdr) (s : State) : Out :=
  let e := s.w.eff h.gd
  .next (updW s fun w => { w with lpc := setLanes w.lpc e fun _ => w.iss.next }.removeLanes e)

/-! ### The leaf table (R100, R386, R387) -/

/-- Monitors of a leaf of the issuing wave are removed. -/
def dropLeafMonitors (s : State) (n : Fin 4) : State :=
  dropMonitors s fun m => m.wave = s.w.id && m.leaf = some n

/-- A resume of leaf n is raised (R94, R96, R106): its lanes are parked now; one already pending takes them too. -/
def Wave.raiseResume (w : Wave) (n : Fin 4) (m : Mask) : Wave :=
  let w := { w with fparked := maskDiff w.fparked m, reason := setLanes w.reason m fun _ => 0 }
  match w.leaves[n].pend with
  | some e =>
    let m' := e.mask ||| m
    let e' : Event := { e with mask := m', k14 := m', pc0 := leastOffset w m' }
    { w with leaves := w.leaves.set n { w.leaves[n] with pend := some e' } }
  | none => w.raiseLeaf n { cause := 5, mask := m, k14 := m, pc0 := leastOffset w m, leaf := n }

/-- Resumes that waited for a leaf's slot take it, merged into one (R96, R106). -/
def Wave.postResumes (w : Wave) (n : Fin 4) : Wave :=
  match w.leaves[n].pend, w.resumes.filter fun e => e.leaf = n with
  | none, e :: t =>
    let m := t.foldl (fun a x => a ||| x.mask) e.mask
    { w with resumes := w.resumes.filter fun e => e.leaf ≠ n }.raiseResume n m
  | _, _ => w

/-- Leaf n takes new lanes (R387, R105): lanes it loses take its PC, but for those a pending split or multi-split has
sent on; its pending event goes unless it is a resume; its wait is abandoned. A fault-parked lane it takes is live from
now on (R100); the park counters of lanes that the trap handler puts into a live leaf are zeroed (R103), those of lanes
the hinge handler places at its HRET (R101). -/
def placeLeaf (s : State) (n : Fin 4) (m : Mask) (pc : Word) (held : Bool) : State :=
  let s := dropLeafMonitors s n
  updW s fun w =>
    let lf := w.leaves[n]
    let sent : Mask := match lf.pend with
      | some e => if e.cause = 1 || e.cause = 2 then e.mask else 0
      | none => 0
    let lost := maskDiff lf.mask (m ||| sent)
    let keep : Option Event := lf.pend.filter fun e => e.cause = 5
    let lf' : Leaf := { mask := m, pc := pc, join := 0xFFFFFFFF, held := held, pend := keep }
    let live := maskWhere fun l => match leafOfLane w l with
      | some k => !w.leaves[k].held
      | none => false
    let w1 : Wave := { w with
      lpc := setLanes w.lpc lost (fun _ => lf.pc), leaves := w.leaves.set n lf'
      fparked := maskDiff w.fparked m, reason := setLanes w.reason m fun _ => 0 }
    (if w.mode = .supervisor && !held then w1.unpark (maskDiff m live) else w1).postResumes n

/-- LEAFSET (R100). -/
def execLeafset (_ch : Bool) (held : Bool) (n : Fin 4) (a : Fin 16) (b : Operand) (s : State) : Out :=
  .next (placeLeaf s n (s.w.maskReg a) (scalarVal s.w b &&& 0xFFFFFFFC) held)

/-- LEAFCLR (R100). -/
def execLeafclr (_ch : Bool) (n : Fin 4) (s : State) : Out := .next (placeLeaf s n 0 0 false)

/-- LEAFJOIN (R100). -/
def execLeafjoin (_ch : Bool) (n : Fin 4) (a : Operand) (s : State) : Out :=
  let x := scalarVal s.w a
  .next (updW s fun w => { w with leaves := w.leaves.set n { w.leaves[n] with join := x } })

/-- LEAFGET (R100, R387): of the executing leaf the PC is the word's own offset. -/
def execLeafget (_ch : Bool) (d : Fin 16) (a : Operand) (sel : BitVec 2) (n : Fin 4) (s : State) : Out :=
  let w := s.w
  let lf := w.leaves[n]
  let pc := if w.iss.agent = .leaf n then w.iss.pc else lf.pc
  let x : Word := if sel = 0 then pc else if sel = 1 then lf.join else if lf.held then 1 else 0
  .next (writeS (writeK s d lf.mask) a x)

/-- The wave at the end of HRET (R101, R104): its cycles are counted, three and one more where other words of its chain
issued with it; lanes placed in live leaves then start from zero. After the handler of a starve event of R104, that
event's lanes still in its condition are placed by the override; a sequence begun earlier goes on; a condition that
neither covers raises the event at once. -/
def Wave.hret (w : Wave) : Wave :=
  let placed := maskWhere fun l => (leafOfLane w l).isSome
  let live := maskWhere fun l => match leafOfLane w l with
    | some n => !w.leaves[n].held
    | none => false
  let w0 := w.cyclesN (if w.iss.snap.isSome then 4 else 3)
  let rs := (w0.resumes.map fun e => { e with mask := maskDiff e.mask placed }).filter fun e => e.mask ≠ 0
  let w1 : Wave := { w0.settleLanes with
    fparked := maskDiff w0.fparked placed, resumes := rs, mode := .program, hcount := 0, hwait := none
    at104 := false, hcounts := 0 }
  let w2 := w1.unpark live
  let m := starvedNow w2
  let seq := w2.seq104 &&& (if w.at104 then m else countingLanes w2)
  let w3 : Wave := { w2 with seq104 := seq }
  if m ≠ 0 && seq &&& m = 0 then w3.raiseStarve m true else w3

/-- HRET (R101), and R104's second stage or a new starve event. -/
def execHret (_ch : Bool) (s : State) : Out :=
  let w := s.w
  .next <|
    match overlapPair w, absentLeaf w with
    | some (i, j), _ => fault s 0x03 1 w.sr.evcause (BitVec.ofNat 32 (4 * i + j))
    | none, some i => fault s 0x03 2 w.sr.evcause (BitVec.ofNat 32 i)
    | none, none => updW (sample s w.core 2 w.hcount) fun _ => w.hret

/-! ### Spawn rings and join records (R292 to R295) -/

/-- The chiplet of a core. -/
def chipOf (n : Fin 384) : Fin 8 := ⟨n / 48, by omega⟩

/-- The entries of a chiplet's ring of a context, oldest first. -/
def ringOf (s : State) (c : Fin 8) (ctx : Nat) : List SpawnEntry :=
  ((s.rings.find? fun r => r.chiplet = c && r.ctx = ctx).map (·.entries)).getD []

/-- Entries the base die holds of one ring (R292). -/
def dieEntries : Nat := 512

/-- The 64-byte places of a context's spill area that its rings use (R426). -/
def spillUsed (s : State) (ctx : Nat) : List Nat :=
  (s.rings.filter fun r => r.ctx = ctx).flatMap fun r => r.entries.filterMap (·.spill)

/-- The lowest free place of a context's spill area, which its eight rings share (log 21: DESIGN CHOICE). -/
def spillPlace (s : State) (ctx : Nat) : Option Nat :=
  let used := spillUsed s ctx
  (List.range (min (((ctxOf s ctx).map (·.spsize.toNat)).getD 0 / 64) (used.length + 1))).find? fun i => !used.contains i

/-- Does the base die's ring hold all it can, so that a further entry spills? -/
def dieFull (s : State) (c : Fin 8) (ctx : Nat) : Bool := dieEntries ≤ (ringOf s c ctx).length

/-- Are a chiplet's ring and its context's spill area full (R292)? -/
def ringFull (s : State) (c : Fin 8) (ctx : Nat) : Bool := dieFull s c ctx && (spillPlace s ctx).isNone

/-- A spilled entry's 64 bytes (R292, R426). -/
def SpawnEntry.bytes (e : SpawnEntry) : List Byte :=
  leBytes 8 e.kdesc.toNat ++ leBytes 8 (e.args.toNat + 64 * e.next) ++ leBytes 8 e.join.toNat ++ leBytes 4 e.entry.toNat ++
    leBytes 4 (e.n - e.next) ++ leBytes 8 e.time.toNat ++ leBytes 24 0

/-- An entry as its 64 bytes give it. -/
def SpawnEntry.ofBytes (e : SpawnEntry) (bs : List Byte) : SpawnEntry :=
  let x (o n : Nat) : Nat := leNat ((bs.drop o).take n)
  { e with
    kdesc := BitVec.ofNat 64 (x 0 8), args := BitVec.ofNat 64 (x 8 8), join := BitVec.ofNat 64 (x 0x10 8)
    entry := BitVec.ofNat 32 (x 0x18 4), n := x 0x1C 4, next := 0, time := BitVec.ofNat 64 (x 0x20 8) }

/-- The physical bytes of a place of a context's spill area; none while a page of it cannot be reached. -/
def spillBytes (s : State) (ctx i : Nat) : Option (List Nat) :=
  (ctxOf s ctx).bind fun c => (span 0 64).mapM fun o =>
    let va := (va57 c.spill + 64 * i + o) % 2 ^ 57
    match walk s c va with
    | .ok (_, e, level) => some (leafPa e level va)
    | .error _ => none

/-- Write an entry to its place of the spill area (R292); a page that cannot be reached takes nothing (log 21: DESIGN
CHOICE). -/
def spillPut (s : State) (ctx : Nat) (e : SpawnEntry) : State :=
  match e.spill.bind (spillBytes s ctx) with
  | some pas => sentWrite s (pas.zip e.bytes)
  | none => s

/-- An entry comes back from its place of the spill area, as its bytes stand there. -/
def unspill (s : State) (ctx : Nat) (e : SpawnEntry) : SpawnEntry :=
  match e.spill.bind (spillBytes s ctx) with
  | some pas => { e.ofBytes (pas.map (postedByte s)) with spill := none }
  | none => { e with spill := none }

/-- Put a chiplet's ring of a context back, with entries of the spill area in the places the base die has free (R292). -/
def setRing (s : State) (c : Fin 8) (ctx : Nat) (es : List SpawnEntry) : State :=
  let es' := es.zipIdx.map fun (e, i) => if i < dieEntries then unspill s ctx e else e
  { s with rings := s.rings.map fun r => if r.chiplet = c && r.ctx = ctx then { r with entries := es' } else r }

/-- Put an entry last in a ring, with the class of its issuer's queue: in the base die, else in the spill area (R292). -/
def enqueue (s : State) (c : Fin 8) (ctx : Nat) (e : SpawnEntry) : State :=
  let e' := { e with cls := qcbClass s e.qcb, spill := if dieFull s c ctx then spillPlace s ctx else none }
  let s1 := spillPut s ctx e'
  if s.rings.any fun r => r.chiplet = c && r.ctx = ctx then
    { s1 with rings := s1.rings.map fun r =>
        if r.chiplet = c && r.ctx = ctx then { r with entries := r.entries ++ [e'] } else r }
  else { s1 with rings := s1.rings ++ [⟨c, ctx, [e']⟩] }

/-- A virtual address as a join record or an argument base must be (R425). -/
def virtAligned (g : DWord) (n : Nat) : Bool := (selOf g = 0 || selOf g = 0x7F) && g.toNat % n = 0

/-- SPAWN (R424): it waits before its first effect (R77). -/
def execSpawn (h : Hdr) (d a : Operand) (jn : BitVec 5) (j : Bool) (entry : BitVec 22) (s : State) : Out :=
  let w := s.w
  let e := w.eff h.gd
  let l := leaderOf e
  let n := getS w (regNum d)
  let base := scalarPair w a
  let rec_ : DWord := if j then pair (getS w jn.toNat) (getS w (jn.toNat + 1)) else 0
  let chip := chipOf w.core
  let child (s : State) : SpawnEntry :=
    { kdesc := w.kdesc, args := base, join := rec_, entry := entry.zeroExtend 32, n := n.toNat
      qcb := (w.origin l).1, hdr := (w.origin l).2
      time := BitVec.ofNat 64 (ltOf s w.core) }
  .next <|
    if e = 0 then s
    else if inMask w.orphans l then s
    else if n = 0 then s
    else if 2 ^ 20 < n.toNat then faultAt s 0x07 11 (n.zeroExtend 64)
    else if !virtAligned base 64 then faultAt s 0x07 11 base
    else if j && !virtAligned rec_ 8 then faultAt s 0x07 11 rec_
    else if !j then (if ringFull s chip w.ctx then waitRedo s .spawn 0 else enqueue s chip w.ctx (child s))
    else
      match resolve s (w.committed l) .atomic rec_ 4 with
      | .error (.trap c) => faultAt s c (BitVec.ofNat 32 l) rec_
      | .error (.recov r) =>
        if r = 2 then waitRedo s (.mov e s.clk.toNat) 0 else faultPark s e r
      | .ok x =>
        if x.pas.any (poisonedAt s) then poisonEnd s
        else
          let s1 := (atomAt (laneStores s x.pas) w.ctx x fun m => m + n).2
          if ringFull s chip w.ctx then waitOn s1 (.tret 0 [.child (child s1)]) 0 else enqueue s1 chip w.ctx (child s1)

/-- How what a TRET brings about ends (R468). -/
inductive Arrived where
  | done (s : State)
  /-- A continuation found no room, or a parent's page needs service: the rest waits. -/
  | wait (s : State) (rest : List JoinWork)
  /-- A parent arrival failed: what was performed stays. -/
  | failed (s : State) (cause : BitVec 8) (info0 : Word) (g : DWord)
  /-- A record's data is poisoned (R241). -/
  | poison (s : State)

/-- A 64-bit field of a record's bytes. -/
def recDWord (bs : List Byte) (o : Nat) : DWord := BitVec.ofNat 64 (leNat ((bs.drop o).take 8))

/-- What bringing a record's count to zero brings about for the lane that did (R295). -/
def joinWork (l : Fin 32) (bs : List Byte) : List JoinWork :=
  let fl := bs.getD 0x18 0
  if fl.getLsbD 0 then [.enqueue l (recDWord bs 8) (BitVec.ofNat 32 (leNat ((bs.drop 4).take 4) % 2 ^ 22))]
  else if fl.getLsbD 1 then [.parent l (recDWord bs 0x10)]
  else []

/-- One arrival at a located record (R295): the state, and what it brings about if it took the count to zero. -/
def arriveAt (s : State) (x : Loc) (l : Fin 32) : State × List JoinWork :=
  let bs := x.pas.map (physByte s)
  let count := leNat (bs.take 4)
  if count = 0 then (writeCells s [(x.pas.getD 0x19 0, bs.getD 0x19 0 ||| 1)], [])
  else (writeCells s ((x.pas.take 4).zip (leBytes 4 (count - 1))), if count = 1 then joinWork l bs else [])

/-- The arrivals of lanes at one record: one atomic at one logical time, in ascending lane order (R300). -/
def arriveAll (s : State) (x : Loc) (ls : List (Fin 32)) : State × List JoinWork :=
  let s1 := laneStores (storeEntries s s.w.ctx x) x.pas
  ls.foldl (fun r l => let y := arriveAt r.1 x l
    (y.1, r.2 ++ y.2)) (s1, [])

/-- The arrivals of a TRET, record after record, and what they bring about. -/
def arrivals (s : State) (g : Fin 32 → DWord) (p : List (Fin 32 × Loc)) : State × List JoinWork :=
  ((p.map fun x => g x.1).eraseDups).foldl (fun r a =>
    let here := p.filter fun x => g x.1 = a
    match here with
    | [] => r
    | (_, x) :: _ =>
      let y := arriveAll r.1 x (here.map (·.1))
      (y.1, r.2 ++ y.2)) (s, [])

/-- What arrivals bring about, made one after another. Each parent arrival takes a count in memory to zero before it adds
another, so the bound on their number is never met. -/
def doWork (s : State) : Nat → List JoinWork → Arrived
  | _, [] => .done s
  | 0, t => .wait s t
  | k + 1, .enqueue l args entry :: t =>
    let w := s.w
    let (q, hd) := w.origin l
    if ringFull s (chipOf w.core) w.ctx then .wait s (.enqueue l args entry :: t)
    else
      doWork (enqueue s (chipOf w.core) w.ctx
        { kdesc := w.kdesc, args := args, join := 0, entry := entry, n := 1, qcb := q, hdr := hd }) k t
  | k + 1, .child x :: t =>
    let w := s.w
    if ringFull s (chipOf w.core) w.ctx then .wait s (.child x :: t)
    else doWork (enqueue s (chipOf w.core) w.ctx { x with time := BitVec.ofNat 64 (ltOf s w.core) }) k t
  | k + 1, .parent l g :: t =>
    if !virtAligned g 8 then .failed s 0x07 11 g
    else
      match resolve s (s.w.committed l) .atomic g 32 with
      | .error (.trap c) => .failed s c 34 g
      | .error (.recov r) =>
        let fresh : Bool := maskDiff (laneBit l) (askedLanes s s.w.id) ≠ 0 && r ≠ 0
        .wait (askService (bump s s.w.core 20 (if fresh then 1 else 0)) (laneBit l) r) (.parent l g :: t)
      | .ok x =>
        if x.pas.any (poisonedAt s) then .poison s
        else
          let y := arriveAll s x [l]
          doWork y.1 k (t ++ y.2)

/-- A bound on what the arrivals in hand can bring about: every record they reach has a count in memory. -/
def workBound (s : State) (ws : List JoinWork) : Nat := ws.length + s.mem.length + 1

/-- TRET (R438): its arrivals are made, then what they bring about; its lanes become absent after the last of it. -/
def execTret (h : Hdr) (a : Operand) (s : State) : Out :=
  let w := s.w
  let e := w.eff h.gd
  let g (l : Fin 32) : DWord := addrVal w a l
  let named := maskWhere fun l => inMask e l && g l ≠ 0
  let bad := maskWhere fun l => inMask named l && !virtAligned (g l) 8
  .next <|
    if e = 0 then s
    else if bad ≠ 0 then faultAt s 0x07 11 (g (leaderOf bad))
    else
      match settle s named g fun l => resolve s (w.committed l) .atomic (g l) 32 with
      | .error s' => s'
      | .ok (s1, p) =>
        if p.any fun x => x.2.pas.any (poisonedAt s1) then poisonEnd s1
        else
          let m := maskDiff e s1.w.iss.parked
          let r := arrivals s1 g p
          match doWork r.1 (workBound r.1 r.2) r.2 with
          | .done s2 => exitAt s2 m
          | .wait s2 rest => waitOn s2 (.tret m rest) 0
          | .failed s2 c i0 x => updIss (faultAt s2 c i0 x) fun i => { i with keep := true }
          | .poison s2 => poisonEnd s2

end Sys2Proof.Machine
end

