-- ==== Sys2Proof/Machine/Latch.lean ====
section
/-!
DEFINITION. Latches (spec/10_engines.md R207, R208, spec/20 R373 to R377) and tumbler-queue instructions (R211, R213,
spec/21 R410 to R413).
-/

namespace Sys2Proof.Machine

/-! ### Latch words (R207) -/

/-- A latch's fields. -/
structure Latch where
  phase   : Nat
  eng     : Bool
  poison  : Bool
  saved   : Bool
  pendArr : Nat
  expArr  : Nat
  pendSec : Nat
  deriving DecidableEq, Repr

/-- The fields of a latch's 128 bits. -/
def latchOf (x : Nat) : Latch :=
  { phase := bitsOf x 3 0, eng := ebit x 4, poison := ebit x 5, saved := ebit x 6, pendArr := bitsOf x 27 8,
    expArr := bitsOf x 47 28, pendSec := bitsOf x 79 48 }

/-- One bit as a number. -/
def bitNat (b : Bool) (n : Nat) : Nat := if b then 2 ^ n else 0

/-- The 128 bits of a latch. -/
def latchBits (l : Latch) : Nat :=
  l.phase % 16 + bitNat l.eng 4 + bitNat l.poison 5 + bitNat l.saved 6 + 2 ^ 8 * (l.pendArr % 2 ^ 20) +
    2 ^ 28 * (l.expArr % 2 ^ 20) + 2 ^ 48 * (l.pendSec % 2 ^ 32)

/-- update(L) of R208. -/
def Latch.update (l : Latch) : Latch :=
  if l.pendArr = 0 ∧ l.pendSec = 0 then { l with phase := (l.phase + 1) % 16, pendArr := l.expArr, eng := false } else l

/-- LINIT's latch. -/
def Latch.init (n : Nat) : Latch :=
  { phase := 0, eng := false, poison := false, saved := false, pendArr := n, expArr := n, pendSec := 0 }

/-- LARV's effect. -/
def Latch.arrive (l : Latch) (a : Nat) : Latch :=
  (if l.pendArr < a then { l with poison := true, pendArr := 0 } else { l with pendArr := l.pendArr - a }).update

/-- LEXP's effect. -/
def Latch.expect (l : Latch) (m : Nat) : Latch := { l with pendSec := (l.pendSec + m) % 2 ^ 32 }.update

/-- One sector counted. -/
def Latch.count (l : Latch) : Latch := { l with pendSec := (l.pendSec + 2 ^ 32 - 1) % 2 ^ 32 }.update

/-- The latch at a located 16 bytes. -/
def latchAt (s : State) (pas : List Nat) : Latch := latchOf (leNat (pas.map (physByte s)))

/-- One performance on a latch at its home; writing it wakes its waiters (R208). -/
def latchPut (s : State) (pas : List Nat) (l : Latch) : State := writeCells s (pas.zip (leBytes 16 (latchBits l)))

/-- Is the latch a record is counted on kept at a byte (R197)? -/
def Hazard.onLatch (s : State) (h : Hazard) (a : Nat) : Bool :=
  h.latch.any fun x => (winByte s x.1 x.2.1 x.2.2).any fun b => homeLine s b = homeLine s a && route s b = route s a

/-- Drop records that a latch completion covers (R197). -/
def dropHazards (s : State) (p : Hazard → Bool) : State := { s with hazards := s.hazards.filter fun h => !p h }

/-- Change a latch; when its phase advances, the records of the sectors it counted are dropped (R197). -/
def latchMap (s : State) (pas : List Nat) (f : Latch → Latch) : State :=
  let l := latchAt s pas
  let s1 := latchPut s pas (f l)
  if s1.hazards.isEmpty || (f l).phase = l.phase then s1 else dropHazards s1 fun h => h.onLatch s1 (pas.headD 0)

/-! ### Latch instructions -/

/-- The lanes a latch instruction acts for: a scalar base names one latch once, for the leader; `.one` keeps the leader's
(R60, R373). -/
def latchLanes (e : Mask) (one : Bool) (a : Operand) : Mask :=
  if one || !a.isV then laneBit (leaderOf e) else e

/-- The checks shared by the latch instructions (R376), then `f` on each latch found. One access made for every active lane,
which is that of a scalar base, has its recoverable causes for all of them; `.one` with a vector base acts as if the leader
alone were active (R60). `hold` is the word, where lanes under exchange are held (R158 step 9). -/
def latchOp (s : State) (hold : Option Instr) (h : Hdr) (one : Bool) (a : Operand) (illegal : Bool)
    (f : State → List (Fin 32 × Loc) → (Fin 32 → DWord) → State) : State :=
  let w := s.w
  let e := w.eff h.gd
  let m := latchLanes e one a
  let g (l : Fin 32) : DWord := addrVal w a l
  let bad := maskWhere fun l => inMask m l && ((g l).toNat % 16 ≠ 0 || isPod (g l) || illegal)
  if e = 0 then s
  else if bad ≠ 0 then badHandle s 4 (g (leaderOf bad))
  else
    let acc (l : Fin 32) : Accessor := if a.isV then w.committed l else w.committed 0
    let one_ := leaderOf e
    match (if a.isV then settle s m g (fun l => resolve s (acc l) .atomic (g l) 16) hold
           else settleOne s e one_ (g one_) (resolve s (acc one_) .atomic (g one_) 16) hold) with
    | .error s' => s'
    | .ok (s1, p) => if p.any fun x => x.2.pas.any (poisonedAt s1) then poisonEnd s1 else f (hazardCheck s1 g p) p g

/-- Perform on the latches named, ascending by lane (R374). -/
def latchWrites (s : State) (p : List (Fin 32 × Loc)) (f : Latch → Latch) : State :=
  p.foldl (fun s x => latchMap (storeEntries s s.w.ctx x.2) x.2.pas f) (laneStores s (p.flatMap fun x => x.2.pas))

/-- LINIT (R208). -/
def execLinit (h : Hdr) (one : Bool) (a b : Operand) (s : State) : Out :=
  let n := (scalarVal s.w b).toNat
  .next (latchOp s (some (.linit h one a b)) h one a (n = 0 || 0xFFFFF < n) fun s p _ => latchWrites s p fun _ => Latch.init n)

/-- LARV (R208). -/
def execLarv (h : Hdr) (one : Bool) (a b : Operand) (s : State) : Out :=
  let n := (scalarVal s.w b).toNat
  .next (latchOp s (some (.larv h one a b)) h one a false fun s p _ => latchWrites s p fun l => l.arrive n)

/-- LEXP (R208). -/
def execLexp (h : Hdr) (one : Bool) (a b : Operand) (s : State) : Out :=
  let n := (scalarVal s.w b).toNat
  .next (latchOp s (some (.lexp h one a b)) h one a false fun s p _ => latchWrites s p fun l => l.expect n)

/-- The 64 KiB frames that back a task wave's slices (R145). -/
def sliceFrames (s : State) (w : Wave) : List Nat :=
  match ctxOf s w.ctx with
  | none => []
  | some c =>
    let base := va57 c.lbase + w.blk.toNat * sliceBytes w.lpriv
    (List.range (sliceBytes w.lpriv / 0x10000)).filterMap fun i =>
      let va := (base + 0x10000 * i) % 2 ^ 57
      match walk s c va with
      | .ok (_, e, level) => some (leafPa e level va)
      | .error _ => none

/-- Does a task wave own the bytes: its granule, under any name, or a slice of its lanes (R86, R375)? -/
def ownBytes (s : State) (w : Wave) (pas : List Nat) : Bool :=
  let granule (a : Nat) : Bool := match (unitOf s w.unit).bind (·.at w.member) with
    | some m => inMember m (route s a)
    | none => false
  pas.all fun a => granule a || (sliceFrames s w).any fun f => f ≤ a && a < f + 0x10000

/-- LWAIT (R208, R374, R375). Each sector is counted on the latch past its own time (R175), so the latch line's time, which
the core's rises to, is past those of every sector counted. -/
def execLwait (h : Hdr) (one : Bool) (a b : Operand) (s : State) : Out :=
  let seen := (scalarVal s.w b).toNat % 16
  .next (latchOp s none h one a false fun s p g =>
    let w := s.w
    let foreign := p.find? fun x => w.task && (!ownBytes s w x.2.pas || (latchAt s x.2.pas).expArr ≠ 1)
    if foreign.isSome then fault s 0x08 0
    else
      match p.find? fun x => (latchAt s x.2.pas).phase = seen with
      | some x => waitRedo (addMonitor s (x.2.pas.headD 0) 16) .latch (x.2.pas.headD 0)
      | none =>
        match p.find? fun x => (latchAt s x.2.pas).poison with
        | some x => faultAt s 0x20 2 (g x.1)
        | none => sample (laneLoads s (p.flatMap fun x => x.2.pas)) w.core 1 (Config.freeWord s.freeCtr).toNat)

/-! ### Queue instructions (R211) -/

/-- Find the queue a word names and go on with it (R411); the debug detector looks at an access that was made (R197). -/
def queueAt (s : State) (h : Hdr) (a : Operand) (find : State → Mask → DWord → Res Nat) (k : Mask → DWord → Nat → State) : State :=
  let e := s.w.eff h.gd
  let g := scalarPair s.w a
  if e = 0 then s
  else
    match find s e g with
    | .error s' => s'
    | .ok pa =>
      let t := k e g pa
      if t.hazards.isEmpty || t.w.id ≠ s.w.id || t.w.iss.fault.isSome || t.w.iss.redo then t else queueSeen t pa g

/-- QINIT (R411). -/
def execQinit (h : Hdr) (d a b : Operand) (s : State) : Out :=
  let cfg := (scalarVal s.w b).toNat
  let base := (scalarVal s.w d).toNat
  let q : Queue := { slots := bitsOf cfg 7 0, permits := bitsOf cfg 7 0, tokens := 0, head := 0, tail := 0,
                     ssize := bitsOf cfg 31 24, sbase := base, pcls := bitsOf cfg 15 8, ccls := bitsOf cfg 23 16 }
  .next (queueAt s h a locateQueue fun e g pa =>
    let room := (spadRange s (s.w.committed (leaderOf e)) base (q.slots * 32 * q.ssize)).isSome
    let legal : Bool := 1 ≤ q.slots && 1 ≤ q.ssize && q.pcls ≤ 1 && q.ccls ≤ 2 && base % 32 = 0 && room
    if !legal || s.xfers.any (fun x => x.queue.bind (winByte s x.unit x.member ·) = some pa) then badHandle s 5 g else writeQueue s pa q)

/-- QACQ (R211, R86). -/
def execQacq (h : Hdr) (d a : Operand) (s : State) : Out :=
  .next <|
    if s.w.task && s.w.eff h.gd ≠ 0 then fault s 0x08 0
    else queueAt s h a liveQueue fun _ g pa =>
      let q := readQueue s pa
      if q.pcls ≠ 0 then badHandle s 6 g
      else if q.permits = 0 then waitQueue s pa none
      else writeS (writeQueue s pa q.acquire) d (BitVec.ofNat 32 q.tail)

/-- QPUB (R211, R212): for the leaf's earlier lane-path writes it is a fence toward the consumer's class at the core, which
holds both parties, and costs the leaf as much. TOKENS is sampled as it stands after it, as after a QTAKE (R312, log 62:
DESIGN CHOICE). -/
def execQpub (h : Hdr) (a b : Operand) (s : State) : Out :=
  let slot := (scalarVal s.w b).toNat
  .next (queueAt s h a liveQueue fun _ g pa =>
    let q := readQueue s pa
    if q.pcls ≠ 0 then badHandle s 6 g
    else if q.slots ≤ slot || q.permits + q.tokens = q.slots then badHandle s 8 g
    else
      waitCost (sample (writeQueue s pa q.publish) s.w.core 3 (q.tokens + 1)) (pubCost s pa q))

/-- QTAKE (R211): a token of a copy orders its slot for the lane path (R212). -/
def execQtake (h : Hdr) (d a : Operand) (s : State) : Out :=
  .next <|
    if s.w.task && s.w.eff h.gd ≠ 0 then fault s 0x08 0
    else queueAt s h a liveQueue fun e g pa =>
      let q := readQueue s pa
      if q.ccls ≠ 0 then badHandle s 6 g
      else if q.tokens = 0 then waitQueue s pa none
      else
        let slot := (spadRange s (s.w.committed (leaderOf e)) (q.slotAddr q.head) (32 * q.ssize)).getD []
        writeS (sample (writeQueue (orderBytes s 1 slot) pa q.take) s.w.core 3 (q.tokens - 1)) d (BitVec.ofNat 32 q.head)

/-- QREL (R211). -/
def execQrel (h : Hdr) (a b : Operand) (s : State) : Out :=
  let slot := (scalarVal s.w b).toNat
  .next (queueAt s h a liveQueue fun _ g pa =>
    let q := readQueue s pa
    if q.ccls ≠ 0 then badHandle s 6 g
    else if q.slots ≤ slot || q.permits + q.tokens = q.slots then badHandle s 8 g
    else writeQueue s pa q.release)

/-- QBIND (R213, R411): it reads the object once, at a time (R413). -/
def execQbind (h : Hdr) (d a : Operand) (s : State) : Out :=
  .next <|
    if s.w.task && s.w.eff h.gd ≠ 0 then fault s 0x08 0
    else queueAt s h a liveQueue fun _ g pa =>
      if (readQueue s pa).ssize ≠ 4 then badHandle s 6 g
      else
        match d with
        | .q p => updW (laneLoads s (span pa 16)) fun w => { w with ports := w.ports.set p g }
        | _ => s

end Sys2Proof.Machine
end

