-- ==== Sys2Proof/Machine/Hyp.lean ====
section
/-!
DEFINITION. Hypotheses (spec/14_hypotheses.md R252 to R266, spec/19 R357 to R363): the five instructions, and the
resolutions the slot map performs in arrival order.
-/

namespace Sys2Proof.Machine

/-! ### The slot map (R261) -/

/-- The slot map after a confirm at time `t` (R262): the node's slots go to the head of its parent's, its children move
up. -/
def confirmMap (c : Context) (h : BitVec 6) (t : Nat) : Context :=
  let p := (c.node h).parent
  let below (i : Fin 64) : Bool := refutedNodes c h (BitVec.ofNat 6 i) && BitVec.ofNat 6 i ≠ h
  let mine := (c.node h).slots
  { c with
    passed := mine.map (fun g => (g, t, decide (p = 0))) ++ c.passed.filter fun x => !mine.contains x.1
    nodes := Vector.ofFn fun i =>
      let x := c.nodes[i]
      if BitVec.ofNat 6 i = h then { x with st := .confirmed, slots := [] }
      else if p ≠ 0 && BitVec.ofNat 6 i = p then { x with slots := (c.node h).slots ++ x.slots }
      else if below i then { x with parent := (if x.parent = h then p else x.parent), depth := x.depth - 1 }
      else x
    lazy := if p = 0 then c.lazy ++ (c.node h).slots else c.lazy }

/-- The lowest identifier that is not live, all ones if there is none. -/
def lowestFree (c : Context) : Option (BitVec 6) :=
  ((List.finRange 64).find? fun (i : Fin 64) => i ≠ 0 && c.nodes[i].st ≠ .live).map fun i => BitVec.ofNat 6 i

/-- The slot map after a HYPNEW under `p` takes identifier `n`. -/
def newMap (c : Context) (p n : BitVec 6) : Context :=
  let x : HypNode := { st := .live, parent := p, depth := (c.node p).depth + 1, slots := [c.nextVs] }
  { c with nodes := c.nodes.set n.toNat x, nextVs := c.nextVs + 1 }

/-- Is a refute still to be performed: of a live node, or of any (HYP_SWEEP)? A sweep never acts on a node that took its
identifier later (R283). -/
def refuteDue (c : Context) (r : HypReq) (h : BitVec 6) : Bool :=
  if h = 0 then (List.finRange 64).any fun (i : Fin 64) => i ≠ 0 && c.nodes[i].st = .live
  else (c.node h).st = .live && (r.gen.isNone || (c.node h).slots.getLast? = r.gen)

/-- The slot map as it will stand when the requests ahead have been performed, and what becomes of a lane's hypothesis by
then: the hypothesis it will stand under, and whether it will be an orphan. -/
structure Ahead where
  c    : Context
  move : BitVec 6 → BitVec 6 × Bool

/-- One request ahead. -/
def Ahead.step (s : State) (x : Ahead) (r : HypReq) : Ahead :=
  match r.op with
  | .new _ =>
    match waveOf s r.wave, lowestFree x.c with
    | some w, some n =>
      let y := x.move w.cur[r.leader]
      if y.2 || inMask w.orphan r.leader then x else { x with c := newMap x.c y.1 n }
    | _, _ => x
  | .confirm h =>
    if (x.c.node h).st = .live then
      let p := (x.c.node h).parent
      { c := confirmMap x.c h 0, move := fun y => let z := x.move y; (if z.1 = h then p else z.1, z.2) }
    else x
  | .refute h =>
    let sub := refutedNodes x.c h
    let all : Bool := h = 0
    if !refuteDue x.c r h then x else
    let c := if all then
        { x.c with nodes := Vector.ofFn fun i =>
            if i ≠ 0 && x.c.nodes[i].st = .live then { x.c.nodes[i] with st := .refuted } else x.c.nodes[i] }
      else refuteMap x.c h
    { c := c, move := fun y =>
        let z := x.move y
        if all then (0, z.2 || z.1 ≠ 0) else if sub z.1 then ((x.c.node h).parent, true) else z }
  | .query _ _ => x

/-- What a request made now will meet at the slot map (R261). A lane of a core that lags behind a refute still stands under a
refuted node: it will be an orphan under what is left above it (R263). -/
def aheadOf (s : State) (c : Context) : Ahead :=
  c.reqs.foldl (Ahead.step s) { c := c, move := fun y => (liveAbove c 64 y, (c.node y).st = .refuted) }

/-- The slot map as a core last applied it (R358). -/
def Context.on (c : Context) (n : Fin 384) : Context :=
  match c.lag.find? fun x => x.1 = n with
  | some x => { c with nodes := x.2 }
  | none => c

/-- How many nodes are live. -/
def liveCount (c : Context) : Nat := ((List.finRange 64).filter fun (i : Fin 64) => i ≠ 0 && c.nodes[i].st = .live).length

/-- Is `h` an ancestor of `x` or `x` itself? -/
def onPath (c : Context) (h x : BitVec 6) : Bool := h = 0 || (hypChain c 8 x).contains h

/-- A hypothesis fault (R259). -/
def hypFault (s : State) (sub : Nat) (l : Fin 32) (i3 : Word) : State :=
  fault s 0x31 (BitVec.ofNat 32 sub) (BitVec.ofNat 32 l) i3

/-- Queue a request at the slot map; the leaf waits for its result (R357) (log 14: DEDUCED). -/
def request (s : State) (c : Context) (l : Fin 32) (kind : WaitKind) (op : HypOp) : State :=
  let leaf : Option (Fin 4) := match s.w.iss.agent with
    | .leaf n => some n
    | _ => none
  waitOn (setCtx s { c with reqs := c.reqs ++ [⟨s.w.id, leaf, l, op, none, none⟩] }) kind 0

/-! ### The instructions (R259) -/

/-- HYPNEW: its checks are made on the map its request will meet; a leader that is an orphan by then is given 0 (R261). -/
def execHypnew (h : Hdr) (d : Operand) (s : State) : Out :=
  let w := s.w
  let e := w.eff h.gd
  let l := leaderOf e
  .next <|
    if e = 0 then s
    else if inMask w.orphans l then writeS s d 0
    else
      match ctxOf s w.ctx with
      | none => s
      | some c =>
        let a := aheadOf s c
        let (cur, orphan) := a.move (w.hypOf l)
        if !orphan && 63 ≤ liveCount a.c then hypFault s 1 l (cur.zeroExtend 32)
        else if !orphan && (a.c.node cur).depth = 7 then hypFault s 2 l (cur.zeroExtend 32)
        else request s c l .hypnew (.new (Fin.ofNat 32 (regNum d)))

/-- Lanes a hypothesis instruction acts for. -/
def hypLanes (e : Mask) (one : Bool) : Mask := if one then laneBit (leaderOf e) else e

/-- HYPENT: the check is made against the slot map as the core last applied it (R358). -/
def execHypent (h : Hdr) (one : Bool) (a : Operand) (s : State) : Out :=
  let w := s.w
  let e := w.eff h.gd
  let x := scalarVal w a
  let id : BitVec 6 := x.setWidth 6
  let m := maskDiff (hypLanes e one) w.orphans
  .next <|
    if e = 0 then s
    else
      match ctxOf s w.ctx with
      | none => s
      | some c₀ =>
        let c := c₀.on w.core
        if 63 < x.toNat || (id ≠ 0 && (c.node id).st ≠ .live) then hypFault s 5 (leaderOf (hypLanes e one)) x
        else
          let bad := maskWhere fun l => inMask m l && !onPath c (w.hypOf l) id
          if bad ≠ 0 then hypFault s 3 (leaderOf bad) x
          else updW s fun w => { w with cur := setLanes w.cur m fun _ => id }

/-- HYPLV. -/
def execHyplv (h : Hdr) (one : Bool) (s : State) : Out :=
  let w := s.w
  let e := w.eff h.gd
  let m := hypLanes e one
  .next <|
    if e = 0 then s
    else
      match ctxOf s w.ctx with
      | none => s
      | some c =>
        let c := c.on w.core
        updW s fun w => { w with
          orphan := maskDiff w.orphan m
          cur := setLanes w.cur (maskDiff m w.orphans) fun l => if w.hypOf l = 0 then 0 else (c.node (w.hypOf l)).parent }

/-- HYPRES: the checks are those the slot map will make when the request's turn comes (R261). -/
def execHypres (h : Hdr) (a : Operand) (confirm : Bool) (s : State) : Out :=
  let w := s.w
  let e := w.eff h.gd
  let l := leaderOf e
  let x := scalarVal w a
  let id : BitVec 6 := x.setWidth 6
  .next <|
    if e = 0 then s
    else if inMask w.orphans l then s
    else
      match ctxOf s w.ctx with
      | none => s
      | some c =>
        let y := aheadOf s c
        if x = 0 || 63 < x.toNat || (y.c.node id).st ≠ .live then hypFault s 5 l x
        else if onPath y.c id (y.move (w.hypOf l)).1 then hypFault s 4 l x
        else request s c l .hypres (if confirm then .confirm id else .refute id)

/-- The word HYPQ gives (R259). -/
def hypWord (c : Context) (id : BitVec 6) : Word :=
  if id = 0 then 1
  else
    let n := c.node id
    match n.st with
    | .free => 0
    | .live => BitVec.ofNat 32 (n.depth.toNat * 2 ^ 16 + n.parent.toNat * 2 ^ 8 + 1)
    | .confirmed => 2
    | .refuted => 3

/-- HYPQ: read at the slot map, behind the requests ahead, whose end its leaf awaits (R361). -/
def execHypq (h : Hdr) (d a : Operand) (s : State) : Out :=
  let w := s.w
  let e := w.eff h.gd
  let l := leaderOf e
  let x := scalarVal w a
  .next <|
    if e = 0 then s
    else if 63 < x.toNat then hypFault s 5 l x
    else
      match ctxOf s w.ctx with
      | none => s
      | some c =>
        if c.reqs = [] then writeS s d (hypWord c (x.setWidth 6))
        else request s c l .hypnew (.query (Fin.ofNat 32 (regNum d)) (x.setWidth 6))

/-! ### Resolutions at the slot map -/

/-- A leaf's wait is over and it goes on at the word after (R77). -/
def Wave.goOn (w : Wave) (leaf : Option (Fin 4)) (p : WaitKind → Bool) : Wave :=
  match leaf with
  | some n =>
    match w.leaves[n].wait with
    | some x => if p x.kind then
        { w with leaves := w.leaves.set n { w.leaves[n] with pc := x.next, wait := none, bound := none } } else w
    | none => w
  | none =>
    match w.sup.wait with
    | some x => if p x.kind then { w with sup := { w.sup with pc := x.next, wait := none } } else w
    | none => w

/-- Words the scoreboard held back are looked at again. -/
def Leaf.unscored (lf : Leaf) : Leaf :=
  match lf.wait with
  | some ⟨.score, _, _⟩ => { lf with wait := none }
  | _ => lf

/-- Every agent's word that the scoreboard held back is looked at again (R38). -/
def Wave.unscored (w : Wave) : Wave :=
  { w with
    leaves := Vector.ofFn fun n => w.leaves[n].unscored
    sup := w.sup.unscored
    hwait := match w.hwait with
      | some ⟨.score, _, _⟩ => none
      | x => x }

/-- Resume the leaf a request came from. -/
def resumeReq (s : State) (r : HypReq) (kind : WaitKind) : State :=
  match waveOf s r.wave with
  | none => s
  | some w => if r.wave = 0 then s else setWave s (w.goOn r.leaf fun k => k = kind)

/-- The requests of a context with the head taken off. -/
def dropReq (s : State) (ctx : Nat) : State :=
  match ctxOf s ctx with
  | none => s
  | some c => setCtx s { c with reqs := c.reqs.tail }

/-- The commit time of a confirm (R262): past every time a home has given. -/
def commitTime (s : State) : Nat := s.lines.foldl (fun t x => max t (max x.wts x.rts)) s.clk.toNat + 1

/-- The sectors a node itself holds, each with its newest version. -/
def nodeVersions (c : Context) (h : BitVec 6) : List Version :=
  let mine := c.vers.filter fun v => (c.node h).slots.contains v.slot
  ((mine.map (·.sector)).eraseDups).filterMap fun x => versionOf c h x

/-- The times of a sector's line, and of the view lines it feeds, become `t`, and the monitors on those lines are woken. -/
def retime (s : State) (ctx slot t sec : Nat) : State :=
  let l := homeLine s (32 * sec)
  let vs := if slot = 0 then fedViews s sec else []
  { s with
    lines := vs.foldl (fun y v => insLine ⟨v, t, t, 0, 0⟩ y) (insLine ⟨l, t, t, ctx, slot⟩ s.lines)
    monitors := s.monitors.map fun m =>
      if slot = 0 && (homeLine s m.addr = l || vs.contains (m.addr / 128)) then m.wake t else m }

/-- Commit versions at time `t` (R262): bytes, times and monitors of their lines, and of the views they feed. -/
def commitVersions (s : State) (t : Nat) (vs : List Version) : State :=
  vs.foldl (fun s v => capturedWrite (retime s 0 0 t v.sector) ((span (32 * v.sector) 32).zip v.data)) s

/-- The versions of a node are its parent's from time `t` on (R262). -/
def passVersions (s : State) (ctx t : Nat) (vs : List Version) : State := vs.foldl (fun s v => retime s ctx v.slot t v.sector) s

/-- A confirm performed (R262). -/
def confirmNode (s : State) (ctx : Nat) (h : BitVec 6) (wave : Nat) : State :=
  match ctxOf s ctx with
  | none => s
  | some c =>
    let p := (c.node h).parent
    let t := commitTime s
    let s1 := if p = 0 then commitVersions s t (nodeVersions c h) else passVersions s ctx t (nodeVersions c h)
    let s2 := remapEngines (setCtx s1 (confirmMap c h t)) ctx (fun x => if x = h then p else x) (fun _ => false) t
    let s3 := mapWaves s2 fun w =>
      if w.ctx = ctx && w.id ≠ 0 then
        { w with cur := lanes fun l => if w.cur[l] = h then p else w.cur[l] }.resaved else w
    match waveOf s3 wave with
    | some w => if wave ≠ 0 && p = 0 then raiseLt s3 w.core t else s3
    | none => s3

/-- A resolution finds its identifier no longer live (R261). None that passed its checks at issue does: they look at the map its
turn will meet. -/
def staleReq (s : State) (r : HypReq) (h : BitVec 6) : State :=
  match waveOf s r.wave with
  | none => s
  | some w =>
    if r.wave = 0 then s
    else
      let pc := match r.leaf with
        | some n => w.leaves[n].pc
        | none => w.sup.pc
      pushPending s r.wave ⟨0x31, 5, pc, BitVec.ofNat 32 r.leader, h.zeroExtend 32⟩

/-- CONFIRM_COMMIT (R262): the confirm at the head of the slot map's arrivals. -/
def execConfirmCommit (ctx : Nat) (s : State) : Out :=
  .next <|
    match ctxOf s ctx, (ctxOf s ctx).bind (·.reqs.head?) with
    | some c, some r =>
      match r.op with
      | .confirm h =>
        if (c.node h).st = .live then resumeReq (confirmNode (dropReq s ctx) ctx h r.wave) r .hypres
        else resumeReq (staleReq (dropReq s ctx) r h) r .hypres
      | _ => s
    | _, _ => s

/-- The cores of a context's resident waves. -/
def coresOf (s : State) (ctx : Nat) : List (Fin 384) :=
  (((allWaves s).filter fun w => w.ctx = ctx && w.res ≠ .out).map (·.core)).eraseDups

/-- The cores that will apply a refute later than the slot map performs it: which ones is open (R263, log 5: DESIGN
CHOICE). -/
def lateCores (s : State) (ctx : Nat) : List (Fin 384) :=
  ((coresOf s ctx).zipIdx.filter fun x => (Config.freeByte (s.freeCtr + x.2)).getLsbD 0).map (·.1)

/-- A refute is performed at the slot map (R263): every core but those of `late` applies it now. -/
def refuteNow (s : State) (c : Context) (h : BitVec 6) (late : List (Fin 384)) : State :=
  let now (w : Wave) : Bool := w.res = .out || !late.contains w.core
  let s1 : State := { s with freeCtr := s.freeCtr + (coresOf s c.ctx).length }
  let s2 := if h = 0 then refuteAllFor s1 c.ctx now else refuteFor s1 c.ctx h now
  match ctxOf s2 c.ctx with
  | some c' => setCtx s2 { c' with lag := late.map fun n => (n, c.nodes) }
  | none => s2

/-- The next core that lags applies the refute, to its waves and to the engine work and the held accesses that were issued under
the refuted nodes since; with the last, every wave of the context has applied it (R257, R263, R362). -/
def applyLag (s : State) (c : Context) : State :=
  match c.lag with
  | [] => s
  | x :: t =>
    let s1 := remapEngines (setCtx s { c with lag := t }) c.ctx (liveAbove c 64) (fun y => (c.node y).st = .refuted) 0
    mapWaves s1 fun w => if w.ctx = c.ctx && w.id ≠ 0 && (w.core = x.1 || t = []) then w.applyRefute c else w

/-- REFUTE_APPLIED (R263): the refute at the head of the slot map's arrivals is performed there; the cores that have not
applied it then do so one by one, and with the last of them it completes. -/
def execRefuteApplied (ctx : Nat) (s : State) : Out :=
  .next <|
    match ctxOf s ctx, (ctxOf s ctx).bind (·.reqs.head?) with
    | some c, some r =>
      match r.op with
      | .refute h =>
        let s1 := if c.lag ≠ [] then applyLag s c
          else if refuteDue c r h then refuteNow s c h (lateCores s ctx)
          else if h ≠ 0 && r.wave ≠ 0 then staleReq s r h else s
        match (ctxOf s1 ctx).map (·.lag) with
        | some (_ :: _) => s1
        | _ => resumeReq (dropReq s1 ctx) r .hypres
      | _ => s
    | _, _ => s

/-- A request's answer goes to its register (R360, R361): the words that waited for it are looked at again (R38). -/
def answer (s : State) (r : HypReq) (d : Fin 32) (x : Word) : State :=
  match waveOf s r.wave with
  | some w =>
    if r.wave = 0 then s
    else resumeReq (setWave s { w with r := { w.r with s := w.r.s.set d x } }.unscored) r .hypnew
  | none => s

/-- HYPNEW_REPLY (R360): the lowest identifier not live is taken, once its refuted lines have been discarded; an orphan
gets 0. The slot map's reply to a HYPQ that waited its turn is the same step (R361). -/
def execHypnewReply (ctx : Nat) (s : State) : Out :=
  .next <|
    match ctxOf s ctx with
    | none => s
    | some c =>
      match c.reqs with
      | r :: _ =>
        match r.op, waveOf s r.wave with
        | .query d id, some _ => answer (dropReq s ctx) r d (hypWord c id)
        | .new d, some w =>
          if inMask w.orphan r.leader then answer (dropReq s ctx) r d 0
          else
            match lowestFree c with
            | none => s
            | some n =>
              if (c.node n).slots.any (c.lazy.contains ·) then s
              else answer (setCtx s { newMap c w.cur[r.leader] n with reqs := c.reqs.tail }) r d (n.zeroExtend 32)
        | .new _, none | .query _ _, none => dropReq s ctx
        | _, _ => s
      | [] => s

/-- The times of a slot's lines go with it. -/
def dropTimes (ctx slot : Nat) (s : State) : State :=
  { s with lines := s.lines.filter fun x => !(x.ctx = ctx && x.slot = slot) }

/-- VERSION_SLOT_FREED (R264): the lines of a resolved slot have been folded or discarded. -/
def execVersionSlotFreed (ctx : Nat) (vslot : Nat) (s : State) : Out :=
  .next <|
    match ctxOf s ctx with
    | none => s
    | some c =>
      if c.lazy.contains vslot && c.lag = [] then
        setCtx s { c with lazy := c.lazy.filter (· ≠ vslot), vers := c.vers.filter fun v => v.slot ≠ vslot } |> dropTimes ctx vslot
      else s

end Sys2Proof.Machine
end

