-- ==== Sys2Proof/Machine/Copy.lean ====
section
/-!
DEFINITION. Engine transfers (spec/10_engines.md R198 to R206, R212, R214, R216, spec/13 R248, spec/19 R337 to R342, R352
to R354, spec/21 R419 to R421): tensor records, the issue of CPY, CPYS, GATH and SCAT, each sector's performance and
count, and follow-ons.
-/

namespace Sys2Proof.Machine

/-! ### Tensor records (R198, R199) -/

/-- A 32-bit field of bytes. -/
def wordAt (bs : List Byte) (o : Nat) : Word := BitVec.ofNat 32 (leNat ((bs.drop o).take 4))

/-- The record in 64 bytes; STR[0] is the unit stride. -/
def recordOf (bs : List Byte) : TensorRec :=
  let w := leNat ((bs.drop 8).take 8)
  { base := BitVec.ofNat 64 (leNat (bs.take 8))
    dtype := BitVec.ofNat 8 (bitsOf w 7 0)
    rank1 := BitVec.ofNat 3 (bitsOf w 10 8)
    circ := BitVec.ofNat 5 (bitsOf w 15 11)
    swz := BitVec.ofNat 4 (bitsOf w 19 16)
    ext := Vector.ofFn fun d => wordAt bs (0x10 + 4 * d.val)
    str := Vector.ofFn fun d => if d.val = 0 then 1 else wordAt bs (0x20 + 4 * d.val)
    box := Vector.ofFn fun d => bs.getD (0x34 + d.val) 0 }

/-- Dimensions of a tensor. -/
def TensorRec.rank (t : TensorRec) : Nat := t.rank1.toNat + 1

/-- Element size (R198). -/
def TensorRec.size (t : TensorRec) : Nat := if t.dtype.toNat ≤ 2 then 1 else if t.dtype.toNat ≤ 4 then 2 else 4

/-- Elements of the box along a dimension. -/
def TensorRec.boxN (t : TensorRec) (d : Fin 5) : Nat := t.box[d].toNat + 1

/-- Bytes of the box. -/
def TensorRec.boxBytes (t : TensorRec) : Nat :=
  (List.finRange 5).foldl (fun n (d : Fin 5) => n * t.boxN d) t.size

/-- The subcode that makes a record bad (R199, R214), 0 if none does; misalignment apart. -/
def recordBad (bs : List Byte) (t : TensorRec) : Nat :=
  let hi (p : Fin 5 → Bool) : Bool := (List.finRange 5).any fun (d : Fin 5) => t.rank ≤ d.val && p d
  let lo (p : Fin 5 → Bool) : Bool := (List.finRange 5).any fun (d : Fin 5) => d.val < t.rank && p d
  if bitsOf (leNat ((bs.drop 8).take 8)) 63 20 ≠ 0 || (bs.drop 0x39).any (· ≠ 0) ||
      hi fun d => t.ext[d] ≠ 0 || (d ≠ 0 && t.str[d] ≠ 0) || t.box[d] ≠ 0 || t.circ.getLsbD d then 1
  else if 4 ≤ t.swz.toNat || 5 ≤ t.rank1.toNat || 7 ≤ t.dtype.toNat || lo (fun d => t.ext[d] = 0) ||
      t.base.toNat % t.size ≠ 0 then 2
  else if 65536 < t.boxBytes || t.boxBytes % 32 ≠ 0 then 3
  else 0

/-! ### Elements of a box (R200, R201) -/

/-- The index sum of box element `j` over dimensions, none out of range. -/
def elemSum (t : TensorRec) (crd : Vector Word 5) : List (Fin 5) → Nat → Nat → Option Nat
  | [], _, a => some a
  | d :: ds, j, a =>
    if t.rank ≤ d.val then some a
    else
      let x : Int := crd[d].toInt + (j % t.boxN d : Nat)
      let e : Nat := t.ext[d].toNat
      if t.circ.getLsbD d then elemSum t crd ds (j / t.boxN d) (a + t.str[d].toNat * (x % (e : Int)).toNat)
      else if x < 0 || (e : Int) ≤ x then none
      else elemSum t crd ds (j / t.boxN d) (a + t.str[d].toNat * x.toNat)

/-- The address of box element `j` in dense order; none out of range. -/
def elemAddr (t : TensorRec) (crd : Vector Word 5) (j : Nat) : Option DWord :=
  (elemSum t crd (List.finRange 5) j 0).map fun n => t.base + BitVec.ofNat 64 (t.size * n)

/-- A dense offset after the swizzle (R201). -/
def swzOff (z o : Nat) : Nat :=
  if z = 0 then o
  else
    let l := o / 128
    128 * l + 32 * ((o / 32 % 4 + l / 2 ^ (3 - z)) % 4) + o % 32

/-! ### Accesses of an engine (R158, R204) -/

/-- The accessor of a transfer under a hypothesis. -/
def xferAcc (x : Xfer) (h : BitVec 6) : Accessor :=
  { ctx := x.ctx, unit := x.unit, member := x.member, task := false, blk := 0, lpriv := 0, sup := x.sup, hyp := h
    tlb := if x.tr.isSome then .stream else .none }

/-- An engine's access: a virtual address alone (R198, R206) (log 26: DEDUCED). -/
def engineChk (s : State) (a : Accessor) (kind : AccKind) (g : DWord) (n : Nat) : Except Miss Loc :=
  if selOf g = 0 || selOf g = 0x7F then resolve s a kind g n else .error (.trap 0x10)

/-- The first failing element of a sector: its cause and address. -/
abbrev ElemFault := Option (BitVec 8 × DWord)

/-- The accesses of elements that the checks let through. -/
abbrev ElemLocs := List (DWord × Loc)

/-- The bytes of an element, zero where it is out of range or fails; a recoverable cause stalls. -/
def readElem (s : State) (a : Accessor) (n : Nat) : Option DWord → Except (BitVec 2) (List Byte × ElemFault × ElemLocs)
  | none => .ok (List.replicate n 0, none, [])
  | some g =>
    match engineChk s a .load g n with
    | .ok l => .ok (locBytes s a l, none, [(g, l)])
    | .error (.trap c) => .ok (List.replicate n 0, some (c, g), [])
    | .error (.recov r) => .error r

/-- The bytes of elements in order, with the first failure. -/
def readElems (s : State) (a : Accessor) (n : Nat) : List (Option DWord) → Except (BitVec 2) (List Byte × ElemFault × ElemLocs)
  | [] => .ok ([], none, [])
  | g :: t =>
    match readElem s a n g, readElems s a n t with
    | .ok (b, f, l), .ok (bs, f', ls) => .ok (b ++ bs, match f with
      | none => f'
      | some y => some y, l ++ ls)
    | .error r, _ => .error r
    | _, .error r => .error r

/-- Does an element's store stall? -/
def storeStalls (s : State) (a : Accessor) (n : Nat) (g : DWord) : Option (BitVec 2) :=
  match engineChk s a .store g n with
  | .error (.recov r) => some r
  | _ => none

/-- An element to be stored, with what its checks have found. -/
abbrev Checked := Accessor × DWord × Except Miss Loc × List Byte

/-- The checks of elements of `n` bytes that are to be stored. -/
def checkElems (s : State) (n : Nat) (es : List (Accessor × DWord × List Byte)) : List Checked :=
  es.map fun e => (e.1, e.2.1, engineChk s e.1 .store e.2.1 n, e.2.2)

/-- One element stored; a failing one writes nothing (R204, R265). -/
def storeElem (s : State) (e : Checked) : State × ElemFault × List (Accessor × DWord × Loc) :=
  match e.2.2.1 with
  | .ok l =>
    match storeLoc s e.1 l e.2.2.2 with
    | some s' => (s', none, [(e.1, e.2.1, l)])
    | none => (s, some (0x30, e.2.1), [])
  | .error (.trap c) => (s, some (c, e.2.1), [])
  | .error (.recov _) => (s, none, [])

/-- Elements stored in order, with the first failure. -/
def storeElems (s : State) : List Checked → ElemFault → State × ElemFault × List (Accessor × DWord × Loc)
  | [], f => (s, f, [])
  | e :: t, f =>
    let r := storeElem s e
    let u := storeElems r.1 t (match f with
      | none => r.2.1
      | some y => some y)
    (u.1, u.2.1, r.2.2 ++ u.2.2)

/-- The requests of an engine's accesses at their homes: context, version slot and sectors of each. -/
def engineRequests (s : State) (load : Bool) (xs : List (Accessor × DWord × Loc)) : List (Nat × Nat × List Nat) :=
  let as := (xs.map (·.1)).eraseDups
  as.flatMap fun a =>
    (lineRequests s (slotSectors s (fun _ => a) load ((xs.filter fun x => x.1 = a).map fun x => (0, x.2.2)))).map fun r =>
      (if r.1 = 0 then 0 else a.ctx, r.1, r.2)

/-- Sectors with the time at which they were performed. -/
abbrev Performed := List (List Nat × Nat)

/-- The greatest of the times. -/
def Performed.last (ps : Performed) : Nat := ps.foldl (fun t p => max t p.2) 0

/-- An engine's reads take their times at their homes (R170). -/
def engineReads (s : State) (xs : List (Accessor × DWord × Loc)) : Performed × State :=
  let lone := loneSectors (xs.map (·.2.2))
  (engineRequests s true xs).foldl (fun t r =>
    let l := homeLine s (32 * r.2.2.headD 0)
    let u := readAt (if r.2.2.any lone.contains then t.2 else noteMiss t.2 l) s.clk.toNat 0 r.1 r.2.1 l
    (t.1 ++ [(r.2.2, u.1)], u.2)) ([], s)

/-- An engine's stores take their times, above `floor` (R170, R257). -/
def engineWrites (s : State) (floor : Nat) (xs : List (Accessor × DWord × Loc)) : Performed × State :=
  (engineRequests s false xs).foldl (fun t r =>
    let u := writeAt t.2 (max s.clk.toNat (if floor = 0 then 0 else floor + 1)) r.1 r.2.1 r.2.2
    (t.1 ++ [(r.2.2, u.1)], u.2)) ([], s)

/-- Bytes with the generic address of each, of an engine's accesses. -/
def elemBytes (xs : List (Accessor × DWord × Loc)) : List (Nat × DWord) :=
  xs.flatMap fun x => x.2.2.pas.zipIdx.map fun (a, i) => (a, x.2.1 + BitVec.ofNat 64 i)

/-- The committed bytes of an engine's stores. -/
def plainBytes (xs : List (Accessor × DWord × Loc)) : List Nat :=
  xs.flatMap fun x => if x.2.2.vers then x.2.2.plain else x.2.2.pas

/-! ### Latches and queues of a transfer -/

/-- Put a transfer's record back. -/
def putXfer (s : State) (x : Xfer) : State :=
  { s with xfers := s.xfers.map fun y => if y.id = x.id then x else y }

/-- Is a transfer's unit switched out? -/
def xferOut (s : State) (x : Xfer) : Bool := ((unitOf s x.unit).map (·.out)).getD false

/-- A late completion on a latch sets SAVED, and the front end records its address (R216). -/
def noteLate (s : State) (x : Xfer) (o : Nat) : State :=
  match unitOf s x.unit with
  | none => s
  | some u =>
    if !u.out then s
    else
      let a := max 1 ((u.members[0]?.map (·.alloc)).getD 1)
      setMember s x.unit (if u.task then x.member else o / a) fun m => { m with late := (o :: m.late).eraseDups }

/-- Change the transfer's latch at its home, past the time of every sector performed so far (R175). -/
def xferLatch (s : State) (x : Xfer) (f : Latch → Latch) : State :=
  match x.latch with
  | none => s
  | some o =>
    match winBytes s x.unit x.member o 16 with
    | none => s
    | some pas => latchMap (writeTimes (captureAny s pas) (max s.clk.toNat (x.tmax + 1)) pas).2 pas f

/-- Count one sector on the transfer's latch (R203, R216). -/
def countSector (s : State) (x : Xfer) : State :=
  if xferOut s x then noteLate (xferLatch s x fun l => { l.count with saved := true }) x (x.latch.getD 0)
  else xferLatch s x Latch.count

/-- The transfer's queue object. -/
def xferQueue (s : State) (x : Xfer) : Option (Nat × Queue) :=
  x.queue.bind fun o => (winByte s x.unit x.member o).map fun a => (a, readQueue s a)

/-- Change the transfer's queue at its home, past the time of every sector performed so far (R212). -/
def mapXferQueue (s : State) (x : Xfer) (f : Queue → Queue) : State :=
  match xferQueue s x with
  | none => s
  | some (a, q) =>
    capturedWrite (writeTimes s (max s.clk.toNat (x.tmax + 1)) (span a 16)).2 ((span a 16).zip (leBytes 16 (queueBits (f q))))

/-- COPY_PERMIT_ACQUIRE (R202, R211): a CPY into a queue takes a permit and the tail slot, a CPYS from one a token and the
head slot; a full or empty queue makes the transfer wait. -/
def execCopyPermitAcquire (xfer : Nat) (s : State) : Out :=
  .next <|
    match s.xfers.find? fun x => x.id = xfer with
    | none => s
    | some x =>
      match x.spad, xferQueue s x with
      | none, some (_, q) =>
        if x.kind = .cpy then
          if q.permits = 0 then s
          else putXfer (mapXferQueue s x Queue.acquire) { x with spad := some (q.slotAddr q.tail) }
        else if q.tokens = 0 then s
        else putXfer (mapXferQueue s x Queue.take) { x with spad := some (q.slotAddr q.head) }
      | _, _ => s

/-! ### Failures (R204) -/

/-- The follow-on a copy armed is emptied. -/
def cancelFollow (s : State) (x : Xfer) : State :=
  match x.thn, waveOf s x.wave with
  | some n, some w => if x.wave = 0 then s else setWave s { w with follow := w.follow.set n {} }
  | _, _ => s

/-- A cause reported to the issuing wave, or if it has retired to its origin queue (R204, R282). -/
def engineReport (s : State) (wave : Nat) (pc : Word) (qcb : Nat) (hdr : Word) (c : BitVec 8) (g : DWord) : State :=
  if wave ≠ 0 && (waveOf s wave).isSome then pushPending s wave ⟨c, 32, pc, g.loWord, g.hiWord⟩
  else queueError s qcb 0x29 hdr

/-- An element has failed: the latch is poisoned and the follow-on cancelled; the wave hears of a transfer's first failure
alone (log 11: DEDUCED). -/
def engineFault (s : State) (x : Xfer) : ElemFault → State × Xfer
  | none => (s, x)
  | some (c, g) =>
    let s1 := cancelFollow (xferLatch s x fun l => { l with poison := true }) x
    (if x.poison then s1 else engineReport s1 x.wave x.pc x.qcb x.hdr c g, { x with poison := true, thn := none })

/-- A recoverable cause stalls the transfer until service (R204): one request, of no lane, for its wave. -/
def stallXfer (s : State) (x : Xfer) (r : BitVec 2) : State :=
  if r = 2 || r = 0 || s.services.any fun y => y.wave = x.wave && y.lanes = 0 && y.reason = r then s
  else { s with services := s.services ++ [⟨x.wave, 0, r⟩] }

/-! ### The end of a sector -/

/-- The transfer's last sector is counted, and it is over; a COPY packet's stands until LAUNCH_COMPLETION. -/
def endXfer (s : State) (x : Xfer) : State :=
  if x.kind = .packet then s
  else
  let s1 := countSector s x
  { s1 with xfers := s1.xfers.filter fun y => y.id ≠ x.id }

/-- The slot of a copy's follow-on takes a state. -/
def setFollow (s : State) (x : Xfer) (n : Fin 4) (st : FollowState) : State :=
  match waveOf s x.wave with
  | some w => if x.wave = 0 then s else setWave s { w with follow := w.follow.set n { w.follow[n] with st := st } }
  | none => s

/-- An access of a class, leader and required scope has been performed at a time: the greatest is kept (R172). -/
def putPerf (x : Perf) : List Perf → List Perf
  | [] => [x]
  | y :: t => if y.cls = x.cls && y.leader = x.leader && y.scope = x.scope then { y with time := max y.time x.time } :: t
    else y :: putPerf x t

/-- The required scope of a wave's engine access to bytes (R171): it holds the wave's core, the access's positions and the
homes. -/
def perfScope (s : State) (core : Fin 384) (pos : Nat → Pos) (pas : List Nat) : Nat :=
  scopeOfAll (.core core :: (pas.map (· / 32)).eraseDups.flatMap fun k => [pos (32 * k), homeAt s (32 * k)])

/-- Note the times of a wave's engine accesses, by sector (R172). -/
def notePerf (s : State) (wave : Nat) (cls : Fin 6) (leader : Fin 32) (pos : Nat → Pos) (ps : Performed) : State :=
  match waveOf s wave with
  | some w =>
    if wave = 0 then s
    else
      let one (l : List Perf) (p : List Nat × Nat) : List Perf :=
        putPerf ⟨cls, leader, perfScope s w.core pos (p.1.map (32 * ·)), p.2⟩ l
      setWave s { w with perf := ps.foldl one w.perf }
  | none => s

/-- The class of a transfer's accesses (R170). -/
def Xfer.cls (x : Xfer) : Fin 6 := if x.kind = .gath || x.kind = .scat then 2 else 1

/-- Sector `k` has been performed: it is counted; after the last one the token is published or the permit returned
(R202, R212), and the count of a copy with a follow-on waits until the array has the stream (R248). -/
def sectorDone (s : State) (x : Xfer) (k : Nat) : State :=
  let x := { x with left := x.left.filter (· ≠ k) }
  let s := putXfer s x
  let s := match waveOf s x.wave with
    | some w => if x.wave = 0 then s else bump s w.core (if x.cls = 2 then 33 else 32) 1
    | none => if x.kind = .packet then s else bump s x.core (if x.cls = 2 then 33 else 32) 1
  if x.left ≠ [] then countSector s x
  else
    let s := if x.queue.isNone then s else mapXferQueue s x (if x.kind = .cpy then Queue.publish else Queue.release)
    match x.thn with
    | some n => setFollow s x n .fired
    | none => endXfer s x

/-! ### Sectors (R202, R206) -/

/-- Elements of dense sector `k`. -/
def sectorElems (n k : Nat) : List Nat := span (32 / n * k) (32 / n)

/-- The position of an engine's access (R170): the core for its scratchpad, else the home's chiplet. -/
def enginePos (s : State) (core : Fin 384) (a : Nat) : Pos :=
  match homeAt s a with
  | .core _ => .core core
  | p => p

/-- The positions of a class C transfer's accesses. -/
def copyPos (s : State) (x : Xfer) (a : Nat) : Pos := enginePos s x.core a

/-- The gather unit that a lane's element is for, by its chiplet (R170): that of the stack the element's home lies in; of an
element in a scratchpad, or of none, its core's chiplet's. -/
def gatherPos (s : State) (x : Xfer) (l : Option Loc) : Pos :=
  let near (n : Fin 384) : Pos := .chiplet (chipOf n)
  match l with
  | none => near x.core
  | some l => match homeAt s (l.pas.headD 0) with
    | .core n => near n
    | p => p

/-- The reads of a sector at their positions: their times are taken and noted, and the debug detector looks at them
(R197). -/
def sectorReads (s : State) (x : Xfer) (pos : Nat → Pos) (es : List (Accessor × DWord × Loc)) : State × Xfer :=
  let r := engineReads s es
  let s1 := hazardRead r.2 x.ctx x.wave x.pc (BitVec.ofNat 6 (2 ^ x.cls.val)) pos (elemBytes es)
  (notePerf s1 x.wave x.cls x.leader pos r.1, { x with tmax := max x.tmax r.1.last })

/-- The stores of a sector at their positions: their times are taken and noted, and committed ones recorded by the debug
detector. -/
def sectorWrites (s : State) (x : Xfer) (pos : Nat → Pos) (es : List (Accessor × DWord × Loc)) : State × Xfer :=
  let r := engineWrites s x.floor es
  let s1 := (((plainBytes es).map (· / 32)).eraseDups).foldl (fun s k =>
    hazardWrite s x.ctx { cls := BitVec.ofNat 6 (2 ^ x.cls.val), pos := pos (32 * k), wave := x.wave, leader := x.leader
                          xfer := x.id, latch := x.latch.map fun o => (x.unit, x.member, o) } [32 * k]) r.2
  (notePerf s1 x.wave x.cls x.leader pos r.1, { x with tmax := max x.tmax r.1.last })

/-- The stores of elements: those that can be made take their times at their homes, and are made. -/
def sectorStores (s : State) (x : Xfer) (pos : Nat → Pos) (es : List Checked) (f : ElemFault) : State × Xfer × ElemFault :=
  let r := sectorWrites s x pos (storeElems s es f).2.2
  let u := storeElems r.1 es f
  (u.1, r.2, u.2.1)

/-- Bytes of a transfer's scratchpad side as an access. -/
def spadElem (x : Xfer) (o : Nat) (pas : List Nat) : List (Accessor × DWord × Loc) :=
  [(xferAcc x 0, spadGeneric false o, { pas := pas })]

/-- A sector of a CPY. -/
def cpySector (s : State) (x : Xfer) (t : TensorRec) (o k : Nat) : State :=
  let a := xferAcc x x.hyp
  match winBytes s x.unit x.member (o + swzOff t.swz.toNat (32 * k)) 32 with
  | none => s
  | some pas =>
    match readElems s a t.size ((sectorElems t.size k).map (elemAddr t x.crd)) with
    | .error r => stallXfer s x r
    | .ok (bs, f, ls) =>
      let (s1, x) := sectorReads s x (copyPos s x) (ls.map fun l => (a, l.1, l.2))
      let (s2, x) := sectorWrites s1 x (copyPos s x) (spadElem x o pas)
      let (s3, x) := engineFault (capturedWrite s2 (pas.zip bs)) x f
      sectorDone s3 x k

/-- A sector of a CPYS: out-of-range elements are not written; the stores of a refuted hypothesis are discarded (R257). -/
def cpysSector (s : State) (x : Xfer) (t : TensorRec) (o k : Nat) : State :=
  match winBytes s x.unit x.member (o + swzOff t.swz.toNat (32 * k)) 32 with
  | none => s
  | some pas =>
    let bs := pas.map (physByte s)
    let a := xferAcc x x.hyp
    let es := ((sectorElems t.size k).zipIdx).filterMap fun (j, i) =>
      (elemAddr t x.crd j).map fun g => (a, g, (bs.drop (t.size * i)).take t.size)
    if x.orphan then
      let (s1, x) := sectorReads s x (copyPos s x) (spadElem x o pas)
      sectorDone s1 x k
    else
      match es.findSome? fun e => storeStalls s a t.size e.2.1 with
      | some r => stallXfer s x r
      | none =>
        let (s0, x) := sectorReads s x (copyPos s x) (spadElem x o pas)
        let (s2, x, f) := sectorStores s0 x (copyPos s x) (checkElems s t.size es) none
        let (s3, x) := engineFault s2 x f
        sectorDone s3 x k

/-- The lanes of a gather or scatter whose positions meet sector `k`, ascending. -/
def sectorLanes (x : Xfer) (k : Nat) : List XferLane :=
  x.lanes.filter fun l => x.esz * l.lane.val < 32 * k + 32 && 32 * k < x.esz * l.lane.val + x.esz

/-- A lane's element of a gather, read, with the scratchpad bytes of its position. -/
structure Gathered where
  a   : Accessor
  pas : List Nat
  bs  : List Byte
  f   : ElemFault
  ls  : ElemLocs

/-- Read a lane's element; none where its position cannot be reached. -/
def gatherLane (s : State) (x : Xfer) (o : Nat) (l : XferLane) : Except (BitVec 2) (Option Gathered) :=
  let a := xferAcc x l.hyp
  match readElem s a x.esz (some l.addr) with
  | .error r => .error r
  | .ok (b, f, ls) => .ok ((winBytes s x.unit x.member (o + x.esz * l.lane.val) x.esz).map fun p => ⟨a, p, b, f, ls⟩)

/-- A sector of a GATH: the active lanes' positions are written. -/
def gathSector (s : State) (x : Xfer) (o k : Nat) : State :=
  let got := (sectorLanes x k).map (gatherLane s x o)
  match got.findSome? fun y => match y with
      | .error r => some r
      | .ok _ => none with
  | some r => stallXfer s x r
  | none =>
    let ok := got.filterMap fun y => match y with
      | .ok z => z
      | .error _ => none
    if ok.length < got.length || (winByte s x.unit x.member o).isNone then s
    else
      let one (r : State × Xfer) (y : Gathered) : State × Xfer :=
        let pos := gatherPos s x ((y.ls.map (·.2)).head?)
        let r1 := sectorReads r.1 r.2 (fun _ => pos) (y.ls.map fun l => (y.a, l.1, l.2))
        sectorWrites r1.1 r1.2 (fun _ => pos) (spadElem x o y.pas)
      let (s2, x) := ok.foldl one (s, x)
      let s3 := capturedWrite s2 (ok.flatMap fun y => y.pas.zip y.bs)
      let (s4, x) := engineFault s3 x (ok.findSome? fun y => y.f)
      sectorDone s4 x k

/-- Is a byte of lane `l`'s element also a higher storing lane's, whose value remains (R181)? Stores under two hypotheses meet
where the byte takes no versions (R254, R256). -/
def hiddenByte (s : State) (x : Xfer) (l : XferLane) (b : DWord) : Bool :=
  let plain (h : BitVec 6) : Bool := match engineChk s (xferAcc x h) .store b 1 with
    | .ok y => !y.vers
    | .error _ => false
  x.lanes.any fun m => l.lane < m.lane && !m.orphan && (b - m.addr).toNat < x.esz && (m.hyp = l.hyp || (plain l.hyp && plain m.hyp))

/-- The bytes of a lane's element that it stores, in runs of one byte. -/
def scatBytes (s : State) (x : Xfer) (l : XferLane) (bs : List Byte) : List (Accessor × DWord × List Byte) :=
  (bs.zipIdx).filterMap fun (b, i) =>
    let g := l.addr + BitVec.ofNat 64 i
    if hiddenByte s x l g then none else some (xferAcc x l.hyp, g, [b])

/-- A sector of a SCAT: lanes that are no orphans store; where lanes meet, the highest one's value remains (log 25: DEDUCED). -/
def scatSector (s : State) (x : Xfer) (o k : Nat) : State :=
  let ls := (sectorLanes x k).filter fun l => !l.orphan
  match ls.findSome? fun l => storeStalls s (xferAcc x l.hyp) x.esz l.addr with
  | some r => stallXfer s x r
  | none =>
    if (winByte s x.unit x.member o).isNone then s
    else
      let own (l : XferLane) : List Nat := (winBytes s x.unit x.member (o + x.esz * l.lane.val) x.esz).getD []
      let es := ls.filterMap fun l => match engineChk s (xferAcc x l.hyp) .store l.addr x.esz with
        | .ok y => some (l, gatherPos s x (some y))
        | _ => none
      let bad : ElemFault := ls.findSome? fun l => match engineChk s (xferAcc x l.hyp) .store l.addr x.esz with
        | .error (.trap c) => some (c, l.addr)
        | _ => none
      let one (r : State × Xfer × ElemFault) (y : XferLane × Pos) : State × Xfer × ElemFault :=
        let r1 := sectorReads r.1 r.2.1 (fun _ => y.2) (spadElem x o (own y.1))
        sectorStores r1.1 r1.2 (fun _ => y.2) (checkElems s 1 (scatBytes s x y.1 ((own y.1).map (physByte s)))) r.2.2
      let (s2, x, f) := es.foldl one (s, x, bad)
      let (s3, x) := engineFault s2 x f
      sectorDone s3 x k

/-- A sector of a COPY packet (R283): 32 bytes from SRC to ADDR on the C path, on committed memory. Bytes that cannot be read
are stored as zero, bytes that cannot be stored are not, and the queue stops with error 0x29 at the packet's header (log 30:
DESIGN CHOICE). -/
def packetSector (s : State) (x : Xfer) (k : Nat) : State :=
  let a := xferAcc x 0
  let src := x.src + BitVec.ofNat 64 (32 * k)
  let dst := x.dst + BitVec.ofNat 64 (32 * k)
  match storeStalls s a 32 dst, readElem s a 32 (some src) with
  | some r, _ => stallXfer s x r
  | none, .error r => stallXfer s x r
  | none, .ok (bs, f, ls) =>
    let (s0, x) := sectorReads s x (copyPos s x) (ls.map fun l => (a, l.1, l.2))
    let (s2, x, f) := sectorStores s0 x (copyPos s x) (checkElems s 32 [(a, dst, bs)]) f
    let (s3, x) := engineFault s2 x f
    sectorDone s3 x k

/-- COPY_SECTOR_PERFORMED (R203): one sector of a transfer, in any order, is performed and counted. -/
def execCopySectorPerformed (xfer sector : Nat) (s : State) : Out :=
  .next <|
    match s.xfers.find? fun x => x.id = xfer with
    | none => s
    | some x =>
      let seen : Bool := match x.latch with
        | some o => (winByte s x.unit x.member o).isSome
        | none => true
      if !x.left.contains sector || !seen then s
      else
        match x.kind, x.spad, x.tr with
        | .packet, _, _ => packetSector s x sector
        | .cpy, some o, some t => cpySector s x t o sector
        | .cpys, some o, some t => cpysSector s x t o sector
        | .gath, some o, _ => gathSector s x o sector
        | .scat, some o, _ => scatSector s x o sector
        | _, _, _ => s

/-! ### Issue (R202, R214) -/

/-- The five coordinates from CRD on (R58). -/
def coordsOf (w : Wave) (crd : BitVec 5) : Vector Word 5 := Vector.ofFn fun d => getS w (crd.toNat + d.val)

/-- The record at a generic address, read as a load of the leader (R338): the state and the bytes. A pod record that its peer
side refuses is reported as that load would be (R306), and nothing is issued. -/
def readRecord (s : State) (e : Mask) (g : DWord) : Res (State × List Byte) :=
  let l := leaderOf e
  let acc := s.w.accessor l
  if g.toNat % 64 ≠ 0 then .error (badHandle s 1 g)
  else
    match laneChk s acc .load g 64 with
    | .error (.trap c) => .error (faultAt s c (BitVec.ofNat 32 l) g)
    | .error (.recov r) =>
      .error (if r = 0 then faultPark s e 0
        else if isPod g then waitService s e r
        else if r = 2 then waitRedo s (.mov e s.clk.toNat) 0
        else faultPark s e r)
    | .ok x =>
      let s0 := reportPeers s (fun _ => g) [(l, x)]
      if poisonLoc s acc x then .error (poisonEnd s)
      else if x.bad.isSome then .error s0
      else
        let s1 := hazardCheck s0 (fun _ => g) [(l, x)]
        let (hits, s2) := loadRequests s1 (fun _ => acc) false (byLane (fun _ => g) [(l, x)])
        let r := readLane s2 hits acc x 64
        .ok (r.2, r.1)

/-- Is a scratchpad range in the wave's window (R144)? -/
def inWindow (s : State) (e : Mask) (a n : Nat) : Bool := (spadRange s (s.w.committed (leaderOf e)) a n).isSome

/-- A fault that names a scratchpad address. -/
def badSpad (s : State) (sub a : Nat) : State := badHandle s sub (BitVec.ofNat 64 a)

/-- The latch at LAT: 16-byte aligned, in the scratchpad (R203, R214). -/
def latOk (s : State) (e : Mask) (a : Nat) : Bool := a % 16 = 0 && inWindow s e a 16

/-- Set ENG in a latch at issue (R203). -/
def setEng (s : State) (e : Mask) (a : Nat) : State :=
  match spadRange s (s.w.committed (leaderOf e)) a 16 with
  | some pas => latchMap (touchEngine s pas) pas fun l => { l with eng := true }
  | none => s

/-- The transfer's scratchpad side at issue: the subcode and address of a failed check (R201, R202, R214), else none. A queue
whose slot is both too small and misplaced is reported with subcode 3 (log 47: DESIGN CHOICE). -/
def boxBad (s : State) (e : Mask) (qd : Bool) (t : TensorRec) (d : Nat) : Option (Nat × Nat) :=
  if qd then
    if d % 16 ≠ 0 || !inWindow s e d 16 then some (5, d)
    else
      match spadRange s (s.w.committed (leaderOf e)) d 16 with
      | none => some (5, d)
      | some pas =>
        let q := readQueue s (pas.headD 0)
        if 32 * q.ssize < t.boxBytes then some (3, d)
        else if q.sbase % 32 ≠ 0 || (t.swz ≠ 0 && (q.sbase % 128 ≠ 0 || q.ssize % 4 ≠ 0)) ||
            !inWindow s e q.sbase (32 * q.ssize * q.slots) then some (9, d)
        else none
  else if d % (if t.swz = 0 then 32 else 128) ≠ 0 || !inWindow s e d t.boxBytes then some (9, d)
  else none

/-- Does a queue's class match the engine's side (R211)? -/
def classOk (s : State) (e : Mask) (cpy : Bool) (d : Nat) : Bool :=
  match spadRange s (s.w.committed (leaderOf e)) d 16 with
  | some pas =>
    let q := readQueue s (pas.headD 0)
    if cpy then q.pcls = 1 else q.ccls = 1
  | none => false

/-- A transfer of the issuing wave, named and queued; the leaf goes on. -/
def startXfer (s : State) (h : Hdr) (x : Xfer) : State :=
  let w := s.w
  let y : Xfer := { x with
    id := s.nextId, leader := leaderOf (w.eff h.gd), ctx := w.ctx, wave := w.id, unit := w.unit, member := w.member
    core := w.core, pc := w.iss.pc, qcb := (w.origin (leaderOf (w.eff h.gd))).1, hdr := (w.origin (leaderOf (w.eff h.gd))).2
    sup := w.mode = .supervisor }
  { s with nextId := s.nextId + 1, xfers := s.xfers ++ [y] }

/-- A blank transfer of a kind. -/
def blankXfer (k : XferKind) : Xfer := { id := 0, kind := k, ctx := 0, wave := 0, unit := 0, member := 0, pc := 0 }

/-- The issue of CPY and CPYS (R202, R338). A THEN slot in the wrong state is reported with the record's address (R214, log
11: DEDUCED). -/
def issueCopy (s : State) (h : Hdr) (cpy : Bool) (d a : Operand) (x : CopyExt) : State :=
  let w := s.w
  let e := w.eff h.gd
  let g := scalarPair w a
  let dst := (getS w (regNum d)).toNat
  let lat := (getS w x.lat.toNat).toNat
  if e = 0 then s
  else
    match readRecord s e g with
    | .error s' => s'
    | .ok (s1, bs) =>
      let t := recordOf bs
      let bad := recordBad bs t
      if bad ≠ 0 then badHandle s bad g
      else
        match boxBad s e x.qd t dst with
        | some (sub, at_) => badSpad s sub at_
        | none =>
          if !latOk s e lat then badSpad s 4 lat
          else if x.qd && !classOk s e cpy dst then badSpad s 6 dst
          else if x.tv && w.follow[x.thn].st ≠ .parked then
            badHandle s 10 g
          else
            let y : Xfer := { blankXfer (if cpy then .cpy else .cpys) with
              tr := some t, crd := coordsOf w x.crd, latch := some lat
              spad := (if x.qd then none else some dst), queue := (if x.qd then some dst else none)
              thn := (if x.tv then some x.thn else none), hyp := w.hypOf (leaderOf e)
              left := List.range (t.boxBytes / 32) }
            let s2 := startXfer (setEng s1 e lat) h y
            if x.tv then updW s2 fun w => { w with follow := w.follow.set x.thn { w.follow[x.thn] with st := .armed } }
            else s2

/-- CPY (R202, R338). -/
def execCpy (h : Hdr) (d a : Operand) (x : CopyExt) (s : State) : Out := .next (issueCopy s h true d a x)

/-- CPYS (R202, R341). -/
def execCpys (h : Hdr) (d a : Operand) (x : CopyExt) (s : State) : Out := .next (issueCopy s h false d a x)

/-- The issue of GATH and SCAT (R206, R353, R419). -/
def issueGather (s : State) (h : Hdr) (kind : XferKind) (d a : Operand) (x : GathExt) : State :=
  let w := s.w
  let e := w.eff h.gd
  let m := if x.one then laneBit (leaderOf e) else e
  let n := 2 ^ x.esz.toNat
  let g := scalarPair w a
  let spa := (getS w x.spa.toNat).toNat
  let lat := (getS w x.lat.toNat).toNat
  if e = 0 then s
  else if (selOf g ≠ 0 && selOf g ≠ 0x7F) || g.toNat % n ≠ 0 then faultAt s 0x10 (BitVec.ofNat 32 (leaderOf e)) g
  else if spa % 32 ≠ 0 || !inWindow s e spa (32 * n) then badSpad s 9 spa
  else if !latOk s e lat then badSpad s 4 lat
  else
    let lane (l : Fin 32) : XferLane :=
      { lane := l, addr := g + BitVec.ofNat 64 (n * (vecVal w d l).toNat), hyp := w.hypOf l, orphan := inMask w.orphans l }
    let y : Xfer := { blankXfer kind with
      spad := some spa, latch := some lat, esz := n, lanes := (lanesOf m).map lane, left := List.range n }
    startXfer (setEng s e lat) h y

/-- GATH (R206, R353). -/
def execGath (h : Hdr) (d a : Operand) (x : GathExt) (s : State) : Out := .next (issueGather s h .gath d a x)

/-- SCAT (R206, R419). -/
def execScat (h : Hdr) (d a : Operand) (x : GathExt) (s : State) : Out := .next (issueGather s h .scat d a x)

/-! ### Follow-ons (R205, R248) -/

/-- Room for one more command in an array's queue (R217). -/
def arrayRoom (s : State) (n : Fin 384) (arr : Fin 2) : Bool := ((coreOf s n).arrays[arr]).queue.length < 4

/-- Accept a command. -/
def acceptCmd (s : State) (n : Fin 384) (arr : Fin 2) (c : Cmd) : State :=
  let k := coreOf s n
  setCore s { k with arrays := k.arrays.set arr { k.arrays[arr] with queue := k.arrays[arr].queue ++ [c] } }

/-- FOLLOW_ON_FIRE (R205, R216, R248): the array accepts the fired stream, with the copy's sectors ordered before its reads as
by `fencex.core C, M`; the slot is emptied, and the copy's last sector is counted. A wave that is out keeps the slot fired.
Of a wave that has retired while its workgroup runs, no stream is issued and the count alone is left (log 59: DESIGN
CHOICE). -/
def execFollowOnFire (wave : Nat) (slot : Fin 4) (s : State) : Out :=
  .next <|
    match s.xfers.find? fun x => x.wave = wave && x.thn = some slot && x.left = [] with
    | none => s
    | some x =>
      match waveOf s wave with
      | none => endXfer s x
      | some w =>
        let f := w.follow[slot]
        if f.st ≠ .fired then endXfer s x
        else if w.res ≠ .resident || !arrayRoom s w.core f.arr then s
        else
          let c : Cmd :=
            { op := .stream f.fmt (f.rows1.toNat + 1) f.qs f.a.toNat, wave := w.id, unit := w.unit, pc := f.pc
              leader := f.leader, id := s.nextId }
          let s0 := coverHazards s 8 1 (.core w.core) fun h => h.xfer = x.id
          let s1 := acceptCmd { s0 with nextId := s.nextId + 1 } w.core f.arr c
          endXfer (setWave s1 { w with follow := w.follow.set slot {} }) x

end Sys2Proof.Machine
end

