-- ==== Sys2Proof/Machine/Matrix.lean ====
section
/-!
DEFINITION. The stationary arrays (spec/11_matrix.md R217 to R234, spec/07_arithmetic.md R134 to R140, spec/20 R392 to
R400): the issue of the seven matrix instructions, MLDS landings, and the commands the arrays execute.
-/

namespace Sys2Proof.Machine

/-! ### Arrays -/

/-- An array of a core. -/
def arrayOf (s : State) (n : Fin 384) (arr : Fin 2) : ArrayState := (coreOf s n).arrays[arr]

/-- Change an array. -/
def mapArray (s : State) (n : Fin 384) (arr : Fin 2) (f : ArrayState → ArrayState) : State :=
  let k := coreOf s n
  setCore s { k with arrays := k.arrays.set arr (f k.arrays[arr]) }

/-- The array that owns a tile (R217). -/
def tileArray (t : Fin 16) : Fin 2 := if t.val < 8 then 0 else 1

/-- Bytes of a streamed element (R125). -/
def fmtSize (fmt : BitVec 3) : Nat := if fmt.toNat ≤ 2 then 1 else 2

/-- A pair of R137: the plane's format and the stream's. -/
def pairOk (plane fmt : BitVec 3) : Bool :=
  match plane.toNat, fmt.toNat with
  | 0, f | 1, f => f ≤ 1
  | 2, f => f = 2
  | 3, f => f = 3
  | 4, f => f = 4
  | 5, f => f = 0 || f = 1 || f = 3 || f = 4
  | _, _ => false

/-- Group size (R137). -/
def groupSize (plane : BitVec 3) : Nat := if plane.toNat ≤ 2 then 16 else 4

/-- Queued MSWAPs of an array (log 24: DEDUCED). -/
def swapsQueued (a : ArrayState) : Nat := (a.queue.filter fun c => c.op = .swap).length

/-- Is the plane that a command accepted now will meet 2:4? -/
def spAhead (a : ArrayState) : Bool :=
  let shadow := match a.mlds with
    | some m => m.sp
    | none => a.shadow.sp
  if swapsQueued a % 2 = 1 then shadow else a.active.sp

/-- Bytes of a streamed row (R225). -/
def rowBytes (sp : Bool) (fmt : BitVec 3) : Nat := (if sp then 256 else 128) * fmtSize fmt

/-! ### Issue (R219) -/

/-- The agent's word waits until its array can accept it (R84). -/
def waitArray (s : State) (arr : Fin 2) : State := waitRedo s (.busy arr) 0

/-- The workgroup has live array state (R232). -/
def markLive (s : State) : State := setMember s s.w.unit s.w.member fun m => { m with live := true }

/-- A command of the issuing wave. -/
def cmdOf (s : State) (h : Hdr) (op : CmdOp) : Cmd :=
  { op := op, wave := s.w.id, unit := s.w.unit, pc := s.w.iss.pc, leader := leaderOf (s.w.eff h.gd)
    id := s.nextId }

/-- Accept a command of the issuing wave into an array's queue, when there is room. -/
def issueCmd (s : State) (h : Hdr) (arr : Fin 2) (op : CmdOp) : State :=
  if arrayRoom s s.w.core arr then markLive (acceptCmd { s with nextId := s.nextId + 1 } s.w.core arr (cmdOf s h op)) else waitArray s arr

/-- MSWAP (R224, R394). -/
def execMswap (h : Hdr) (arr : Fin 2) (s : State) : Out :=
  .next (if s.w.eff h.gd = 0 then s else issueCmd s h arr .swap)

/-- MDRAIN (R227, R396). -/
def execMdrain (h : Hdr) (tile : Fin 16) (s : State) : Out :=
  .next (if s.w.eff h.gd = 0 then s else issueCmd s h (tileArray tile) (.drain tile))

/-- MZERO (R228, R397). -/
def execMzero (h : Hdr) (tile : Fin 16) (s : State) : Out :=
  .next (if s.w.eff h.gd = 0 then s else issueCmd s h (tileArray tile) (.zero tile))

/-- Shared by MLD and MST: the tile's address is 128-byte aligned and the tile in the window (R228). -/
def issueTile (s : State) (h : Hdr) (tile : Fin 16) (a : Operand) (mf : BitVec 3) (op : Nat → CmdOp) : State :=
  let e := s.w.eff h.gd
  let base := (scalarVal s.w a).toNat
  if e = 0 then s
  else if !arrayRoom s s.w.core (tileArray tile) then waitArray s (tileArray tile)
  else if base % 128 ≠ 0 || !inWindow s e base (4096 * mfSize mf) then badSpad s 9 base
  else issueCmd s h (tileArray tile) (op base)

/-- MLD (R228, R398). -/
def execMld (h : Hdr) (a : Operand) (tile : Fin 16) (mfmt : BitVec 3) (s : State) : Out :=
  .next (issueTile s h tile a mfmt fun b => .load tile mfmt b)

/-- MST (R228, R398). -/
def execMst (h : Hdr) (a : Operand) (tile : Fin 16) (mfmt : BitVec 3) (sat : Bool) (s : State) : Out :=
  .next (issueTile s h tile a mfmt fun b => .store tile mfmt sat b)

/-- The failed check of an MSTREAM's source at issue (R225): subcode and address. -/
def streamBad (s : State) (e : Mask) (q : Bool) (base n : Nat) : Option (Nat × Nat) :=
  if q then
    if base % 16 ≠ 0 || !inWindow s e base 16 then some (5, base)
    else
      match spadRange s (s.w.committed (leaderOf e)) base 16 with
      | none => some (5, base)
      | some pas =>
        let o := readQueue s (pas.headD 0)
        if o.ccls ≠ 2 then some (6, base) else if 32 * o.ssize < n then some (3, base) else none
  else if base % 32 ≠ 0 || !inWindow s e base n then some (9, base)
  else none

/-- MSTREAM (R225, R226, R395): accepted, or parked under `defer`. -/
def execMstream (h : Hdr) (a : Operand) (arr : Fin 2) (fmt : BitVec 3) (rows1 : BitVec 6) (qs dfr : Bool)
    (slot : Fin 4) (s : State) : Out :=
  let w := s.w
  let e := w.eff h.gd
  let base := (scalarVal w a).toNat
  let n := (rows1.toNat + 1) * rowBytes (spAhead (arrayOf s w.core arr)) fmt
  .next <|
    if e = 0 then s
    else if !dfr && !arrayRoom s w.core arr then waitArray s arr
    else
      match streamBad s e qs base n with
      | some (sub, at_) => badSpad s sub at_
      | none =>
        if !dfr then issueCmd s h arr (.stream fmt (rows1.toNat + 1) qs base)
        else if w.follow[slot].st ≠ .empty then badSpad s 10 base
        else
          let ws := encode (.mstream h a arr fmt rows1 qs dfr slot)
          let f : Follow := { st := .parked, pc := w.iss.pc, leader := leaderOf e, arr := arr, fmt := fmt, rows1 := rows1,
                              qs := qs, slot := slot, a := scalarVal w a, word := ws.headD 0, ext := trailingWord ws }
          updW (markLive s) fun w => { w with follow := w.follow.set slot f }

/-! ### MLDS (R221 to R223) -/

/-- Does a record meet MLDS's demands (R221)? -/
def mldsRecOk (t : TensorRec) (fmt : BitVec 3) : Bool :=
  let dt := match fmt.toNat with
    | 0 => 0
    | 1 => 1
    | 2 => 2
    | 3 => 3
    | _ => 4
  1 ≤ t.rank1.toNat && t.box[0] = 127 && t.box[1] = 63 && t.box[2] = 0 && t.box[3] = 0 && t.box[4] = 0 && t.swz = 0 &&
    t.dtype.toNat = dt

/-- The 2-bit index of kept value `j` of column `n` (R222). -/
def metaIdx (mta : List Byte) (n j : Nat) : Nat := (mta.getD (32 * n + j / 4) 0).toNat / 4 ^ (j % 4) % 4

/-- The lowest column, and in it the lowest group, whose two indices are equal (R222). -/
def metaDup (mta : List Byte) : Option (Nat × Nat) :=
  (List.range 64).findSome? fun n =>
    ((List.range 64).find? fun g => metaIdx mta n (2 * g) = metaIdx mta n (2 * g + 1)).map fun g => (n, g)

/-- Reads of an array's scratchpad at its core, for a wave's word (R170): they take their times and are noted, and the debug
detector looks at them. -/
def arrayReads (s : State) (core : Fin 384) (ctx wave : Nat) (pc : Word) (leader : Fin 32) (xs : List (Nat × DWord)) : State :=
  let as := xs.map (·.1)
  let r := readTimes s s.clk.toNat as
  let s1 := hazardRead r.2 ctx wave pc 8 (fun _ => .core core) xs
  notePerf s1 wave 3 leader (fun _ => .core core) [(as.map (· / 32), r.1)]

/-- The metadata at META: 2 KiB in the scratchpad windows, 32-byte aligned (R222), read on the M path at issue. -/
def readMeta (s : State) (e : Mask) (g : DWord) : Res (State × List Byte) :=
  if g.toNat % 32 ≠ 0 || (selOf g ≠ 2 && selOf g ≠ 3) then .error (badHandle s 9 g)
  else
    match resolve s (s.w.committed (leaderOf e)) .load g 2048 with
    | .error _ => .error (badHandle s 9 g)
    | .ok l =>
      let bs := l.pas.map (physByte s)
      match metaDup bs with
      | some (n, gr) => .error (faultAt s 0x06 (BitVec.ofNat 32 (256 * n + gr)) g)
      | none =>
        let secs := (List.range 64).map fun i => (l.pas.getD (32 * i) 0, g + BitVec.ofNat 64 (32 * i))
        .ok (arrayReads s s.w.core s.w.ctx s.w.id s.w.iss.pc (leaderOf e) secs, bs)

/-- The check of an nq4 BASE: it translates as a load of the leader into the view range (R221). -/
def nq4Base (s : State) (e : Mask) (g : DWord) (t : TensorRec) : Res Unit :=
  let l := leaderOf e
  match engineChk s (s.w.accessor l) .load t.base 2 with
  | .error (.trap c) => .error (faultAt s c (BitVec.ofNat 32 l) t.base)
  | .error (.recov r) => .error (if r = 2 then waitRedo s (.mov e s.clk.toNat) 0 else faultPark s e r)
  | .ok x => if x.pas.all fun p => physKind p = some .view then .ok () else .error (badHandle s 2 g)

/-- MLDS (R221, R222, R393): held behind the array's MSWAPs and MLDSs; its landing comes later. -/
def execMlds (h : Hdr) (a : Operand) (arr : Fin 2) (fmt : BitVec 3) (sp : Bool) (crd mta : BitVec 5) (s : State) : Out :=
  let w := s.w
  let e := w.eff h.gd
  let g := scalarPair w a
  let y := arrayOf s w.core arr
  .next <|
    if e = 0 then s
    else if swapsQueued y ≠ 0 || y.mlds.isSome then waitArray s arr
    else
      match readRecord s e g with
      | .error s' => s'
      | .ok (s1, bs) =>
        let t := recordOf bs
        let bad := recordBad bs t
        if bad ≠ 0 then badHandle s bad g
        else if !mldsRecOk t fmt then badHandle s 2 g
        else
          match (if fmt = 5 then nq4Base s e g t else .ok ()) with
          | .error s' => s'
          | .ok _ =>
            match (if sp then readMeta s1 e (pair (getS w mta.toNat) (getS w (mta.toNat + 1))) else .ok (s1, [])) with
            | .error s' => s'
            | .ok (s1, md) =>
              let f : MldsFlight := {
                id := s.nextId, leader := leaderOf e, unit := w.unit, wave := w.id, ctx := w.ctx, pc := w.iss.pc, fmt := fmt
                sp := sp, tr := t, crd := coordsOf w crd, mta := md, hyp := w.hypOf (leaderOf e)
                qcb := (w.origin (leaderOf e)).1, hdr := (w.origin (leaderOf e)).2
                sup := w.mode = .supervisor }
              markLive (mapArray { s1 with nextId := s1.nextId + 1 } w.core arr fun y => { y with mlds := some f })

/-- The accessor of an MLDS. -/
def mldsAcc (m : MldsFlight) : Accessor :=
  { ctx := m.ctx, unit := m.unit, member := 0, task := false, blk := 0, lpriv := 0, sup := m.sup, hyp := m.hyp
    tlb := .stream }

/-- A weight of an MLDS, and the cause of its failure; of nq4, an element outside the view range fails (R221). -/
def mldsElem (s : State) (m : MldsFlight) (g : Option DWord) : Except (BitVec 2) (List Byte × ElemFault × ElemLocs) :=
  match g with
  | some a =>
    match engineChk s (mldsAcc m) .load a (fmtSize m.fmt) with
    | .ok l =>
      if m.fmt = 5 && !(l.pas.all fun p => physKind p = some .view) then .ok ([0, 0], some (0x10, a), [])
      else .ok (locBytes s (mldsAcc m) l, none, [(a, l)])
    | _ => readElem s (mldsAcc m) (fmtSize m.fmt) g
  | none => .ok (List.replicate (fmtSize m.fmt) 0, none, [])

/-- The block scale of the view element at an address, and the bytes it is read from (R136, R154, R223). -/
def viewScale (s : State) (m : MldsFlight) (g : Option DWord) : Word × List Nat :=
  match g with
  | none => (0, [])
  | some a =>
    match engineChk s (mldsAcc m) .load a 2 with
    | .error _ => (0, [])
    | .ok l =>
      let p := l.pas.headD 0
      match physKind p, rangeFor s p with
      | some .view, some r =>
        let i := (p - r.view) / 2
        let sup := r.sup + 4 * (i / 16384)
        let blk := r.sup + r.sco + i / 64
        (blockScale (BitVec.ofNat 32 (physNat s sup 4)) (plainByte s blk), span sup 4 ++ [blk])
      | _, _ => (0, [])

/-- The weights in order of k then n: box element (k, n) stands at k + 128 n. -/
def mldsWeights (s : State) (m : MldsFlight) : List Nat → Except (BitVec 2) (List (BitVec 16) × ElemFault × ElemLocs)
  | [] => .ok ([], none, [])
  | i :: t =>
    match mldsElem s m (elemAddr m.tr m.crd (i / 64 + 128 * (i % 64))), mldsWeights s m t with
    | .ok (b, f, l), .ok (ws, f', ls) => .ok (BitVec.ofNat 16 (leNat b) :: ws, match f with
      | none => f'
      | some y => some y, l ++ ls)
    | .error r, _ => .error r
    | _, .error r => .error r

/-- Leaves of a core's waves that waited for an array issue their words again. -/
def wakeBusy (s : State) (n : Fin 384) (arr : Fin 2) : State :=
  let wake (lf : Leaf) : Leaf := match lf.wait with
    | some ⟨.busy a, _, _⟩ => if a = arr then { lf with wait := none } else lf
    | _ => lf
  mapWaves s fun w => if w.core = n then { w with leaves := Vector.ofFn fun i => wake w.leaves[i], sup := wake w.sup } else w

/-- The reads of an MLDS take their times and are noted, and the debug detector looks at them (R170, R172, R197): its
elements', and those of its scales. All of them are performed as it lands (log 59: DESIGN CHOICE). -/
def mldsReads (s : State) (core : Fin 384) (m : MldsFlight) (ls : ElemLocs) : State :=
  let es := ls.map fun l => (mldsAcc m, l.1, l.2)
  let r := engineReads s es
  notePerf (hazardRead r.2 m.ctx m.wave m.pc 8 (enginePos s core) (elemBytes es)) m.wave 3 m.leader (enginePos s core) r.1

/-- MLDS_LAND (R221, R223): the shadow plane takes the tile and its scales. -/
def execMldsLand (core : Fin 384) (arr : Fin 2) (s : State) : Out :=
  .next <|
    match (arrayOf s core arr).mlds with
    | none => s
    | some m =>
      match mldsWeights s m (List.range 8192) with
      | .error r =>
        if r = 2 || s.services.any fun y => y.wave = m.wave && y.lanes = 0 && y.reason = r then s
        else { s with services := s.services ++ [⟨m.wave, 0, r⟩] }
      | .ok (ws, f, ls) =>
        let scales := if m.fmt = 5 then
          (List.range 128).map fun i => viewScale s m (elemAddr m.tr m.crd (64 * (i / 64) + 128 * (i % 64))) else []
        let sls : ElemLocs := (scales.filter (·.2 ≠ [])).map fun x => (m.tr.base, { pas := x.2 })
        let p : Plane := { fmt := m.fmt, sp := m.sp, wts := ws, mta := m.mta, scales := scales.map (·.1) }
        let s1 := mapArray (mldsReads s core m (ls ++ sls)) core arr fun y => { y with shadow := p, mlds := none }
        let s2 := wakeBusy s1 core arr
        match f with
        | some (c, g) => engineReport s2 m.wave m.pc m.qcb m.hdr c g
        | none => s2

/-! ### Sums (R138 to R140) -/

/-- An activation or weight as a value. -/
def elemVal (fmt : BitVec 3) (c : Nat) : FVal := (elemFmt fmt).value c

/-- A signed 8-bit value. -/
def int8 (c : Nat) : Int := (BitVec.ofNat 8 c).toInt

/-- Where kept weight `k` of column `n` stands along a row: in a 2:4 plane by its metadata (R222). -/
def logicalK (p : Plane) (k n : Nat) : Nat := if p.sp then 4 * (k / 2) + metaIdx p.mta n k else k

/-- Weight (k, n) of a plane. -/
def Plane.wt (p : Plane) (k n : Nat) : Nat := (p.wts.getD (64 * k + n) 0).toNat

/-- The sum of one K half for a row and a column (R138, R140). -/
def halfSum (p : Plane) (fmt : BitVec 3) (row : Nat → Nat) (h n : Nat) : Word :=
  let g := groupSize p.fmt
  if p.fmt = 2 then
    BitVec.ofInt 32 ((List.range 64).foldl
      (fun t i => t + int8 (row (logicalK p (64 * h + i) n)) * int8 (p.wt (64 * h + i) n)) (0 : Int))
  else
    let group (q : Nat) : Word := groupSum ((List.range g).map fun i =>
      let k := 64 * h + g * q + i
      (mulVal (elemVal fmt (row (logicalK p k n))) (elemVal p.fmt (p.wt k n))).1)
    (List.range (64 / g)).tail.foldl (fun t q => (fadd rne t (group q)).1) (group 0)

/-- The partials of a stream: by half, row, column. -/
def streamSums (p : Plane) (fmt : BitVec 3) (rows : Nat) (act : Nat → Nat → Nat) : List Word :=
  (List.range 2).flatMap fun h => (List.range rows).flatMap fun i => (List.range 64).map fun n => halfSum p fmt (act i) h n

/-! ### Commands (R225 to R229) -/

/-- The head command is done: the queue moves up, the words that waited for room and the fences that waited for the
command go on. -/
def popCmd (s : State) (n : Fin 384) (arr : Fin 2) : State :=
  let s1 := mapArray s n arr fun y => { y with queue := y.queue.tail }
  let less (lf : Leaf) : Leaf := match lf.wait with
    | some ⟨.fencex x y m0 m1 p e sc b a l, nx, ad⟩ =>
      { lf with wait := some ⟨.fencex x y (if arr = 0 then m0 - 1 else m0) (if arr = 1 then m1 - 1 else m1) p e sc b a l, nx, ad⟩ }
    | _ => lf
  let s2 := mapWaves s1 fun w =>
    if w.core = n then { w with leaves := Vector.ofFn fun i => less w.leaves[i], sup := less w.sup } else w
  wakeBusy s2 n arr

/-- MSWAP_EXECUTE (R224): once every MLDS issued before it has landed. -/
def execMswapExecute (core : Fin 384) (arr : Fin 2) (s : State) : Out :=
  let y := arrayOf s core arr
  .next <|
    match y.queue with
    | c :: _ =>
      if c.op = .swap && y.mlds.isNone then
        popCmd (mapArray s core arr fun y => { y with active := y.shadow, shadow := y.active }) core arr
      else s
    | [] => s

/-- The byte at a scratchpad address of a unit, zero where there is none. -/
def winGet (s : State) (unit o : Nat) : Byte :=
  match winByte s unit 0 o with
  | some a => physByte s a
  | none => 0

/-- The first byte of each sector of a scratchpad range of a unit. -/
def spadSectors (s : State) (unit base n : Nat) : List Nat :=
  (List.range ((n + 31) / 32)).filterMap fun i => winByte s unit 0 (base + 32 * i)

/-- A command's scratchpad reads take their times and are noted, and the debug detector looks at them (R170, R197). -/
def cmdReads (s : State) (core : Fin 384) (c : Cmd) (base n : Nat) : State :=
  let ctx := ((unitOf s c.unit).map (·.ctx)).getD 0
  arrayReads s core ctx c.wave c.pc c.leader
    ((spadSectors s c.unit base n).zipIdx.map fun (a, i) => (a, spadGeneric false (base + 32 * i)))

/-- A stream's partials (R225), from rows at a scratchpad address. -/
def streamFrom (s : State) (n : Fin 384) (arr : Fin 2) (c : Cmd) (fmt : BitVec 3) (rows base : Nat) : State :=
  let p := (arrayOf s n arr).active
  let z := fmtSize fmt
  let bytes := (List.range (rows * rowBytes p.sp fmt)).map fun o => winGet s c.unit (base + o)
  let act (i k : Nat) : Nat := leNat ((bytes.drop (i * rowBytes p.sp fmt + z * k)).take z)
  let part : Partials := { rows := rows, vals := streamSums p fmt rows act, int := p.fmt = 2, scales := p.scales }
  let s1 := cmdReads s n c base (rows * rowBytes p.sp fmt)
  bump (mapArray s1 n arr fun y => { y with part := part }) n 28 rows

/-- MSTREAM_START (R225): the pair check, the token, the sums, the permit. -/
def execMstreamStart (core : Fin 384) (arr : Fin 2) (s : State) : Out :=
  let y := arrayOf s core arr
  .next <|
    match y.queue with
    | c :: _ =>
      match c.op with
      | .stream fmt rows q base =>
        if !pairOk y.active.fmt fmt then
          popCmd (pushPending s c.wave ⟨0x01, 2, c.pc, BitVec.ofNat 32 (fmt.toNat + 16 * y.active.fmt.toNat), 0⟩) core arr
        else if !q then popCmd (streamFrom s core arr c fmt rows base) core arr
        else
          match winByte s c.unit 0 base with
          | none => s
          | some a =>
            let o := readQueue s a
            if o.tokens = 0 then s
            else
              let slot := spadSectors s c.unit (o.slotAddr o.head) (32 * o.ssize)
              let s1 := streamFrom (orderBytes s 8 slot) core arr c fmt rows (o.slotAddr o.head)
              popCmd (hPut s1 a 16 (queueBits o.take.release)) core arr
      | _ => s
    | [] => s

/-- A tile of a core. -/
def tileOf (s : State) (n : Fin 384) (t : Fin 16) : Tile := (coreOf s n).tiles[t]

/-- Element (i, n) of a tile. -/
def tileGet (t : Tile) (i n : Nat) : Word := t.getD (64 * i + n) 0

/-- Replace a tile. -/
def setTile (s : State) (n : Fin 384) (t : Fin 16) (x : Tile) : State :=
  let k := coreOf s n
  setCore s { k with tiles := k.tiles.set t x }

/-- One drained element (R138, R140): both halves added, the lower first. -/
def drainElem (p : Partials) (z : Word) (i n : Nat) : Word :=
  let part (h : Nat) : Word := p.vals.getD (64 * (p.rows * h + i) + n) 0
  if p.int then z + part 0 + part 1
  else
    let term (h : Nat) : Word :=
      let k := p.scales.getD (64 * h + n) 0x3F800000
      if k &&& 0x7FFFFFFF = 0 then 0 else (fmul rne (part h) k).1
    (fadd rne (fadd rne z (term 0)).1 (term 1)).1

/-- A tile after a drain: rows beyond the partials' keep their elements (R227). -/
def drainTile (p : Partials) (t : Tile) : Tile :=
  if p.rows = 0 then t
  else (List.range 4096).map fun j =>
    if j / 64 < p.rows then drainElem p (tileGet t (j / 64) (j % 64)) (j / 64) (j % 64) else tileGet t (j / 64) (j % 64)

/-- The member whose core this is, of a unit. -/
def memberOn (s : State) (unit : Nat) (n : Fin 384) : Option Nat :=
  (unitOf s unit).bind fun u => u.members.findIdx? fun m => m.core = n

/-- A tile not named at the last PPOINT is now written, or its hazard has been reported (R233). -/
def nameTile (s : State) (unit : Nat) (n : Fin 384) (t : Fin 16) : State :=
  match memberOn s unit n with
  | some k => setMember s unit k fun m => { m with unnamed := m.unnamed &&& ~~~(BitVec.ofNat 16 (2 ^ t.val)) }
  | none => s

/-- In debug mode, the first read of a tile not named at the last PPOINT raises the hazard, subcode 3 (R233). -/
def tileHazard (s : State) (c : Cmd) (n : Fin 384) (t : Fin 16) : State :=
  match memberOn s c.unit n, unitOf s c.unit with
  | some k, some u =>
    let named : Bool := ((u.at k).map fun m => m.unnamed.getLsbD t).getD false
    if named && ((ctxOf s u.ctx).map (·.dbg)).getD false then
      nameTile (pushPending s c.wave ⟨0x09, 3, c.pc, 0, 0⟩) c.unit n t
    else s
  | _, _ => s

/-- MDRAIN_EXECUTE (R227). -/
def execMdrainExecute (core : Fin 384) (arr : Fin 2) (s : State) : Out :=
  let y := arrayOf s core arr
  .next <|
    match y.queue with
    | c :: _ =>
      match c.op with
      | .drain t =>
        let s1 := popCmd s core arr
        if y.part.rows = 0 then s1
        else
          let s2 := tileHazard s1 c core t
          let s3 := setTile s2 core t (drainTile y.part (tileOf s core t))
          bump (mapArray s3 core arr fun y => { y with part := {} }) core 29 y.part.rows
      | _ => s
    | [] => s

/-- A tile's bytes as stored (R228). -/
def tileBytes (t : Tile) (mf : BitVec 3) (sat : Bool) : List Byte :=
  (List.range 4096).flatMap fun j => leBytes (mfSize mf) (tileOut mf sat (tileGet t (j / 64) (j % 64)))

/-- TILE_COMMAND_EXECUTE (R228): MZERO, MLD or MST at the head of the queue. -/
def execTileCommandExecute (core : Fin 384) (arr : Fin 2) (s : State) : Out :=
  let y := arrayOf s core arr
  .next <|
    match y.queue with
    | c :: _ =>
      match c.op with
      | .zero t => popCmd (nameTile (setTile s core t []) c.unit core t) core arr
      | .load t mf base =>
        let z := mfSize mf
        let x : Tile := (List.range 4096).map fun j =>
          tileIn mf (leNat ((List.range z).map fun i => winGet s c.unit (base + z * j + i)))
        popCmd (nameTile (setTile (cmdReads s core c base (4096 * z)) core t x) c.unit core t) core arr
      | .store t mf sat base =>
        let s0 := tileHazard s c core t
        match winBytes s c.unit 0 base (4096 * mfSize mf) with
        | none => popCmd s0 core arr
        | some pas =>
          let as := spadSectors s c.unit base (4096 * mfSize mf)
          let r := writeTimes s0 s.clk.toNat as
          let s1 := writeCells r.2 (pas.zip (tileBytes (tileOf s core t) mf sat))
          let ctx := ((unitOf s c.unit).map (·.ctx)).getD 0
          let s1 := notePerf s1 c.wave 3 c.leader (fun _ => .core core) [(as.map (· / 32), r.1)]
          popCmd (hazardWrite s1 ctx { cls := 8, pos := .core core, wave := c.wave, leader := c.leader } as) core arr
      | _ => s
    | [] => s

/-! ### Fences (R172 to R177) -/

/-- The required scopes of the accesses of a transfer's sector `k` (R171): its scratchpad side, and each element that has an
access. -/
def sectorScopes (s : State) (core : Fin 384) (x : Xfer) (k : Nat) : List Nat :=
  let spad (pos : Nat → Pos) (o : Nat) : List Nat := ((winByte s x.unit x.member o).map fun a => perfScope s core pos [a]).toList
  match x.kind, x.tr with
  | .cpy, some t | .cpys, some t =>
    (match x.spad with
      | some o => spad (copyPos s x) (o + swzOff t.swz.toNat (32 * k))
      | none => spad (copyPos s x) (x.queue.getD 0)) ++
    ((sectorElems t.size k).filterMap fun j => (elemAddr t x.crd j).bind fun g =>
      match engineChk s (xferAcc x x.hyp) (if x.kind = .cpy then .load else .store) g t.size with
      | .ok l => some (perfScope s core (copyPos s x) l.pas)
      | .error (.recov _) => some 5
      | .error (.trap _) => none)
  | .gath, _ | .scat, _ =>
    (sectorLanes x k).flatMap fun l =>
      let at_ (y : Option Loc) : List Nat := spad (fun _ => gatherPos s x y) (x.spad.getD 0 + 32 * k)
      match engineChk s (xferAcc x l.hyp) (if x.kind = .gath then .load else .store) l.addr x.esz with
      | .ok y => at_ (some y) ++ [perfScope s core (fun _ => gatherPos s x (some y)) y.pas]
      | .error (.recov _) => [5]
      | .error (.trap _) => at_ none
  | _, _ => []

/-- In the place of a sector's number: the follow-on issue of a copy (R170). -/
def followMark : Nat := 2 ^ 32

/-- The sectors of the issuing wave's earlier transfers a FENCEX waits for (R172, R174): those with an access in its
before-set of a scope no higher than its own (log 59: DESIGN CHOICE), and, at its core, a copy's follow-on issue. A word of
its own chain is not earlier (R350). -/
def fenceXfers (s : State) (e : Mask) (scope : Nat) (before : BitVec 6) : List (Nat × Nat) :=
  (s.xfers.filter fun x => x.wave = s.w.id && x.id < s.w.iss.born && inMask e x.leader && before.getLsbD x.cls).flatMap fun x =>
    ((x.left.filter fun k => (sectorScopes s s.w.core x k).any (· ≤ scope)).map fun k => (x.id, k)) ++
      (if x.thn.isSome && 1 ≤ scope then [(x.id, followMark)] else [])

/-- The MLDSs in flight a FENCEX waits for: those with an element whose home lies within the scope; all their reads are
performed as one (log 59: DESIGN CHOICE). -/
def fenceMlds (s : State) (e : Mask) (scope : Nat) (before : BitVec 6) : List Nat :=
  if !before.getLsbD 3 then []
  else
    ((coreOf s s.w.core).arrays.toList.filterMap (·.mlds)).filterMap fun m =>
      let near : Bool := (List.range 8192).any fun j => match elemAddr m.tr m.crd j with
        | none => false
        | some g => match engineChk s (mldsAcc m) .load g 1 with
          | .ok y => perfScope s s.w.core (enginePos s s.w.core) y.pas ≤ scope
          | .error (.recov _) => 5 ≤ scope
          | .error (.trap _) => false
      if m.wave = s.w.id && m.id < s.w.iss.born && inMask e m.leader && near then some m.id else none

/-- Is the plane that an array's command `i` streams against sparse: the active one, as the MSWAPs ahead exchange it? -/
def sparseAt (y : ArrayState) (i : Nat) : Bool :=
  let swaps := ((y.queue.take i).filter (·.op = .swap)).length
  if swaps % 2 = 0 then y.active.sp else ((y.mlds.map (·.sp)).getD y.shadow.sp)

/-- The scopes of the scratchpad accesses of an array's command `i`: of a stream fed from a queue, its object and its
slots. -/
def cmdScopes (s : State) (core : Fin 384) (y : ArrayState) (c : Cmd) (i : Nat) : List Nat :=
  let bytes (o n : Nat) : List Nat := (spadSectors s c.unit o n).map fun a => perfScope s core (fun _ => .core core) [a]
  match c.op with
  | .stream fmt rows false b => bytes b (rows * rowBytes (sparseAt y i) fmt)
  | .stream _ _ true b =>
    bytes b 16 ++ match winByte s c.unit 0 b with
      | some a => let q := readQueue s a; bytes q.sbase (32 * q.ssize * q.slots)
      | none => []
  | .load _ mf b | .store _ mf _ b => bytes b (4096 * mfSize mf)
  | _ => []

/-- How many commands of an array's queue must execute before a FENCEX retires: up to its own last access in B. -/
def fenceCmds (s : State) (e : Mask) (scope : Nat) (before : BitVec 6) (arr : Fin 2) : Nat :=
  if !before.getLsbD 3 then 0
  else
    let y := arrayOf s s.w.core arr
    y.queue.zipIdx.foldl (fun n (c, i) =>
      if c.wave = s.w.id && c.id < s.w.iss.born && inMask e c.leader && (cmdScopes s s.w.core y c i).any (· ≤ scope) then i + 1
      else n) 0

/-- Pod accesses a fence at pod scope waits for (R173). -/
def fencePods (s : State) (e : Mask) (scope : Nat) (before : BitVec 6) : List Nat :=
  if scope = 6 && before.getLsbD 0 then
    (s.pods.filter fun p => p.wave = s.w.id && p.id < s.w.iss.born && inMask e p.lane).map (·.id)
  else []

/-- Does a fence of a wave's lanes name a debug record (R172, R197)? An access of the wave for one of the lanes, its pod stores
in class L at pod scope (R173); a peer's or the host's, in class P or H. -/
def Hazard.named (h : Hazard) (w : Wave) (scope : BitVec 3) (before : BitVec 6) (lanes : Mask) : Bool :=
  let own : Bool := h.wave = w.id && inMask lanes h.leader
  ((h.cls &&& before) ≠ 0 && (own || h.cls = 0x10 || h.cls = 0x20)) ||
    (own && h.cls = 0x10 && before.getLsbD 0 && scope = 6)

/-- A FENCEX retires (R172): the core's time passes its accesses', and the debug detector notes it at the records it names
(R197). -/
def fenceDone (s : State) (w : Wave) (scope : BitVec 3) (before after : BitVec 6) (lanes : Mask) : State :=
  let mine := w.perf.filter fun p => before.getLsbD p.cls && inMask lanes p.leader && p.scope ≤ scope.toNat
  let s1 := raiseLt s w.core (mine.foldl (fun t p => max t p.time) 0)
  bump (coverHazards s1 after scope (.core w.core) fun h => h.named w scope before lanes) w.core 22 1

/-- FENCEX's effect (R172): it retires at once if it has nothing to wait for and no cost, else the leaf waits. -/
def fencexOp (s : State) (h : Hdr) (scope : BitVec 3) (before after : BitVec 6) : State :=
  let e := s.w.eff h.gd
  if e = 0 then bump s s.w.core 22 1
  else
    let xs := fenceXfers s e scope.toNat before
    let ms := fenceMlds s e scope.toNat before
    let m0 := fenceCmds s e scope.toNat before 0
    let m1 := fenceCmds s e scope.toNat before 1
    let ps := fencePods s e scope.toNat before
    let c := fencexCost scope before after
    if xs = [] && ms = [] && m0 = 0 && m1 = 0 && ps = [] && c = 0 then fenceDone s s.w scope before after e
    else waitOn s (.fencex xs ms m0 m1 ps (s.clk.toNat + c) scope before after e) 0

/-- FENCEX (R172, R349). -/
def execFencex (h : Hdr) (scope : BitVec 3) (before after : BitVec 6) (s : State) : Out :=
  .next (fencexOp s h scope before after)

/-- FENCE (R173, R347): FENCEX of class L on both sides. -/
def execFence (h : Hdr) (scope : BitVec 3) (s : State) : Out := .next (fencexOp s h scope 1 1)

/-- Is a sector of a transfer, or its follow-on issue, still to be performed? -/
def stillMoving (s : State) (p : Nat × Nat) : Bool :=
  s.xfers.any fun x => x.id = p.1 && if p.2 = followMark then x.thn.isSome else x.left.contains p.2

/-- Is an MLDS still to land? -/
def stillLoading (s : State) (id : Nat) : Bool :=
  s.cores.any fun c => c.arrays.toList.any fun a => match a.mlds with
    | some m => m.id = id
    | none => false

/-- The wait of a wave's leaf, or of its supervisor leaf where the leaf itself does not wait so: the wait, and where it
stands. -/
def waitFor (w : Wave) (n : Fin 4) (p : WaitKind → Bool) : Option (Wait × Option (Fin 4)) :=
  let ok (lf : Leaf) : Option Wait := lf.wait.filter fun x => p x.kind
  match ok w.leaves[n] with
  | some x => some (x, some n)
  | none => (ok w.sup).map fun x => (x, none)

/-- FENCEX_RETIRE (R172): when its accesses have been performed and acknowledged and its cost is spent, the leaf goes on. -/
def execFencexRetire (wave : Nat) (leaf : Fin 4) (s : State) : Out :=
  .next <|
    match waveOf s wave with
    | none => s
    | some w =>
      match waitFor w leaf fun k => match k with
        | .fencex .. => true
        | _ => false with
      | some (⟨.fencex xs ms m0 m1 ps ends scope before after lanes, _, _⟩, at_) =>
        if wave = 0 || xs.any (stillMoving s) || ms.any (stillLoading s) || m0 ≠ 0 || m1 ≠ 0 || ps.any (fun i => s.pods.any fun p => p.id = i) ||
            s.clk.toNat < ends then s
        else
          let s1 := setWave s (w.goOn at_ fun y => y = .fencex xs ms m0 m1 ps ends scope before after lanes)
          fenceDone s1 w scope before after lanes
      | _ => s

end Sys2Proof.Machine
end

