-- ==== Sys2Proof/Machine/System.lean ====
section
/-!
DEFINITION. The system family (spec/02_encoding.md R52, R64 to R67, spec/09 R176, spec/12 R240, R343, spec/11 R232,
spec/19 R326, R335, spec/21 R405, R406, R423, R434 to R437): traps, the return from one, system registers, the discovery
table, pre-emption points, counters and sleep.
-/

namespace Sys2Proof.Machine

/-! ### Traps (R326, R437, R240, R52) -/

/-- The raising leaf goes on at the next word after the trap (R240). -/
def pcPast (s : State) : State :=
  updW s fun w => match w.iss.agent with
    | .leaf n => { w with leaves := w.leaves.set n { w.leaves[n] with pc := w.iss.next } }
    | _ => w

/-- TRAP (R437). -/
def execTrap (h : Hdr) (code : BitVec 7) (s : State) : Out :=
  let e := s.w.eff h.gd
  .next (if e = 0 then s else fault (pcPast s) (0x80 + code.zeroExtend 8) e)

/-- BKPT (R326). -/
def execBkpt (h : Hdr) (code : BitVec 7) (s : State) : Out :=
  let e := s.w.eff h.gd
  .next (if e = 0 then s else fault (pcPast s) 0x0B (code.zeroExtend 32) e)

/-- ERET (R240, R343): with no present lane the wave retires. -/
def execEret (_ch : Bool) (s : State) : Out :=
  .next (if s.w.present = 0 then retireWave s else returnFromTrap s)

/-- UNASSIGNED_OPCODE (R52, R68, R69): illegal instruction, subcode 1 for the opcode, 2 for a function of opcode 0x7D;
%trapinfo2 holds the word and %trapinfo3 the chain's first offset. -/
def execUnassignedOpcode (word : Word) (s : State) : Out :=
  .next (fault s 0x01 (if opOf word = 0x7D then 2 else 1) word s.w.iss.first)

/-! ### The discovery table (R176, R177) -/

/-- How many instances of `size` cores from `lo` on, up to `hi`, hold an enabled core. -/
def enabledIn (s : State) (size lo hi : Nat) : Nat :=
  let m := coreMask s
  ((List.range ((hi - lo) / size)).filter fun i => (List.range size).any fun j => m.getLsbD (lo + size * i + j)).length

/-- The pod's packages. -/
def podSize (s : State) : Nat := ((s.config.map (·.pod1.toNat)).getD 0) + 1

/-- Instances, members and the caller's own instance at a level (R176). -/
def levelWord (s : State) (w : Wave) (j k : Nat) : Nat :=
  let c := w.core.val
  let size := [1, 1, 24, 48, 192, 384]
  let own (n : Nat) : Nat := c / n * n
  match k, j with
  | 0, 0 => 16 * enabledIn s 1 0 384
  | 0, 6 => podSize s
  | 0, _ => enabledIn s (size.getD j 1) 0 384
  | 1, 0 => 8
  | 1, 1 => 16
  | 1, 2 => enabledIn s 1 (own 24) (own 24 + 24)
  | 1, 3 => enabledIn s 24 (own 48) (own 48 + 48)
  | 1, 4 => enabledIn s 48 (own 192) (own 192 + 192)
  | 1, 5 => enabledIn s 192 0 384
  | 1, _ => podSize s
  | 2, 2 => 0x64
  | 2, _ => 0
  | _, 0 => 16 * c + 4 * w.quad.val
  | _, 6 => (s.config.map (·.pkg.toNat)).getD 0
  | _, _ => c / size.getD j 1

/-- Word `i` of the discovery table as the wave reads it (R176). -/
def discovery (s : State) (w : Wave) (i : Nat) : Word :=
  if 296 ≤ i then 0
  else if i = 0 then 0x00010128
  else if i < 4 then 0
  else if i < 32 then BitVec.ofNat 32 (levelWord s w ((i - 4) / 4) ((i - 4) % 4))
  else if i < 284 then
    let p := (i - 32) / 7
    match fenceCost (p / 6) (p % 6) ((i - 32) % 7) with
    | some c => BitVec.ofNat 32 c
    | none => 0xFFFFFFFF
  else (coreMask s).extractLsb' (32 * (i - 284)) 32

/-- %scopeid (R66). -/
def scopeId (s : State) (w : Wave) : Word :=
  let c := w.core.val
  let p := (s.config.map (·.pkg.toNat)).getD 0
  BitVec.ofNat 32 (p * 2 ^ 17 + c / 192 * 2 ^ 16 + c / 48 * 2 ^ 13 + c / 24 * 2 ^ 9 + c)

/-! ### System registers (R65, R435) -/

/-- What SYSR reads. -/
def sysRead (s : State) (w : Wave) (n : Nat) : Word :=
  match n with
  | 0x00 => w.sr.hinge
  | 0x01 => w.sr.patience
  | 0x02 => w.sr.budget
  | 0x03 => w.sr.evcause
  | 0x04 => w.sr.evpc0
  | 0x05 => w.sr.evpc1
  | 0x06 => w.sr.evleaf
  | 0x08 => w.sr.round
  | 0x09 => w.sr.fstat
  | 0x10 => w.sr.wave
  | 0x11 => w.sr.wg
  | 0x12 => w.sr.nbhd
  | 0x13 => BitVec.ofNat 32 w.core
  | 0x14 => scopeId s w
  | 0x15 => discovery s w w.sr.scope.toNat
  | 0x18 => s.clk.setWidth 32
  | 0x19 => BitVec.ofNat 32 (ltOf s w.core)
  | 0x40 => w.sr.ctx
  | 0x41 => w.sr.asid
  | 0x42 => w.sr.trapcause
  | 0x43 => w.sr.trapinfo0
  | 0x44 => w.sr.trapinfo1
  | 0x45 => w.sr.trapinfo2
  | 0x46 => w.sr.trapinfo3
  | _ => 0

/-- SYSR (R435): a read of %scope moves its index on. -/
def execSysr (_ch : Bool) (d : Operand) (num : BitVec 7) (s : State) : Out :=
  let x := sysRead s s.w num.toNat
  let s1 := if num = 0x15 then updW s fun w => { w with sr := { w.sr with scope := w.sr.scope + 1 } } else s
  .next (writeS s1 d x)

/-- A value raised to a least one. -/
def atLeast (x : Word) (n : Word) : Word := if x.toNat < n.toNat then n else x

/-- What SYSW stores (R435). -/
def sysWrite (r : SysRegs) (n : Nat) (x : Word) : SysRegs :=
  match n with
  | 0x00 => { r with hinge := x &&& 0xFFFFFFFC }
  | 0x01 => { r with patience := atLeast x 256 }
  | 0x02 => { r with budget := atLeast (x &&& 0xFFFF) 16 }
  | 0x03 => { r with evcause := if x.getLsbD 31 then r.evcause &&& 0x7FFFFFFF else r.evcause }
  | 0x04 => { r with evpc0 := x }
  | 0x05 => { r with evpc1 := x }
  | 0x06 => { r with evleaf := x &&& 3 }
  | 0x08 => { r with round := x &&& 7 }
  | 0x09 => { r with fstat := x &&& 0x1F }
  | 0x15 => { r with scope := x }
  | 0x40 => { r with ctx := x }
  | 0x41 => { r with asid := x &&& 0x7FF }
  | 0x42 => { r with trapcause := x &&& 0xFF }
  | 0x43 => { r with trapinfo0 := x }
  | 0x44 => { r with trapinfo1 := x }
  | 0x45 => { r with trapinfo2 := x }
  | 0x46 => { r with trapinfo3 := x }
  | _ => r

/-- SYSW (R435). -/
def execSysw (_ch : Bool) (num : BitVec 7) (a : Operand) (s : State) : Out :=
  let x := scalarVal s.w a
  .next (updW s fun w => { w with sr := sysWrite w.sr num.toNat x })

/-! ### PPOINT, CLK, PMON, SLEEP -/

/-- The waves of a member that stand in their program stop issuing; a wave in hinge or supervisor mode goes on to HRET or
ERET first (R98, R238, R242). -/
def stopWaves (s : State) (unit k : Nat) : State :=
  mapWaves s fun w =>
    if w.unit = unit && w.member = k && w.id ≠ 0 && w.res = .resident && w.mode = .program then { w with res := .stopped } else w

/-- A member is to stop: every wave of it, at its next boundary (R232, R242). -/
def stopMember (s : State) (unit k : Nat) (full : Bool) : State :=
  stopWaves (setMember s unit k fun m => { m with stopped := true, full := full }) unit k

/-- PPOINT (R232, R406). -/
def execPpoint (h : Hdr) (lit : Word) (s : State) : Out :=
  let w := s.w
  .next <|
    if w.eff h.gd = 0 || w.task then s
    else
      let s1 := bump (setMember s w.unit w.member fun m => { m with ppoint := lit }) w.core 39 1
      match unitOf s1 w.unit with
      | none => s1
      | some u =>
        let live := ((u.at w.member).map (·.live)).getD false
        if u.preempt.isSome && live && w.mode ≠ .supervisor then stopMember s1 w.unit w.member false else s1

/-- CLK (R335). -/
def execClk (_ch : Bool) (d : Operand) (sel : Bool) (s : State) : Out :=
  let x : DWord := if sel then BitVec.ofNat 64 (ltOf s s.w.core) else s.clk
  .next (updW s fun w => setS (setS w (regNum d) x.loWord) (regNum d + 1) x.hiWord)

/-- Event codes whose counts the spec leaves to the implementation's timing and caches (log 7: DESIGN CHOICE). -/
def freeEvent (c : BitVec 6) : Bool :=
  let n := c.toNat
  (13 ≤ n && n ≤ 19) || n = 30 || n = 31

/-- PMON (R405): CNTi[31:0]; a count of what is open is a free value. -/
def execPmon (_ch : Bool) (d : Operand) (n : Fin 4) (s : State) : Out :=
  let c := coreOf s s.w.core
  let x : Word := if freeEvent (c.ctl[n].extractLsb' 0 6) && c.ctl[n].getLsbD 6 then Config.freeWord s.freeCtr
    else c.cnt[n].setWidth 32
  .next (writeS { s with freeCtr := s.freeCtr + 1 } d x)

/-- SLEEP (R423). -/
def execSleep (_ch : Bool) (a : Operand) (s : State) : Out :=
  let n := (scalarVal s.w a).toNat
  .next (if n = 0 then s else waitOn s (.sleep (s.clk.toNat + n)) 0)

end Sys2Proof.Machine
end

