-- ==== Sys2Proof/Machine/Turn.lean ====
section
/-!
DEFINITION. A wave's turns (spec/03_execution.md R74 to R83, spec/04_hinges.md R94 to R108): readiness, the checks of a
turn, event delivery, patience and the override, traps at a boundary, and the steps that end a wait or a unit.
-/

namespace Sys2Proof.Machine

/-! ### Which wave, which leaf (R76, R83) -/

/-- Make a wave the issuing one; the idle record (id 0) is not kept. -/
def focus (s : State) (id : Nat) : State :=
  if s.w.id = id then s
  else
    match s.others.find? fun x => x.id = id with
    | none => s
    | some w =>
      let rest := s.others.filter fun x => x.id ≠ id
      { s with w := w, others := if s.w.id = 0 then rest else s.w :: rest }

/-- A leaf is ready: live, with lanes, not waiting and not suspended (R76). -/
def Leaf.ready (lf : Leaf) : Bool := !lf.held && lf.mask ≠ 0 && lf.wait.isNone && lf.pend.isNone

/-- The leaf the rotation offers: the first ready one after the pointer (R76). -/
def Wave.rotation (w : Wave) : Option (Fin 4) :=
  ([1, 2, 3, 4].map fun i => (BitVec.ofNat 2 (w.rot.val + i)).toFin).find? fun n => w.leaves[n].ready

/-- Does a leaf that the override has placed lack a pending event but a resume, which is held for its own lanes and does not
suspend the lanes placed (R105)? -/
def Leaf.unsuspended (lf : Leaf) : Bool := lf.pend.all fun e => e.cause = 5

/-- May leaf 3 issue after a placement by the override: it holds live lanes and does not wait (R92, R105)? -/
def Wave.overrideReady (w : Wave) : Bool :=
  let lf := w.leaves[(3 : Fin 4)]
  w.override && !lf.held && lf.mask ≠ 0 && lf.wait.isNone && lf.unsuspended

/-- The leaf whose turn is next: leaf 3 after a placement by the override (R92), else the rotation's. -/
def Wave.offered (w : Wave) : Option (Fin 4) := if w.overrideReady then some 3 else w.rotation

/-- The earliest-raised pending event and its slot, `none` for the starve slot (R97). -/
def Wave.earliest (w : Wave) : Option (Option (Fin 4) × Event) :=
  let all := ((List.finRange 4).filterMap fun n => w.leaves[n].pend.map fun e => (some n, e)) ++
    (w.starve.toList.map fun e => (none, e))
  all.foldl (fun b x => match b with
    | none => some x
    | some y => if x.2.order < y.2.order then some x else some y) none

/-- The lanes stage 2 of the override places: starved twice over, or the rest of a sequence of R104 (R104, R105). -/
def Wave.overrideMask (w : Wave) : Mask :=
  countingLanes w &&& (w.seq104 ||| maskWhere fun l => 2 * w.sr.patience.toNat ≤ w.park[l].toNat)

/-- Is a placement by the override due? -/
def Wave.overrideDue (w : Wave) : Bool := w.mode = .program && !w.override && w.overrideMask ≠ 0

/-- Has a resident wave something to issue, hinge work to do (R83), or a held access to make (R158)? -/
def Wave.ready (w : Wave) : Bool :=
  w.id ≠ 0 && ((w.res ≠ .out && w.held.any (·.ready)) || (w.res = .resident && match w.mode with
    | .supervisor => w.sup.wait.isNone
    | .hinge => w.hwait.isNone
    | .program => w.offered.isSome || !w.pending.isEmpty || w.overrideDue || w.earliest.isSome))

/-! ### Cycles of the package (R311, R467) -/

/-- The event of a wait whose cycles a core's counters count (R311): FENCEX, LWAIT, queues and ports, WAITC. -/
def waitCode : WaitKind → Option (BitVec 6)
  | .fencex .. => some 23
  | .latch => some 24
  | .queue => some 25
  | .monitor => some 26
  | _ => none

/-- The waiting leaves of a core whose wait a code counts. -/
def leavesWaiting (s : State) (n : Fin 384) (code : BitVec 6) : Nat :=
  ((allWaves s).filter fun w => w.core = n && w.res = .resident).foldl (fun k w => k + ((w.sup :: w.leaves.toList).filter fun lf =>
    lf.wait.any fun x => waitCode x.kind = some code).length) 0

/-- How many times a counter rises per cycle: once for CCLK itself, once for each leaf waiting as its code says. -/
def perCycle (s : State) (n : Fin 384) (ctl : BitVec 7) : Nat :=
  let code := ctl.extractLsb' 0 6
  if !ctl.getLsbD 6 then 0 else if code = 0 then 1 else if 23 ≤ code.toNat && code.toNat ≤ 26 then leavesWaiting s n code else 0

/-- The counters that count cycles rise by `d` cycles (R311). -/
def countCycles (s : State) (d : DWord) : State :=
  let up (c : Core) (i : Fin 4) : BitVec 48 := c.cnt[i] + BitVec.ofNat 48 (perCycle s c.n c.ctl[i]) * d.setWidth 48
  if s.cores.all fun c => (List.finRange 4).all fun i => perCycle s c.n c.ctl[i] = 0 then s
  else { s with cores := s.cores.map fun c => { c with cnt := Vector.ofFn (up c) } }

/-- The package's cycle count goes on by `d` cycles. -/
def passCycles (s : State) (d : DWord) : State :=
  let s1 := countCycles s d
  { s1 with clk := s.clk + d }

/-- The cycles a step of a wave costs pass. -/
def tick (s : State) (cost : Nat) : State := passCycles s (BitVec.ofNat 64 cost)

/-- Cycles pass that the spec leaves open (R467, log 3: DESIGN CHOICE). -/
def drift (s : State) : State :=
  passCycles { s with freeCtr := s.freeCtr + 1 } ((Config.freeWord s.freeCtr).zeroExtend 64)

/-! ### The checks of a turn (R88, R95) -/

/-- The loop-back check (R88, R390), repeated after a pop: the stack and the leaf's PC after it, and whether it failed at
the entry then on top. -/
def loopBack (present mask : Mask) : List LoopEntry → Word → List LoopEntry × Word × Bool
  | [], pc => ([], pc, false)
  | e :: t, pc =>
    if pc ≠ e.finish + 4 then (e :: t, pc, false)
    else if mask ≠ e.mask &&& present then (e :: t, pc, true)
    else if e.count = 1 then loopBack present mask t pc
    else ({ e with count := e.count - 1 } :: t, e.start, false)

/-- The checks a leaf makes at its turn: the wave after them, and whether one of them raised an event (R95). The entries
the loop-back check popped before it failed stay popped. -/
def Wave.turnChecks (w : Wave) (n : Fin 4) : Wave × Bool :=
  let lf := w.leaves[n]
  let skip : Bool := w.override && n = (3 : Fin 4)
  let orphans := maskDiff (lf.mask &&& w.orphan) w.notified
  let ev (c : BitVec 3) (m : Mask) (pc0 pc1 : Word) : Event :=
    { cause := c, mask := m, k14 := m, pc0 := pc0, pc1 := pc1, leaf := n }
  if !skip && orphans ≠ 0 then (w.raiseLeaf n (ev 6 orphans lf.pc 0), true)
  else if !skip && lf.join.toNat % 4 = 0 && lf.pc = lf.join then (w.raiseLeaf n (ev 3 lf.mask lf.pc lf.join), true)
  else
    let r := loopBack w.present lf.mask w.loops lf.pc
    let w1 : Wave := { w with loops := r.1 }
    if r.2.2 then (w1.raiseLeaf n (ev 3 lf.mask lf.pc 0xFFFFFFFF), true)
    else ({ w1 with leaves := w1.leaves.set n { lf with pc := r.2.1 } }, false)

/-- Leaves that have lost every lane wait no more, and their monitors go. -/
def dropEmptyWaits (s : State) (w : Wave) : State :=
  let gone (n : Fin 4) : Bool := w.leaves[n].mask = 0 && w.leaves[n].wait.isSome
  if (List.finRange 4).any gone then
    let calm (n : Fin 4) : Leaf :=
      if gone n then { w.leaves[n] with wait := none, bound := none } else w.leaves[n]
    let lost (m : Monitor) : Bool := m.wave = w.id && match m.leaf with
      | some n => gone n
      | none => false
    let s' := setWave s { w with leaves := Vector.ofFn calm }
    dropMonitors s' lost
  else setWave s w

/-! ### Delivery (R97) -/

/-- The wave after delivery of an event from a slot. -/
def Wave.delivered (w : Wave) (slot : Option (Fin 4)) (e : Event) : Wave :=
  let m := e.mask &&& w.present
  let kept : Bool := e.cause = 1 || e.cause = 2
  let w1 := { w with lpc := setLanes w.lpc m fun l => if kept then w.lpc[l] else laneOffset w l }.removeLanes m
  let w2 := if e.cause = 4 then w1 else w1.unpark m
  let w3 : Wave := match slot with
    | none => { w2 with starve := none, seq104 := if e.at104 then e.mask else w2.seq104, at104 := e.at104 }
    | some n => { w2 with leaves := w2.leaves.set n { w2.leaves[n] with pend := none }, at104 := false }
  let lf := w3.leaves[e.leaf]
  let w4 : Wave := if e.cause = 3 then { w3 with leaves := w3.leaves.set e.leaf { lf with join := 0xFFFFFFFF } } else w3
  let w5 : Wave := { w4 with
    r := { w4.r with k := (w4.r.k.set 14 e.k14).set 15 e.k15 }
    sr := { w4.sr with evpc0 := e.pc0, evpc1 := e.pc1, evleaf := e.leaf.val,
                       evcause := (w4.sr.evcause &&& 0x80000000) ||| e.cause.zeroExtend 32 }
    notified := if e.cause = 6 then w4.notified ||| m else w4.notified
    rot := e.leaf, mode := .hinge, hpc := w4.sr.hinge, hcount := 0, hwait := none, hcounts := countingLanes w4 }
  match slot with
  | some n => w5.postResumes n
  | none => w5

/-- Deliver an event of the issuing wave: 4 wave issue cycles (R78, R97). -/
def deliver (s : State) (slot : Option (Fin 4)) (e : Event) : State :=
  let w := s.w.delivered slot e
  let w := if replaying s w then
    { w with sig := crcWords w.sig [e.cause.zeroExtend 32, e.mask, e.pc0, e.pc1] } else w
  let s1 := dropEmptyWaits s (w.cyclesN 4)
  let s2 := bump (bump s1 w.core 10 1) w.core 1 4
  if e.cause = 6 then bump s2 w.core 37 1 else s2

/-- Deliver the earliest pending event of the issuing wave, if there is one (log 38: DEDUCED). -/
def deliverNext (s : State) : State :=
  match s.w.earliest with
  | some (slot, e) => deliver s slot e
  | none => s

/-! ### The override (R104, R105) -/

/-- Place one PC group of the lanes the override brings forward into leaf 3. -/
def placeOverride (s : State) : State :=
  let m := s.w.overrideMask
  if m = 0 then s
  else
    let pc := leastOffset s.w m
    let g := maskWhere fun l => inMask m l && laneOffset s.w l = pc
    let w0 := s.w
    let held : Wave := { w0 with
      lpc := setLanes w0.lpc g fun _ => pc
      leaves := Vector.ofFn fun n =>
        if w0.leaves[n].held then { w0.leaves[n] with mask := maskDiff w0.leaves[n].mask g } else w0.leaves[n] }
    let s1 := dropEmptyWaits s held
    let l3 := s1.w.leaves[(3 : Fin 4)]
    let joins : Bool := !l3.held && l3.mask ≠ 0 && l3.pc = pc && !l3.waiting && l3.pend.isNone
    let s2 := if joins then
        updW s1 fun w => { w with leaves := w.leaves.set 3 { l3 with mask := l3.mask ||| g } }
      else placeLeaf s1 3 g pc false
    let s3 := updW s2 fun w => { w.unpark g with
      seq104 := maskDiff w.seq104 g, override := true
      sr := { w.sr with evcause := w.sr.evcause ||| 0x80000000 } }
    bump s3 s3.w.core 12 1

/-! ### Traps at a boundary (R237) -/

/-- Take the earliest imprecise fault. -/
def takePending (s : State) : State :=
  match s.w.pending with
  | [] => s
  | f :: t => bump (takeFault (updW s fun w => { w with pending := t }) f) s.w.core 21 1

/-! ### The rows of a wave -/

/-- Act on a wave, named by the model's number for it; a wave that is not there leaves the state as it is. -/
def onWave (s : State) (id : Nat) (f : State → State) : State :=
  if id = 0 || (waveOf s id).isNone then s else f (focus s id)

/-- Is nothing due ahead of the next leaf's turn (R237): no imprecise fault, no placement by the override, and no delivery,
unless a placement has leaf 3 still to issue (R92)? -/
def Wave.turnFree (w : Wave) : Bool := w.pending.isEmpty && !w.overrideDue && (w.earliest.isNone || w.override)

/-- LEAF_TURN (R95): the checks of the leaf whose turn it is before it issues; an event one of them raises is delivered in
that cycle. Imprecise faults, a placement and deliveries go first (R237). -/
def execLeafTurn (wave : Nat) (leaf : Fin 4) (s : State) : Out :=
  .next (onWave s wave fun s =>
    let w := s.w
    if w.mode ≠ .program || w.res ≠ .resident || w.offered ≠ some leaf || !w.turnFree then s
    else
      let r := w.turnChecks leaf
      let s1 := { s with w := r.1 }
      if r.2 && (!w.override || leaf = 3) then deliverNext s1 else s1)

/-- EVENT_DELIVERY (R97): after imprecise faults and a placement (R92, R237). -/
def execEventDelivery (wave : Nat) (s : State) : Out :=
  .next (onWave s wave fun s =>
    if s.w.mode = .program && s.w.res = .resident && !s.w.override && s.w.pending.isEmpty && !s.w.overrideDue then deliverNext s
    else s)

/-- STARVE_STAGE1 (R103). -/
def execStarveStage1 (wave : Nat) (s : State) : Out := .next (onWave s wave fun s => updW s Wave.stage1)

/-- STARVATION_OVERRIDE (R105): after imprecise faults (R237). -/
def execStarvationOverride (wave : Nat) (s : State) : Out :=
  .next (onWave s wave fun s => if s.w.overrideDue && s.w.res = .resident && s.w.pending.isEmpty then placeOverride s else s)

/-- The condition of an idle issue cycle: lanes count while every non-empty live leaf waits and no event is pending
(R103). -/
def Wave.idles (w : Wave) : Bool :=
  w.mode = .program && w.res = .resident && countingLanes w ≠ 0 && w.earliest.isNone &&
    (List.finRange 4).all fun n => w.leaves[n].held || w.leaves[n].mask = 0 || w.leaves[n].waiting

/-- IDLE_ISSUE_CYCLE (R103): one wave issue cycle is charged for 32 CCLK. -/
def execIdleIssueCycle (wave : Nat) (s : State) : Out :=
  .next (onWave s wave fun s =>
    if s.w.idles then bump (updW s fun w => { w.cycle w.counts with idle := w.idle - 32 }) s.w.core 1 1 else s)

/-- WAVE_AGED (R83): a ready wave whose wait counter has reached 32 issues next. -/
def execWaveAged (wave : Nat) (s : State) : Out :=
  .next (onWave s wave fun s' => if 32 ≤ s'.w.waitCtr && s'.w.ready then s' else s)

/-- TRAP_ENTRY (R237, R238): at a boundary outside hinge and supervisor mode, the wave's earliest imprecise fault. -/
def execTrapEntry (wave : Nat) (s : State) : Out :=
  .next (onWave s wave fun s => if s.w.mode = .program && s.w.res = .resident then takePending s else s)

/-- REGISTER_FILE_ECC_ERROR (R241): the wave stops and its context ends; the trap handler does not run. -/
def execRegisterFileEccError (wave : Nat) (s : State) : Out :=
  .next (match waveOf s wave with
    | some w => if wave = 0 then s else endContext s w.ctx 0x21 0 w.core
    | none => s)

/-! ### Ends of waits -/

/-- Change the leaf of a wave a wait stands at: a numbered one, or the supervisor's. -/
def Wave.mapLeaf (w : Wave) (at_ : Option (Fin 4)) (f : Leaf → Leaf) : Wave :=
  match at_ with
  | some n => { w with leaves := w.leaves.set n (f w.leaves[n]) }
  | none => { w with sup := f w.sup }

/-- A leaf issues its word again (R77). -/
def Wave.again (w : Wave) (at_ : Option (Fin 4)) : Wave := w.mapLeaf at_ fun lf => { lf with wait := none }

/-- Remove the monitors of a wave's leaf. -/
def leafMonitorsGone (s : State) (wave : Nat) (at_ : Option (Fin 4)) : State :=
  dropMonitors s fun m => m.wave = wave && m.leaf = at_

/-- A wave after a wait of one of its leaves has ended or a leaf has lost lanes: R104 is looked at again. -/
def setStarved (s : State) (w : Wave) : State := setWave s w.checkStarved

/-- Has a write met the monitor of a wave's leaf, or its class (R182, R183)? -/
def mayWake (s : State) (wave : Nat) (at_ : Option (Fin 4)) : Bool :=
  s.monitors.any fun m => m.wave = wave && m.leaf = at_ && m.woken

/-- Is the leaf's woken monitor held by its line's class (R183)? -/
def wokenCoarse (s : State) (wave : Nat) (at_ : Option (Fin 4)) : Bool :=
  s.monitors.any fun m => m.wave = wave && m.leaf = at_ && m.woken && m.coarse

/-- The time of the write that met a leaf's monitor (R464). -/
def wokenTime (s : State) (wave : Nat) (at_ : Option (Fin 4)) : Nat :=
  ((s.monitors.filter fun m => m.wave = wave && m.leaf = at_ && m.woken).map (·.at_)).foldl max 0

/-- A wave's last performed access is no earlier than `t` (R166). -/
def Wave.notBefore (w : Wave) (t : Nat) : Wave := { w with lastTime := BitVec.ofNat 64 (max w.lastTime.toNat t) }

/-- End a monitored wait: its monitor goes, and the leaf goes on as `f` says. Of a WAITC the core's time, and with it the
wave's, rises to that of the write that woke it (R182, R464). -/
def wakeup (s : State) (wave : Nat) (leaf : Fin 4) (p : WaitKind → Bool) (f : Wave → Option (Fin 4) → Wave) : State :=
  match waveOf s wave with
  | none => s
  | some w =>
    match waitFor w leaf p with
    | none => s
    | some (x, at_) =>
      if wave = 0 || !mayWake s wave at_ then s
      else
        let t := wokenTime s wave at_
        let s1 := if wokenCoarse s wave at_ then bump s w.core 27 1 else s
        let w1 := if x.kind = .monitor then (f w at_).notBefore t else f w at_
        let s2 := setStarved (leafMonitorsGone s1 wave at_) w1
        if x.kind = .monitor then raiseLt s2 w.core t else s2

/-- LWAIT_WAKEUP (R208). -/
def execLwaitWakeup (wave : Nat) (leaf : Fin 4) (s : State) : Out :=
  .next (wakeup s wave leaf (fun k => k = .latch) Wave.again)

/-- MONITOR_WAKEUP (R182): no second compare; the leaf goes on. -/
def execMonitorWakeup (wave : Nat) (leaf : Fin 4) (s : State) : Out :=
  .next (wakeup s wave leaf (fun k => k = .monitor) fun w at_ => w.goOn at_ fun k => k = .monitor)

/-- QUEUE_WAITER_RETRY (R411). -/
def execQueueWaiterRetry (wave : Nat) (leaf : Fin 4) (s : State) : Out :=
  .next (wakeup s wave leaf (fun k => k = .queue) Wave.again)

/-- A TRET's remaining arrivals and enqueues, or a SPAWN's enqueue, go on (R424, R468); after the last a TRET's lanes
become absent, and a leaf they leave lanes in goes on at the next word. -/
def resumeTret (s : State) (m : Mask) (todo : List JoinWork) (x : Wait) (at_ : Option (Fin 4)) : State :=
  let word := match at_ with
    | some n => s.w.leaves[n].pc
    | none => s.w.sup.pc
  let calm (s : State) (next : Word) : State := updW s fun w => w.mapLeaf at_ fun lf => { lf with pc := next, wait := none }
  match doWork s (workBound s todo) todo with
  | .done s1 =>
    let s2 := if m = 0 then s1 else exitFrom s1 m word
    if s2.w.id ≠ s.w.id then s2 else updW (calm s2 x.next) Wave.checkStarved
  | .wait s1 rest => updW s1 fun w => w.mapLeaf at_ fun lf => { lf with wait := some { x with kind := .tret m rest } }
  | .failed s1 c i0 g =>
    let s2 := takeFault (calm s1 word) ⟨c, i0, word, g.loWord, g.hiWord⟩
    if s2.w.id ≠ s.w.id then s2 else tick (bump s2 s2.w.core 21 1) 12
  | .poison s1 => poisonEnd s1

/-- SPAWN_RING_RESUME (R292, R424, R468): the ring has room again; a TRET, or a SPAWN whose count has grown, goes on with
what it still has to bring about. -/
def execSpawnRingResume (wave : Nat) (leaf : Fin 4) (s : State) : Out :=
  .next (onWave s wave fun s =>
    let w := s.w
    match waitFor w leaf fun k => match k with
      | .spawn | .tret .. => true
      | _ => false with
    | some (⟨.tret m todo, nx, a⟩, at_) =>
      if w.mode ≠ (if at_.isSome then Mode.program else .supervisor) then s
      else updIss (resumeTret s m todo ⟨.tret m todo, nx, a⟩ at_) fun _ => {}
    | some (_, at_) => if ringFull s (chipOf w.core) w.ctx then s else { s with w := (w.again at_).checkStarved }
    | none => s)

/-- SLEEP_EXPIRY (R423). -/
def execSleepExpiry (wave : Nat) (leaf : Fin 4) (s : State) : Out :=
  let asleep (k : WaitKind) : Bool := match k with
    | .sleep _ => true
    | _ => false
  .next (match waveOf s wave with
    | none => s
    | some w =>
      match waitFor w leaf asleep with
      | some (⟨.sleep ends, _, _⟩, at_) =>
        setWave s (if wave = 0 || s.clk.toNat < ends then w else w.goOn at_ asleep)
      | _ => s)

/-- A word that waits whole at step 9 of R158. -/
def heldAtMov (k : WaitKind) : Bool :=
  match k with
  | .mov .. => true
  | _ => false

/-- Accesses of a wave held at step 9 start their checks again: those `p` holds of. -/
def Wave.releaseHeld (w : Wave) (p : Held → Bool) : Wave :=
  { w with held := w.held.map fun h => if p h then { h with ready := true } else h }

/-- Is a held access an atomic? -/
def Held.atomic (h : Held) : Bool :=
  match h.i with
  | .atom .. | .atomr .. => true
  | _ => false

/-- Lanes are fault-parked at a word of leaf n, with reason MOV (R106, R158). -/
def Wave.parkMov (w : Wave) (n : Fin 4) (pc : Word) (m : Mask) : Wave :=
  let m := m &&& w.present
  { w with
    lpc := setLanes w.lpc m fun _ => pc
    reason := setLanes w.reason m fun _ => 2
    faultLf := setLanes w.faultLf m fun _ => n
    fparked := w.fparked ||| m }.removeLanes m

/-- The held accesses of a leaf whose 256 CCLK have gone by (R158 step 9): their lanes under exchange fault-park at their
words, and the access is made for the rest. -/
def expireHeld (s : State) (leaf : Fin 4) : State :=
  let late (h : Held) : Bool := h.leaf = leaf && !h.ready && h.since + 256 ≤ s.clk.toNat
  let left (h : Held) : Option Held :=
    let rest := maskDiff h.lanes h.moving
    if !late h then some h else if rest = 0 then none else some { h with lanes := rest, moving := 0, ready := true }
  (s.w.held.filter late).foldl (fun s h =>
    let s1 := updW s fun w => (w.parkMov h.leaf h.pc h.moving).unscored
    askService (bump s1 s1.w.core 20 1) h.moving 2)
    (updW s fun w => { w with held := w.held.filterMap left })

/-- A handler's word at step 9 of R158 whose 256 CCLK have gone by asks for service of the wave (R98). -/
def expireHandler (s : State) : State :=
  match s.w.hwait with
  | some ⟨.mov _ since, nx, _⟩ =>
    if s.clk.toNat < since + 256 then s
    else askForWave (bump (updW s fun w => { w with hwait := some ⟨.service, nx, 0⟩ }) s.w.core 20 1) s.w.id 2
  | _ => s

/-- MOV_WAIT_TIMEOUT (R158): 256 CCLK have gone by; the lanes fault-park with reason 0x19, and the rest of a leaf that
waited whole issues the word again; a handler's word waits for service (R98), and a supervisor's (log 20: DEDUCED). -/
def execMovWaitTimeout (wave : Nat) (leaf : Fin 4) (s : State) : Out :=
  .next (onWave s wave fun s0 =>
    let s := expireHandler (expireHeld s0 leaf)
    let w := s.w
    let s1 := match waitFor w leaf heldAtMov with
      | some (⟨.mov m since, nx, _⟩, at_) =>
        if s.clk.toNat < since + 256 then s
        else
          match at_ with
          | some n =>
            askService (bump { s with w := (w.parkMov n w.leaves[n].pc (m &&& w.leaves[n].mask)).again at_ } w.core 20 1) m 2
          | none =>
            let w' := w.mapLeaf none fun lf => { lf with wait := some ⟨.service, nx, 0⟩ }
            askForWave (bump { s with w := w' } w.core 20 1) w.id 2
      | _ => s
    updW s1 Wave.checkStarved)

/-- Service has come for lanes of a wave: they are parked, with a resume event of the leaf they faulted from (R106). -/
def Wave.serviced (w : Wave) (m : Mask) : Wave :=
  let m := m &&& w.fparked
  (List.finRange 4).foldl (fun w n =>
    let g := maskWhere fun l => inMask m l && w.faultLf[l] = n
    if g = 0 then w
    else
      match w.leaves[n].pend with
      | some e =>
        if e.cause = 5 then w.raiseResume n g
        else { w with resumes := w.resumes ++ [{ cause := 5, mask := g, k14 := g, pc0 := 0, leaf := n }] }
      | none => w.raiseResume n g) w

/-- A word that waited for service issues again. -/
def Leaf.unserviced (lf : Leaf) : Leaf :=
  match lf.wait with
  | some ⟨.service, _, _⟩ => { lf with wait := none }
  | _ => lf

/-- Peers' accesses that waited for a page are checked again (R306). -/
def retryPods (s : State) : State :=
  { s with podWaits := [], agenda := s.podWaits.map (fun p => .podPeerAccess p.asid p.op p.ofs p.data) ++ s.agenda }

/-- PAGE_FAULT_SERVICE_COMPLETE (R98, R106, R159): requests of the wave that name these lanes, or no lane, are done. -/
def execPageFaultServiceComplete (wave : Nat) (m : Mask) (s : State) : Out :=
  .next (match waveOf s wave with
    | none => retryPods { s with services := s.services.filter fun x => x.wave ≠ wave }
    | some w =>
      if wave = 0 then retryPods { s with services := s.services.filter fun x => x.wave ≠ 0 }
      else
        let open_ := (s.services.map fun x => if x.wave = wave then { x with lanes := maskDiff x.lanes m } else x).filter
          fun x => x.wave ≠ wave || x.lanes ≠ 0
        let w' := { w.serviced m with
          leaves := Vector.ofFn fun n => (w.serviced m).leaves[n].unserviced
          sup := w.sup.unserviced, hwait := none }
        { setWave s w' with services := open_ })

/-! ### The exit of a workgroup (R215, R234) -/

/-- Have a member's waves retired, its pod accesses been performed (R346), its transfers been counted, and its array work
been done? One that had no wave waits for the rest of its neighbourhood (R287). -/
def memberDone (s : State) (u : GangUnit) (k : Nat) (m : Member) : Bool :=
  !m.exited && !u.out && (!m.empty || u.members.all fun x => x.empty || x.exited) &&
    (allWaves s).all (fun w => !(w.unit = u.handle && w.member = k)) &&
    s.xfers.all (fun x => !(x.unit = u.handle && x.member = k)) &&
    s.pods.all (fun x => !(x.unit = u.handle && x.member = k)) &&
    (!m.live || (coreOf s m.core).arrays.toList.all fun a => a.queue.isEmpty && a.mlds.isNone)

/-- A workgroup exits: its allocation and image are zeroed, its arrays return to reset (R215, R234). -/
def exitMember (s : State) (u : GangUnit) (k : Nat) (m : Member) : State :=
  let s1 := zeroMember s u m
  let s2 := if m.live then resetArrays s1 m.core else s1
  setMember s2 u.handle k fun m => { m with exited := true, frames := [], live := false }

/-- WORKGROUP_EXIT (R215): every member that is done exits; with the last, the unit retires and its launch counts it. -/
def execWorkgroupExit (unit : Nat) (s : State) : Out :=
  .next (match unitOf s unit with
    | none => s
    | some u =>
      let s1 := (u.members.zipIdx).foldl (fun s (m, k) => if memberDone s u k m then exitMember s u k m else s) s
      match unitOf s1 unit with
      | none => s1
      | some v =>
        if v.members.all (·.exited) then
          let s1 := haspEvent s1 6 (((s1.slots.find? fun x => x.qcb = v.qcb).map (·.n.val)).getD 0) v.handle v.qcb
          { s1 with
            units := s1.units.filter fun x => x.handle ≠ unit
            launches := s1.launches.map fun l => if some l.id = v.launch then { l with live := l.live - 1 } else l }
        else s1)

end Sys2Proof.Machine
end

