-- ==== Sys2Proof/Machine/Issue.lean ====
section
/-!
DEFINITION. Issue: fetching and checking a chain (spec/02_encoding.md R34 to R37, R70), running it word by word
(spec/03 R77, spec/12 R236), and one cycle of a wave in its program, its hinge handler or its supervisor handler. The
meaning of a word is a parameter, so that Step alone ties the knot.
-/

namespace Sys2Proof.Machine

/-- What a step answers. -/
abbrev Exec := Instr → State → Out

/-! ### Fetch and decode (R34, R35, R70) -/

/-- Why no chain was found: a precise fault, a recoverable page, poisoned code. -/
inductive ChainEnd where
  | fault (f : FaultRec)
  | park (reason : BitVec 2)
  | poison
  deriving DecidableEq, Repr

/-- The word at an offset of the agent's code object; a protection fault names the agent's lowest lane (R159, R235). -/
def fetchWord (s : State) (pc : Word) : Except ChainEnd Word :=
  let g := codeBase s + pc.zeroExtend 64
  let x := s.w.committed (leaderOf s.w.agentMask)
  match resolve s x .fetch g 4 with
  | .error (.trap c) => .error (.fault ⟨c, BitVec.ofNat 32 (leaderOf s.w.agentMask), pc, g.loWord, g.hiWord⟩)
  | .error (.recov r) => .error (.park r)
  | .ok l =>
    if l.pas.any (poisonedAt s) then .error .poison
    else .ok (codeWord s x g l)

/-- A decode fault (R69, R102): a hinge fault names %evcause in hinge mode, another the word and the chain (log 11: DEDUCED). -/
def decodeFault (w : Wave) (cause : BitVec 8) (sub : Nat) (pc word first : Word) : FaultRec :=
  if cause = 0x03 then ⟨cause, BitVec.ofNat 32 sub, pc, if w.mode = .hinge then w.sr.evcause else 0, 0⟩
  else ⟨cause, BitVec.ofNat 32 sub, pc, word, first⟩

/-- Slot of a word in its packet (R34). -/
def slotOf (pc : Word) : Nat := pc.toNat / 4 % 3

/-- Is CH set? -/
def chainBit (w : Word) : Bool := w.getLsbD 31

/-- The words of the chain from an offset on, each checked in order; at most three stand in a packet (R37). -/
def fetchWords (s : State) (first : Word) : Nat → Word → Except ChainEnd (List ChainWord)
  | 0, _ => .ok []
  | n + 1, pc =>
    match fetchWord s pc with
    | .error e => .error e
    | .ok w =>
      match (if trailingCount w = 1 && trailingOk (slotOf pc) w then fetchWord s (pc + 4) else .ok 0) with
      | .error e => .error e
      | .ok t =>
        match checkWord s.w.mode s.w.task (slotOf pc) w t with
        | .error (c, sub) => .error (.fault (decodeFault s.w c sub pc w first))
        | .ok i =>
          let nxt := pc + BitVec.ofNat 32 (4 * wordCount w)
          let c : ChainWord := ⟨pc, w, i, nxt⟩
          match i with
          | .unassignedOpcode _ => .ok [c]
          | _ =>
            if chainBit w && nxt.toNat / 12 = pc.toNat / 12 then
              match fetchWords s first n nxt with
              | .error e => .error e
              | .ok l => .ok (c :: l)
            else .ok [c]

/-- Is a word the step of an unassigned opcode? -/
def isUnassigned (i : Instr) : Bool :=
  match i with
  | .unassignedOpcode _ => true
  | _ => false

/-- The chain rules over the words found (R37); an unassigned word stops the check at itself (R70). -/
def checkChain (w : Wave) (first : Word) (l : List ChainWord) : Except ChainEnd (List ChainWord) :=
  match l.find? fun c => isUnassigned c.i with
  | some c => .ok [c]
  | none =>
    match l.getLast? with
    | none => .ok l
    | some c =>
      if chainBit c.word then .error (.fault (decodeFault w 0x02 1 c.pc c.word first))
      else
        match chainFault l with
        | some (c, sub) => .error (.fault (decodeFault w 0x02 sub c.pc c.word first))
        | none => .ok l

/-- The chain at an offset, fetched, decoded and checked. -/
def fetchChain (s : State) (pc : Word) : Except ChainEnd (List ChainWord) :=
  match fetchWords s pc 3 pc with
  | .error e => .error e
  | .ok l => checkChain s.w pc l

/-! ### Running a chain (R236) -/

/-- The issue record of a chain; one of several words reads its operands as they stand now (R20). -/
def startIssue (s : State) (a : Agent) (pc : Word) (many : Bool) (excl : Mask) : State :=
  updIss s fun _ => { agent := a, pc := pc, first := pc, next := pc, snap := if many then some s.w.snapNow else none
                      excl := excl, born := s.nextId }

/-- The entries that a word's ports pop, in order; none where one of them cannot be popped now. -/
def popWord (s : State) (e : Mask) : List (Fin 4) → Option State
  | [] => some s
  | p :: t =>
    match popPort s e p with
    | .error _ => none
    | .ok (s1, x) => popWord (updIss s1 fun i => { i with popped := i.popped ++ [(i.pc, p, x)] }) e t

/-- The lanes a word reads its ports for: VSEL's guard only selects (R53). -/
def portMask (w : Wave) (c : ChainWord) : Mask :=
  match c.i with
  | .vsel .. => w.eff 0
  | _ => w.eff (gdOf c.word).toFin

/-- A word's ports popped before any word of its chain writes (R20, R42). -/
def popFirst (s : State) (c : ChainWord) : Option State :=
  let s1 := updIss s fun i => { i with pc := c.pc, next := c.nxt }
  let e := portMask s1.w c
  if e = 0 || (portsRead c.i).isEmpty then some s else popWord s1 e (portsRead c.i)

/-- The ports of a chain's words popped, word after word; the words from the first that cannot pop on are given back. -/
def popAll (s : State) : List ChainWord → State × List ChainWord
  | [] => (s, [])
  | c :: t =>
    match popFirst s c with
    | some s1 => popAll s1 t
    | none => (s, c :: t)

/-- A leaf that a word has set waiting stands at that word. -/
def standAt (s : State) (pc : Word) : State :=
  if s.w.agentLeaf.wait.isSome then updW s fun w => w.setAgentLeaf fun lf => { lf with pc := pc } else s

/-- Run words in order; a fault, a wait of the whole word, or the wave's end stops them. -/
def runWords (ex : Exec) : List ChainWord → State → Out
  | [], s => .next s
  | c :: t, s =>
    match ex c.i (updIss s fun i => { i with pc := c.pc, next := c.nxt }) with
    | .next s1 =>
      if s1.w.id ≠ s.w.id || s1.w.iss.fault.isSome || s1.w.iss.redo then .next s1
      else runWords ex t (if s.w.agentLeaf.wait.isSome then s1 else standAt s1 c.pc)
    | o => o

/-- Run the words of a chain: the ports of all are popped first. A word whose port cannot be popped stops the chain as it
would stop alone before the chain began, once the words before it have been checked. -/
def runPopped (ex : Exec) (many : Bool) (cs : List ChainWord) (s : State) : Out :=
  if !many then runWords ex cs s
  else
    match popAll s cs with
    | (s1, []) => runWords ex cs s1
    | (s1, c :: t) =>
      match runWords ex (cs.take (cs.length - (t.length + 1))) s1 with
      | .next s2 => if s2.w.id ≠ s.w.id || s2.w.iss.fault.isSome || s2.w.iss.redo then .next s2 else runWords ex [c] s1
      | o => o

/-- Has a context ended? -/
def ctxEnded (s : State) (c : Nat) : Option Word := (ctxOf s c).bind (·.ended)

/-- A chain that ended its context: of its words nothing stands but the end. -/
def endOnly (s s2 : State) : State :=
  match ctxEnded s s.w.ctx, ctxEnded s2 s.w.ctx with
  | none, some e => endContext s s.w.ctx (bitsOf e.toNat 15 8) (bitsOf e.toNat 7 0) (bitsOf e.toNat 24 16)
  | _, _ => s2

/-- Does a monitor belong to the wave's leaf that issues? -/
def Monitor.mine (w : Wave) (m : Monitor) : Bool :=
  m.wave = w.id && m.leaf = match w.iss.agent with
    | .leaf n => some n
    | _ => none

/-- A chain that waits whole: of its words the wait stands, with the monitors and the service request it made; what the
words before it did woke no monitor (R462). -/
def waitOnly (s s2 : State) : State :=
  let lf := s2.w.agentLeaf
  let s1 := updW s fun w => w.setAgentLeaf fun x => { x with wait := lf.wait, bound := lf.bound }
  let s2' := (s2.monitors.filter (·.mine s2.w)).foldl (fun s m => putMonitor s { m with woken := false, at_ := 0 }) s1
  let asked := match lf.wait with
    | some ⟨.service, _, _⟩ => (s2.services.drop s.services.length).getLast?.toList
    | _ => []
  updIss { s2' with services := s2'.services ++ asked } fun i => { i with redo := true }

/-- The lanes a chain fault-parked, parked before it runs again. -/
def parkOnly (s s2 : State) : State :=
  let m := s2.w.iss.parked
  let by_ (s : State) (r : BitVec 2) : State := faultPark s (maskWhere fun l => inMask m l && s2.w.reason[l] = r) r
  by_ (by_ (by_ s 1) 2) 3

/-- Run a chain for an agent (R236): a fault undoes it, a recoverable page takes its lanes out of every word, a wait
holds it whole. -/
def runChain (ex : Exec) (a : Agent) (pc : Word) (cs : List ChainWord) : Nat → State → Mask → Out
  | 0, s, _ => .next s
  | k + 1, s, excl =>
    let many : Bool := 2 ≤ cs.length
    let s1 := startIssue s a pc many excl
    match runPopped ex many cs s1 with
    | .next s2 =>
      if !many then .next s2
      else if s2.w.id ≠ s.w.id then .next (endOnly s s2)
      else
        match s2.w.iss.fault with
        | some f => .next (if s2.w.iss.keep then s2 else takeFault s1 f)
        | none =>
          if s2.w.iss.redo then .next (waitOnly s1 s2)
          else if s2.w.iss.parked ≠ 0 then
            let s3 := parkOnly s1 s2
            if s3.w.agentMask = 0 then .next s3 else runChain ex a pc cs k s3 (excl ||| s2.w.iss.parked)
          else .next s2
    | o => o

/-- Count a chain's words on a core's monitors (R311). -/
def countWords (s : State) (n : Fin 384) (cs : List ChainWord) : State :=
  let code (c : ChainWord) : Option (BitVec 6) := match pipeOf (opOf c.word) with
    | .s => some 4
    | .v => some 5
    | .k => some 6
    | .m => some 7
    | .e => some 8
    | .b => some 9
    | .alone => none
  let s1 := bump (bump s n 2 1) n 3 cs.length
  cs.foldl (fun s c => match code c with
    | some x => bump s n x 1
    | none => s) s1

/-! ### The scoreboard (R38, R158) -/

/-- Registers of a wave with a pending write: the destinations of its held accesses and of its HYPNEWs and
HYPQs in flight. -/
def pendingRegs (s : State) : List Reg :=
  (s.w.held.flatMap fun h => writesOf h.i) ++
    ((ctxOf s s.w.ctx).toList.flatMap fun c => c.reqs.filterMap fun r => match r.op with
      | .new d | .query d _ => if r.wave = s.w.id then some (Reg.s d.val) else none
      | _ => none)

/-- Is a word an access of the lane path, ordered with it, or one that lanes leave by: it stays behind a held access of its
wave (R158, R166; log 56: DESIGN CHOICE)? -/
def behindHeld (i : Instr) : Bool :=
  match i with
  | .ld .. | .st .. | .atom .. | .atomr .. | .waitc .. | .fence .. | .fencex .. | .linit .. | .larv .. | .lexp ..
  | .lwait .. | .qinit .. | .qacq .. | .qpub .. | .qtake .. | .qrel .. | .qbind .. | .tret .. | .spawn .. | .exit .. => true
  | i => !(portsRead i).isEmpty || (portWritten i).isSome

/-- Does the scoreboard hold a chain back? -/
def scoreHolds (s : State) (cs : List ChainWord) : Bool :=
  let rs := pendingRegs s
  cs.any fun c => (!s.w.held.isEmpty && behindHeld c.i) ||
    (!rs.isEmpty && (writesOf c.i ++ readsOf c.i).any fun r => rs.contains r)

/-- The chain an agent is to issue: fetched, checked, passed by the scoreboard, and run. -/
def issueAt (ex : Exec) (s : State) (a : Agent) (pc : Word) : Out :=
  let s1 := startIssue s a pc false 0
  match fetchChain s1 pc with
  | .ok cs =>
    if scoreHolds s1 cs then .next (waitRedo s1 .score 0)
    else
      match runChain ex a pc cs 33 s1 0 with
      | .next s2 => .next (if s2.w.iss.redo || s2.w.iss.fault.isSome then s2 else countWords s2 s.w.core cs)
      | o => o
  | .error (.fault f) => .next (takeFault s1 f)
  | .error .poison => .next (poisonEnd s1)
  | .error (.park r) =>
    .next (if r = 2 then waitRedo s1 (.mov s1.w.agentMask s1.clk.toNat) 0 else faultPark s1 s1.w.agentMask r)

/-! ### Held accesses (R158 step 9) -/

/-- The mode after a held access has been made: a trap it takes leaves the agent's mode to return to. -/
def heldMode (m : Mode) (w : Wave) : Wave :=
  match m with
  | .program => w
  | .hinge => if w.mode = .supervisor then { w with supHinge := true } else { w with mode := .hinge }
  | .supervisor => { w with mode := .supervisor }

/-- The oldest held access whose exchange is over starts its checks again and is made for its lanes alone, with its
operands as they were read; none while a port it pushes has no room, or the link is down; one that fails a check traps, which
costs what a trap costs (R238), or in supervisor mode ends the context (R239; log 56: DESIGN CHOICE). Lanes that a page then
parks may leave the wave starved (R104). -/
def heldCycle (ex : Exec) (s : State) (h : Held) : Option Out :=
  let s1 := updW s fun w => { w with
    held := w.held.erase h, mode := .program
    iss := { agent := .leaf h.leaf, pc := h.pc, first := h.pc, next := h.pc, snap := some h.snap, only := some h.lanes
             born := s.nextId, popped := h.popped } }
  match ex h.i (if h.floor = 0 then s1 else raiseLt s1 s1.w.core (h.floor + 1)) with
  | .next s2 =>
    if s2.w.id ≠ s.w.id then some (.next s2)
    else if s2.w.iss.redo then none
    else if s.w.mode = .supervisor && s2.w.iss.fault.isSome then some (.next (endContext s s.w.ctx 0x0F 0 s.w.core))
    else
      let s3 := updW s2 fun w => { (heldMode s.w.mode w).unscored.checkStarved with iss := {} }
      some (.next (if s2.w.iss.fault.isSome then tick (bump s3 s3.w.core 21 1) 12 else s3))
  | o => some o

/-! ### Going on (R77) -/

/-- A leaf after a chain that ran: it waits, has lost its lanes, or goes on at the next PC. -/
def Leaf.after (lf : Leaf) (next : Word) (always : Bool) : Leaf :=
  match lf.wait with
  | some x => { lf with wait := some { x with next := next } }
  | none => if lf.mask = 0 && lf.pend.isNone && !always then { lf with bound := none } else { lf with pc := next, bound := none }

/-- The agent goes on after its chain. -/
def Wave.goNext (w : Wave) (m : Mode) : Wave :=
  let nx := w.iss.next
  let w1 : Wave := match w.iss.agent with
    | .leaf n => { w with leaves := w.leaves.set n (w.leaves[n].after nx false) }
    | .handler => if w.mode = m then { w with hpc := nx } else w
    | .supervisor => if w.mode = m then { w with sup := w.sup.after nx true } else w
  { w1 with iss := {} }

/-- The end of a chain: a trap or a wait leaves the agent where it stands. -/
def finishChain (s : State) (m : Mode) : State :=
  if s.w.iss.fault.isSome || s.w.iss.redo then updIss s fun _ => {} else updW s fun w => w.goNext m

/-- Has an issue ended in a trap? -/
def trapped (s : State) : Bool := s.w.iss.fault.isSome

/-- A trap taken: 12 CCLK (R238), in which the cycle of the chain that trapped lies: it is no wave issue cycle of its own
(log 58: DESIGN CHOICE). -/
def trapDone (s : State) : State := tick (bump (finishChain s .supervisor) s.w.core 21 1) 12

/-! ### One cycle of a program (R76, R95, R97, R237) -/

/-- Is a wait one of a chain that has not issued: held back by an array, the scoreboard, or a page under exchange (R38, R84,
R158)? -/
def WaitKind.unissued (k : WaitKind) : Bool :=
  match k with
  | .busy _ | .score | .mov .. => true
  | _ => false

/-- Does the leaf wait for an array, for the scoreboard, or for a page exchange: then nothing issued? -/
def heldBusy (s : State) (n : Fin 4) : Bool := s.w.leaves[n].wait.any fun x => x.kind.unissued

/-- Does every resident wave of a core wait at a monitor (R245)? -/
def coreAtMonitors (s : State) (n : Fin 384) : Bool :=
  let ws := (allWaves s).filter fun w => w.core = n && w.res = .resident
  !ws.isEmpty && ws.all fun w => w.mode = .program && (List.finRange 4).all fun i =>
    w.leaves[i].mask = 0 || match w.leaves[i].wait with
      | some x => x.kind = .monitor || x.kind = .latch
      | none => false

/-- A core that now waits wholly at monitors is reported to the Hasp (R296). -/
def monitorEvent (before after : State) (n : Fin 384) : State :=
  if coreAtMonitors after n && !coreAtMonitors before n then haspEvent after 11 0 n.val 0 else after

/-- Leaf n has had its turn (R76, R92): the rotation pointer moves to it, and a placement by the override is over if it
is leaf 3. -/
def Wave.turned (w : Wave) (n : Fin 4) : Wave := { w with rot := n, override := w.override && n ≠ (3 : Fin 4) }

/-- The cycle in which leaf n's chain has issued: the rotation pointer, the wave issue cycle and R104. A chain of leaf 3 that
ends in a trap has had the override's turn (R92; log 58: DESIGN CHOICE). -/
def leafIssued (s s2 : State) (n : Fin 4) : State :=
  if s2.w.id ≠ s.w.id then tick (bump s2 s.w.core 1 1) 1
  else if trapped s2 then trapDone (updW s2 fun w => w.turned n)
  else
    let s3 := finishChain s2 .program
    if heldBusy s3 n then s3
    else tick (monitorEvent s (bump { s3 with w := ((s3.w.turned n).cycle s.w.counts).checkStarved } s3.w.core 1 1) s3.w.core) 1

/-- The turn of leaf n, its checks first: an event they raise is delivered in this cycle, but while a placement by the
override has leaf 3 still to issue (R92). -/
def leafCycle (ex : Exec) (s : State) (n : Fin 4) : Out :=
  let r := s.w.turnChecks n
  let s1 := { s with w := r.1 }
  if r.2 then
    .next (if s.w.override && n ≠ (3 : Fin 4) then tick s1 1
      else tick (deliverNext (updW s1 fun w => { w with override := false })) 4)
  else
    match issueAt ex s1 (.leaf n) s1.w.leaves[n].pc with
    | .next s2 => .next (leafIssued s1 s2 n)
    | o => o

/-- The chain the next turn would issue, if its checks raise nothing: what issuing it gives. -/
def tryNext (ex : Exec) (s : State) : Option Out :=
  match s.w.offered with
  | none => none
  | some n =>
    let r := s.w.turnChecks n
    if r.2 then none else some (issueAt ex { s with w := r.1 } (.leaf n) r.1.leaves[n].pc)

/-- Does the next chain end in a trap? -/
def nextTraps (ex : Exec) (s : State) : Bool :=
  match tryNext ex s with
  | some (.next s2) => s2.w.id = s.w.id && trapped s2
  | _ => false

/-- Does leaf 3 still have the precedence a placement gave it: it holds lanes, and is ready or held back by a unit (R92)? -/
def Wave.overrideHolds (w : Wave) : Bool :=
  let lf := w.leaves[(3 : Fin 4)]
  !lf.held && lf.mask ≠ 0 && lf.unsuspended && lf.wait.all fun x => x.kind.unissued

/-- The wave with a precedence of leaf 3 that is over dropped. -/
def Wave.freshOverride (w : Wave) : Wave := { w with override := w.override && w.overrideHolds }

/-- Is it the next leaf's turn (R237): nothing is due ahead of it, or the chain it is to issue ends in a precise trap? -/
def turnDue (ex : Exec) (s : State) : Bool := s.w.turnFree || nextTraps ex s

/-- One cycle of a wave in its program (R237): a precise fault of the next chain, an imprecise fault, a placement by the
override, a delivery, else the next leaf's turn. -/
def programCycle (ex : Exec) (s : State) : Out :=
  let s := updW s Wave.freshOverride
  let turn (s : State) : Out := match s.w.offered with
    | some n => leafCycle ex s n
    | none => .next (tick s 1)
  if turnDue ex s then turn s
  else if !s.w.pending.isEmpty then .next (tick (updIss (takePending s) fun _ => {}) 12)
  else if s.w.overrideDue then turn (placeOverride s)
  else .next (tick (deliverNext s) 4)

/-! ### One cycle of a handler (R78, R98, R99, R239) -/

/-- Is a word HRET? -/
def isHret (i : Instr) : Bool :=
  match i with
  | .hret _ => true
  | _ => false

/-- The words of a chain that count toward %budget. -/
def budgetWords (cs : List ChainWord) : Nat := (cs.filter fun c => !isHret c.i).length

/-- The hinge fault of a spent budget (R99, R102). -/
def budgetFault (w : Wave) : FaultRec := ⟨0x03, 3, w.hpc, w.sr.evcause, 0⟩

/-- Would the handler's next chain pass the budget (R99)? -/
def overBudget (s : State) : Bool :=
  match fetchChain (startIssue s .handler s.w.hpc false 0) s.w.hpc with
  | .ok cs => s.w.sr.budget.toNat < s.w.hcount + budgetWords cs
  | .error _ => false

/-- HINGE_BUDGET_EXCEEDED (R99): the next chain does not execute; the hinge fault of subcode 3 is taken. -/
def execHingeBudgetExceeded (wave : Nat) (s : State) : Out :=
  .next (onWave s wave fun s =>
    if s.w.mode = .hinge && s.w.res = .resident && overBudget s then
      bump (updIss (takeFault (startIssue s .handler s.w.hpc false 0) (budgetFault s.w)) fun _ => {}) s.w.core 21 1
    else s)

/-- The words of the handler's next chain that count toward %budget. -/
def nextBudget (s : State) : Nat :=
  match fetchChain (startIssue s .handler s.w.hpc false 0) s.w.hpc with
  | .ok cs => budgetWords cs
  | .error _ => 0

/-- The cycle in which the handler's chain has issued, `n` of its words counting: a wave issue cycle; HRET's three are
counted by HRET itself. HRET is no handler instruction of event code 11 and of histogram source 2 (R311, R312, log 62: DESIGN
CHOICE). -/
def handlerIssued (s s2 : State) (n : Nat) : State :=
  if s2.w.id ≠ s.w.id then tick (bump s2 s.w.core 1 1) 1
  else if trapped s2 then trapDone s2
  else if s2.w.iss.redo then tick (updW (finishChain s2 .hinge) fun w => { w with hcount := s.w.hcount }) 0
  else
    let s3 := finishChain s2 .hinge
    let back : Bool := s3.w.mode = .program
    let s4 := updW s3 fun w => if back then w else w.cycle s.w.counts
    let c := (if n = 0 then 0 else 1) + (if back then 3 else 0)
    tick (bump (bump s4 s4.w.core 1 c) s4.w.core 11 n) c

/-- One cycle of the hinge handler: its chain costs a wave issue cycle, HRET three. -/
def handlerCycle (ex : Exec) (s : State) : Out :=
  if overBudget s then .next (trapDone (takeFault (startIssue s .handler s.w.hpc false 0) (budgetFault s.w)))
  else
    let n := nextBudget s
    match issueAt ex (updW s fun w => { w with hcount := w.hcount + n }) .handler s.w.hpc with
    | .next s2 => .next (handlerIssued s s2 n)
    | o => o

/-- The cycle in which the supervisor handler's chain has issued. -/
def supervisorIssued (s s2 : State) : State :=
  if s2.w.id ≠ s.w.id then tick (bump s2 s.w.core 1 1) 1
  else if s2.w.iss.redo then finishChain s2 .supervisor
  else
    let s3 := finishChain s2 .supervisor
    let back : Bool := s3.w.mode ≠ .supervisor
    let s4 := updW s3 fun w =>
      let w := { w with cycles := w.cycles + 1, waitCtr := 0 }
      if back then w.checkStarved else w
    tick (bump s4 s4.w.core 1 1) (if back then 6 else 1)

/-- One cycle of the supervisor handler: the loop-back check of its own loop stack, which raises nothing there but the
context's end, then its chain (R88, R239, R365; log 57: DEDUCED). -/
def supervisorCycle (ex : Exec) (s : State) : Out :=
  let r := loopBack s.w.present s.w.sup.mask s.w.supLoops s.w.sup.pc
  if r.2.2 then .next (tick (endContext s s.w.ctx 0x0F 0 s.w.core) 1)
  else
    let s1 := updW s fun w => { w with supLoops := r.1, sup := { w.sup with pc := r.2.1 } }
    match issueAt ex s1 .supervisor s1.w.sup.pc with
    | .next s2 => .next (supervisorIssued s1 s2)
    | o => o

/-- May the wave's mode issue now, a held access apart? -/
def Wave.mayIssue (w : Wave) : Bool :=
  match w.mode with
  | .program => true
  | .hinge => w.hwait.isNone
  | .supervisor => w.sup.wait.isNone

/-- One cycle of the issuing wave: a held access that may go on, else its mode's. -/
def waveCycle (ex : Exec) (s : State) : Out :=
  match (s.w.held.find? (·.ready)).bind (heldCycle ex s) with
  | some o => o
  | none =>
    if s.w.res ≠ .resident || !s.w.mayIssue then .next (tick s 1)
    else
      match s.w.mode with
      | .program => programCycle ex s
      | .hinge => handlerCycle ex s
      | .supervisor => supervisorCycle ex s

/-- Does a boundary step the agenda names come too early: the next chain ends in a precise trap first (R237)? -/
def precedesBoundary (ex : Exec) (s : State) : Bool := s.w.mode = .program && s.w.res = .resident && nextTraps ex s

/-! ### The choice of a wave (R83, log 4: DESIGN CHOICE) -/

/-- A wave's quadrant in the package. -/
def Wave.key (w : Wave) : Nat := 4 * w.core.val + w.quad.val

/-- Does `a` go before `b` on their quadrant: aged before others, then the older (R83)? -/
def goesBefore (a b : Wave) : Bool :=
  let ag (w : Wave) : Bool := 32 ≤ w.waitCtr
  if ag a = ag b then a.age < b.age else ag a

/-- The first wave of a list in a quadrant's order. -/
def firstOf (l : List Wave) : Option Wave :=
  l.foldl (fun b w => match b with
    | none => some w
    | some x => if goesBefore w x then some w else some x) none

/-- The wave that issues next: the quadrants of the package take turns (log 4: DESIGN CHOICE). -/
def pickWave (s : State) : Option Wave :=
  let rs := (allWaves s).filter (·.ready)
  let dist (w : Wave) : Nat := (w.key + 1536 - (s.w.key + 1) % 1536) % 1536
  let near := rs.foldl (fun d w => min d (dist w)) 1536
  firstOf (rs.filter fun w => dist w = near)

/-- The ready waves of the quadrant that did not issue have waited the cycles the step of wave `w` cost (R83). -/
def countWaits (w : Wave) (cost : Nat) (before after : State) : State :=
  let waited (id : Nat) : Bool := before.others.any fun x => x.id = id && x.key = w.key && x.ready
  { after with others := after.others.map fun x => if waited x.id then { x with waitCtr := x.waitCtr + cost } else x }

end Sys2Proof.Machine
end

