-- ==== Sys2Proof/Machine/Record.lean ====
section
/-!
DEFINITION. The save records of a switched-out wave and of a workgroup's array state (spec/12_traps.md R243, R244). Where in
supervisor memory they lie is not given: the unit keeps them (log 21: DESIGN CHOICE).
-/

namespace Sys2Proof.Machine

/-- Words, little-endian (R12). -/
def wordBytes (ws : List Word) : List Byte := ws.flatMap fun w => leBytes 4 w.toNat

/-- `n` zero bytes. -/
def zeroBytes (n : Nat) : List Byte := leBytes n 0

/-! ### A wave's save record (R243) -/

/-- A pending event's eight words; eight zeros where there is none (R243). -/
def eventWords : Option Event → List Word
  | none => List.replicate 8 0
  | some e =>
    [e.cause.zeroExtend 32, e.mask, e.k14, e.k15, e.pc0, e.pc1, BitVec.ofNat 32 e.leaf, BitVec.ofNat 32 e.order]

/-- The code of a follow-on slot's state (R243). -/
def FollowState.code : FollowState → Word
  | .empty => 0
  | .parked => 1
  | .armed => 2
  | .fired => 3

/-- A wave's save record, 12,544 bytes; `image` is its scratchpad image's first granule (R243). -/
def saveRecord (w : Wave) (image : Nat) : List Byte :=
  let rg := w.r
  (List.finRange 88).flatMap (fun n => wordBytes rg.v[n].toList) ++ wordBytes rg.s.toList ++
    wordBytes (0 :: rg.k.toList.drop 1) ++ wordBytes rg.h.toList ++
    wordBytes [w.sr.hinge, w.sr.patience, w.sr.budget, w.sr.evcause, w.sr.evpc0, w.sr.evpc1, w.sr.evleaf, w.sr.round,
      w.sr.fstat, w.sr.scope, 0, 0, 0, 0, 0, 0] ++
    wordBytes [BitVec.ofNat 32 (w.rot.val + 4 * w.loops.length), 0, w.lastTime.loWord, w.lastTime.hiWord, 0, 0, 0, 0] ++
    w.leaves.toList.flatMap (fun lf => wordBytes [lf.mask, lf.pc, lf.join, if lf.held then 1 else 0]) ++
    (List.range 4).flatMap (fun i => match w.loops.reverse[i]? with
      | some e => wordBytes [e.start, e.finish, e.count, e.mask]
      | none => zeroBytes 16) ++
    w.leaves.toList.flatMap (fun lf => wordBytes (eventWords lf.pend)) ++ wordBytes (eventWords w.starve) ++
    w.follow.toList.flatMap (fun f => wordBytes [f.st.code, f.word, f.ext, f.a]) ++
    w.ports.toList.flatMap (fun p => leBytes 8 p.toNat) ++
    allLanes.flatMap (fun l => wordBytes [laneOffset w l, laneStatus w l, w.park[l].loWord, w.park[l].hiWord]) ++
    wordBytes [w.sr.wave, w.sr.wg, w.sr.nbhd, w.blk.zeroExtend 32, BitVec.ofNat 32 image, if w.task then 1 else 0] ++
    zeroBytes 40

/-! ### A workgroup's array save record (R244) -/

/-- A tile's 16 KiB, row by row (R244). -/
def tileRecord (t : Tile) : List Byte := (List.range 4096).flatMap fun j => leBytes 4 (t.getD j 0).toNat

/-- A plane's 16 KiB of weights; how its 512 bytes hold format, metadata and scales is not given: free bytes (log 21: DESIGN
CHOICE). -/
def planeRecord (free : Nat) (p : Plane) : List Byte :=
  (List.range 8192).flatMap (fun j => leBytes 2 (p.wts.getD j 0).toNat) ++ (List.range 512).map fun j => Config.freeByte (free + j)

/-- An array's 32 KiB of partials, then their row count (log 21: DESIGN CHOICE). -/
def partialRecord (p : Partials) : List Byte := (List.range 8192).flatMap (fun j => leBytes 4 (p.vals.getD j 0).toNat) ++ leBytes 4 p.rows

/-- The array save record of a member's saved tiles and arrays (R244): the header, the tiles, each array's planes, and for a
full save the partials of the arrays. -/
def arrayRecord (free : Nat) (m : Member) : List Byte :=
  wordBytes [m.ppoint, if m.full then 1 else 0] ++ zeroBytes 56 ++ m.tiles.flatMap (fun x => tileRecord x.2) ++
    (m.arrays.zipIdx.flatMap fun (x, i) => planeRecord (free + 1024 * i) x.2.active ++ planeRecord (free + 1024 * i + 512) x.2.shadow) ++
    (if m.full then m.arrays.flatMap fun x => partialRecord x.2.part else [])

end Sys2Proof.Machine
end

