-- ==== Sys2Proof/Machine/Place.lean ====
section
/-!
DEFINITION. Placement (spec/03_execution.md R79 to R82, R85, spec/08 R145 to R148, spec/16 R284 to R287, R293), switch-out
and restore (spec/11 R232, R233, spec/12 R242 to R244, spec/10 R216).
-/

namespace Sys2Proof.Machine

/-! ### The front end's accesses -/

/-- The command front end as an accessor of a context, on committed memory. Its accesses pass a page with P = 1 (log 61: DESIGN
CHOICE). -/
def frontAcc (ctx : Nat) : Accessor :=
  { ctx := ctx, unit := 0, member := 0, task := false, blk := 0, lpriv := 0, sup := true, hyp := 0 }

/-- Bytes the front end reads at a virtual address. -/
def frontRead (s : State) (ctx : Nat) (g : DWord) (n : Nat) : Except Miss (List Byte) :=
  match engineChk s (frontAcc ctx) .load g n with
  | .ok l => .ok (l.pas.map (physByte s))
  | .error e => .error e

/-- The front end's logical time (R283). -/
def feNow (s : State) : Nat := max s.feTime.toNat s.clk.toNat

/-- What the front end has read takes its times at its homes (R170). -/
def frontSeen (s : State) (ctx : Nat) (g : DWord) (n : Nat) : State :=
  match engineChk s (frontAcc ctx) .load g n with
  | .ok l => (readTimes s (feNow s) l.pas).2
  | .error _ => s

/-! ### Kernel descriptors (R284, R285) -/

/-- A bucket: its entry word offset and LO, HI, PAD of the four shape values. -/
structure Bucket where
  entry : Nat
  lo    : List Nat
  hi    : List Nat
  pad   : List Nat
  deriving DecidableEq, Repr

/-- The bucket in 64 bytes. -/
def bucketOf (bs : List Byte) : Bucket :=
  let w (o : Nat) : Nat := leNat ((bs.drop o).take 4)
  { entry := w 0, lo := (List.range 4).map fun i => w (4 + 12 * i), hi := (List.range 4).map fun i => w (8 + 12 * i)
    pad := (List.range 4).map fun i => w (12 + 12 * i) }

/-- Does a bucket keep R284's rules? -/
def bucketOk (bs : List Byte) : Bool :=
  let b := bucketOf bs
  b.entry < 2 ^ 22 && (bs.drop 0x34).all (· = 0) && (List.range 4).all fun i => b.hi.getD i 0 ≤ b.pad.getD i 0

/-- Does the descriptor's head keep R284's rules? -/
def kernelOk (bs : List Byte) : Bool :=
  let w (o : Nat) : Nat := leNat ((bs.drop o).take 4)
  let d := w 0x10
  w 0 = 1 && 1 ≤ w 4 && w 4 ≤ 16 && leNat ((bs.drop 8).take 8) % 256 = 0 && 1 ≤ bitsOf d 5 0 && bitsOf d 5 0 ≤ 32 &&
    bitsOf d 7 6 = 0 && 1 ≤ bitsOf d 10 8 && bitsOf d 10 8 ≤ 4 && bitsOf d 11 11 = 0 && 1 ≤ bitsOf d 14 12 &&
    bitsOf d 14 12 ≤ 6 && bitsOf d 15 15 = 0 && bitsOf d 31 17 = 0 && w 0x14 % 2048 = 0 && w 0x14 ≤ 0x40000 &&
    w 0x18 % 0x10000 = 0 && (bs.drop 0x20).all (· = 0)

/-- The kernel in a descriptor's head, no bucket chosen. -/
def kernelOf (g : DWord) (bs : List Byte) : Kernel :=
  let w (o : Nat) : Nat := leNat ((bs.drop o).take 4)
  let d := w 0x10
  { addr := g, code := BitVec.ofNat 64 (leNat ((bs.drop 8).take 8)), waves := bitsOf d 5 0, nw := bitsOf d 10 8
    nh := bitsOf d 14 12, mx := ebit d 16, scr := w 0x14, lpriv := w 0x18, hinge := BitVec.ofNat 32 (w 0x1C) }

/-- A descriptor as the front end finds it: read with its buckets, paged out, or bad (queue error 0x27). -/
inductive KernelRead where
  | ok (k : Kernel) (bs : List Bucket)
  | wait (reason : BitVec 2)
  | bad
  deriving DecidableEq, Repr

/-- Read and check a kernel descriptor (R284). -/
def readKernel (s : State) (ctx : Nat) (g : DWord) : KernelRead :=
  if g.toNat % 64 ≠ 0 then .bad
  else
    match frontRead s ctx g 64 with
    | .error (.recov r) => .wait r
    | .error (.trap _) => .bad
    | .ok h =>
      if !kernelOk h then .bad
      else
        let nb := leNat ((h.drop 4).take 4)
        match frontRead s ctx (g + 64) (64 * nb) with
        | .error (.recov r) => .wait r
        | .error (.trap _) => .bad
        | .ok b =>
          let each := (List.range nb).map fun i => (b.drop (64 * i)).take 64
          if each.all bucketOk then .ok (kernelOf g h) (each.map bucketOf) else .bad

/-- The reads of a kernel descriptor take their times (R170). -/
def kernelSeen (s : State) (ctx : Nat) (g : DWord) : State :=
  match readKernel s ctx g with
  | .ok _ bs => frontSeen s ctx g (64 + 64 * bs.length)
  | _ => s

/-- The first bucket that matches a shape (R285), and the kernel with its entry and bounds. -/
def chooseBucket (k : Kernel) (bs : List Bucket) (shape : Vector Nat 4) : Option Kernel :=
  (bs.find? fun b => (List.finRange 4).all fun (i : Fin 4) =>
    b.lo.getD i 0 ≤ shape[i] && shape[i] ≤ b.hi.getD i 0).map fun b =>
    let entry : Word := BitVec.ofNat 32 (4 * b.entry)
    { k with entry := entry, shape := shape, pad := Vector.ofFn fun i => b.pad.getD i 0 }

/-! ### Shapes and lanes (R82) -/

/-- Lanes of the padded space. -/
def Kernel.lanesTotal (k : Kernel) : Nat := k.pad[0] * k.pad[1] * k.pad[2] * k.pad[3]

/-- Workgroups of a launch. -/
def Kernel.groups (k : Kernel) : Nat := (k.lanesTotal + 32 * k.waves - 1) / (32 * k.waves)

/-- Members of a neighbourhood. -/
def Kernel.members (k : Kernel) : Nat := k.nw * k.nh

/-- Does lane g of the padded space start present? -/
def Kernel.lanePresent (k : Kernel) (g : Nat) : Bool :=
  let p := k.pad
  g < k.lanesTotal && g % max 1 p[0] < k.shape[0] && g / max 1 p[0] % max 1 p[1] < k.shape[1] &&
    g / max 1 (p[0] * p[1]) % max 1 p[2] < k.shape[2] && g / max 1 (p[0] * p[1] * p[2]) < k.shape[3]

/-- The present lanes of a wave at its start. -/
def Kernel.waveMask (k : Kernel) (wg wv : Nat) : Mask :=
  maskWhere fun l => k.lanePresent ((wg * k.waves + wv) * 32 + l)

/-- The waves a workgroup creates, with their lanes. -/
def Kernel.created (k : Kernel) (wg : Nat) : List (Nat × Mask) :=
  ((List.range k.waves).map fun v => (v, k.waveMask wg v)).filter fun x => x.2 ≠ 0

/-! ### Room on a core (R79, R80, R146) -/

/-- Waves resident on a quadrant. -/
def slotsUsed (s : State) (n : Fin 384) (q : Fin 4) : Nat :=
  ((allWaves s).filter fun w => w.core = n && w.quad = q && w.res ≠ .out).length

/-- Free wave slots of a quadrant. -/
def slotsFree (s : State) (n : Fin 384) (q : Fin 4) : Nat := 16 - slotsUsed s n q

/-- The quadrant with the most free slots, the lowest-numbered on a tie. -/
def firstQuad (s : State) (n : Fin 384) : Fin 4 :=
  (List.finRange 4).foldl (fun b q => if slotsFree s n b < slotsFree s n q then q else b) 0

/-- The quadrant of wave w where q₀ is first. -/
def quadOf (q0 : Fin 4) (w : Nat) : Fin 4 := (BitVec.ofNat 2 (q0.val + w)).toFin

/-- Members whose allocations stand on a core: a member that has exited keeps its own until its neighbourhood retires (R73,
R146). -/
def residents (s : State) (n : Fin 384) : List (GangUnit × Member) :=
  s.units.flatMap fun u => if u.out then [] else (u.members.filter fun m => m.core = n).map fun m => (u, m)

/-- The base of the lowest free run of granules that holds an allocation (R146). -/
def freeBase (s : State) (n : Fin 384) (alloc : Nat) : Option Nat :=
  let b := spadBase n
  if alloc = 0 then some b
  else
    let used := (residents s n).map fun x => x.2
    (((List.range 128).map fun g => b + 2048 * g).find? fun a => a + alloc ≤ b + 0x40000 &&
      used.all fun m => a + alloc ≤ m.base || m.base + m.alloc ≤ a)

/-- Is a core enabled and not excluded (R286, R296)? -/
def coreOpen (s : State) (n : Fin 384) : Bool :=
  (coreMask s).getLsbD n && !((s.hasp.pexcl[n.val / 32]'(by have := n.isLt; omega)).getLsbD (n.val % 32))

/-- Can a core take waves and an allocation (R80, R218, R286)? (log 22: DEDUCED). One that a member without waves keeps
reserved cannot (R287). -/
def coreTakes (s : State) (n : Fin 384) (ws : List Nat) (alloc : Nat) (mx : Bool) : Bool :=
  let q0 := firstQuad s n
  coreOpen s n && (residents s n).all (fun x => !x.2.empty) && (freeBase s n alloc).isSome && !(mx && (residents s n).any fun x => x.1.mx) &&
    (List.finRange 4).all fun q => (ws.filter fun w => quadOf q0 w = q).length ≤ slotsFree s n q

/-- A package core number, wrapped. -/
def coreNo (n : Nat) : Fin 384 := ⟨n % 384, Nat.mod_lt _ (by decide)⟩

/-- The first core from the cursor on that can take a workgroup (R286). -/
def findCore (s : State) (ws : List Nat) (alloc : Nat) (mx : Bool) : Option (Fin 384) :=
  ((List.range 384).map fun i => coreNo (s.hasp.pcur.toNat + i)).find? fun n => coreTakes s n ws alloc mx

/-- The cores of the rectangle at (c, w) of a layer, row-major. -/
def rectCores (layer nw nh c w : Nat) : List (Fin 384) :=
  (List.range (nw * nh)).map fun k => coreNo (24 * layer + 4 * (w + k / nw) + c + k % nw)

/-- The first rectangle whose cores take their members (R287). -/
def findRect (s : State) (nw nh : Nat) (take : Nat → Fin 384 → Bool) : Option (List (Fin 384)) :=
  (List.range 16).findSome? fun i =>
    let layer := (s.hasp.pcur.toNat / 24 + i) % 16
    (List.range (7 - nh)).findSome? fun w => (List.range (5 - nw)).findSome? fun c =>
      let cs := rectCores layer nw nh c w
      if cs.zipIdx.all fun (n, k) => take k n then some cs else none

/-! ### Images and private blocks (R145, R147) -/

/-- The lowest start of a run of `len` outside some taken ranges (start and length). -/
def lowestRun (taken : List (Nat × Nat)) (len : Nat) : Nat :=
  let starts := 0 :: taken.map fun t => t.1 + t.2
  let ok := starts.filter fun a => taken.all fun t => t.2 = 0 || a + len ≤ t.1 || t.1 + t.2 ≤ a
  ok.foldl min (ok.headD 0)

/-- The task range of a context. -/
def taskRange (c : Context) : Nat × Nat := (c.tbase.toNat, c.tcount.toNat)

/-- Blocks or granules one workgroup takes. -/
def blocksOf (k : Kernel) : Nat := k.groups * k.waves
/-- Image granules a launch takes. -/
def imagesOf (k : Kernel) : Nat := k.groups * (k.scr / 2048)

/-- The launch takes its private blocks and its image, if it has not (R145, R147); none where no run is free. -/
def takeRuns (s : State) (c : Context) (l : Launch) : Option Launch :=
  match l.lb, l.li with
  | some _, some _ => some l
  | _, _ =>
    let ls := s.launches.filter fun x => x.ctx = l.ctx && x.id ≠ l.id
    let b := lowestRun (taskRange c :: ls.filterMap fun x => x.lb.map fun y => (y, blocksOf x.k)) (blocksOf l.k)
    let g := lowestRun (taskRange c :: ls.filterMap fun x => x.li.map fun y => (y, imagesOf x.k)) (imagesOf l.k)
    if 2 ^ 24 < b + blocksOf l.k then none else some { l with lb := some b, li := some g }

/-- The physical address of each 2 KiB of an image, if its pages can be reached and written (R147). -/
def imageFrames (s : State) (c : Context) (g : Nat) : Nat → Except Miss (List Nat)
  | 0 => .ok []
  | n + 1 =>
    match imageFrames s c g n with
    | .error e => .error e
    | .ok fs =>
      let va := (va57 c.ibase + 2048 * (g + n)) % 2 ^ 57
      match walk s c va with
      | .error e => .error e
      | .ok (_, e, level) =>
        match leafMiss true .store false e (leafPa e level va) with
        | some m => .error m
        | none => .ok (fs ++ [leafPa e level va])

/-- The frames of every member's image; a cause keeps the first failure. -/
def allFrames (s : State) (c : Context) : List (Option Nat × Nat) → Except Miss (List (List Nat))
  | [] => .ok []
  | (img, alloc) :: t =>
    match (match img with
      | some g => imageFrames s c g (alloc / 2048)
      | none => .ok []), allFrames s c t with
    | .ok f, .ok fs => .ok (f :: fs)
    | .error e, _ => .error e
    | _, .error e => .error e

/-- An image that cannot be registered (R147): the front end asks for service and waits, or the context ends. -/
def imageMiss (s : State) (ctx : Nat) : Miss → State
  | .recov r =>
    if r = 0 || s.services.any fun x => x.wave = 0 && x.reason = r then s
    else { s with services := s.services ++ [⟨0, 0, r⟩] }
  | .trap c => endContext s ctx c.toNat 2 0x1FF

/-! ### Starting waves (R45, R286) -/

/-- A wave of a workgroup at its start. A lane that is absent from the start has its lpc at the entry offset (log 60: DESIGN
CHOICE). -/
def freshWave (s : State) (l : Launch) (asid : Nat) (h k nb wg wv : Nat) (m : Mask) (n : Fin 384) (q : Fin 4) : Wave :=
  let regs : Vector Word 32 := Vector.ofFn fun i => l.args.getD i 0
  let sr : SysRegs := { hinge := l.k.hinge, wave := BitVec.ofNat 32 wv, wg := BitVec.ofNat 32 wg,
                        nbhd := BitVec.ofNat 32 nb, ctx := BitVec.ofNat 32 l.ctx, asid := BitVec.ofNat 32 asid }
  let lf : Leaf := { mask := m, pc := l.k.entry }
  { id := s.nextId, ctx := l.ctx, unit := h, member := k, core := n, quad := q, age := s.nextId
    r := { s := regs }, sr := sr, leaves := (Vector.replicate 4 {}).set 0 lf
    lpc := Vector.replicate 32 l.k.entry, absent := ~~~m, blk := BitVec.ofNat 24 (l.lb.getD 0 + wg * l.k.waves + wv)
    kdesc := l.k.addr, code := l.k.code, lpriv := l.k.lpriv, qcb := l.qcb, hdr := l.hdr }

/-- Start the waves of one member. -/
def startMember (s : State) (l : Launch) (h k nb wg : Nat) (n : Fin 384) (q0 : Fin 4) : State :=
  let asid := ((ctxOf s l.ctx).map (·.asid.toNat)).getD 0
  let ws := if wg < l.k.groups then l.k.created wg else []
  raiseLt (ws.foldl (fun s (v, m) =>
    { s with nextId := s.nextId + 1, others := s.others ++ [freshWave s l asid h k nb wg v m n (quadOf q0 v)] }) s)
    n s.feTime.toNat

/-- A decision about a gang unit is recorded, with the slot and class of the queue it descends from (R298). -/
def traceUnit (s : State) (kind : Nat) (u : GangUnit) (core : Nat) : State :=
  trace s kind (((s.slots.find? fun x => x.qcb = u.qcb).map (·.n.val)).getD 0xFFFF) (qcbClass s u.qcb).val u.qcb core
    u.members.length u.ctx

/-- A gang unit has been placed: the Hasp hears of it, and it is recorded (R296, R298). -/
def notePlaced (s : State) (u : GangUnit) (core : Nat) : State :=
  let slot := ((s.slots.find? fun x => x.qcb = u.qcb).map (·.n.val)).getD 0xFFFF
  traceUnit (haspEvent s 5 (slot % 256) u.handle u.qcb) 5 u core

/-- Zero a member's allocation as it is taken, and register its image: what was read of a line of either under a lease was
read before, and no core keeps a copy of it (R147, R184, R196). -/
def zeroAlloc (s : State) (base alloc : Nat) (frames : List Nat) : State :=
  let pad (l : Nat) : Bool := base ≤ 128 * l && 128 * l < base + alloc
  let kept (l : Nat) : Option Nat := if pad l then some l else (routeFrames base (128 * l) frames 0).map (· / 128)
  let mine := s.lines.filterMap fun x => if x.slot = 0 then (kept x.line).map fun l => (l, x.rts + 1) else none
  let later (ls : List LineTime) (y : Nat × Nat) : List LineTime :=
    let t := max y.2 (((ls.find? fun x => x.line = y.1 && x.slot = 0).map (·.rts)).getD 0)
    insLine ⟨y.1, t, t, 0, 0⟩ ls
  { s with
    mem := memZero s.mem base alloc
    lines := mine.foldl later s.lines
    copies := s.copies.filter fun c => (kept c.line).isNone }

/-- Start a gang unit on its cores: allocations zeroed, images registered, waves begun. -/
def startUnit (s : State) (l : Launch) (cs : List (Fin 384)) (wg0 nb : Nat) (frames : List (List Nat)) : State :=
  let h := s.nextId
  let member (n : Fin 384) (k : Nat) : Member :=
    let wg := wg0 + k
    { wg := wg, core := n, base := (freeBase s n l.k.scr).getD (spadBase n), alloc := l.k.scr
      image := if wg < l.k.groups then l.li.map fun g => g + wg * (l.k.scr / 2048) else none
      frames := frames.getD k []
      empty := l.k.groups ≤ wg || (l.k.created wg).isEmpty }
  let ms := cs.zipIdx.map fun (n, k) => member n k
  let u : GangUnit := { handle := h, ctx := l.ctx, launch := some l.id, nbhdIx := nb, mx := l.k.mx, nw := l.k.nw
                        nbhd := l.nbhd, members := ms, mem0 := l.mem0, qcb := l.qcb }
  let q0s := cs.map (firstQuad s)
  let s0 := ms.foldl (fun s x => zeroAlloc s x.base x.alloc x.frames) s
  let s1 := { s0 with nextId := s.nextId + 1, units := s.units ++ [u] }
  let s2 := cs.zipIdx.foldl (fun s (n, k) => startMember s l h k nb (wg0 + k) n (q0s.getD k 0)) s1
  notePlaced s2 u ((cs.head?.map (·.val)).getD 0)

/-- Workgroups or neighbourhoods of a launch (R82, R287). -/
def Launch.total (l : Launch) : Nat := if l.nbhd then (l.k.groups + l.k.members - 1) / max 1 l.k.members else l.k.groups

/-- Is a launch placed: has its packet started (R283)? -/
def Launch.placed (l : Launch) : Bool := l.total ≤ l.next

/-- Put a launch's record back; once it is placed its queue has no placement pending, and the queue's idle time begins
(R288). -/
def setLaunch (s : State) (l : Launch) : State :=
  { s with
    launches := s.launches.map fun x => if x.id = l.id then l else x
    slots := s.slots.map fun x => if x.qcb = l.qcb && l.placed then { x with idleAt := s.clk.toNat } else x }

/-- The first index from `i` on, below `n`, that satisfies `p`; `n` if none does. -/
def nextIndex (p : Nat → Bool) (i n : Nat) : Nat := (((List.range (n - i)).map (i + ·)).find? p).getD n

/-- A launch that finds no core waits, and the Hasp hears of it once (R286, R296). -/
def launchWaits (s : State) (l : Launch) : State :=
  if s.hasp.events.any fun e => e.kind = 4 && e.qcb = l.qcb then s
  else haspEvent s 4 (((s.slots.find? fun x => x.qcb = l.qcb).map (·.n.val)).getD 0) 0 l.qcb

/-! ### Package scratchpad grants (R148) -/

/-- The lowest free 64 KiB granules of the package scratchpad, as physical addresses in rising order (log 31: DESIGN CHOICE). -/
def freeGranules (s : State) (n : Nat) : Option (List Nat) :=
  if n = 0 then some []
  else
    let used := s.launches.flatMap fun l => l.grant.getD []
    let free := ((List.range 4096).filter fun i => chipletOn s (i / 512)).map fun i => pkgBase + 0x10000 * i
    let ok := (free.filter fun a => !used.contains a).take n
    if ok.length < n then none else some ok

/-- Is a launch switched out whole: all of its context's gang units are (R148)? -/
def launchOut (s : State) (l : Launch) : Bool :=
  (s.units.any fun u => u.launch = some l.id) && s.units.all fun u => u.ctx ≠ l.ctx || u.out

/-- A switched-out launch's grant is reclaimed: its bytes are saved (R148). -/
def reclaimGrant (s : State) (l : Launch) : State :=
  match l.grant with
  | none => s
  | some gs =>
    let cells := gs.zipIdx.flatMap fun (g, i) =>
      (s.mem.filter fun c => g ≤ c.1 && c.1 < g + 0x10000).map fun c => (0x10000 * i + (c.1 - g), c.2)
    { s with launches := s.launches.map fun x => if x.id = l.id then { x with grant := none, saved := some cells } else x }

/-- Room for a grant, grants of switched-out contexts reclaimed one after another where there is none (R148, log 31: DESIGN
CHOICE). -/
def grantRoom (s : State) (n : Nat) : List Launch → Option (List Nat × State)
  | [] => (freeGranules s n).map fun gs => (gs, s)
  | l :: t =>
    match freeGranules s n with
    | some gs => some (gs, s)
    | none => grantRoom (if launchOut s l && l.grant.isSome then reclaimGrant s l else s) n t

/-- The granules of a grant, zeroed (R148). -/
def zeroGrant (s : State) (gs : List Nat) : State := { s with mem := gs.foldl (fun m a => memZero m a 0x10000) s.mem }

/-- A launch gets its reclaimed grant back, with its bytes, before a unit of it is restored or placed (R148); none where there
is no room. -/
def grantBack (s : State) (l : Launch) : Option (State × Launch) :=
  match l.saved with
  | none => some (s, l)
  | some cells =>
    (grantRoom s l.pscr (s.launches.filter fun x => x.ctx ≠ l.ctx)).map fun (gs, s1) =>
      let s2 := zeroGrant s1 gs
      let mem := cells.foldl (fun m c => memSet m (gs.getD (c.1 / 0x10000) 0 + c.1 % 0x10000) c.2) s2.mem
      let l' : Launch := { l with grant := some gs, saved := none }
      ({ s2 with mem := mem, launches := s2.launches.map fun x => if x.id = l.id then l' else x }, l')

/-- The launch of a unit to be restored gets its grant back. -/
def regrant (s : State) (u : GangUnit) : Option State :=
  match launchOf s u.handle with
  | none => some s
  | some l => (grantBack s l).map (·.1)

/-! ### Placement (R286, R287) -/

/-- WORKGROUP_PLACEMENT (R80, R286): the launch's next workgroup with a created wave. -/
def execWorkgroupPlacement (launch : Nat) (s : State) : Out :=
  .next (match s.launches.find? fun x => x.id = launch with
    | none => s
    | some l =>
      match ctxOf s l.ctx with
      | none => s
      | some c =>
        let total := l.total
        let wg := nextIndex (fun i => !(l.k.created i).isEmpty) l.next total
        if l.nbhd || l.held || total ≤ l.next then s
        else if total ≤ wg then setLaunch s { l with next := total }
        else
          match takeRuns s c l with
          | none => s
          | some l =>
            match findCore s ((l.k.created wg).map (·.1)) l.k.scr l.k.mx with
            | none => launchWaits s l
            | some n =>
              match allFrames s c [(l.li.map fun g => g + wg * (l.k.scr / 2048), l.k.scr)], grantBack s l with
              | .error e, _ => imageMiss s l.ctx e
              | .ok _, none => launchWaits s l
              | .ok fs, some (s, l) =>
                let after := nextIndex (fun i => !(l.k.created i).isEmpty) (wg + 1) total
                let l' := { l with next := after, live := l.live + 1 }
                let s1 := startUnit s l' [n] wg wg fs
                setLaunch { s1 with hasp := { s1.hasp with pcur := BitVec.ofNat 9 ((n.val + 1) % 384) } } l')

/-- NEIGHBOURHOOD_PLACEMENT (R287): the launch's next neighbourhood with a created wave, whole. -/
def execNeighbourhoodPlacement (launch : Nat) (s : State) : Out :=
  .next (match s.launches.find? fun x => x.id = launch with
    | none => s
    | some l =>
      match ctxOf s l.ctx with
      | none => s
      | some c =>
        let m := l.k.members
        let total := l.total
        let some_ (j : Nat) : Bool :=
          (List.range m).any fun k => j * m + k < l.k.groups && !(l.k.created (j * m + k)).isEmpty
        let nb := nextIndex some_ l.next total
        if !l.nbhd || l.held || total ≤ l.next then s
        else if total ≤ nb then setLaunch s { l with next := total }
        else
          match takeRuns s c l with
          | none => s
          | some l =>
            let ws (k : Nat) : List Nat := if nb * m + k < l.k.groups then (l.k.created (nb * m + k)).map (·.1) else []
            match findRect s l.k.nw l.k.nh fun k n => coreTakes s n (ws k) l.k.scr l.k.mx with
            | none => launchWaits s l
            | some cs =>
              let imgs := (List.range m).map fun k =>
                (if nb * m + k < l.k.groups then l.li.map fun g => g + (nb * m + k) * (l.k.scr / 2048) else none, l.k.scr)
              match allFrames s c imgs, grantBack s l with
              | .error e, _ => imageMiss s l.ctx e
              | .ok _, none => launchWaits s l
              | .ok fs, some (s, l) =>
                let l' := { l with next := nextIndex some_ (nb + 1) total, live := l.live + 1 }
                let s1 := startUnit s l' cs (nb * m) nb fs
                let last := ((cs.getLast?).map (·.val)).getD 0
                setLaunch { s1 with hasp := { s1.hasp with pcur := BitVec.ofNat 9 ((last + 1) % 384) } } l')

/-! ### Task waves (R85, R293) -/

/-- The lowest free private block of a context's task range. -/
def freeBlock (s : State) (c : Context) : Option Nat :=
  let used := ((allWaves s).filter fun w => w.ctx = c.ctx && w.task).map fun w => w.blk.toNat
  (List.range c.tcount.toNat).findSome? fun i =>
    if used.contains (c.tbase.toNat + i) then none else some (c.tbase.toNat + i)

/-- One packed task: its record's address, its seed, and the packet it descends from (R282). -/
structure PackedTask where
  args : DWord := 0
  seed : Nat := 0
  qcb  : Nat := 0
  hdr  : Word := 0
  deriving DecidableEq, Repr

/-- Take up to `n` tasks from the head of a ring, going on to an entry of the same descriptor and entry (R293): the tasks
and what is left. -/
def packTasks (kd : DWord) (en : Word) : Nat → List SpawnEntry → List PackedTask × List SpawnEntry
  | _, [] => ([], [])
  | n, e :: t =>
    if n = 0 || e.kdesc ≠ kd || e.entry ≠ en then ([], e :: t)
    else
      let k := min n (e.n - e.next)
      let mine := (span e.next k).map fun i => ⟨e.args + BitVec.ofNat 64 (64 * i), e.seed, e.qcb, e.hdr⟩
      if e.next + k < e.n then (mine, { e with next := e.next + k } :: t)
      else
        let r := packTasks kd en (n - k) t
        (mine ++ r.1, r.2)

/-- The core a task wave goes to: the lowest open one of the chiplet with a slot and a granule (R293). -/
def taskCore (s : State) (chip : Fin 8) : Option (Fin 384) :=
  ((List.range 48).map fun i => coreNo (48 * chip.val + i)).find? fun n => coreTakes s n [0] 2048 false

/-- The task wave of packed tasks (R85). -/
def taskWave (s : State) (c : Context) (k : Kernel) (e : SpawnEntry) (ts : List PackedTask) (h b : Nat) (n : Fin 384)
    (q : Fin 4) : Wave :=
  let m := maskWhere fun l => l.val < ts.length
  let pc : Word := 4 * e.entry
  let task (l : Fin 32) : PackedTask := ts.getD l {}
  let a (l : Fin 32) : DWord := (task l).args
  let v0 : Lanes Word := lanes fun l => if inMask m l then (a l).loWord else 0
  let v1 : Lanes Word := lanes fun l => if inMask m l then (a l).hiWord else 0
  let regs : Regs := { v := ((Vector.replicate 88 (Vector.replicate 32 0)).set 0 v0).set 1 v1 }
  let sr : SysRegs := { hinge := k.hinge, wave := 0, wg := 0xFFFFFFFF, nbhd := 0xFFFFFFFF, ctx := BitVec.ofNat 32 c.ctx,
                        asid := c.asid.setWidth 32 }
  let lf : Leaf := { mask := m, pc := pc }
  { id := s.nextId + 1, ctx := c.ctx, unit := h, member := 0, core := n, quad := q, age := s.nextId + 1, task := true
    r := regs, sr := sr, leaves := (Vector.replicate 4 {}).set 0 lf, lpc := Vector.replicate 32 pc, absent := ~~~m
    blk := BitVec.ofNat 24 b, kdesc := e.kdesc, code := k.code, lpriv := k.lpriv, qcb := e.qcb, hdr := e.hdr
    seeds := lanes fun l => (task l).seed, origins := lanes fun l => ((task l).qcb, (task l).hdr) }

/-- May a chiplet's packer serve a ring: it holds a task, and its context has a free task block (R293)? -/
def servable (s : State) (r : SpawnRing) : Bool := !r.entries.isEmpty && ((ctxOf s r.ctx).bind (freeBlock s)).isSome

/-- The class a ring is served in: its head entry's. -/
def SpawnRing.cls (r : SpawnRing) : Nat := (r.entries.head?.map (·.cls.val)).getD 4

/-- The ring a chiplet's packer serves next: of the lowest class, and in it the first past the one it served last, in
rotation (R293). -/
def nextRing (s : State) (chip : Fin 8) : Option SpawnRing :=
  let rs := s.rings.filter fun r => r.chiplet = chip && servable s r
  let dist (r : SpawnRing) : Nat := (r.ctx + 65535 - s.packRot[chip] % 65536) % 65536
  rs.foldl (fun b r => match b with
    | none => some r
    | some x => if r.cls < x.cls || (r.cls = x.cls && dist r < dist x) then some r else some x) none

/-- TASK_WAVE_START (R293): the packer takes tasks from the head of a chiplet's ring, the next it serves, and starts a task
wave. -/
def execTaskWaveStart (ctx : Nat) (chiplet : Fin 8) (s : State) : Out :=
  .next (match ctxOf s ctx, (nextRing s chiplet).filter fun r => r.ctx = ctx with
    | some c, some r =>
      match r.entries with
      | [] => s
      | e :: _ =>
        match readKernel s ctx e.kdesc with
        | .bad => endContext s ctx 0x27 0 0x1FF
        | .wait w => imageMiss s ctx (.recov w)
        | .ok k _ =>
          match taskCore s chiplet, freeBlock s c with
          | some n, some b =>
            match imageFrames s c b 1 with
            | .error x => imageMiss s ctx x
            | .ok fs =>
              let (ts, rest) := packTasks e.kdesc e.entry 32 r.entries
              let base := (freeBase s n 2048).getD (spadBase n)
              let h := s.nextId
              let m : Member := { wg := 0, core := n, base := base, alloc := 2048, image := some b, frames := fs }
              let u : GangUnit := { handle := h, ctx := ctx, launch := none, task := true, members := [m], mem0 := some s.mem
                                    qcb := e.qcb }
              let w := taskWave s c k e ts h b n (firstQuad s n)
              let whole := r.entries.length - rest.length
              let part := if rest.head? = r.entries[whole]? then [] else r.entries[whole]?.toList
              let times := (r.entries.take whole ++ part).foldl (fun t x => max t x.time.toNat) 0
              let s0 := zeroAlloc s base 2048 fs
              let s1 : State := { s0 with
                nextId := s.nextId + 2
                units := s.units ++ [u]
                others := s.others ++ [w]
                packRot := s.packRot.set chiplet ctx }
              notePlaced (raiseLt (setRing (kernelSeen s1 ctx e.kdesc) chiplet ctx rest) n (max s.feTime.toNat times)) u n.val
          | _, _ => s
    | _, _ => s)

/-! ### Switch-out (R232, R233, R242) -/

/-- The waves of a member. -/
def wavesOf (s : State) (h k : Nat) : List Wave := (allWaves s).filter fun w => w.unit = h && w.member = k

/-- May a stopped wave be saved: no request of its own at the slot map, no TRET's arrivals and no SPAWN's enqueue
unfinished (log 56: DESIGN CHOICE), and every lane-path access performed and acknowledged (R242)? -/
def Wave.savable (s : State) (w : Wave) : Bool :=
  w.held.isEmpty && s.pods.all (fun p => p.wave ≠ w.id) && (List.finRange 4).all fun n => match w.leaves[n].wait with
    | some ⟨.hypres, _, _⟩ | some ⟨.hypnew, _, _⟩ | some ⟨.tret .., _, _⟩ => false
    | _ => true

/-- A member stops: at its waves' next boundaries without live array state (R242), else once it has been told to
(R232, R233). -/
def stopNext (s : State) (u : GangUnit) (k : Nat) (m : Member) : State :=
  if m.exited || (m.live && !m.stopped) then s
  else
    let s1 := stopWaves s u.handle k
    if (wavesOf s1 u.handle k).all fun w => w.res = .stopped then setMember s1 u.handle k fun m => { m with stopped := true }
    else s1

/-- Has a member stopped, every wave of it, with its accesses performed and its accepted commands and MLDSs done? -/
def memberStopped (s : State) (u : GangUnit) (k : Nat) (m : Member) : Bool :=
  m.exited || (m.stopped && (wavesOf s u.handle k).all (fun w => w.mode = .program && w.res = .stopped && w.savable s) &&
    (!m.live || (coreOf s m.core).arrays.toList.all fun a => a.queue.isEmpty && a.mlds.isNone))

/-- A wave as saved (R242, R243, R423): every wait is given up, a sleep goes on at its next word; `image` is its scratchpad
image's first granule. -/
def Wave.asSaved (w : Wave) (image : Nat) : Wave :=
  let calm (lf : Leaf) : Leaf := match lf.wait with
    | some ⟨.sleep _, nx, _⟩ => { lf with pc := nx, wait := none }
    | some _ => { lf with wait := none }
    | none => lf
  let w1 : Wave := { w with leaves := Vector.ofFn fun n => calm w.leaves[n], res := .out }
  { w1 with saved := saveRecord w1 image }

/-- The array state a member saves (R232, R233, R244): what its last PPOINT names, or all of it (log 21: DESIGN CHOICE). -/
def saveArrays (s : State) (m : Member) : Member :=
  if !m.live then m
  else
    let c := coreOf s m.core
    let keep (i : Nat) : Bool := m.full || m.ppoint.getLsbD i
    { m with
      tiles := ((List.finRange 16).filter fun (t : Fin 16) => keep t.val).map fun t => (t, c.tiles[t])
      arrays := ((List.finRange 2).filter fun (a : Fin 2) => keep (16 + a.val)).map fun a =>
        (a, if m.full then c.arrays[a] else { c.arrays[a] with part := {} }) }

/-- Bytes of memory moved to other addresses, 2 KiB each: the times of their lines and their poison go with them, and no core
keeps a copy of a line of either place (R147, R184, R241). -/
def moveLines (s : State) (fs : List (Nat × Nat)) : State :=
  let bytes := fs.flatMap fun (a, b) => (span 0 2048).map fun o => (b + o, memGet s.mem (a + o))
  let moved := fs.flatMap fun (a, b) => (span 0 16).map fun i => (a / 128 + i, b / 128 + i)
  let touched (l : Nat) : Bool := fs.any fun (a, b) => l / 16 = a / 2048 || l / 16 = b / 2048
  let times := fs.flatMap fun (a, b) => (span 0 16).map fun i =>
    let x := lineOf s (a / 128 + i)
    let y := lineOf s (b / 128 + i)
    (⟨b / 128 + i, max x.wts y.wts, max x.rts y.rts, 0, 0⟩ : LineTime)
  { s with
    mem := bytes.foldl (fun m c => memSet m c.1 c.2) s.mem
    lines := times.foldl (fun l x => insLine x l) s.lines
    copies := s.copies.filter fun c => !touched c.line
    poisoned := (s.poisoned.filter fun l => !touched l) ++
      (if s.poisoned.isEmpty then [] else (moved.filter fun x => s.poisoned.contains x.1).map (·.2)) }

/-- A member leaves its core: arrays saved, scratchpad written to the image, whose lines' registrations are dropped, and the
allocation freed (R147, R242). -/
def leaveCore (s : State) (h k : Nat) (m : Member) (frames : List Nat) : State :=
  let s1 := setMember s h k fun m => saveArrays s m
  let s2 := if m.live then resetArrays s1 m.core else s1
  let s3 := moveLines (captureAny s2 frames) (frames.zipIdx.map fun (f, j) => (m.base + 2048 * j, f))
  let full := saveArrays s m
  setMember { s3 with mem := memZero s3.mem m.base m.alloc, freeCtr := if m.live then s3.freeCtr + 2048 else s3.freeCtr } h k
    fun x => { x with frames := [], record := if m.live then arrayRecord s3.freeCtr full else [] }

/-- The images of a unit's members, those that have exited apart. -/
def GangUnit.images (u : GangUnit) : List (Option Nat × Nat) :=
  u.members.map fun m => (if m.exited then none else m.image, m.alloc)

/-- The unit leaves whole (R73, R242), its scratchpads to the frames of their images; its lanes have applied every refute
(R263). -/
def switchOut (s : State) (u : GangUnit) (frames : List (List Nat)) : State :=
  let s1 := (u.members.zipIdx).foldl (fun s (m, k) => if m.exited then s else leaveCore s u.handle k m (frames.getD k [])) s
  let image (w : Wave) : Nat := ((u.at w.member).bind (·.image)).getD 0
  let due (w : Wave) : Wave := match ctxOf s w.ctx with
    | some c => w.applyRefute c
    | none => w
  let s2 := mapWaves s1 fun w => if w.unit = u.handle && w.id ≠ 0 then (due w).asSaved (image w) else w
  let ids := ((allWaves s).filter fun w => w.unit = u.handle).map (·.id)
  let s3 := dropMonitors s2 fun m => ids.contains m.wave
  let s4 := u.members.foldl (fun s m => bump s m.core 38 1) s3
  match unitOf s4 u.handle with
  | some v => setUnit s4 { v with out := true, preempt := none }
  | none => s4

/-- Write a stopped unit out, once every page of its images can be written (R147): else the front end asks for service and
waits, or the context ends. -/
def writeOut (s : State) (u : GangUnit) : State :=
  match ctxOf s u.ctx with
  | none => s
  | some c =>
    match allFrames s c u.images with
    | .error e => imageMiss s u.ctx e
    | .ok fs => switchOut s u fs

/-- WAVE_SWITCH_OUT (R242): after a request, waves stop at their boundaries; once every member has stopped, the unit is
saved and leaves. -/
def execWaveSwitchOut (unit : Nat) (s : State) : Out :=
  .next (match unitOf s unit with
    | none => s
    | some u =>
      if u.preempt.isNone || u.out then s
      else
        let s1 := (u.members.zipIdx).foldl (fun s (m, k) => stopNext s u k m) s
        match unitOf s1 unit with
        | none => s1
        | some v => if v.members.zipIdx.all fun (m, k) => memberStopped s1 v k m then writeOut s1 v else s1)

/-- PPOINT_PATIENCE_TIMEOUT (R233): a member with live array state that has reached no PPOINT within the largest %patience
of its waves stops with a full save. -/
def execPpointPatienceTimeout (unit : Nat) (s : State) : Out :=
  .next (match unitOf s unit with
    | none => s
    | some u =>
      match u.preempt with
      | none => s
      | some t0 =>
        (u.members.zipIdx).foldl (fun s (m, k) =>
          let ws := wavesOf s unit k
          let p := ws.foldl (fun p w => max p w.sr.patience.toNat) 0
          if m.live && !m.stopped && !m.exited && t0 + p ≤ s.clk.toNat then stopMember s unit k true
          else s) s)

/-- GANG_SWITCH_OUT_REQUEST (R242): PREQ 1. -/
def execGangSwitchOutRequest (handle : BitVec 16) (s : State) : Out :=
  .next (match s.units.find? fun u => u.handle % 65536 = handle.toNat with
    | none => s
    | some u =>
      if u.out || u.preempt.isSome then s
      else
        traceUnit (setUnit s { u with preempt := some s.clk.toNat }) 6 u ((u.members.head?.map (·.core.val)).getD 0))

/-! ### Restore (R216, R233, R242) -/

/-- Have a unit's transfers all been performed? -/
def unitQuiet (s : State) (h : Nat) : Bool := s.xfers.all fun x => x.unit ≠ h || x.left = []

/-- IMAGE_READBACK (R216): once every transfer is performed, SAVED is cleared in exactly the latches a late completion
set it in; one whose page is paged out keeps its record until it can be reached. -/
def clearSaved (s : State) (u : GangUnit) : State :=
  (u.members.zipIdx).foldl (fun s (m, k) =>
    let s1 := m.late.foldl (fun s o =>
      match winBytes s u.handle k o 16 with
      | some pas => latchMap s pas fun l => { l with saved := false }
      | none => s) s
    setMember s1 u.handle k fun m => { m with late := m.late.filter fun o => (winBytes s u.handle k o 16).isNone }) s

/-- IMAGE_READBACK (R216). -/
def execImageReadback (unit : Nat) (s : State) : Out :=
  .next (match unitOf s unit with
    | none => s
    | some u => if u.out && unitQuiet s unit then clearSaved s u else s)

/-- The cores a saved unit goes to (R242): the search of R286, or of R287. -/
def restoreCores (s : State) (u : GangUnit) : Option (List (Fin 384)) :=
  let ws (k : Nat) : List Nat := (wavesOf s u.handle k).map fun w => w.sr.wave.toNat
  let alloc := (u.members.head?.map (·.alloc)).getD 0
  if u.task then (findCore s [0] alloc false).map fun n => [n]
  else if !u.nbhd then (findCore s (ws 0) alloc u.mx).map fun n => [n]
  else findRect s u.nw (u.members.length / max 1 u.nw) fun k n => coreTakes s n (ws k) alloc u.mx

/-- Array state comes back (R233): what was saved as it was, the rest as at reset. -/
def loadArrays (s : State) (m : Member) (n : Fin 384) : State :=
  if !m.live then s
  else
    let c := coreOf s n
    let tile (t : Fin 16) : Tile := ((m.tiles.find? fun x => x.1 = t).map (·.2)).getD []
    let arr (a : Fin 2) : ArrayState := ((m.arrays.find? fun x => x.1 = a).map (·.2)).getD {}
    setCore s { c with tiles := Vector.ofFn tile, arrays := Vector.ofFn arr }

/-- A member takes its new core: image read back into the allocation and registered, arrays loaded. -/
def takeCore (s : State) (h k : Nat) (m : Member) (n : Fin 384) (frames : List Nat) : State :=
  let base := (freeBase s n m.alloc).getD (spadBase n)
  let s0 := moveLines (zeroAlloc s base m.alloc []) (frames.zipIdx.map fun (f, j) => (f, base + 2048 * j))
  let s1 := loadArrays s0 m n
  let hidden : BitVec 16 := if m.live && !m.full then ~~~(m.ppoint.setWidth 16) else 0
  setMember s1 h k fun m => { m with
    core := n, base := base, frames := frames, stopped := false, full := false, tiles := [], arrays := [], record := []
    unnamed := hidden }

/-- A member that has exited is restored with its unit: it holds a zero allocation on its new core (R73, R147). -/
def takeIdle (s : State) (h k : Nat) (m : Member) (n : Fin 384) : State :=
  let base := (freeBase s n m.alloc).getD (spadBase n)
  setMember (zeroAlloc s base m.alloc []) h k fun m => { m with core := n, base := base }

/-- The waves of a member go on, on their new core: the youngest there (R83), in wave order. -/
def resumeWaves (s : State) (h k : Nat) (n : Fin 384) (q0 : Fin 4) : State :=
  let ws := wavesOf s h k
  let back (s : State) (w : Wave) : State :=
    setWave { s with nextId := s.nextId + 1 }
      { w with core := n, quad := quadOf q0 (if w.task then 0 else w.sr.wave.toNat), res := .resident, waitCtr := 0,
               age := s.nextId, saved := [] }
  let t := ws.foldl (fun t w => max t w.lastTime.toNat) 0
  raiseLt (((List.range 32).flatMap fun i => ws.filter fun w => w.sr.wave.toNat = i).foldl back s) n t

/-- A unit whose restore is asked for and waits. -/
def awaitRestore (s : State) (u : GangUnit) : State := setUnit s { u with restore := true }

/-- GANG_RESTORE (R242): PREQ 2; the unit is placed whole on cores the search gives, which may be others. It waits for its
transfers (R216), for cores (R286, R287) and for pages of its image (R147) (log 40: DEDUCED). -/
def execGangRestore (handle : BitVec 16) (s : State) : Out :=
  .next (match s.units.find? fun u => u.handle % 65536 = handle.toNat with
    | none => s
    | some u =>
      if !u.out then s
      else if !unitQuiet s u.handle then awaitRestore s u
      else
        match restoreCores s u, ctxOf s u.ctx with
        | some cs, some c =>
          match allFrames s c u.images, regrant s u with
          | .error e, _ => imageMiss (awaitRestore s u) u.ctx e
          | .ok _, none => awaitRestore s u
          | .ok fs, some s' =>
            let s0 := clearSaved s' u
            let q0s := cs.map (firstQuad s)
            let s1 := (cs.zip fs).zipIdx.foldl (fun s ((n, f), k) =>
              match (unitOf s u.handle).bind (·.at k) with
              | some m => if m.exited then takeIdle s u.handle k m n else takeCore s u.handle k m n f
              | none => s) s0
            let s2 := cs.zipIdx.foldl (fun s (n, k) => resumeWaves s u.handle k n (q0s.getD k 0)) s1
            let s3 := match unitOf s2 u.handle with
              | some v => setUnit s2 { v with out := false, preempt := none, restore := false }
              | none => s2
            let last := ((cs.getLast?).map (·.val)).getD 0
            let s4 := { s3 with hasp := { s3.hasp with pcur := BitVec.ofNat 9 ((last + 1) % 384) } }
            traceUnit s4 7 u ((cs.head?.map (·.val)).getD 0)
        | _, _ => awaitRestore s u)

/-- DEBUG_LATCH_TIMEOUT (R197): arrivals at a latch that never balance raise the hazard of subcode 4 in debug mode. No class
wrote and no scope is required there: %trapinfo3 is 0x3800 (log 49: DESIGN CHOICE). -/
def execDebugLatchTimeout (wave : Nat) (latch : DWord) (s : State) : Out :=
  .next (match waveOf s wave with
    | none => s
    | some w =>
      let on : Bool := ((ctxOf s w.ctx).map (·.dbg)).getD false
      let leaf := (List.finRange 4).find? fun n => match w.leaves[n].wait with
        | some x => x.kind = .latch
        | none => false
      match leaf with
      | some n =>
        if wave ≠ 0 && on then pushPending s wave ⟨0x09, 4, w.leaves[n].pc, latch.loWord &&& 0xFFFFFFE0, 0x3800⟩ else s
      | none => s)

/-- CONTEXT_END (R299), asked for from outside the package's cores. -/
def execContextEnd (ctx : Nat) (s : State) : Out := .next (endContext s ctx 0 0 0x1FF)

end Sys2Proof.Machine
end

