-- ==== Sys2Proof/Machine/Front.lean ====
section
/-!
DEFINITION. The command front end (spec/16_launch.md R276 to R292, R296, R314): queues, packets, their dispatch and
completion, mapping and unmapping. A packet's step acts when that packet stands at the head of the slot's ring and may
start; else it does not arise and changes nothing.
-/

namespace Sys2Proof.Machine

/-! ### Queues (R276) -/

/-- A queue's slot. -/
def slotAt (s : State) (n : Fin 256) : Option Slot := s.slots.find? fun x => x.n = n

/-- Put a slot's record back. -/
def setSlot (s : State) (x : Slot) : State := { s with slots := s.slots.map fun y => if y.n = x.n then x else y }

/-- Set STATE (R276). -/
def setQueueState (s : State) (q st : Nat) : State := qcbPut s q 0x18 4 (qcbGet s q 0x18 4 / 8 * 8 + st)

/-- STATE. -/
def queueState (s : State) (q : Nat) : Nat := qcbGet s q 0x18 4 % 8

/-- Does a launch of the queue wait to be placed? -/
def placing (s : State) (q : Nat) : Bool := s.launches.any fun l => l.qcb = q && !l.held && !l.placed

/-- Has every started packet of the queue completed? -/
def quiet (s : State) (q : Nat) : Bool :=
  s.launches.all (fun l => l.qcb ≠ q) && s.seeds.all (fun x => x.qcb ≠ q) &&
    s.xfers.all fun x => x.kind ≠ .packet || x.qcb ≠ q

/-- The Strike reads WR and clears PEND, by an atomic, each time it does (R278). -/
def clearPend (s : State) (q : Nat) : State := qcbPut s q 0x14 4 (qcbGet s q 0x14 4 % 2 ^ 31)

/-! ### Packets (R279 to R281) -/

/-- The virtual address of word `j` of a ring. -/
def ringAddr (s : State) (x : Slot) (j : Nat) : DWord :=
  BitVec.ofNat 64 (qcbGet s x.qcb 0 8 + 4 * (j % 2 ^ 32 % max 1 (qcbGet s x.qcb 0x08 4)))

/-- Word `j` of a ring. -/
def ringWord (s : State) (x : Slot) (j : Nat) : Except Miss Word :=
  match frontRead s x.ctx (ringAddr s x j) 4 with
  | .ok bs => .ok (BitVec.ofNat 32 (leNat bs))
  | .error m => .error m

/-- Required and optional fields of a packet type (R280); none for an unknown type. -/
def fieldsOf : Nat → Option (List Nat × List Nat)
  | 0x001 => some ([0x001], [0x002, 0x003, 0x004])
  | 0x002 => some ([0x001], [0x002, 0x003, 0x004])
  | 0x003 => some ([0x001, 0x005], [0x006])
  | 0x004 => some ([0x00E, 0x00D], [])
  | 0x005 => some ([0x007, 0x00A, 0x009], [])
  | 0x006 => some ([0x007, 0x00A, 0x009], [])
  | 0x007 => some ([0x007, 0x008, 0x00C], [])
  | 0x008 => some ([0x007, 0x00B], [])
  | 0x009 => some ([0x007], [])
  | 0x00A => some ([0x00F], [])
  | 0x00B => some ([0x001, 0x010], [0x002, 0x003, 0x004])
  | 0x00C => some ([], [])
  | _ => none

/-- Does a packet type know a field type? PAD is known to all. -/
def knows (t f : Nat) : Bool :=
  f = 0x011 || match fieldsOf t with
    | some (r, o) => r.contains f || o.contains f
    | none => false

/-- Is a known field's length, its header included, one R281 gives? -/
def fieldLenOk (f n : Nat) : Bool :=
  match f with
  | 0x002 => 2 ≤ n && n ≤ 5
  | 0x003 => 2 ≤ n && n ≤ 9
  | 0x001 | 0x006 | 0x007 | 0x008 => n = 3
  | 0x005 | 0x00D => n = 5
  | 0x00B => 2 ≤ n && n ≤ 65
  | 0x011 => 1 ≤ n
  | _ => n = 2

/-- Why a packet is not taken: a queue error, or a ring page to be brought in. -/
inductive PacketErr where
  | code (c : Nat)
  | stall (r : BitVec 2)
  deriving DecidableEq, Repr

/-- A miss at a ring word: the ring's pages are serviced; a ring that may not be read is a bad value (log 30: DESIGN CHOICE). -/
def ringErr : Miss → PacketErr
  | .recov r => .stall r
  | .trap _ => .code 0x25

/-- The words of a ring from `j` on. -/
def ringWords (s : State) (x : Slot) (j : Nat) : Nat → Except PacketErr (List Word)
  | 0 => .ok []
  | n + 1 =>
    match ringWord s x j, ringWords s x (j + 1) n with
    | .error m, _ => .error (ringErr m)
    | _, .error e => .error e
    | .ok w, .ok ws => .ok (w :: ws)

/-- The fields in a packet's words after its header (R279). -/
def parseFields (t : Nat) : Nat → List Word → Except PacketErr (List PField)
  | _, [] => .ok []
  | 0, _ => .ok []
  | n + 1, w :: ws =>
    let f := (w.extractLsb' 20 11).toNat
    let len := (w.extractLsb' 8 12).toNat
    let m := w.getLsbD 31
    if len = 0 || ws.length + 1 < len || w.extractLsb' 0 8 ≠ 0 then .error (.code 0x22)
    else if m && !knows t f then .error (.code 0x21)
    else if knows t f && !fieldLenOk f len then .error (.code 0x22)
    else
      match parseFields t n (ws.drop (len - 1)) with
      | .error e => .error e
      | .ok fs => .ok (⟨m, w.extractLsb' 20 11, ws.take (len - 1)⟩ :: fs)

/-- The last field of a type, which is the one that counts. -/
def pField (p : Packet) (f : Nat) : Option (List Word) :=
  ((p.fields.filter fun x => x.typ.toNat = f).getLast?).map (·.body)

/-- Word `i` of a field. -/
def pWord (p : Packet) (f i : Nat) : Word := (((pField p f).getD []).getD i 0)

/-- A 64-bit value of a field, from word `i`. -/
def pDWord (p : Packet) (f i : Nat) : DWord := pair (pWord p f i) (pWord p f (i + 1))

/-- The BUF fields: address and length. -/
def pBufs (p : Packet) : List (DWord × Nat) :=
  (p.fields.filter fun x => x.typ = 0x00D).map fun x =>
    (pair (x.body.getD 0 0) (x.body.getD 1 0), (pair (x.body.getD 2 0) (x.body.getD 3 0)).toNat)

/-- The queue error of a packet's values, if any (R281, R282). -/
def valueError (t : Nat) (p : Packet) : Option Nat :=
  let has (f : Nat) : Bool := knows t f && (pField p f).isSome
  let shape := if has 0x002 then (pField p 0x002).getD [] else []
  let addr := (pDWord p 0x007 0).toNat
  let scope := (pWord p 0x00E 0).toNat
  if has 0x005 && (pWord p 0x005 0).toNat / 2 ^ 22 ≠ 0 then some 0x22
  else if has 0x00E && (pWord p 0x00E 0 &&& 0xFFC0C0F8) ≠ 0 then some 0x22
  else if shape.any fun w => w.toNat = 0 || 2 ^ 31 ≤ w.toNat then some 0x25
  else if has 0x004 && ((pWord p 0x004 0).toNat = 0 || 4096 < (pWord p 0x004 0).toNat) then some 0x25
  else if has 0x005 && ((pWord p 0x005 3).toNat = 0 || 2 ^ 20 < (pWord p 0x005 3).toNat) then some 0x25
  else if has 0x007 && addr % (if t = 0x009 then 8 else 4) ≠ 0 then some 0x25
  else if has 0x008 && (pDWord p 0x008 0).toNat % 32 ≠ 0 then some 0x25
  else if has 0x00A && (if t = 0x005 then 3 else 2) < (pWord p 0x00A 0).toNat then some 0x25
  else if has 0x00C && ((pWord p 0x00C 0).toNat = 0 || (pWord p 0x00C 0).toNat % 32 ≠ 0) then some 0x25
  else if has 0x00D && 16 < (pBufs p).length then some 0x25
  else if has 0x00E && scope % 8 = 7 then some 0x25
  else if has 0x00F && 63 < (pWord p 0x00F 0).toNat then some 0x25
  else if has 0x010 && ((pWord p 0x010 0).toNat < 2 || 256 < (pWord p 0x010 0).toNat) then some 0x25
  else none

/-- Is a packet type enabled (R308)? -/
def typeEnabled (s : State) (t : Nat) : Bool :=
  (fieldsOf t).isSome && match s.tables with
    | some tb => tb.types.getLsbD (t - 1)
    | none => false

/-- Parse the packet at a ring index whose header is `h` (R279, R282) (log 8: DEDUCED). -/
def parsePacket (s : State) (x : Slot) (rd wr : Nat) (h : Word) : Except PacketErr Packet :=
  let t := (h.extractLsb' 20 12).toNat
  let len := (h.extractLsb' 8 12).toNat
  if !typeEnabled s t then .error (.code 0x21)
  else if len = 0 || h.extractLsb' 2 6 ≠ 0 || (wr + 2 ^ 32 - rd) % 2 ^ 32 < len then .error (.code 0x22)
  else
    match ringWords s x (rd + 1) (len - 1) with
    | .error e => .error e
    | .ok ws =>
      match parseFields t len ws with
      | .error e => .error e
      | .ok fs =>
        let p : Packet := { at_ := BitVec.ofNat 32 rd, len := len, ord := h.getLsbD 0, irq := h.getLsbD 1, fields := fs }
        let req := ((fieldsOf t).map (·.1)).getD []
        if req.any fun f => (pField p f).isNone then .error (.code 0x23)
        else
          match valueError t p with
          | some c => .error (.code c)
          | none => .ok p

/-- What stands at the head of a slot's ring: nothing, a word still to be paged in, or a packet of a type, parsed or
in error. -/
inductive Head where
  | empty
  | stall (r : BitVec 2)
  | packet (t : Nat) (p : Except Nat Packet)

/-- The head of a slot's ring between RD and WR. -/
def headOf (s : State) (x : Slot) : Head :=
  let rd := qcbGet s x.qcb 0x0C 4
  let wr := qcbGet s x.qcb 0x10 4
  if rd = wr then .empty
  else
    match ringWord s x rd with
    | .error (.recov r) => .stall r
    | .error (.trap _) => .packet 0 (.error 0x25)
    | .ok h =>
      let t := (h.extractLsb' 20 12).toNat
      match parsePacket s x rd wr h with
      | .ok p => .packet t (.ok p)
      | .error (.code c) => .packet t (.error c)
      | .error (.stall r) => .stall r

/-- May the Strike take a packet of the slot: nothing before it is still to start, and the queue is not being
unmapped (R283, R289, R314)? -/
def mayTake (s : State) (x : Slot) : Bool :=
  x.drain = 0 && x.wait.isNone && x.replay.isNone && !placing s x.qcb && !linkHolds s [x.qcb]

/-- The front end asks for a page of its own to be serviced, once. -/
def frontStall (s : State) (ctx : Nat) (r : BitVec 2) : State := imageMiss s ctx (.recov r)

/-- Take packet `p` of type `t` from a slot: `go` acts on it where it stands at the head and may start; a packet of the
type in error stops the queue (R282). -/
def takePacket (s : State) (slot : Fin 256) (t : Nat) (p : Packet) (barrier : Bool) (go : State → Slot → State) : State :=
  match slotAt s slot with
  | none => s
  | some x =>
    if !mayTake s x then s
    else
      let s0 := clearPend s x.qcb
      match headOf s0 x with
      | .empty => s0
      | .stall r => frontStall s0 x.ctx r
      | .packet u e =>
        if u ≠ t then s0
        else
          match e with
          | .error c => queueError s0 x.qcb c (BitVec.ofNat 32 (qcbGet s0 x.qcb 0x0C 4))
          | .ok q => if q ≠ p || ((barrier || q.ord) && !quiet s x.qcb) then s0 else go s0 x

/-- The reads of a packet, and of the QCB it is found by, take their times (R170). -/
def packetSeen (s : State) (x : Slot) (p : Packet) : State :=
  (span p.at_.toNat p.len).foldl (fun t j => frontSeen t x.ctx (ringAddr s x j) 4) (readTimes s (feNow s) (span x.qcb 0x18)).2

/-- The packet has been consumed: RD, PKTS; the queue is not idle (R276, R288). -/
def consume (s : State) (x : Slot) (p : Packet) : State :=
  let s1 := qcbPut (packetSeen s x p) x.qcb 0x0C 4 (p.at_.toNat + p.len)
  let s2 := qcbPut s1 x.qcb 0x40 8 (qcbGet s x.qcb 0x40 8 + 1)
  match slotAt s2 x.n with
  | some y => setSlot s2 { y with idle := false, idleAt := s.clk.toNat, movedAt := s.clk.toNat, stalled := false }
  | none => s2

/-- The front end's logical time rises above every access performed so far (R283). -/
def raiseFe (s : State) : State := { s with feTime := BitVec.ofNat 64 (max (feNow s) (commitTime s)) }

/-- A packet completes: the front end's time rises, the host hears of it if it asked (R279, R283). -/
def complete (s : State) (q : Nat) (irq : Bool) : State :=
  let s0 := raiseFe s
  let s1 := { s0 with slots := s0.slots.map fun x => if x.qcb = q then { x with movedAt := s.clk.toNat, stalled := false } else x }
  if irq then hostIrq s1 (qcbClass s1 q) false q else s1

/-- A packet that acts at once: consumed and completed. -/
def doneAtOnce (s : State) (x : Slot) (p : Packet) : State := complete (consume s x p) x.qcb p.irq

/-! ### The front end's stores (R283) -/

/-- Write at home at the front end's time, past every lease, as an H access (R170). -/
def frontPut (s : State) (ctx : Nat) (l : Loc) (bs : List Byte) : State :=
  let r := writeTimes s (feNow s) l.pas
  let s1 := { (storeLoc r.2 (frontAcc ctx) l bs).getD r.2 with feTime := BitVec.ofNat 64 r.1 }
  hazardWrite s1 ctx { cls := 0x20, pos := .package } l.pas

/-- Where the words from an address on lie, for a store or an atomic: all of them, or the first miss. -/
def frontWords (s : State) (ctx : Nat) (kind : AccKind) (g : DWord) : Nat → Except Miss (List Loc)
  | 0 => .ok []
  | n + 1 =>
    match engineChk s (frontAcc ctx) kind g 4, frontWords s ctx kind (g + 4) n with
    | .error m, _ => .error m
    | _, .error m => .error m
    | .ok l, .ok ls => .ok (l :: ls)

/-- Store words from an address on; an address that may not be written is a bad value (log 30: DESIGN CHOICE). -/
def frontStore (s : State) (x : Slot) (p : Packet) (kind : AccKind) (g : DWord) (ws : List Word) : State :=
  match frontWords s x.ctx kind g ws.length with
  | .error (.recov r) => frontStall s x.ctx r
  | .error (.trap _) => queueError s x.qcb 0x25 p.at_
  | .ok ls => doneAtOnce ((ls.zip ws).foldl (fun s (l, w) => frontPut s x.ctx l (leBytes 4 w.toNat)) (raiseFe s)) x p

/-! ### Launches (R280, R284, R285, R148) -/

/-- Put a launch in place, with its package scratchpad zeroed; its waves fetch code as memory stands now (R148, R168). -/
def beginLaunch (s : State) (l : Launch) (gs : List Nat) : State :=
  let s1 := zeroGrant s gs
  { s1 with launches := s1.launches ++ [{ l with grant := if l.pscr = 0 then none else some gs, mem0 := some s1.mem }] }

/-- SHAPE's four values. -/
def pShape (p : Packet) : Vector Nat 4 := Vector.ofFn fun i => (((pField p 0x002).getD []).getD i.val 1).toNat

/-- The launch a packet asks for, or the queue error; the front end waits for a paged-out descriptor. -/
def launchOfPacket (s : State) (x : Slot) (p : Packet) (nbhd : Bool) (any : Bool) : Except PacketErr Launch :=
  match readKernel s x.ctx (pDWord p 0x001 0) with
  | .wait r => .error (.stall r)
  | .bad => .error (.code 0x27)
  | .ok k bs =>
    let wide : Bool := k.members ≠ 1
    if !any && !nbhd && wide then .error (.code 0x25)
    else
      match chooseBucket k bs (pShape p) with
      | none => .error (.code 0x24)
      | some k =>
        .ok { id := s.nextId, qcb := x.qcb, hdr := p.at_, ctx := x.ctx, k := k, nbhd := if any then wide else nbhd
              args := (pField p 0x003).getD [], pscr := (pWord p 0x004 0).toNat, irq := p.irq }

/-- A launch packet acts: it waits where the package scratchpad has no room. -/
def launchPacket (s : State) (x : Slot) (p : Packet) (nbhd any : Bool) (then_ : State → Launch → State) : State :=
  match launchOfPacket s x p nbhd any with
  | .error (.stall r) => frontStall s x.ctx r
  | .error (.code c) => queueError s x.qcb c p.at_
  | .ok l =>
    match grantRoom s l.pscr s.launches with
    | none => s
    | some (gs, s1) => then_ (beginLaunch { consume (kernelSeen s1 x.ctx (pDWord p 0x001 0)) x p with nextId := s.nextId + 1 } l gs) l

/-- LAUNCH (R280, R283). -/
def execLaunch (slot : Fin 256) (p : Packet) (s : State) : Out :=
  .next (takePacket s slot 0x001 p false fun s x => launchPacket s x p false false fun s _ => s)

/-- NBHD_LAUNCH (R280, R287). -/
def execNbhdLaunch (slot : Fin 256) (p : Packet) (s : State) : Out :=
  .next (takePacket s slot 0x002 p false fun s x => launchPacket s x p true false fun s _ => s)

/-- TASK_SEED (R283, R292): one entry into the ring of the Hasp's chiplet; it waits where there is no room. -/
def execTaskSeed (slot : Fin 256) (p : Packet) (s : State) : Out :=
  .next (takePacket s slot 0x003 p false fun s x =>
    match readKernel s x.ctx (pDWord p 0x001 0) with
    | .wait r => frontStall s x.ctx r
    | .bad => queueError s x.qcb 0x27 p.at_
    | .ok _ _ =>
      let chip := s.hasp.seed.toFin
      if ringFull s chip x.ctx then s
      else
        let n := (pWord p 0x005 3).toNat
        let e : SpawnEntry := { kdesc := pDWord p 0x001 0, args := pDWord p 0x005 1, join := pDWord p 0x006 0
                                entry := pWord p 0x005 0, n := n, qcb := x.qcb, hdr := p.at_, seed := s.nextId
                                time := s.feTime }
        let s1 := enqueue (consume (kernelSeen s x.ctx (pDWord p 0x001 0)) x p) chip x.ctx e
        { s1 with nextId := s.nextId + 1, seeds := s1.seeds ++ [⟨s.nextId, x.qcb, p.at_, n, p.irq⟩] })

/-- COPY (R283): sectors of 32 bytes from SRC to ADDR, on the C path. -/
def execCopy (slot : Fin 256) (p : Packet) (s : State) : Out :=
  .next (takePacket s slot 0x007 p false fun s x =>
    let y : Xfer := { blankXfer .packet with
      id := s.nextId, ctx := x.ctx, qcb := x.qcb, hdr := p.at_, sup := true, irq := p.irq
      left := List.range ((pWord p 0x00C 0).toNat / 32), src := pDWord p 0x008 0, dst := pDWord p 0x007 0 }
    let s1 := consume s x p
    { s1 with nextId := s.nextId + 1, xfers := s1.xfers ++ [y] })

/-! ### Edges (R291) -/

/-- The cost of an EDGE: the greatest entry over the pairs; none where a pair has no entry (log 13: DESIGN CHOICE). -/
def edgeCost (scope prod cons : Nat) : Option Nat :=
  let pairs := (classesOf (BitVec.ofNat 6 prod)).flatMap fun b => (classesOf (BitVec.ofNat 6 cons)).map fun a => fenceCost b a scope
  pairs.foldl (fun m c => match m, c with
    | some x, some y => some (max x y)
    | _, _ => none) (some 0)

/-- The 64 KiB units a buffer reaches, by physical unit, as far as they can be read. -/
def bufUnits (s : State) (ctx : Nat) (b : DWord × Nat) : List (Nat × Nat × Nat) :=
  let lo := b.1.toNat
  let n := if b.2 = 0 then 0 else (lo + b.2 - 1) / 0x10000 - lo / 0x10000 + 1
  (List.range n).filterMap fun i =>
    let at_ := if i = 0 then lo else (lo / 0x10000 + i) * 0x10000
    let stop := min (lo + b.2) ((lo / 0x10000 + i + 1) * 0x10000)
    match engineChk s (frontAcc ctx) .load (BitVec.ofNat 64 at_) 1 with
    | .ok l => some (l.pas.headD 0, stop - at_, at_)
    | .error _ => none

/-- The fence of an EDGE over its ranges: the debug detector notes it there for its consumers (R197); peers'
acknowledgements have come when P is a consumer (R173); the host's side keeps no line of them when H is one (R291). -/
def edgeFence (s : State) (ctx scope : Nat) (prod cons : BitVec 6) (bufs : List (DWord × Nat)) : State :=
  let s1 :=
    if s.hazards.isEmpty then s
    else
      let us := bufs.flatMap (bufUnits s ctx)
      coverHazards s cons (BitVec.ofNat 3 scope) .package fun h => (h.cls &&& prod) ≠ 0 &&
        us.any fun u => u.1 ≤ 32 * h.sector + 31 && 32 * h.sector < u.1 + u.2.1
  let asid := (ctxOf s ctx).map (·.asid)
  let held (l : Nat) : Bool := bufs.any fun b => (bufUnits s ctx b).any fun u => u.1 / 128 ≤ l && 128 * l < u.1 + u.2.1
  let s1 := if cons.getLsbD 5 then { s1 with link := { s1.link with buf := s1.link.buf.filter fun x => !held x.1 } } else s1
  if cons.getLsbD 4 then { s1 with pods := s1.pods.filter fun p => some p.asid ≠ asid } else s1

/-- EDGE (R283, R291): it acts after every earlier packet, and its cost passes before a later one starts. -/
def execEdge (slot : Fin 256) (p : Packet) (s : State) : Out :=
  .next (takePacket s slot 0x004 p true fun s x =>
    let w := (pWord p 0x00E 0).toNat
    match edgeCost (w % 8) (w / 2 ^ 8 % 64) (w / 2 ^ 16 % 64) with
    | none => queueError s x.qcb 0x25 p.at_
    | some c =>
      let s1 := edgeFence s x.ctx (w % 8) (BitVec.ofNat 6 (w / 2 ^ 8)) (BitVec.ofNat 6 (w / 2 ^ 16)) (pBufs p)
      tick (doneAtOnce s1 x p) c)

/-! ### Signals, waits, writes and stamps (R283) -/

/-- A wake: PEND and WCOUNT in one atomic; a mapped queue's slot is notified, else the Hasp hears (R278, R289). One that finds
RD = WR brings no packet, and the queue's idle time runs on (R288). -/
def wakeQueue (s : State) (q : Nat) : State :=
  let s1 := qcbPut s q 0x14 4 (2 ^ 31 + (qcbGet s q 0x14 4 + 1) % 2 ^ 31)
  match s1.slots.find? fun x => x.qcb = q with
  | some x =>
    if x.drain ≠ 0 || qcbGet s q 0x0C 4 = qcbGet s q 0x10 4 then s1 else setSlot s1 { x with idle := false, idleAt := s.clk.toNat }
  | none => haspEvent s1 1 0 0 q

/-- DOORBELL (R278): a host write of a QCB's physical address; none comes over a link that is down (R305). -/
def execDoorbell (qcb : Nat) (s : State) : Out :=
  if thereAt s qcb then .next (if s.link.up then wakeQueue s qcb else s) else .fault (.unmappedPhysical qcb)

/-- SIGNAL (R281, R283): a store, an add, an or, or a wake of the queue named. -/
def execSignal (slot : Fin 256) (p : Packet) (s : State) : Out :=
  .next (takePacket s slot 0x005 p true fun s x =>
    let g := pDWord p 0x007 0
    let v := pWord p 0x009 0
    let old : Word := match engineChk s (frontAcc x.ctx) .load g 4 with
      | .ok l => BitVec.ofNat 32 (leNat (l.pas.map (physByte s)))
      | .error _ => 0
    match (pWord p 0x00A 0).toNat with
    | 0 => frontStore s x p .store g [v]
    | 1 => frontStore s x p .atomic g [old + v]
    | 2 => frontStore s x p .atomic g [old ||| v]
    | _ => doneAtOnce (wakeQueue s g.toNat) x p)

/-- WRITE (R283). -/
def execWrite (slot : Fin 256) (p : Packet) (s : State) : Out :=
  .next (takePacket s slot 0x008 p true fun s x => frontStore s x p .store (pDWord p 0x007 0) ((pField p 0x00B).getD []))

/-- STAMP (R283): the package cycle count, then the front end's logical time. -/
def execStamp (slot : Fin 256) (p : Packet) (s : State) : Out :=
  .next (takePacket s slot 0x009 p true fun s x =>
    let t : DWord := BitVec.ofNat 64 (feNow (raiseFe s))
    frontStore s x p .store (pDWord p 0x007 0) [s.clk.loWord, s.clk.hiWord, t.loWord, t.hiWord])

/-- Does a WAIT's condition hold of a value? -/
def waitHolds (p : Packet) (v : Word) : Bool :=
  let x := pWord p 0x009 0
  match (pWord p 0x00A 0).toNat with
  | 0 => v = x
  | 1 => x.toNat ≤ v.toNat
  | _ => v ≠ x

/-- The word a WAIT watches. -/
def waitWord (s : State) (ctx : Nat) (p : Packet) : Except Miss (Nat × Word) :=
  match engineChk s (frontAcc ctx) .load (pDWord p 0x007 0) 4 with
  | .ok l => .ok (l.pas.headD 0, BitVec.ofNat 32 (leNat (l.pas.map (physByte s))))
  | .error m => .error m

/-- WAIT (R283): it completes if its condition holds; else the queue waits in state 4 with a monitor on the word. -/
def execWait (slot : Fin 256) (p : Packet) (s : State) : Out :=
  .next (takePacket s slot 0x006 p true fun s x =>
    match waitWord s x.ctx p with
    | .error (.recov r) => frontStall s x.ctx r
    | .error (.trap _) => queueError s x.qcb 0x25 p.at_
    | .ok (pa, v) =>
      let s := frontSeen s x.ctx (pDWord p 0x007 0) 4
      if waitHolds p v then doneAtOnce s x p
      else
        let s1 := setQueueState (consume s x p) x.qcb 4
        let s2 := putMonitor s1 { addr := pa, len := 4, wave := 0, leaf := none, slot := some x.n }
        match slotAt s2 x.n with
        | some y => setSlot s2 { y with wait := some p }
        | none => s2)

/-- WAIT_SATISFIED (R283): the condition holds; the queue returns to state 2. -/
def execWaitSatisfied (slot : Fin 256) (s : State) : Out :=
  .next (match slotAt s slot with
    | none => s
    | some x =>
      match x.wait with
      | none => s
      | some p =>
        match waitWord s x.ctx p with
        | .error (.recov r) => frontStall s x.ctx r
        | .error (.trap _) => s
        | .ok (_, v) =>
          if x.drain ≠ 0 || !waitHolds p v then s
          else
            let s1 := setSlot (frontSeen s x.ctx (pDWord p 0x007 0) 4) { x with wait := none, idle := false, idleAt := s.clk.toNat }
            let s2 := dropMonitors s1 fun m => m.wave = 0 && m.leaf.isNone && m.slot = some x.n
            haspEvent (complete (setQueueState s2 x.qcb 2) x.qcb p.irq) 10 x.n.val 0 x.qcb)

/-- Is a refute of a slot's packet still at its context's slot map? -/
def sweeping (s : State) (x : Slot) : Bool := ((ctxOf s x.ctx).map fun c => c.reqs.any fun r => r.slot = some x.n).getD false

/-- Put a slot's refute of a node, or of every live node, at the slot map, behind the requests there. -/
def putSweep (s : State) (x : Slot) (c : Context) (h : BitVec 6) : State :=
  let r : HypReq := { wave := 0, leaf := none, leader := 0, op := .refute h, slot := some x.n
                      gen := if h = 0 then none else (c.node h).slots.getLast? }
  setSlot (setCtx s { c with reqs := c.reqs ++ [r] }) x

/-- A HYP_SWEEP that the slot map has performed completes. -/
def finishSweep (s : State) (x : Slot) : State :=
  match x.sweep with
  | some p => doneAtOnce (setSlot s { x with sweep := none }) x p
  | none => s

/-- HYP_SWEEP (R283): the named node's subtree, or every live node; a node that is not live is left alone. The packet
completes when the slot map and every core have performed it. -/
def execHypSweep (slot : Fin 256) (p : Packet) (s : State) : Out :=
  .next (takePacket s slot 0x00A p true fun s x =>
    let h : BitVec 6 := (pWord p 0x00F 0).setWidth 6
    match ctxOf s x.ctx with
    | none => s
    | some c =>
      if x.sweep.isSome then (if sweeping s x then s else finishSweep s x)
      else if h ≠ 0 && (c.node h).st ≠ .live then doneAtOnce s x p
      else putSweep s { x with sweep := some p } c h)

/-- The NOP packet (R283). -/
def execNopPacket (slot : Fin 256) (p : Packet) (s : State) : Out :=
  .next (takePacket s slot 0x00C p false fun s x => doneAtOnce s x p)

/-- UNKNOWN_PACKET_TYPE (R280, R308): a packet of an unknown or disabled type stops the queue with error 0x21. -/
def execUnknownPacketType (slot : Fin 256) (_p : Packet) (s : State) : Out :=
  .next (match slotAt s slot with
    | none => s
    | some x =>
      if !mayTake s x then s
      else
        match headOf s x with
        | .packet t (.error c) =>
          if typeEnabled s t then s
          else queueError (clearPend s x.qcb) x.qcb c (BitVec.ofNat 32 (qcbGet s x.qcb 0x0C 4))
        | _ => s)

/-! ### Replay (R314) -/

/-- REPLAY (R314): it acts after every earlier packet; its first pass is a launch with capture. -/
def execReplay (slot : Fin 256) (p : Packet) (s : State) : Out :=
  .next (takePacket s slot 0x00B p true fun s x =>
    launchPacket s x p false true fun s l =>
      let l := { l with replay := true }
      let s1 := setLaunch s { ((s.launches.find? fun y => y.id = l.id).getD l) with replay := true }
      match slotAt s1 x.n with
      | some y => setSlot s1 { y with replay := some { qcb := x.qcb, launch := l, reps := (pWord p 0x010 0).toNat } }
      | none => s1)

/-- A captured unit is restored, its lines written past every lease. -/
def restoreUnit (s : State) (u : Nat × List Host.Cell) : State :=
  let mem := u.2.foldl (fun m c => memSet m c.1 c.2) (memZero s.mem (0x10000 * u.1) 0x10000)
  { s with
    mem := mem
    lines := s.lines.map fun x => if x.slot = 0 && x.line / 512 = u.1 then { x with wts := x.rts + 1, rts := x.rts + 1 } else x
    monitors := s.monitors.map fun m => if m.addr / 0x10000 = u.1 then m.wake ((lineOf s (m.addr / 128)).rts + 1) else m }

/-- A later pass begins (R314): the captured units are restored, the refute of every live hypothesis takes its place at the slot
map (R261), and no cache holds a line and no TLB an entry of the context. -/
def beginPass (s : State) (x : Slot) (r : Replay) : State :=
  let s1 := r.units.foldl restoreUnit s
  match ctxOf s1 x.ctx with
  | none => s1
  | some c => putSweep { tlbDrop s1 (fun t => t.asid = c.asid) with copies := [] } { x with replay := some { r with begun := true } } c 0

/-- REPLAY_PASS (R314): a later pass begins, and once its refutes have been performed runs the launch again. -/
def execReplayPass (slot : Fin 256) (s : State) : Out :=
  .next (match slotAt s slot with
    | none => s
    | some x =>
      match x.replay with
      | none => s
      | some r =>
        if r.passes = 0 || s.launches.any fun l => l.qcb = x.qcb then s
        else if !r.begun then beginPass s x r
        else if sweeping s x then s
        else
          match grantRoom s r.launch.pscr s.launches with
          | none => s
          | some (gs, s1) =>
            let l := { r.launch with id := s1.nextId }
            setSlot (beginLaunch { s1 with nextId := s1.nextId + 1 } l gs) { x with replay := some { r with launch := l, begun := false } })

/-- The replay status after a pass. -/
def replayStat (st : ReplayStat) (r : Replay) : ReplayStat :=
  let n := r.passes + 1
  let first : Word := if n ≠ 1 && st.first = 0 && r.sum ≠ st.sig1 then BitVec.ofNat 32 n else if n = 1 then 0 else st.first
  let w0 : Nat := n + (if first ≠ 0 then 0x10000 else 0) + (if r.capfull then 0x20000 else 0)
  { slot := st.slot, w0 := BitVec.ofNat 32 w0, first := first, sig1 := if n = 1 then r.sum else st.sig1, sigN := r.sum }

/-- A pass ends: its signature is recorded; the last one, or the first after a full capture, ends the packet. -/
def endPass (s : State) (x : Slot) (r : Replay) (irq : Bool) : State :=
  let st := replayStat ((s.replays.find? fun y => y.slot = x.n).getD { slot := x.n }) r
  let s1 := { s with replays := (s.replays.filter fun y => y.slot ≠ x.n) ++ [st] }
  let r' := { r with passes := r.passes + 1, sum := 0 }
  if r'.passes < r.reps && !r.capfull then raiseFe (setSlot s1 { x with replay := some r' })
  else
    let s2 := setSlot s1 { x with replay := none }
    complete (qcbPut s2 x.qcb 0x48 8 (qcbGet s2 x.qcb 0x48 8 + 1)) x.qcb irq

/-! ### Completion (R283) -/

/-- LDONE counts a launch or a seed. -/
def countDone (s : State) (q : Nat) (irq : Bool) : State := complete (qcbPut s q 0x48 8 (qcbGet s q 0x48 8 + 1)) q irq

/-- A launch is over: its grant is free, its completion or its pass is recorded. -/
def endLaunch (s : State) (l : Launch) : State :=
  let s1 := { s with launches := s.launches.filter fun y => y.id ≠ l.id }
  match s.slots.find? fun x => x.qcb = l.qcb with
  | some x =>
    match x.replay with
    | some r => if l.replay then endPass s1 x r l.irq else countDone s1 l.qcb l.irq
    | none => countDone s1 l.qcb l.irq
  | none => countDone s1 l.qcb l.irq

/-- LAUNCH_COMPLETION (R283): a launch whose every workgroup has exited, a seed whose every task has ended, a copy whose
every sector has been performed. -/
def execLaunchCompletion (id : Nat) (s : State) : Out :=
  .next (
    match s.launches.find? fun l => l.id = id with
    | some l => if l.placed && l.live = 0 then endLaunch s l else s
    | none =>
      match s.seeds.find? fun x => x.id = id with
      | some x =>
        if x.left = 0 then countDone { s with seeds := s.seeds.filter fun y => y.id ≠ id } x.qcb x.irq else s
      | none =>
        match s.xfers.find? fun x => x.id = id with
        | some x =>
          if x.kind = .packet && x.left = [] then
            complete { s with xfers := s.xfers.filter fun y => y.id ≠ id } x.qcb x.irq
          else s
        | none => s)

/-! ### Mapping (R277, R288) -/

/-- The context fields of a QCB: WTAB, SUPCO, TRAPENT, DBG, SPILL, SPSIZE, TBASE, TCOUNT (R277). -/
def qcbContext (s : State) (q : Nat) (c : Context) : Context :=
  let d (o : Nat) : DWord := BitVec.ofNat 64 (qcbGet s q o 8)
  let w (o : Nat) : Word := BitVec.ofNat 32 (qcbGet s q o 4)
  { c with
    wtab := d 0x20, supco := d 0x28, trapent := w 0x30, dbg := ebit (qcbGet s q 0x18 4) 8, spill := d 0x58
    spsize := d 0x60, tbase := w 0x68, tcount := w 0x6C }

/-- A window table with no nonzero reserved field (R143); bits [63:52] of +0x00, which the table leaves out, count as
reserved (log 50: DESIGN CHOICE). -/
def wtabOk (s : State) (a : Nat) : Bool :=
  physNat s a 8 % 2 ^ 12 = 0 && physNat s a 8 < 2 ^ 52 && physNat s (a + 8) 8 < 2 ^ 11 &&
    (span (a + 0x40) 64).all fun b => physByte s b = 0

/-- A context's record as its window table and first QCB give it (R143, R277). -/
def boundContext (s : State) (q ctx : Nat) : Context :=
  let c := qcbContext s q { ctx := ctx }
  let a := c.wtab.toNat
  let d (o : Nat) : DWord := BitVec.ofNat 64 (physNat s (a + o) 8)
  { c with
    asid := BitVec.ofNat 11 (physNat s (a + 8) 8), table := physNat s a 8, lbase := d 0x10, pbase := d 0x18, psize := d 0x20
    ibase := d 0x28, vbase := d 0x30, vsize := d 0x38, qcbs := [q] }

/-- Do a later QCB's fields equal the context's own? -/
def qcbAgrees (s : State) (q : Nat) (c : Context) : Bool := qcbContext s q c = c

/-- May an ended context's number be bound afresh (R277)? -/
def mayRebind (s : State) (c : Context) : Bool :=
  c.qcbs.all fun q => !(queueState s q = 5 && qcbGet s q 0x38 4 = 0x28)

/-- Debug mode that the configuration record does not permit (R310). -/
def dbgRefused (s : State) (c : Context) : Bool := c.dbg && !((s.config.map (·.debug)).getD false)

/-- Bind a context afresh: it ends at once where its window table or its debug mode is refused (R277, R310) (log 23: DEDUCED). -/
def bindContext (s : State) (q ctx : Nat) : State :=
  let c := boundContext s q ctx
  let s1 := { s with ctxs := s.ctxs.filter (fun x => x.ctx ≠ ctx) ++ [c] }
  if !wtabOk s c.wtab.toNat || dbgRefused s c then endContext s1 ctx 0x26 0 0x1FF else s1

/-- A QCB the front end has mapped is its context's. -/
def addQcb (s : State) (q ctx : Nat) : State :=
  match ctxOf s ctx with
  | some c => setCtx s { c with qcbs := if c.qcbs.contains q then c.qcbs else c.qcbs ++ [q] }
  | none => s

/-- The queue takes its slot; a launch left partly placed goes on (R289) (log 19: DEDUCED). -/
def occupy (s : State) (slot : Fin 256) (q ctx : Nat) : State :=
  let cls := qcbClass s q
  let x : Slot := { n := slot, qcb := q, ctx := ctx, cls := cls, mappedAt := s.clk.toNat, idleAt := s.clk.toNat
                    movedAt := s.clk.toNat }
  let s1 := setQueueState (qcbPut s q 0x34 4 slot.val) q 2
  let s2 := qcbPut (qcbPut s1 q 0x70 4 0xFFFFFFFF) q 0x74 4 0
  let s3 := { s2 with
    slots := s2.slots ++ [x]
    launches := s2.launches.map fun l => if l.qcb = q then { l with held := false } else l
    hasp := { s2.hasp with ready := Vector.ofFn fun c => (s2.hasp.ready[c]).filter (· ≠ q) } }
  let s4 := trace (haspEvent s3 2 slot.val 0 q) 1 slot.val cls.val q 0 0 ctx
  if (s4.hasp.min[cls]).toNat < (s4.slots.filter fun y => y.cls = cls).length then trace s4 3 slot.val cls.val q 0 0 ctx else s4

/-- The slots a class holds. -/
def slotsHeld (s : State) (c : Fin 4) : Nat := (s.slots.filter fun y => y.cls = c).length

/-- The slot a ready queue of a class reclaims where no slot is free and its class holds fewer than its minimum: of the
lowest-priority class holding a surplus, the one mapped longest (R288). -/
def reclaimSlot (s : State) (cls : Fin 4) : Option Slot :=
  if s.slots.length < 256 || (s.hasp.min[cls]).toNat ≤ slotsHeld s cls then none
  else
    (([3, 2, 1, 0] : List (Fin 4)).find? fun c => (s.hasp.min[c]).toNat < slotsHeld s c).bind fun c =>
      (s.slots.filter fun y => y.cls = c && y.drain = 0).foldl (fun b y => match b with
        | none => some y
        | some z => if y.mappedAt < z.mappedAt then some y else some z) none

/-- Forced unmapping begins (R289): no further ring word is read; STATE is 3 until the slot is released. -/
def beginUnmap (s : State) (x : Slot) : State := setSlot (setQueueState s x.qcb 3) { x with drain := 1 }

/-- A slot is reclaimed: recorded (R298), and unmapped by force. -/
def reclaim (s : State) (x : Slot) : State := beginUnmap (trace s 4 x.n.val x.cls.val x.qcb 0 0 x.ctx) x

/-- QUEUE_MAP (R277): MAPCMD 1. The QCB that MAPQ names goes to a free slot, from state 0 or 1 (log 29: DEDUCED); the slot a
ready queue may reclaim is unmapped for it first (R288). It waits for the link that carries the QCB (R305). -/
def execQueueMap (slot : Fin 256) (s : State) : Out :=
  .next (
    let q := s.hasp.mapq.toNat
    let st := queueState s q
    if linkHolds s [q] then s
    else if s.boot.up && st = 1 && (reclaimSlot s (qcbClass s q)).any (fun x => x.n = slot) then
      (match slotAt s slot with
        | some x => reclaim s x
        | none => s)
    else if !s.boot.up || (slotAt s slot).isSome || (s.slots.any fun x => x.qcb = q) || !(st = 0 || st = 1) then s
    else
      let ctx := qcbGet s q 0x1C 2
      let rd : Word := BitVec.ofNat 32 (qcbGet s q 0x0C 4)
      let fresh : Bool := match ctxOf s ctx with
        | none => true
        | some c => c.ended.isSome && mayRebind s c
      let s1 := if fresh then bindContext s q ctx else addQcb s q ctx
      match ctxOf s1 ctx with
      | none => s1
      | some c =>
        let size := qcbGet s q 0x08 4
        match c.ended with
        | some e => if fresh then s1 else queueError s1 q 0x28 e
        | none =>
          if !qcbAgrees s1 q c then queueError s1 q 0x26 rd
          else if size < 64 || 2 ^ 24 < size || 2 ^ Nat.log2 size ≠ size then queueError s1 q 0x25 rd
          else occupy s1 slot q ctx)

/-! ### Unmapping (R289) -/

/-- FORCE_UNMAP (R289): MAPCMD 2. Of the slot that a queue on a ready list may reclaim, it is recorded as that (R288). -/
def execForceUnmap (slot : Fin 256) (s : State) : Out :=
  .next (match slotAt s slot with
    | none => s
    | some x =>
      if x.drain ≠ 0 then s
      else if (List.finRange 4).any fun c => !s.hasp.ready[c].isEmpty && (reclaimSlot s c).any fun y => y.n = x.n then reclaim s x
      else beginUnmap s x)

/-- A packet whose launch has placed nothing yet is given back: RD returns to its header, and its grant is free (R289). -/
def giveBackLaunch (s : State) (x : Slot) : State :=
  match s.launches.find? fun l => l.qcb = x.qcb && !l.placed && l.next = 0 with
  | none => s
  | some l =>
    let s1 := qcbPut { s with launches := s.launches.filter fun y => y.id ≠ l.id } x.qcb 0x0C 4 l.hdr.toNat
    qcbPut s1 x.qcb 0x40 8 (qcbGet s1 x.qcb 0x40 8 + 2 ^ 64 - 1)

/-- Steps 2 to 4 of R289, and what the Hasp does then. -/
def unmap (s : State) (x : Slot) : State :=
  let s := giveBackLaunch s x
  let l := s.launches.find? fun l => l.qcb = x.qcb && !l.placed
  let s1 := qcbPut (qcbPut s x.qcb 0x70 4 ((l.map (·.hdr.toNat)).getD 0xFFFFFFFF)) x.qcb 0x74 4 ((l.map (·.next)).getD 0)
  let s2 := { s1 with launches := s1.launches.map fun l => if l.qcb = x.qcb && !l.placed then { l with held := true } else l }
  let s3 := setQueueState (releaseSlot s2 x) x.qcb 0
  let pend := qcbGet s3 x.qcb 0x14 4
  let s4 := qcbPut s3 x.qcb 0x14 4 (pend % 2 ^ 31)
  let again : Bool := 2 ^ 31 ≤ pend || qcbGet s4 x.qcb 0x10 4 ≠ qcbGet s4 x.qcb 0x0C 4 || l.isSome
  let s5 := if again then
      let s5 := setQueueState s4 x.qcb 1
      { s5 with hasp := { s5.hasp with ready := s5.hasp.ready.set x.cls (s5.hasp.ready[x.cls] ++ [x.qcb]) } }
    else s4
  trace (haspEvent s5 3 x.n.val 0 x.qcb) 2 x.n.val x.cls.val x.qcb 0 0 x.ctx

/-- UNMAP_COMPLETE (R289): the drained slot is written back and released, once the link that carries its QCB is up (R305); a
replay is let end first (log 32: DESIGN CHOICE), and a parsed HYP_SWEEP completes. -/
def execUnmapComplete (slot : Fin 256) (s : State) : Out :=
  .next (match slotAt s slot with
    | none => s
    | some x =>
      if x.drain = 0 || x.replay.isSome || sweeping s x || linkHolds s [x.qcb] then s
      else
        let s1 := finishSweep s x
        match slotAt s1 slot with
        | some y => unmap s1 y
        | none => s1)

/-- The stall watch records a mapped queue with no movement of RD and no completion for 2^30 CCLK, once (R297, R298). -/
def stallWatch (s : State) (x : Slot) : State :=
  if x.stalled || s.clk.toNat < x.movedAt + 2 ^ 30 then s
  else setSlot (trace s 8 x.n.val x.cls.val x.qcb 0 0 x.ctx) { x with stalled := true }

/-- QUEUE_IDLE_TIMEOUT (R288): a mapped queue is idle in state 4, or 4,096 CCLK after RD = WR with nothing to place. The
stall watch looks at the queue too. -/
def execQueueIdleTimeout (slot : Fin 256) (s : State) : Out :=
  .next (match slotAt s slot with
    | none => s
    | some x =>
      let empty : Bool := qcbGet s x.qcb 0x0C 4 = qcbGet s x.qcb 0x10 4
      let x' := if queueState s x.qcb = 4 || (empty && !placing s x.qcb && x.idleAt + 4096 ≤ s.clk.toNat) then { x with idle := true }
        else x
      stallWatch (setSlot s x') x')

/-! ### The Hasp's events (R296, R316) -/

/-- PEXCL of a chiplet's cores set or cleared. -/
def exclude (s : State) (c : Fin 8) (on : Bool) : State :=
  let m (i : Nat) : Word := (List.range 32).foldl (fun w b => if (32 * i + b) / 48 = c.val then w ||| BitVec.ofNat 32 (2 ^ b) else w) 0
  { s with hasp := { s.hasp with pexcl := Vector.ofFn fun i =>
      if on then s.hasp.pexcl[i] ||| m i.val else s.hasp.pexcl[i] &&& ~~~(m i.val) } }

/-- The first enabled core of the chiplet whose stack is coolest, of those with an enabled core (R316). -/
def coolCore (s : State) : Option (Fin 384) :=
  let on := (List.finRange 8).filter fun c => chipletOn s c.val
  let best := on.foldl (fun (b : Option (Fin 8)) c => match b with
    | none => some c
    | some x => if s.thermal[c].temp.toNat < s.thermal[x].temp.toNat then some c else some x) none
  best.bind fun c => ((List.range 48).map fun i => coreNo (48 * c.val + i)).find? fun n => (coreMask s).getLsbD n

/-- What Dolyen's firmware answers event 9 of a stack with (R316). -/
def thermalAnswer (s : State) (i : Fin 8) : State :=
  let x := s.thermal[i]
  let low := min x.tallow.toNat (max 40 (x.tallow.toNat - 10))
  let s1 := exclude { s with thermal := s.thermal.set i { x with
    tallow := BitVec.ofNat 7 low, before := some (x.before.getD x.tallow) } } i true
  let s2 := match coolCore s with
    | some n => { s1 with hasp := { s1.hasp with pcur := BitVec.ofNat 9 n.val } }
    | none => s1
  trace s2 9 0xFFFF 0 0 (48 * i.val) 0 0

/-- The read of EVT pops one event; 0 when there is none (R296). -/
def popEvent (s : State) : State :=
  match s.hasp.events with
  | [] => { s with hasp := { s.hasp with evt := 0 } }
  | e :: t =>
    let w : Word := BitVec.ofNat 32 (e.kind.toNat * 2 ^ 28 + e.slot.toNat * 2 ^ 20 + e.detail.toNat)
    { s with hasp := { s.hasp with events := t, evt := w, evq := BitVec.ofNat 64 e.qcb } }

/-- EVT_POP (R296): Dolyen's firmware reads EVT, and answers a thermal alarm (R316; log 18: DESIGN
CHOICE). -/
def execEvtPop (s : State) : Out :=
  .next (match s.hasp.events with
    | [] => popEvent s
    | e :: _ => if e.kind = 9 then thermalAnswer (popEvent s) (Fin.ofNat 8 e.detail.toNat) else popEvent s)

end Sys2Proof.Machine
end

