-- ==== Sys2Proof/Machine/Home.lean ====
section
/-!
DEFINITION. Steps at the memory homes (spec/08_memory.md R161 to R163, spec/09 R165, R167, spec/12 R241): accesses that
arrive at a home and their replies, shoot-downs, page exchanges and poison.
-/

namespace Sys2Proof.Machine

/-! ### Lane-path accesses at a home (R165) -/

/-- A load at home: a lease past the time sent. -/
def homeLoad (s : State) (n : Fin 384) (pas : List Nat) : State :=
  (byLine s pas).foldl (fun s g =>
    let l := homeLine s (32 * g.headD 0)
    (readAt (noteMiss s l) (ltOf s n) (ltOf s n + Config.lease s.freeCtr) 0 0 l).2) s

/-- A store or atomic at home: a time past every lease, and above `floor`. -/
def homeStore (s : State) (n : Fin 384) (floor : Nat) (pas : List Nat) : State :=
  (byLine s pas).foldl (fun s g => (writeAt s (max (ltOf s n) floor) 0 0 g).2) s

/-- Do bytes lie where the lane path reaches: in memory, not in device registers (R304)? -/
def laneHome (pas : List Nat) : Bool := pas.all fun a => (physKind a).any fun k => k ≠ .device

/-- May the lane path write there: views are not written (R158)? -/
def storeHome (pas : List Nat) : Bool := laneHome pas && pas.all fun a => physKind a ≠ some .view

/-- The atomics of one request, ascending (R181). -/
def homeAtomics (s : State) (addr : Nat) (aop : BitVec 4) (data : List DWord) : State :=
  data.foldl (fun s d => physPut s addr 4 (atomFn aop (BitVec.ofNat 32 (physNat s addr 4)) d.loWord d.hiWord).toNat) s

/-- The hypothesis a store tagged with a node's first slot is made under when it reaches its home (R263, R363), and the time it
is performed above: the live node that holds the slot, its own or the one that took its versions; committed memory where
a confirm put them; none where they were refuted. -/
def tagTarget (c : Context) (g : Nat) : Option (BitVec 6 × Nat) :=
  let past := c.passed.find? fun x => x.1 = g
  let floor := (past.map fun x => x.2.1 + 1).getD 0
  if g = 0 then some (0, 0)
  else
    match (List.finRange 64).find? fun (i : Fin 64) => c.nodes[i].st = .live && c.nodes[i].slots.contains g with
    | some i => some (BitVec.ofNat 6 i, floor)
    | none => if past.any fun x => x.2.2 then some (0, floor) else none

/-- A store tagged with a hypothesis arrives at its home (R363). -/
def homeTagged (s : State) (core : Fin 384) (a : Nat) (bs : List Byte) (ctx : Nat) (g : Nat) : State :=
  match ctxOf s ctx with
  | none => s
  | some c =>
    match tagTarget c g with
    | none => s
    | some (p, t) =>
      if p = 0 then physWrite (homeStore (captureAny s (span a bs.length)) core t (span a bs.length)) a bs
      else
        let lt := max (ltOf s core) t
        match versStore s ctx p ((span a bs.length).zip bs) with
        | none => s
        | some s1 =>
          let slot (sec : Nat) : Nat := (((ctxOf s1 ctx).bind fun c => versionOf c p sec).map (·.slot)).getD 0
          let secs := ((span a bs.length).map (· / 32)).eraseDups
          (lineRequests s1 (secs.map fun x => (slot x, x))).foldl (fun s r => (writeAt s lt ctx r.1 r.2).2) s1

/-- The address a request of a core names, and how many bytes it is of. -/
def reqAddr : HomeReq → Nat
  | .load a _ | .store a _ | .atomic a _ _ | .tagged a _ _ _ => a

/-- The bytes of a request. -/
def reqBytes : HomeReq → List Nat
  | .load a n => span a n
  | .store a bs | .tagged a bs _ _ => span a bs.length
  | .atomic a _ _ => span a 4

/-- A request at another address. -/
def reqMove (r : HomeReq) (a : Nat) : HomeReq :=
  match r with
  | .load _ n => .load a n
  | .store _ bs => .store a bs
  | .atomic _ op d => .atomic a op d
  | .tagged _ bs c g => .tagged a bs c g

/-- A request is performed at its home (R165): one that the lane path does not make there changes nothing. -/
def atHome (s : State) (core : Fin 384) (req : HomeReq) : State :=
  let pas := reqBytes req
  match req with
  | .load .. => if laneHome pas then homeLoad s core pas else s
  | .store a bs => if storeHome pas then physWrite (homeStore (captureAny s pas) core 0 pas) a bs else s
  | .atomic a op data => if storeHome pas then homeAtomics (homeStore (captureAny s pas) core 0 pas) a op data else s
  | .tagged a bs c g => if storeHome pas then homeTagged s core a bs c g else s

/-- The frame of a leaf entry. -/
def frameOf (e : Nat) : Nat := bitsOf e 51 16 * 2 ^ 16

/-- Bytes of an exchanged page. -/
def pageBytes (big : Bool) : Nat := if big then 2 ^ 21 else 2 ^ 16

/-- Where a physical address goes when frames of `n` bytes at `a` and `b` change places. -/
def swapAddr (a b n x : Nat) : Nat :=
  if a ≤ x && x < a + n then b + (x - a) else if b ≤ x && x < b + n then a + (x - b) else x

/-- Where an exchange has a byte (R162): the leaf entry of its page, its offset there, and its address in the other frame. -/
structure Place where
  x     : Exchange
  pte   : Nat
  ofs   : Nat
  other : Nat
  deriving DecidableEq, Repr

/-- The exchange whose frames hold a byte, and where. -/
def exchangeOf (s : State) (p : Nat) : Option Place :=
  s.exchanges.findSome? fun x =>
    let f (e : Nat) : Nat := frameOf (physNat s e 8)
    let in_ (e : Nat) : Bool := f e ≤ p && p < f e + pageBytes x.big
    let at_ (e : Nat) : Place := ⟨x, e, p - f e, swapAddr (f x.near) (f x.far) (pageBytes x.big) p⟩
    if in_ x.near then some (at_ x.near) else if in_ x.far then some (at_ x.far) else none

/-- Is the copy of the byte's line done? -/
def Place.copied (y : Place) : Bool := y.ofs / 128 < y.x.done

/-- A request of a core arrives at a home. In a frame under exchange it stalls until its line's copy is done (R162); then an
atomic is answered "moved" before it is performed (R163), and a load or store goes where the line lies now. -/
def arriveHome (s : State) (core : Fin 384) (req : HomeReq) : State :=
  match (reqBytes req).findSome? (exchangeOf s) with
  | none => atHome s core req
  | some _ =>
    match exchangeOf s (reqAddr req) with
    | none => { s with stalled := s.stalled ++ [⟨core, req⟩] }
    | some y =>
      if !y.copied then { s with stalled := s.stalled ++ [⟨core, req⟩] }
      else
        match req with
        | .atomic .. => { s with moved := s.moved ++ [⟨core, y.pte, y.ofs, req⟩] }
        | _ => atHome s core (reqMove req y.other)

/-- LANE_ACCESS_AT_HOME (R165): a request of a core arrives at its home. Its bytes' first address must exist. -/
def execLaneAccessAtHome (core : Fin 384) (req : HomeReq) (s : State) : Out :=
  if !thereAt s (reqAddr req) then .fault (.unmappedPhysical (reqAddr req)) else .next (arriveHome s core req)

/-- LANE_ACCESS_REPLY (R165): the reply raises the core's logical time; the destination is written by the word itself. -/
def execLaneAccessReply (core : Fin 384) (time : Nat) (s : State) : Out := .next (raiseLt s core time)

/-! ### Shoot-downs (R161) -/

/-- Does an entry translate an address of an ASID's range [lo, hi)? -/
def TlbEntry.inRange (t : TlbEntry) (asid : BitVec 11) (lo hi : Nat) : Bool :=
  t.asid = asid && t.va < hi && lo < t.va + 2 ^ leafBits t.level

/-- SHOOT_DOWN (R161): the sequence number rises, and every TLB drops its entries of the range. A walk begins and ends in one
step, under one number, so none is under way to be discarded (log 63: DESIGN CHOICE): the shoot-down is complete at once. -/
def execShootDown (asid : BitVec 11) (lo hi : Nat) (s : State) : Out :=
  .next (tlbDrop { s with shootSeq := s.shootSeq + 1 } fun t => t.inRange asid lo hi)

/-- The shoot-downs of two leaf entries' pages (R162). -/
def shootPages (s : State) (a b : Nat) : State :=
  tlbDrop { s with shootSeq := s.shootSeq + 2 } fun t => t.pte = a || t.pte = b

/-! ### Page exchanges (R162, R163) -/

/-- Does a page table hold an entry, by its address, at a level? -/
def tableHolds (s : State) (pte want : Nat) : Nat → Nat → Nat → Bool
  | 0, _, _ => false
  | n + 1, level, table =>
    let size := if level = 5 then 32 else 512
    if level = want then table ≤ pte && pte < table + 8 * size && (pte - table) % 8 = 0
    else (List.range size).any fun i =>
      let e := physNat s (table + 8 * i) 8
      ebit e 0 && !ebit e 13 && tableHolds s pte want n (level + 1) (bitsOf e 51 8 * 256)

/-- Is an entry a valid leaf of a page of 64 KiB or 2 MiB that is not moving, in a context's tables (R156, R162)? -/
def exchangeLeaf (s : State) (pte : Nat) (big : Bool) : Bool :=
  let level := if big then 4 else 5
  let e := physNat s pte 8
  ebit e 0 && ebit e 13 && !ebit e 10 && leafOk level e && s.ctxs.any fun c => tableHolds s pte level 5 1 c.table

/-- Can two leaf entries be exchanged: pages of one size, the first near and the second far? A 1 GiB page never is. -/
def exchangeOk (s : State) (near far : Nat) (big : Bool) : Bool :=
  near ≠ far && exchangeLeaf s near big && exchangeLeaf s far big && !ebit (physNat s near 8) 9 && ebit (physNat s far 8) 9

/-- PAGE_EXCHANGE_START (R162, step 1): MOV is set in both entries, which are shot down; the copy of their frames begins. -/
def execPageExchangeStart (nearPte farPte : Nat) (big : Bool) (s : State) : Out :=
  if !thereAt s nearPte then .fault (.unmappedPhysical nearPte)
  else if !thereAt s farPte then .fault (.unmappedPhysical farPte)
  else
    .next (
      if !exchangeOk s nearPte farPte big then s
      else
        let set (s : State) (a : Nat) : State := hPut s a 8 (physNat s a 8 + 2 ^ 10)
        let s1 := shootPages (set (set s nearPte) farPte) nearPte farPte
        { s1 with exchanges := s1.exchanges ++ [{ near := nearPte, far := farPte, big := big, since := s.clk.toNat }] })

/-- The view lines that the sectors of a line feed (R155). -/
def fedByLine (s : State) (l : Nat) : List Nat := (List.range 4).flatMap fun i => fedViews s (4 * l + i)

/-- The time at which a line of two frames is written at its home when their contents change places: past every lease on
either line and on the view lines they feed (R155, R162). -/
def swapTime (s : State) (a b n l : Nat) : Nat :=
  let m := swapAddr a b n (128 * l) / 128
  (l :: m :: (fedByLine s l ++ fedByLine s m)).foldl (fun t x => max t (lineOf s x).rts) 0 + 1

/-- The times of the lines of two runs of bytes after their contents have changed places: each line is written at its home
past every lease on either, and no earlier than what it brings was written, and so are the view lines it feeds (R155, R162,
R184). A version's times move with it. -/
def swapTimes (s : State) (a b n : Nat) : List LineTime :=
  let inside (x : Nat) : Bool := (a ≤ x && x < a + n) || (b ≤ x && x < b + n)
  let other (l : Nat) : Nat := swapAddr a b n (128 * l) / 128
  let moved := (s.lines.filter fun y => inside (128 * y.line) && y.slot ≠ 0).map fun y => { y with line := other y.line }
  let rest := s.lines.filter fun y => !inside (128 * y.line)
  let put (ls : List LineTime) (l : Nat) : List LineTime :=
    let t := swapTime s a b n l
    (l :: other l :: (fedByLine s l ++ fedByLine s (other l))).foldl (fun y x => insLine ⟨x, t, t, 0, 0⟩ y) ls
  ((List.range (n / 128)).map fun i => a / 128 + i).foldl put (moved.foldl (fun ls y => insLine y ls) rest)

/-- The contents of two runs of whole lines change places (R162, step 2), and with them poison, versions and debug records;
each line is written at its home past every lease, which wakes its monitors and those of the view lines it feeds, and no core
keeps a copy of them (log 10: DESIGN CHOICE). -/
def swapFrames (s : State) (a b n : Nat) : State :=
  let inside (x : Nat) : Bool := (a ≤ x && x < a + n) || (b ≤ x && x < b + n)
  let moved := (s.mem.filter fun c => inside c.1).map fun c => (swapAddr a b n c.1, c.2)
  let mem := moved.foldl (fun m c => memSet m c.1 c.2) (s.mem.filter fun c => !inside c.1)
  let views := (List.range (n / 128)).flatMap fun i =>
    (fedByLine s (a / 128 + i) ++ fedByLine s (b / 128 + i)).map fun v => (v, swapTime s a b n (a / 128 + i))
  let wake (m : Monitor) : Monitor :=
    if inside m.addr then { m with addr := swapAddr a b n m.addr }.wake (swapTime s a b n (m.addr / 128))
    else match views.find? fun v => v.1 = m.addr / 128 with
      | some v => m.wake v.2
      | none => m
  { s with
    mem := mem
    poisoned := s.poisoned.map fun l => swapAddr a b n (128 * l) / 128
    lines := swapTimes s a b n
    copies := s.copies.filter fun c => !(inside (128 * c.line) || views.any fun v => v.1 = c.line)
    monitors := s.monitors.map wake
    hazards := s.hazards.map fun h => { h with sector := swapAddr a b n (32 * h.sector) / 32 }
    ctxs := s.ctxs.map fun c => { c with vers := c.vers.map fun v => { v with sector := swapAddr a b n (32 * v.sector) / 32 } } }

/-- The images registered in two frames and the units captured there follow their pages. -/
def swapOwners (s : State) (a b n : Nat) : State :=
  let unit (u : Nat × List Host.Cell) : Nat × List Host.Cell :=
    (swapAddr a b n (0x10000 * u.1) / 0x10000, u.2.map fun c => (swapAddr a b n c.1, c.2))
  { s with
    slots := s.slots.map fun x => { x with replay := x.replay.map fun r => { r with units := r.units.map unit } }
    units := s.units.map fun u => { u with members := u.members.map fun m => { m with frames := m.frames.map (swapAddr a b n) } } }

/-- Does every chiplet's L2 hold its version lines: where it has too many, the oldest go to their contexts' pools, and the
greatest number is noted (R264, R313); none where no pool has room. -/
def versFit (s : State) : Nat → Fin 8 → Option State
  | 0, _ => none
  | k + 1, c =>
    if versLines s c ≤ versCapacity then some (noteVers s c false)
    else (oldestLine s c).bind fun (x, v, i) => versFit (noteVers (spillLine s x v i) c true) k c

/-- The lines that a core's requests stalled for are copied: the requests go on (R162, R163). -/
def releaseStalled (s : State) : State :=
  s.stalled.foldl (fun s x => arriveHome s x.core x.req) { s with stalled := [] }

/-- The swap engine copies `k` further lines of an exchange, if the link carries them (R305) and the versions they bring find
room. -/
def copyLines (s : State) (x : Exchange) (k : Nat) : State :=
  let a := frameOf (physNat s x.near 8)
  let b := frameOf (physNat s x.far 8)
  let m := min k (pageBytes x.big / 128 - x.done)
  if m = 0 || linkHolds s [a, b] then s
  else
    let s1 := swapFrames s (a + 128 * x.done) (b + 128 * x.done) (128 * m)
    let most := s1.ctxs.foldl (fun n c => n + c.vers.length) 1
    match (List.finRange 8).foldl (fun t c => t.bind fun s => versFit s most c) (some s1) with
    | none => s
    | some s2 =>
      let ex := s2.exchanges.map fun y => if y.near = x.near && y.far = x.far then { y with done := x.done + m } else y
      releaseStalled { s2 with exchanges := ex }

/-- The swap engine's turn: each exchange has copied some further lines, as many as is free (log 10: DESIGN CHOICE). -/
def swapTurn (s : State) : State :=
  s.exchanges.foldl (fun s x => copyLines { s with freeCtr := s.freeCtr + 1 } x (Config.freeWord s.freeCtr).toNat) s

/-- A leaf entry with another's frame and FAR, MOV and DIRTY clear; EXF cannot stand in a near entry (R157) (log 10: DEDUCED). -/
def exchanged (e other : Nat) : Nat :=
  let far := bitsOf other 9 9
  bitsOf e 63 52 * 2 ^ 52 + frameOf other + bitsOf e 15 13 * 2 ^ 13 + (if far = 1 then bitsOf e 12 12 * 2 ^ 12 else 0) +
    far * 2 ^ 9 + bitsOf e 8 0

/-- Lanes of a wave parked with reason 0x19 get their resume events, words that waited at step 9 issue again, and accesses held
there start their checks again (R158, R162). -/
def wakeMoved (w : Wave) : Wave :=
  let m := maskWhere fun l => inMask w.fparked l && w.reason[l] = 2
  let again (lf : Leaf) : Leaf := match lf.wait with
    | some ⟨.mov _ _, _, _⟩ => { lf with wait := none }
    | _ => lf
  let w1 := (w.serviced m).releaseHeld fun _ => true
  { w1 with
    leaves := Vector.ofFn fun n => again w1.leaves[n], sup := again w1.sup
    hwait := match w1.hwait with
      | some ⟨.mov _ _, _, _⟩ => none
      | x => x }

/-- The waves' part of step 4: their requests for reason 0x19 are met. -/
def resumeMoved (s : State) : State :=
  let open_ (w : Wave) : Bool := s.services.any fun x => x.wave = w.id && x.reason = 2
  let go (w : Wave) : Wave :=
    let w1 := wakeMoved w
    if open_ w then { w1 with leaves := Vector.ofFn fun n => w1.leaves[n].unserviced, sup := w1.sup.unserviced, hwait := none }
    else w1
  let s1 := mapWaves s fun w => if w.id = 0 then w else go w
  { s1 with services := s1.services.filter fun x => x.reason ≠ 2 }

/-- PAGE_EXCHANGE_COMPLETE (R162, steps 3 and 4): after the copy the entries swap frames and are shot down, and the waiting lanes
go on. -/
def execPageExchangeComplete (nearPte farPte : Nat) (s : State) : Out :=
  .next (match s.exchanges.find? fun x => x.near = nearPte && x.far = farPte with
    | none => s
    | some x =>
      let a := physNat s nearPte 8
      let b := physNat s farPte 8
      let n := pageBytes x.big
      if x.done < n / 128 then s
      else
        let s1 := swapOwners s (frameOf a) (frameOf b) n
        let s2 := shootPages (hPut (hPut s1 nearPte 8 (exchanged a b)) farPte 8 (exchanged b a)) nearPte farPte
        retryPods (releaseStalled (resumeMoved { s2 with
          exchanges := s2.exchanges.filter fun y => !(y.near = nearPte && y.far = farPte) })))

/-! ### Moved atomics (R163) -/

/-- The atomics of a core answered "moved": each is translated again by its leaf entry and checked, and reissued whole to the
home that holds its line now. While the exchange lasts it waits at step 9; one whose checks fail is over, and is not
performed. -/
def reissueMoved (s : State) (n : Fin 384) : State :=
  let go (s : State) (x : Moved) : State :=
    let e := physNat s x.pte 8
    let pa := frameOf e + x.ofs
    if x.core ≠ n || (ebit e 0 && ebit e 10) then { s with moved := s.moved ++ [x] }
    else if ebit e 0 && (leafMiss true .atomic false e pa).isNone then arriveHome s x.core (reqMove x.req pa)
    else s
  s.moved.foldl go { s with moved := [] }

/-- ATOMIC_MOVED_REISSUE (R163): the atomics of the wave's core answered "moved" are translated again and reissued; where there
are none, the leaf's own atomics that wait at step 9 are. -/
def execAtomicMovedReissue (wave : Nat) (leaf : Fin 4) (s : State) : Out :=
  .next (onWave s wave fun s =>
    if s.moved.any fun x => x.core = s.w.core then reissueMoved s s.w.core
    else
      let w := s.w.releaseHeld fun h => h.leaf = leaf && h.atomic
      match waitFor w leaf heldAtMov with
      | some (_, at_) => { s with w := w.again at_ }
      | none => { s with w := w })

/-! ### Poison (R241) -/

/-- LINE_POISONED (R241): an uncorrectable error marks a line's data. -/
def execLinePoisoned (line : Nat) (s : State) : Out :=
  .next (if s.poisoned.contains line then s else { s with poisoned := s.poisoned ++ [line] })

end Sys2Proof.Machine
end

