-- ==== Sys2Proof/Machine/Sha.lean ====
section
/-!
DEFINITION. SHA-256 and LMS verification and signing with LMS_SHA256_M32_H10 and LMOTS_SHA256_N32_W8 (spec/18_system.md R307,
R309), which R15 takes from their standards (FIPS 180-4, RFC 8554). Numbers there are big-endian.
-/

namespace Sys2Proof.Machine

/-! ### SHA-256 -/

/-- The 64 round constants, eight to a number, the first in its highest 32 bits. -/
def shaRows : List Nat :=
  [0x428a2f9871374491b5c0fbcfe9b5dba53956c25b59f111f1923f82a4ab1c5ed5,
   0xd807aa9812835b01243185be550c7dc372be5d7480deb1fe9bdc06a7c19bf174,
   0xe49b69c1efbe47860fc19dc6240ca1cc2de92c6f4a7484aa5cb0a9dc76f988da,
   0x983e5152a831c66db00327c8bf597fc7c6e00bf3d5a7914706ca635114292967,
   0x27b70a852e1b21384d2c6dfc53380d13650a7354766a0abb81c2c92e92722c85,
   0xa2bfe8a1a81a664bc24b8b70c76c51a3d192e819d6990624f40e3585106aa070,
   0x19a4c1161e376c082748774c34b0bcb5391c0cb34ed8aa4a5b9cca4f682e6ff3,
   0x748f82ee78a5636f84c878148cc7020890befffaa4506cebbef9a3f7c67178f2]

/-- The round constants. -/
def shaK : List Word := shaRows.flatMap fun x => (List.range 8).map fun i => BitVec.ofNat 32 (x / 2 ^ (224 - 32 * i))

/-- The eight working variables. -/
structure ShaState where
  a : Word
  b : Word
  c : Word
  d : Word
  e : Word
  f : Word
  g : Word
  h : Word
  deriving DecidableEq, Repr

/-- The initial hash value. -/
def shaInit : ShaState := ⟨0x6a09e667, 0xbb67ae85, 0x3c6ef372, 0xa54ff53a, 0x510e527f, 0x9b05688c, 0x1f83d9ab, 0x5be0cd19⟩

/-- One round with its constant and its word of the schedule. -/
def shaRound (x : ShaState) (k w : Word) : ShaState :=
  let s1 := x.e.rotateRight 6 ^^^ x.e.rotateRight 11 ^^^ x.e.rotateRight 25
  let ch := (x.e &&& x.f) ^^^ (~~~x.e &&& x.g)
  let t1 := x.h + s1 + ch + k + w
  let s0 := x.a.rotateRight 2 ^^^ x.a.rotateRight 13 ^^^ x.a.rotateRight 22
  let maj := (x.a &&& x.b) ^^^ (x.a &&& x.c) ^^^ (x.b &&& x.c)
  ⟨t1 + (s0 + maj), x.a, x.b, x.c, x.d + t1, x.e, x.f, x.g⟩

/-- Big-endian bytes to a number. -/
def beNat (bs : List Byte) : Nat := bs.foldl (fun n b => 256 * n + b.toNat) 0

/-- A number's `n` big-endian bytes. -/
def beBytes (n x : Nat) : List Byte := ((List.range n).map fun i => BitVec.ofNat 8 (x / 256 ^ i)).reverse

/-- The schedule extended by `n` words, the latest first. -/
def shaExtend : Nat → List Word → List Word
  | 0, ws => ws
  | n + 1, ws =>
    let w (i : Nat) : Word := ws.getD i 0
    let s0 := (w 14).rotateRight 7 ^^^ (w 14).rotateRight 18 ^^^ ((w 14) >>> 3)
    let s1 := (w 1).rotateRight 17 ^^^ (w 1).rotateRight 19 ^^^ ((w 1) >>> 10)
    shaExtend n ((s1 + w 6 + s0 + w 15) :: ws)

/-- One block of 64 bytes. -/
def shaBlock (x : ShaState) (block : List Byte) : ShaState :=
  let ws := (List.range 16).map fun i => BitVec.ofNat 32 (beNat ((block.drop (4 * i)).take 4))
  let y := (shaK.zip (shaExtend 48 ws.reverse).reverse).foldl (fun y kw => shaRound y kw.1 kw.2) x
  ⟨x.a + y.a, x.b + y.b, x.c + y.c, x.d + y.d, x.e + y.e, x.f + y.f, x.g + y.g, x.h + y.h⟩

/-- The blocks of a padded message, `n` of them. -/
def shaBlocks : Nat → ShaState → List Byte → ShaState
  | 0, x, _ => x
  | n + 1, x, bs => shaBlocks n (shaBlock x (bs.take 64)) (bs.drop 64)

/-- SHA-256 of a message. -/
def sha256 (bs : List Byte) : List Byte :=
  let p := bs ++ 0x80 :: List.replicate ((119 - bs.length % 64) % 64) 0 ++ beBytes 8 (8 * bs.length)
  let x := shaBlocks (p.length / 64) shaInit p
  [x.a, x.b, x.c, x.d, x.e, x.f, x.g, x.h].flatMap fun w => beBytes 4 w.toNat

/-! ### LM-OTS (n = 32, w = 8, p = 34) -/

/-- Chains of a signature. -/
def otsChains : Nat := 34

/-- The digest and its checksum that a signature encodes: 34 digits of 8 bits. -/
def otsDigits (q : List Byte) : List Byte := q ++ beBytes 2 ((q.map fun b => 255 - b.toNat).foldl (· + ·) 0)

/-- A chain's value after `n` steps from step `j` on. -/
def otsChain (id : List Byte) (q i : Nat) : Nat → Nat → List Byte → List Byte
  | 0, _, x => x
  | n + 1, j, x => otsChain id q i n (j + 1) (sha256 (id ++ beBytes 4 q ++ beBytes 2 i ++ beBytes 1 j ++ x))

/-- The message digest a one-time signature is of. -/
def otsDigest (id : List Byte) (q : Nat) (c msg : List Byte) : List Byte := sha256 (id ++ beBytes 4 q ++ beBytes 2 0x8181 ++ c ++ msg)

/-- A one-time public key from the ends of its chains. -/
def otsKey (id : List Byte) (q : Nat) (ends : List (List Byte)) : List Byte :=
  sha256 (id ++ beBytes 4 q ++ beBytes 2 0x8080 ++ ends.flatten)

/-! ### LMS (m = 32, H = 10) -/

/-- The tree's height. -/
def lmsHeight : Nat := 10

/-- A leaf of the tree. -/
def lmsLeaf (id : List Byte) (r : Nat) (key : List Byte) : List Byte := sha256 (id ++ beBytes 4 r ++ beBytes 2 0x8282 ++ key)

/-- An inner node from its children. -/
def lmsNode (id : List Byte) (r : Nat) (left right : List Byte) : List Byte :=
  sha256 (id ++ beBytes 4 r ++ beBytes 2 0x8383 ++ left ++ right)

/-- The root that an authentication path leads to from node `r`. -/
def lmsRoot (id : List Byte) : Nat → List Byte → List (List Byte) → List Byte
  | _, x, [] => x
  | r, x, p :: t => lmsRoot id (r / 2) (if r % 2 = 0 then lmsNode id (r / 2) x p else lmsNode id (r / 2) p x) t

/-- Verification of a message's signature against a public key of 56 bytes: the two type codes, the identifier, the root. -/
def lmsVerify (key msg sig : List Byte) : Bool :=
  let cut (o n : Nat) : List Byte := (sig.drop o).take n
  let id := (key.drop 8).take 16
  let q := beNat (cut 0 4)
  let digits := otsDigits (otsDigest id q (cut 8 32) msg)
  let ends := (List.range otsChains).map fun i =>
    let a := (digits.getD i 0).toNat
    otsChain id q i (255 - a) a (cut (40 + 32 * i) 32)
  let leaf := lmsLeaf id (2 ^ lmsHeight + q) (otsKey id q ends)
  key.length = 56 && beNat (key.take 4) = 6 && beNat ((key.drop 4).take 4) = 4 && sig.length = 1452 && q < 2 ^ lmsHeight &&
    beNat (cut 4 4) = 4 && beNat (cut 1128 4) = 6 &&
    lmsRoot id (2 ^ lmsHeight + q) leaf ((List.range lmsHeight).map fun i => cut (1132 + 32 * i) 32) = key.drop 24

/-- The ROM's check of something signed (R307): the public key, which comes before the signature, has the digest the ROM
holds, and the signature is the key's (log 12: DESIGN CHOICE). -/
def romVerify (msg signed : List Byte) : Bool :=
  sha256 (signed.take 56) = Config.romDigest && lmsVerify (signed.take 56) msg (signed.drop 56)

/-! ### The device's own keys (R307, R309) -/

/-- An LMS private key of the device: its number stands for its identifier and its secret chain starts, which are open. -/
abbrev LmsKey := Nat

/-- A key's one-time public key of a leaf. -/
def keyOts (k : LmsKey) (q : Nat) : List Byte :=
  let id := Config.lmsId k
  otsKey id q ((List.range otsChains).map fun i => otsChain id q i 255 0 (Config.lmsSecret k q i))

/-- The node `r` of a key's tree, `n` levels above its leaves. -/
def keyNode (k : LmsKey) : Nat → Nat → List Byte
  | 0, r => lmsLeaf (Config.lmsId k) r (keyOts k (r - 2 ^ lmsHeight))
  | n + 1, r => lmsNode (Config.lmsId k) r (keyNode k n (2 * r)) (keyNode k n (2 * r + 1))

/-- A key's public key. -/
def keyPublic (k : LmsKey) : List Byte := beBytes 4 6 ++ beBytes 4 4 ++ Config.lmsId k ++ keyNode k lmsHeight 1

/-- A message's signature by a leaf of a key; the randomizer C is open. -/
def lmsSign (k : LmsKey) (q : Nat) (msg : List Byte) : List Byte :=
  let id := Config.lmsId k
  let c := Config.lmsRandom k q
  let digits := otsDigits (otsDigest id q c msg)
  let y := (List.range otsChains).map fun i => otsChain id q i (digits.getD i 0).toNat 0 (Config.lmsSecret k q i)
  let path := (List.range lmsHeight).map fun i =>
    let r := (2 ^ lmsHeight + q) / 2 ^ i
    keyNode k i (if r % 2 = 0 then r + 1 else r - 1)
  beBytes 4 q ++ beBytes 4 4 ++ c ++ y.flatten ++ beBytes 4 6 ++ path.flatten

end Sys2Proof.Machine
end

