-- ==== Sys2Proof/Machine/Device.lean ====
section
/-!
DEFINITION. Device registers, the host and the pod, boot and thermal blocks (spec/18_system.md R304 to R315, spec/16 R296,
spec/08 R154).
-/

namespace Sys2Proof.Machine

/-! ### Words of registers -/

/-- One half of a 64-bit register. -/
def half (x : DWord) (hi : Bool) : Word := if hi then x.hiWord else x.loWord

/-- Replace one half of a 64-bit register. -/
def setHalf (x : DWord) (hi : Bool) (w : Word) : DWord := if hi then pair x.loWord w else pair w x.hiWord

/-- The first address of the device registers (R149). -/
def devBase : Nat := 0x030000000000

/-- A number below `n`. -/
def below (n x : Nat) (h : 0 < n := by decide) : Fin n := ⟨x % n, Nat.mod_lt x h⟩

/-! ### Monitors of a core (R311, R312) -/

/-- Bits [7:0] to [15:8] of a histogram unit's control word. -/
def histCtl (h : Hist) : Nat :=
  h.shift.toNat * 256 + (if h.en then 16 else 0) + (if h.log then 8 else 0) + h.src.toNat

/-- Is what a histogram unit has counted open: it samples renewals, which are the caches' (log 7: DESIGN CHOICE)? -/
def histFree (h : Hist) : Bool := h.en && h.src = 4

/-- A word of a histogram unit; none where its value is open. -/
def histGet (h : Hist) (o : Nat) : Option Word :=
  if o = 0 then some (BitVec.ofNat 32 (histCtl h))
  else if o = 4 then some h.base
  else if histFree h then none
  else if o = 8 then some h.min
  else if o = 12 then some h.max
  else if o < 0x50 then some h.bins[below 16 ((o - 0x10) / 4)]
  else none

/-- What an open count leaves behind when the unit's source or enable changes: free values, from use `f` on. -/
def histOpen (h : Hist) (f : Nat) : Hist :=
  if histFree h then
    { h with min := Config.freeWord f, max := Config.freeWord (f + 1), bins := Vector.ofFn fun i => Config.freeWord (f + 2 + i.val) }
  else h

/-- Write a word of a histogram unit. -/
def histPut (h : Hist) (o f : Nat) (w : Word) : Hist :=
  if o = 0 then
    { histOpen h f with shift := w.extractLsb' 8 8, en := w.getLsbD 4, log := w.getLsbD 3, src := w.extractLsb' 0 3 }
  else if o = 4 then { h with base := w }
  else if o = 8 then { h with min := w }
  else if o = 12 then { h with max := w }
  else if o < 0x50 then { h with bins := h.bins.set (below 16 ((o - 0x10) / 4)) w }
  else h

/-- Is what a counter has counted open (log 7: DESIGN CHOICE)? -/
def countFree (ctl : BitVec 7) : Bool := ctl.getLsbD 6 && freeEvent (ctl.extractLsb' 0 6)

/-- A word of a core's monitors; none where nothing is said of it. -/
def coreGet (c : Core) (o : Nat) : Option Word :=
  if o < 0x20 then
    let i := below 4 (o / 8)
    if o % 8 = 4 then (if countFree c.ctl[i] then none else some ((c.cnt[i].extractLsb' 32 16).setWidth 32))
    else if countFree c.ctl[i] then none else some (c.cnt[i].setWidth 32)
  else if o < 0x30 then some (c.ctl[below 4 ((o - 0x20) / 4)].setWidth 32)
  else if 0x40 ≤ o && o < 0xC0 then histGet c.hist[(0 : Fin 2)] (o - 0x40)
  else if 0xC0 ≤ o && o < 0x140 then histGet c.hist[(1 : Fin 2)] (o - 0xC0)
  else none

/-- Write a word of a core's monitors; `f` numbers the free values an open count leaves. -/
def corePut (c : Core) (o f : Nat) (w : Word) : Core :=
  if o < 0x20 then
    let i := below 4 (o / 8)
    let x := c.cnt[i]
    let y : BitVec 48 := if o % 8 = 4 then (w.setWidth 16) ++ x.extractLsb' 0 32 else (x.extractLsb' 32 16) ++ w
    { c with cnt := c.cnt.set i y }
  else if o < 0x30 then
    let i := below 4 ((o - 0x20) / 4)
    let x : BitVec 48 := if countFree c.ctl[i] then (Config.freeDWord f).setWidth 48 else c.cnt[i]
    { c with ctl := c.ctl.set i (w.setWidth 7), cnt := c.cnt.set i x }
  else if 0x40 ≤ o && o < 0xC0 then { c with hist := c.hist.set 0 (histPut c.hist[(0 : Fin 2)] (o - 0x40) f w) }
  else if 0xC0 ≤ o && o < 0x140 then { c with hist := c.hist.set 1 (histPut c.hist[(1 : Fin 2)] (o - 0xC0) f w) }
  else c

/-! ### Monitors of a chiplet (R313) -/

/-- A word of a chiplet's monitors. -/
def chipGet (s : State) (i : Fin 8) (o : Nat) : Option Word :=
  let c := s.chips[i]
  if o = 0 then some (BitVec.ofNat 32 (versLines s i.val))
  else if o = 4 then some c.vhigh
  else if o < 0x10 then some (half c.vpool (o % 8 = 4))
  else if o < 0x18 then some (half c.merged (o % 8 = 4))
  else if o < 0x20 then some (half c.mcast (o % 8 = 4))
  else if o = 0x20 then some c.coarse
  else none

/-- Write a word of a chiplet's monitors: VLINES is read-only, any write to VHIGH clears it. -/
def chipPut (c : ChipMon) (o : Nat) (w : Word) : ChipMon :=
  if o = 4 then { c with vhigh := 0 }
  else if 8 ≤ o && o < 0x10 then { c with vpool := setHalf c.vpool (o % 8 = 4) w }
  else if 0x10 ≤ o && o < 0x18 then { c with merged := setHalf c.merged (o % 8 = 4) w }
  else if 0x18 ≤ o && o < 0x20 then { c with mcast := setHalf c.mcast (o % 8 = 4) w }
  else if o = 0x20 then { c with coarse := w }
  else c

/-- VHIGH_CLEAR (R313). -/
def execVhighClear (chiplet : Fin 8) (s : State) : Out :=
  .next { s with chips := s.chips.set chiplet { s.chips[chiplet] with vhigh := 0 } }

/-! ### NQ4 range registers (R154) -/

/-- A range register; one nothing has written is as at reset. -/
def rangeAt (s : State) (st : Fin 8) (ix : Fin 64) : Nq4Range :=
  (s.ranges.find? fun r => r.stack = st && r.idx = ix).getD ⟨st, ix, 0, 0, 0, 0⟩

/-- Word `k` of four. -/
def Nq4Range.get (r : Nq4Range) (k : Nat) : DWord := if k = 0 then r.w0 else if k = 1 then r.w1 else if k = 2 then r.w2 else r.w3

/-- Write word `k`; bits that read zero stay zero. -/
def Nq4Range.put (r : Nq4Range) (k : Nat) (x : DWord) : Nq4Range :=
  if k = 0 then { r with w0 := x &&& 0x800FFFFFFFFFFFFF }
  else if k = 1 then { r with w1 := x }
  else if k = 2 then { r with w2 := x }
  else { r with w3 := x &&& 0x000FFFFFFFFFFFFF }

/-- Put a range register back. -/
def setRange (s : State) (r : Nq4Range) : State :=
  { s with ranges := s.ranges.filter (fun x => !(x.stack = r.stack && x.idx = r.idx)) ++ [r] }

/-! ### Thermal blocks (R315) -/

/-- What the firmware does once a stack it has answered for is more than 5 °C below ALARM (R316; the boundary: log 62: DESIGN
CHOICE): TALLOW and the exclusion go back. -/
def thermalRestore (s : State) (i : Fin 8) : State :=
  let x := s.thermal[i]
  match x.before with
  | none => s
  | some t =>
    if x.alarm.toNat ≤ x.temp.toNat + 40 then s
    else exclude { s with thermal := s.thermal.set i { x with tallow := t, before := none } } i false

/-- A stack's temperature is read: REFX is set above 85 °C and cleared below 82 °C; crossing ALARM upwards raises
event 9 (log 16: DEDUCED). -/
def setTemp (s : State) (i : Fin 8) (t : BitVec 12) : State :=
  let x := s.thermal[i]
  let refx : Bool := if 680 < t.toNat then true else if t.toNat < 656 then false else x.refx
  let s1 := { s with thermal := s.thermal.set i { x with temp := t, refx := refx } }
  if x.temp.toNat ≤ x.alarm.toNat && x.alarm.toNat < t.toNat then haspEvent s1 9 0 i.val 0 else thermalRestore s1 i

/-- THERMAL_REFRESH_THRESHOLD (R315). -/
def execThermalRefreshThreshold (stack : Fin 8) (temp : BitVec 12) (s : State) : Out := .next (setTemp s stack temp)

/-- THERMAL_ALARM (R315). -/
def execThermalAlarm (stack : Fin 8) (temp : BitVec 12) (s : State) : Out := .next (setTemp s stack temp)

/-- A word of a thermal block. -/
def thermGet (x : Thermal) (o : Nat) : Option Word :=
  if o = 0 then some (x.temp.setWidth 32)
  else if o = 4 then some (if x.refx then 1 else 0)
  else if o = 8 then some (x.tallow.setWidth 32)
  else if o = 12 then some (x.alarm.setWidth 32)
  else none

/-- Write a word of a thermal block: TALLOW 0 stores 1, and 101 to 127 are stored as written (log 62: DESIGN CHOICE). -/
def thermPut (x : Thermal) (o : Nat) (w : Word) : Thermal :=
  if o = 8 then { x with tallow := if w.setWidth 7 = 0 then 1 else w.setWidth 7 }
  else if o = 12 then { x with alarm := w.setWidth 12 }
  else x

/-! ### The device register space (R304) -/

/-- Boot status (R307). -/
def bootStatus (b : Boot) : Word :=
  BitVec.ofNat 32 (b.stage.toNat * 256 + (if b.att then 128 else 0) + (if b.up then 1 else 0))

/-- A word of a slot's replay status (R314). -/
def replayGet (s : State) (n : Nat) (o : Nat) : Option Word :=
  let r := (s.replays.find? fun x => x.slot.val = n).getD { slot := below 256 n }
  if o = 0 then some r.w0 else if o = 4 then some r.first else if o = 8 then some r.sig1 else if o = 12 then some r.sigN else none

/-- Is the component a device offset belongs to in service: its core, its chiplet, its stack (R10, R310)? -/
def devOn (s : State) (o : Nat) : Bool :=
  let stack (i : Nat) : Bool := (stackMask s).getLsbD i
  if o < 0x60000 then (coreMask s).getLsbD (o / 0x400)
  else if 0x80000 ≤ o && o < 0x80800 then chipletOn s ((o - 0x80000) / 0x100)
  else if 0x100000 ≤ o && o < 0x104000 then stack ((o - 0x100000) / 0x800)
  else if 0x180000 ≤ o && o < 0x180200 then stack ((o - 0x180000) / 0x40)
  else true

/-- A 32-bit word of the device registers at an offset, 4-byte aligned; none where no value is said (log 33: DESIGN CHOICE),
as of a component that is not in service (R10). -/
def devGet (s : State) (o : Nat) : Option Word :=
  if !devOn s o then none
  else if o < 0x60000 then coreGet (coreOf s (coreNo (o / 0x400))) (o % 0x400)
  else if 0x80000 ≤ o && o < 0x80800 then chipGet s (below 8 ((o - 0x80000) / 0x100)) (o % 0x100)
  else if 0x100000 ≤ o && o < 0x104000 then
    some (half ((rangeAt s (below 8 ((o - 0x100000) / 0x800)) (below 64 (o / 0x20))).get (o / 8 % 4)) (o % 8 = 4))
  else if 0x180000 ≤ o && o < 0x180200 then thermGet s.thermal[below 8 ((o - 0x180000) / 0x40)] (o % 0x40)
  else if o = 0x200000 || o = 0x200004 then some 0
  else if o = 0x200008 then some (bootStatus s.boot)
  else if 0x210000 ≤ o && o < 0x212000 then replayGet s ((o - 0x210000) / 0x20) (o % 0x20)
  else none

/-- Write a 32-bit word of the device registers, as their blocks take it; read-only words, and a component that is not in
service (R10), discard it. `fe` is set where
the command front end writes, which alone writes range registers. -/
def devPut (s : State) (fe : Bool) (o : Nat) (w : Word) : State :=
  if !devOn s o then s
  else if o < 0x60000 then
    { setCore s (corePut (coreOf s (coreNo (o / 0x400))) (o % 0x400) s.freeCtr w) with freeCtr := s.freeCtr + 18 }
  else if 0x80000 ≤ o && o < 0x80800 then
    let i : Fin 8 := below 8 ((o - 0x80000) / 0x100)
    { s with chips := s.chips.set i (chipPut s.chips[i] (o % 0x100) w) }
  else if 0x100000 ≤ o && o < 0x104000 then
    let r := rangeAt s (below 8 ((o - 0x100000) / 0x800)) (below 64 (o / 0x20))
    if fe then setRange s (r.put (o / 8 % 4) (setHalf (r.get (o / 8 % 4)) (o % 8 = 4) w)) else s
  else if 0x180000 ≤ o && o < 0x180200 then
    let i : Fin 8 := below 8 ((o - 0x180000) / 0x40)
    { s with thermal := s.thermal.set i (thermPut s.thermal[i] (o % 0x40) w) }
  else s

/-- Is the register at a device offset 64 bits wide? -/
def devWide (o : Nat) : Bool :=
  (o < 0x60000 && o % 0x400 < 0x20) || (0x80000 ≤ o && o < 0x80800 && 8 ≤ o % 0x100 && o % 0x100 < 0x20) ||
    (0x100000 ≤ o && o < 0x104000)

/-- A register of the Hasp's window, written by the Hasp (R296): those without a behaviour of their own. -/
def haspPut (h : Hasp) (o : Nat) (w : Word) : Hasp :=
  if o = 0x10 then { h with mapq := setHalf h.mapq false w }
  else if o = 0x14 then { h with mapq := setHalf h.mapq true w }
  else if 0x20 ≤ o && o < 0x30 then { h with min := h.min.set (below 4 ((o - 0x20) / 4)) (w.setWidth 9) }
  else if o = 0x30 then { h with pcur := w.setWidth 9 }
  else if o = 0x34 then { h with seed := w.setWidth 3 }
  else if o = 0x60 then { h with trbase := setHalf h.trbase false w }
  else if o = 0x64 then { h with trbase := setHalf h.trbase true w }
  else if o = 0x68 then { h with trsize := w }
  else if o = 0x6C then { h with tridx := w }
  else if 0x80 ≤ o && o < 0xB0 then { h with pexcl := h.pexcl.set (below 12 ((o - 0x80) / 4)) w }
  else h

/-- A write of the Hasp's window: MAPCMD and PREQ make steps of the front end, which come next (R296). -/
def haspWrite (s : State) (o : Nat) (w : Word) : State :=
  let cmd := (w.extractLsb' 30 2).toNat
  let slot : Fin 256 := below 256 (w.toNat % 256)
  let act (i : Instr) : State := { s with agenda := i :: s.agenda }
  if o = 0x18 then (if cmd = 1 then act (.queueMap slot) else if cmd = 2 then act (.forceUnmap slot) else s)
  else if o = 0x50 then
    (if cmd = 1 then act (.gangSwitchOutRequest (w.setWidth 16)) else if cmd = 2 then act (.gangRestore (w.setWidth 16)) else s)
  else { s with hasp := haspPut s.hasp o w }

/-- REGISTER_WRITE (R304): a device register, or one of the Hasp's window at 0x4000_0000, stores its value (log 18: DESIGN
CHOICE). -/
def execRegisterWrite (addr : Nat) (value : DWord) (s : State) : Out :=
  .next (
    if addr % 4 ≠ 0 then s
    else if 0x40000000 ≤ addr && addr < 0x400000B0 then haspWrite s (addr - 0x40000000) value.loWord
    else if devBase ≤ addr && addr < devBase + 0x1000000 then
      let o := addr - devBase
      if devWide o && o % 8 = 0 then devPut (devPut s true o value.loWord) true (o + 4) value.hiWord
      else if devWide o then s
      else devPut s true o value.loWord
    else s)

/-! ### The host (R305) -/

/-- The words of a device read: the value, and the state after it; open words are free. -/
def devRead (s : State) (o : Nat) : Nat → List Byte × State
  | 0 => ([], s)
  | n + 1 =>
    let r : List Byte × State := match devGet s o with
      | some w => (leBytes 4 w.toNat, s)
      | none => freeBytes s 4
    let t := devRead r.2 (o + 4) n
    (r.1 ++ t.1, t.2)

/-- The words of a host write to device registers. -/
def devWrite (s : State) (o : Nat) : List Byte → Nat → State
  | _, 0 => s
  | bs, n + 1 => devWrite (devPut s false o (BitVec.ofNat 32 (leNat (bs.take 4)))) (o + 4) (bs.drop 4) n

/-- Sectors written off the lane path by the host or a peer are recorded in every context in debug mode (R197). -/
def hazardAll (s : State) (cls : BitVec 6) (pos : Pos) (pas : List Nat) : State :=
  match s.ctxs.find? (·.dbg) with
  | some c => hazardWrite s c.ctx { cls := cls, pos := pos } pas
  | none => s

/-- A host write to memory, performed at its homes on the H path (log 35: DEDUCED); the host's side keeps no older copy. -/
def hostStore (s : State) (a : Nat) (bs : List Byte) : State :=
  let pas := span a bs.length
  let s1 := physWrite (touchEngine (captureAny s pas) pas) a bs
  let buf := s1.link.buf.filter fun x => pas.all fun p => p / 128 ≠ x.1
  hazardAll { s1 with link := { s1.link with buf := buf } } 0x20 .package pas

/-- One line as the host reads it: its side of the link may keep a line it has read, and give it again until an EDGE hands
the buffer over (R291, R302; log 7: DESIGN CHOICE). -/
def hostLine (s : State) (l : Nat) : List Byte × State :=
  let s1 := { s with freeCtr := s.freeCtr + 1 }
  let now := (span (128 * l) 128).map (physByte s)
  let rest := s.link.buf.filter fun x => x.1 ≠ l
  match s.link.buf.find? fun x => x.1 = l with
  | some x => if freeOdd s then (x.2, s1) else (now, { s1 with link := { s.link with buf := rest } })
  | none => (now, { s1 with link := { s.link with buf := if freeOdd s then (l, now) :: rest else rest } })

/-- The lines a host read touches, each as it is given. -/
def hostLines (s : State) : List Nat → List (Nat × List Byte) × State
  | [] => ([], s)
  | l :: t =>
    let r := hostLine s l
    let u := hostLines r.2 t
    ((l, r.1) :: u.1, u.2)

/-- A host read of memory, on the H path. -/
def hostLoad (s : State) (a n : Nat) : State :=
  let pas := span a n
  let r := hostLines (readTimes s s.clk.toNat pas).2 ((pas.map (· / 128)).eraseDups)
  let byte (p : Nat) : Byte := (((r.1.find? fun x => x.1 = p / 128).map (·.2)).getD []).getD (p % 128) 0
  { r.2 with link := { r.2.link with read := pas.map byte } }

/-- HOST_ACCESS (R305): a read or write of device memory or device registers arrives while the link is up. A 64-bit write
of the doorbell register wakes a queue (R278). -/
def execHostAccess (store : Bool) (addr : Nat) (data : List Byte) (s : State) : Out :=
  let n := data.length
  match (span addr (max n 1)).find? fun a => !thereAt s a with
  | some a => .fault (.unmappedPhysical a)
  | none =>
    .next (
      if !s.link.up || n = 0 then s
      else if physKind addr = some .device then
        let o := addr - devBase
        if addr % 4 ≠ 0 || n % 4 ≠ 0 then s
        else if store then (if o = 0x200000 && n = 8 then wakeQueue s (leNat data) else devWrite s o data (n / 4))
        else
          let r := devRead s o (n / 4)
          { r.2 with link := { r.2.link with read := r.1 } }
      else if store then (if physKind addr = some .view then s else hostStore s addr data)
      else hostLoad s addr n)

/-- LINK_FLIT_RETRY (R305): a recovered event (R246). -/
def execLinkFlitRetry (s : State) : Out := .next { s with link := { s.link with retries := s.link.retries + 1 } }

/-- JENWALD_LINK_LOST (R305). -/
def execJenwaldLinkLost (s : State) : Out :=
  .next (if s.link.up then { s with link := { s.link with up := false, since := s.clk.toNat } } else s)

/-- Words that waited for the link issue again. -/
def Wave.linked (w : Wave) : Wave :=
  let go (x : Option Wait) : Option Wait := match x with
    | some ⟨.link, _, _⟩ => none
    | y => y
  { w with
    leaves := Vector.ofFn fun n => { w.leaves[n] with wait := go w.leaves[n].wait }
    sup := { w.sup with wait := go w.sup.wait }
    hwait := go w.hwait }

/-- What was posted while the link was down arrives (R305). -/
def sendPosted (s : State) : State :=
  let s1 := { s with link := { s.link with up := true, posted := [], irqs := s.link.irqs ++ s.link.late, late := [] } }
  sentWrite s1 s.link.posted

/-- JENWALD_LINK_RESTORED (R305): accesses to host memory go on. -/
def execJenwaldLinkRestored (s : State) : Out := .next (mapWaves (sendPosted s) Wave.linked)

/-- Does a page table of a level reach a leaf with FAR = 1 (R156, R157)? -/
def farPages (s : State) : Nat → Nat → Nat → Bool
  | 0, _, _ => false
  | n + 1, level, table => (List.range (if level = 5 then 32 else 512)).any fun i =>
    let e := physNat s (table + 8 * i) 8
    ebit e 0 && (if ebit e 13 then ebit e 9 else farPages s n (level + 1) (bitsOf e 51 8 * 256))

/-- Does a context depend on the link: its queues or far pages lie in host memory (R305)? (log 28: DEDUCED). -/
def needsLink (s : State) (c : Context) : Bool :=
  c.ended.isNone && (c.qcbs.any (fun q => physKind q = some .host) || farPages s 5 1 c.table)

/-- LINK_DOWN_TIMEOUT (R305): after 10 ms, 15,000,000 CCLK, of a link down, the contexts that depend on it end. -/
def execLinkDownTimeout (s : State) : Out :=
  .next (
    if s.link.up || s.clk.toNat < s.link.since + 15000000 then s
    else (s.ctxs.filter (needsLink s)).foldl (fun s c => endContext s c.ctx 0 0 0x1FF) s)

/-! ### The pod (R306) -/

/-- The oldest pod access has been performed and acknowledged by its peer home (R178); when the answers come is the pod's
(log 36: DEDUCED). -/
def ackPod (s : State) : State := { s with pods := s.pods.tail }

/-- A peer's access that has passed its checks is performed, on committed memory (R178, R306). -/
def performPeer (s : State) (ctx : Nat) (op : PodOp) (l : Loc) (data : List Byte) : State :=
  let put (bs : List Byte) : State :=
    let s1 := touchEngine s l.pas
    hazardWrite ((storeLoc s1 (frontAcc ctx) l bs).getD s1) ctx { cls := 0x10, pos := .pod } l.pas
  match op with
  | .load _ => (readTimes s s.clk.toNat l.pas).2
  | .store => put data
  | .atomic a d => put (leBytes 4 (atomFn a (BitVec.ofNat 32 (leNat (l.pas.map (physByte s)))) d.loWord d.hiWord).toNat)

/-- POD_PEER_ACCESS (R306): a peer's access to this package's export region of the context with its ASID, on committed
memory; one that fails its checks is not performed, and its issuer hears of it. One that meets a page exchange, or a page
to be brought in, is checked again when that is over: an atomic is performed exactly once. -/
def execPodPeerAccess (asid : BitVec 11) (op : PodOp) (ofs : Nat) (data : List Byte) (s : State) : Out :=
  .next (
    let n := match op with
      | .load k => k
      | .store => data.length
      | .atomic _ _ => 4
    let kind : AccKind := match op with
      | .load _ => .load
      | .store => .store
      | .atomic _ _ => .atomic
    let waits := { s with podWaits := s.podWaits ++ [⟨asid, op, ofs, data⟩] }
    match s.ctxs.find? fun c => c.asid = asid && c.ended.isNone with
    | none => s
    | some c =>
      if c.psize.toNat < ofs + n then s
      else
        match virtAcc s { frontAcc c.ctx with sup := false } kind ((va57 c.pbase + ofs) % 2 ^ 57) n false with
        | .error (.trap _) => s
        | .error (.recov r) => if r = 2 then waits else imageMiss waits c.ctx (.recov r)
        | .ok l => performPeer s c.ctx op l data)

/-! ### Boot (R307 to R310) -/

/-- Boot fails at a step and halts. -/
def bootHalt (s : State) (stage : BitVec 4) : State := { s with boot := { s.boot with stage := stage } }

/-- RESET_BOOT (R307, step 1): HBM, links and networks are trained, or the boot halts. -/
def execResetBoot (trained : Bool) (s : State) : Out :=
  .next (
    if s.boot.on then s
    else
      let s1 := { s with boot := { s.boot with on := true } }
      if trained then { s1 with boot := { s1.boot with step := 1 } } else bootHalt s1 1)

/-- Bytes of the Hasp's tightly coupled memory (R296). -/
def tcmBytes : Nat := 0x40000

/-- Bytes of a configuration record (R310). -/
def recordBytes : Nat := 0x44

/-- A configuration record that is not rejected at step 2 (R310) (log 17: DEDUCED). -/
def recordOk (bs : List Byte) : Bool :=
  let w (o : Nat) : Nat := leNat ((bs.drop o).take 4)
  let cores := leNat ((bs.drop 0x10).take 48)
  bs.length = recordBytes && w 0 = 0x504C4352 && w 4 = 1 && bitsOf (w 8) 7 6 = 0 && bitsOf (w 8) 31 14 = 0 &&
    bitsOf (w 12) 31 26 = 0 && w 0x40 < 2 &&
    (List.range 8).all fun c => ebit (w 12) c || bitsOf cores (48 * c + 47) (48 * c) = 0

/-- The record's settings. -/
def configOf (bs : List Byte) : ConfigRec :=
  let w (o : Nat) : Nat := leNat ((bs.drop o).take 4)
  { pkg := BitVec.ofNat 6 (w 8), pod1 := BitVec.ofNat 6 (w 8 / 256), hbm := BitVec.ofNat 8 (w 12)
    ports := BitVec.ofNat 18 (w 12 / 256), cores := BitVec.ofNat 384 (leNat ((bs.drop 0x10).take 48))
    debug := ebit (w 0x40) 0, bytes := bs }

/-- CONFIG_RECORD_RECEIVE (R307 steps 2 and 3, R310). -/
def execConfigRecordReceive (record sig : List Byte) (s : State) : Out :=
  .next (
    if !s.boot.on || s.boot.step ≠ 1 || s.boot.stage ≠ 0 || !s.link.up then s
    else if romVerify record sig && recordOk record then
      { s with config := some (configOf record), boot := { s.boot with step := 3 } }
    else bootHalt s 2)

/-- Strike tables that step 4 accepts (R308). -/
def tablesOk (bs : List Byte) : Bool :=
  let w (o : Nat) : Nat := leNat ((bs.drop o).take 4)
  bs.length = 256 && w 0 = 0x534B5442 && w 4 = 1 && ebit (w 8) 11 && bitsOf (w 8) 31 12 = 0 && w 12 = 0 &&
    (List.range 4).all (fun c => w (0x14 + 8 * c) = 0) && (bs.drop 0x30).all (· = 0)

/-- The tables' settings. -/
def tablesOf (bs : List Byte) : StrikeTables :=
  let w (o : Nat) : Nat := leNat ((bs.drop o).take 4)
  { types := BitVec.ofNat 12 (w 8), done := Vector.ofFn fun c => BitVec.ofNat 16 (w (0x10 + 8 * c.val))
    err := Vector.ofFn fun c => BitVec.ofNat 16 (w (0x10 + 8 * c.val) / 65536), bytes := bs }

/-- The key of this boot: a fresh one at every boot (R309). -/
def bootKey (s : State) : LmsKey := s.boot.leaf + 1

/-- The Hasp's core as it starts: its memory holds the image, zeros after it, and its registers are zero (log 18: DESIGN
CHOICE). -/
def haspStart (image : List Byte) : HaspCore :=
  { mem := (image.zipIdx.filter fun x => x.1 ≠ memDefault).map fun x => (x.2, x.1), run := true }

/-- BOOT_IMAGE_RECEIVE (R307 steps 4 to 6, R308, R309): tables and image are verified and loaded, the Hasp starts, and the
package cycle count begins (R335); the boot attestation key is signed while the identity key has a leaf. -/
def execBootImageReceive (tables tablesSig image imageSig : List Byte) (s : State) : Out :=
  .next (
    if !s.boot.on || s.boot.step ≠ 3 || s.boot.stage ≠ 0 || !s.link.up then s
    else if romVerify tables tablesSig && tablesOk tables && romVerify image imageSig && image.length ≤ tcmBytes then
      let att : Bool := s.boot.leaf < 1024
      { s with
        clk := 0
        tables := some (tablesOf tables)
        hasp := { s.hasp with image := image, core := haspStart image }
        boot := { s.boot with
          step := if att then 6 else 5, up := true, att := att
          leaf := if att then s.boot.leaf + 1 else s.boot.leaf
          cert := if att then some (s.boot.leaf, bootKey s) else none } }
    else bootHalt s 4)

/-- What a quote signs (R309). -/
def quoteBytes (s : State) (nonce : List Byte) : List Byte :=
  nonce ++ sha256 ((s.config.map (·.bytes)).getD []) ++ sha256 ((s.tables.map (·.bytes)).getD []) ++ sha256 s.hasp.image ++
    Config.romVersion

/-- What is sent for a message a key has signed: the message and its signature. -/
def Signed.bytes (x : Signed) : List Byte := x.msg ++ lmsSign x.key x.leaf x.msg

/-- The boot attestation key's public key with the identity key's signature (R307, step 6). -/
def bootCert (s : State) : Option (List Byte) :=
  s.boot.cert.map fun x => (⟨0, x.1, keyPublic x.2⟩ : Signed).bytes

/-- ATTESTATION_QUOTE (R309): the boot key signs a 32-byte nonce's quote, at most 1,024 times in one boot, over the link. -/
def execAttestationQuote (nonce : List Byte) (s : State) : Out :=
  .next (
    if !s.boot.att || 1024 ≤ s.boot.quotes || nonce.length ≠ 32 || !s.link.up then s
    else
      { s with boot := { s.boot with
          quotes := s.boot.quotes + 1
          sent := s.boot.sent ++ [⟨s.boot.leaf, s.boot.quotes, quoteBytes s nonce⟩] } })

end Sys2Proof.Machine
end

