-- ==== Sys2Proof/Machine/Float.lean ====
section
/-!
DEFINITION. The float family (spec/22 R452 to R457) over the arithmetic of Flags.lean.
-/

namespace Sys2Proof.Machine

/-- VFADD (R452). -/
def execVfadd (h : Hdr) (d a b : Operand) (s : State) : Out :=
  .next (laneOp2 s h d a b fun w _ x y => fadd w.rnd x y)

/-- VFSUB (R452). -/
def execVfsub (h : Hdr) (d a b : Operand) (s : State) : Out :=
  .next (laneOp2 s h d a b fun w _ x y => fsub w.rnd x y)

/-- VFMUL (R452). -/
def execVfmul (h : Hdr) (d a b : Operand) (s : State) : Out :=
  .next (laneOp2 s h d a b fun w _ x y => fmul w.rnd x y)

/-- VFMA (R452): D is the addend. -/
def execVfma (h : Hdr) (d a b : Operand) (s : State) : Out :=
  .next (laneOp2 s h d a b fun w l x y => ffma w.rnd x y (getV w (regNum d) l))

/-- VFMIN (R452). -/
def execVfmin (h : Hdr) (d a b : Operand) (s : State) : Out :=
  .next (laneOp2 s h d a b fun w _ x y => fmin w.rnd x y)

/-- VFMAX (R452). -/
def execVfmax (h : Hdr) (d a b : Operand) (s : State) : Out :=
  .next (laneOp2 s h d a b fun w _ x y => fmax w.rnd x y)

/-- VFCMP (R453): it raises no flag. -/
def execVfcmp (h : Hdr) (k : Fin 16) (cond : BitVec 3) (a b : Operand) (s : State) : Out :=
  .next (laneCmp s h k a b (fcmp s.w.rnd cond))

/-- VFRCP (R454, R130). -/
def execVfrcp (h : Hdr) (d a : Operand) (s : State) : Out :=
  .next (laneOp1 s h d a fun w _ x => frcp w.rnd x)

/-- VFRSQ (R454, R130). -/
def execVfrsq (h : Hdr) (d a : Operand) (s : State) : Out :=
  .next (laneOp1 s h d a fun w _ x => frsq w.rnd x)

/-- VFEXP2 (R454, R130). -/
def execVfexp2 (h : Hdr) (d a : Operand) (s : State) : Out :=
  .next (laneOp1 s h d a fun w _ x => fexp2 w.rnd x)

/-- VFLOG2 (R454, R130). -/
def execVflog2 (h : Hdr) (d a : Operand) (s : State) : Out :=
  .next (laneOp1 s h d a fun w _ x => flog2 w.rnd x)

/-- VFSQRT (R454, R130). -/
def execVfsqrt (h : Hdr) (d a : Operand) (s : State) : Out :=
  .next (laneOp1 s h d a fun w _ x => fsqrt w.rnd x)

/-- VFABS (R454, R130). -/
def execVfabs (h : Hdr) (d a : Operand) (s : State) : Out :=
  .next (laneOp1 s h d a fun w _ x => fabs w.rnd x)

/-- VFRND in the named direction (R454). -/
def execVfrnd (h : Hdr) (d a : Operand) (mode : BitVec 2) (s : State) : Out :=
  .next (laneOp1 s h d a fun w _ x => frnd w.rnd mode x)

/-- VCVT (R455). -/
def execVcvt (h : Hdr) (d a : Operand) (dt st : BitVec 3) (sat : Bool) (s : State) : Out :=
  .next (laneOp1 s h d a fun w _ x => cvt w.rnd dt st sat x)

/-- One packed word from the register list at `base` (R457), elements from `j` on. -/
def packWord (w : Wave) (et : BitVec 3) (sat : Bool) (base : Nat) (l : Fin 32) : Nat → Nat → Nat × Flags
  | 0, _ => (0, 0)
  | n + 1, j =>
    let (c, f) := packElem w.rnd et sat (getV w (base + j) l)
    let (t, g) := packWord w et sat base l n (j + 1)
    (c * 2 ^ ((32 / packCount et) * j) + t, f ||| g)

/-- VPACK (R457). -/
def execVpack (h : Hdr) (d a : Operand) (et : BitVec 3) (sat : Bool) (s : State) : Out :=
  .next (laneOp1 s h d (.lit 0) fun w l _ =>
    let (x, f) := packWord w et sat (regNum a) l (packCount et) 0
    (BitVec.ofNat 32 x, f))

/-- Element `j` of a packed word. -/
def packedElem (et : BitVec 3) (x : Word) (j : Nat) : Nat :=
  x.toNat / 2 ^ ((32 / packCount et) * j) % 2 ^ (32 / packCount et)

/-- VUNPK (R457): it sets no flag and ignores %round and FTZ. -/
def execVunpk (h : Hdr) (d a : Operand) (et : BitVec 3) (_sat : Bool) (s : State) : Out :=
  let e := s.w.eff h.gd
  .next (
    if e = 0 then s
    else
      match popReady s e [] a with
      | .error s' => s'
      | .ok _ =>
        match readVec s e a with
        | .error s' => s'
        | .ok (s1, x) =>
          updW s1 fun w => (List.range (packCount et)).foldl
            (fun w j => setV w (regNum d + j) e fun l => (unpackElem rne et (packedElem et x[l] j)).1) w)

end Sys2Proof.Machine
end

