-- ==== Sys2Proof/Machine/Dispatch.lean ====
section
/-!
DEFINITION. The dispatch: one arm per step of spec/opcode_table.json, each a direct call of its meaning.
-/

namespace Sys2Proof.Machine

/-- The meaning of a step. -/
def exec (i : Instr) (s : State) : Host.Outcome State Fault Refusal :=
  match i with
  | .nop ch => Sys2Proof.Machine.execNop ch s
  | .smov ch d a => Sys2Proof.Machine.execSmov ch d a s
  | .sadd ch d a b => Sys2Proof.Machine.execSadd ch d a b s
  | .ssub ch d a b => Sys2Proof.Machine.execSsub ch d a b s
  | .smul ch d a b => Sys2Proof.Machine.execSmul ch d a b s
  | .sand ch d a b => Sys2Proof.Machine.execSand ch d a b s
  | .sor ch d a b => Sys2Proof.Machine.execSor ch d a b s
  | .sxor ch d a b => Sys2Proof.Machine.execSxor ch d a b s
  | .sshl ch d a b => Sys2Proof.Machine.execSshl ch d a b s
  | .sshr ch d a b => Sys2Proof.Machine.execSshr ch d a b s
  | .ssha ch d a b => Sys2Proof.Machine.execSsha ch d a b s
  | .smin ch d a b => Sys2Proof.Machine.execSmin ch d a b s
  | .smax ch d a b => Sys2Proof.Machine.execSmax ch d a b s
  | .scmp h k cond a b => Sys2Proof.Machine.execScmp h k cond a b s
  | .srdv ch d a b => Sys2Proof.Machine.execSrdv ch d a b s
  | .swrv ch d a b => Sys2Proof.Machine.execSwrv ch d a b s
  | .vadd h d a b => Sys2Proof.Machine.execVadd h d a b s
  | .vsub h d a b => Sys2Proof.Machine.execVsub h d a b s
  | .vmul h d a b => Sys2Proof.Machine.execVmul h d a b s
  | .vmulh h d a b => Sys2Proof.Machine.execVmulh h d a b s
  | .vmulhn h d a b => Sys2Proof.Machine.execVmulhn h d a b s
  | .vmad h d a b => Sys2Proof.Machine.execVmad h d a b s
  | .vmin h d a b => Sys2Proof.Machine.execVmin h d a b s
  | .vmax h d a b => Sys2Proof.Machine.execVmax h d a b s
  | .vminn h d a b => Sys2Proof.Machine.execVminn h d a b s
  | .vmaxn h d a b => Sys2Proof.Machine.execVmaxn h d a b s
  | .vand h d a b => Sys2Proof.Machine.execVand h d a b s
  | .vor h d a b => Sys2Proof.Machine.execVor h d a b s
  | .vxor h d a b => Sys2Proof.Machine.execVxor h d a b s
  | .vshl h d a b => Sys2Proof.Machine.execVshl h d a b s
  | .vshr h d a b => Sys2Proof.Machine.execVshr h d a b s
  | .vsha h d a b => Sys2Proof.Machine.execVsha h d a b s
  | .vadd64 h d a b => Sys2Proof.Machine.execVadd64 h d a b s
  | .vsel h d a b => Sys2Proof.Machine.execVsel h d a b s
  | .vcmp h k cond a b => Sys2Proof.Machine.execVcmp h k cond a b s
  | .vcmpn h k cond a b => Sys2Proof.Machine.execVcmpn h k cond a b s
  | .vbfx h d a b => Sys2Proof.Machine.execVbfx h d a b s
  | .vbfi h d a b => Sys2Proof.Machine.execVbfi h d a b s
  | .vabs h d a => Sys2Proof.Machine.execVabs h d a s
  | .vneg h d a => Sys2Proof.Machine.execVneg h d a s
  | .vnot h d a => Sys2Proof.Machine.execVnot h d a s
  | .vpopc h d a => Sys2Proof.Machine.execVpopc h d a s
  | .vclz h d a => Sys2Proof.Machine.execVclz h d a s
  | .vshuf h d a b => Sys2Proof.Machine.execVshuf h d a b s
  | .vbcast h d a b => Sys2Proof.Machine.execVbcast h d a b s
  | .vscan h d a excl op => Sys2Proof.Machine.execVscan h d a excl op s
  | .vred h d a op => Sys2Proof.Machine.execVred h d a op s
  | .vsegscan h d a heads op => Sys2Proof.Machine.execVsegscan h d a heads op s
  | .vfadd h d a b => Sys2Proof.Machine.execVfadd h d a b s
  | .vfsub h d a b => Sys2Proof.Machine.execVfsub h d a b s
  | .vfmul h d a b => Sys2Proof.Machine.execVfmul h d a b s
  | .vfma h d a b => Sys2Proof.Machine.execVfma h d a b s
  | .vfmin h d a b => Sys2Proof.Machine.execVfmin h d a b s
  | .vfmax h d a b => Sys2Proof.Machine.execVfmax h d a b s
  | .vfcmp h k cond a b => Sys2Proof.Machine.execVfcmp h k cond a b s
  | .vfrcp h d a => Sys2Proof.Machine.execVfrcp h d a s
  | .vfrsq h d a => Sys2Proof.Machine.execVfrsq h d a s
  | .vfexp2 h d a => Sys2Proof.Machine.execVfexp2 h d a s
  | .vflog2 h d a => Sys2Proof.Machine.execVflog2 h d a s
  | .vfsqrt h d a => Sys2Proof.Machine.execVfsqrt h d a s
  | .vfabs h d a => Sys2Proof.Machine.execVfabs h d a s
  | .vfrnd h d a mode => Sys2Proof.Machine.execVfrnd h d a mode s
  | .vcvt h d a dt st sat => Sys2Proof.Machine.execVcvt h d a dt st sat s
  | .vpack h d a et sat => Sys2Proof.Machine.execVpack h d a et sat s
  | .vunpk h d a et sat => Sys2Proof.Machine.execVunpk h d a et sat s
  | .kand ch d a b => Sys2Proof.Machine.execKand ch d a b s
  | .kor ch d a b => Sys2Proof.Machine.execKor ch d a b s
  | .kxor ch d a b => Sys2Proof.Machine.execKxor ch d a b s
  | .knot ch d a => Sys2Proof.Machine.execKnot ch d a s
  | .kmov ch d a => Sys2Proof.Machine.execKmov ch d a s
  | .kpop ch d a => Sys2Proof.Machine.execKpop ch d a s
  | .kfirst ch d a => Sys2Proof.Machine.execKfirst ch d a s
  | .kset ch d a => Sys2Proof.Machine.execKset ch d a s
  | .kget ch d a => Sys2Proof.Machine.execKget ch d a s
  | .kpceq ch d a b => Sys2Proof.Machine.execKpceq ch d a b s
  | .kpcmin ch d a => Sys2Proof.Machine.execKpcmin ch d a s
  | .bra h k ofs => Sys2Proof.Machine.execBra h k ofs s
  | .brs ch d ofs => Sys2Proof.Machine.execBrs ch d ofs s
  | .jmpx h a table n => Sys2Proof.Machine.execJmpx h a table n s
  | .call ch d ofs => Sys2Proof.Machine.execCall ch d ofs s
  | .ret h a => Sys2Proof.Machine.execRet h a s
  | .loop ch d dist => Sys2Proof.Machine.execLoop ch d dist s
  | .lbrk ch n ofs => Sys2Proof.Machine.execLbrk ch n ofs s
  | .exit h => Sys2Proof.Machine.execExit h s
  | .park h => Sys2Proof.Machine.execPark h s
  | .spawn h d a jn j entry => Sys2Proof.Machine.execSpawn h d a jn j entry s
  | .tret h a => Sys2Proof.Machine.execTret h a s
  | .hret ch => Sys2Proof.Machine.execHret ch s
  | .leafset ch held n a b => Sys2Proof.Machine.execLeafset ch held n a b s
  | .leafget ch d a sel n => Sys2Proof.Machine.execLeafget ch d a sel n s
  | .leafjoin ch n a => Sys2Proof.Machine.execLeafjoin ch n a s
  | .leafclr ch n => Sys2Proof.Machine.execLeafclr ch n s
  | .ld h d a x => Sys2Proof.Machine.execLd h d a x s
  | .st h d a x => Sys2Proof.Machine.execSt h d a x s
  | .atom h d a x => Sys2Proof.Machine.execAtom h d a x s
  | .atomr h d a x => Sys2Proof.Machine.execAtomr h d a x s
  | .waitc h d a => Sys2Proof.Machine.execWaitc h d a s
  | .fence h scope => Sys2Proof.Machine.execFence h scope s
  | .fencex h scope before after => Sys2Proof.Machine.execFencex h scope before after s
  | .pref h a x => Sys2Proof.Machine.execPref h a x s
  | .hypnew h d => Sys2Proof.Machine.execHypnew h d s
  | .hypent h one a => Sys2Proof.Machine.execHypent h one a s
  | .hyplv h one => Sys2Proof.Machine.execHyplv h one s
  | .hypres h a confirm => Sys2Proof.Machine.execHypres h a confirm s
  | .hypq h d a => Sys2Proof.Machine.execHypq h d a s
  | .linit h one a b => Sys2Proof.Machine.execLinit h one a b s
  | .larv h one a b => Sys2Proof.Machine.execLarv h one a b s
  | .lexp h one a b => Sys2Proof.Machine.execLexp h one a b s
  | .lwait h one a b => Sys2Proof.Machine.execLwait h one a b s
  | .qinit h d a b => Sys2Proof.Machine.execQinit h d a b s
  | .qacq h d a => Sys2Proof.Machine.execQacq h d a s
  | .qpub h a b => Sys2Proof.Machine.execQpub h a b s
  | .qtake h d a => Sys2Proof.Machine.execQtake h d a s
  | .qrel h a b => Sys2Proof.Machine.execQrel h a b s
  | .qbind h d a => Sys2Proof.Machine.execQbind h d a s
  | .cpy h d a x => Sys2Proof.Machine.execCpy h d a x s
  | .cpys h d a x => Sys2Proof.Machine.execCpys h d a x s
  | .gath h d a x => Sys2Proof.Machine.execGath h d a x s
  | .scat h d a x => Sys2Proof.Machine.execScat h d a x s
  | .mlds h a arr fmt sp crd mta => Sys2Proof.Machine.execMlds h a arr fmt sp crd mta s
  | .mswap h arr => Sys2Proof.Machine.execMswap h arr s
  | .mstream h a arr fmt rows1 qs dfr slot => Sys2Proof.Machine.execMstream h a arr fmt rows1 qs dfr slot s
  | .mdrain h tile => Sys2Proof.Machine.execMdrain h tile s
  | .mzero h tile => Sys2Proof.Machine.execMzero h tile s
  | .mld h a tile mfmt => Sys2Proof.Machine.execMld h a tile mfmt s
  | .mst h a tile mfmt sat => Sys2Proof.Machine.execMst h a tile mfmt sat s
  | .trap h code => Sys2Proof.Machine.execTrap h code s
  | .eret ch => Sys2Proof.Machine.execEret ch s
  | .sysr ch d num => Sys2Proof.Machine.execSysr ch d num s
  | .sysw ch num a => Sys2Proof.Machine.execSysw ch num a s
  | .ppoint h lit => Sys2Proof.Machine.execPpoint h lit s
  | .clk ch d sel => Sys2Proof.Machine.execClk ch d sel s
  | .pmon ch d n => Sys2Proof.Machine.execPmon ch d n s
  | .bkpt h code => Sys2Proof.Machine.execBkpt h code s
  | .sleep ch a => Sys2Proof.Machine.execSleep ch a s
  | .sleepExpiry wave leaf => Sys2Proof.Machine.execSleepExpiry wave leaf s
  | .leafTurn wave leaf => Sys2Proof.Machine.execLeafTurn wave leaf s
  | .eventDelivery wave => Sys2Proof.Machine.execEventDelivery wave s
  | .hingeBudgetExceeded wave => Sys2Proof.Machine.execHingeBudgetExceeded wave s
  | .starveStage1 wave => Sys2Proof.Machine.execStarveStage1 wave s
  | .starvationOverride wave => Sys2Proof.Machine.execStarvationOverride wave s
  | .idleIssueCycle wave => Sys2Proof.Machine.execIdleIssueCycle wave s
  | .waveAged wave => Sys2Proof.Machine.execWaveAged wave s
  | .workgroupExit unit => Sys2Proof.Machine.execWorkgroupExit unit s
  | .workgroupPlacement launch => Sys2Proof.Machine.execWorkgroupPlacement launch s
  | .neighbourhoodPlacement launch => Sys2Proof.Machine.execNeighbourhoodPlacement launch s
  | .taskWaveStart ctx chiplet => Sys2Proof.Machine.execTaskWaveStart ctx chiplet s
  | .laneAccessAtHome core req => Sys2Proof.Machine.execLaneAccessAtHome core req s
  | .laneAccessReply core time => Sys2Proof.Machine.execLaneAccessReply core time s
  | .atomicMovedReissue wave leaf => Sys2Proof.Machine.execAtomicMovedReissue wave leaf s
  | .movWaitTimeout wave leaf => Sys2Proof.Machine.execMovWaitTimeout wave leaf s
  | .pageFaultServiceComplete wave lanes => Sys2Proof.Machine.execPageFaultServiceComplete wave lanes s
  | .shootDown asid lo hi => Sys2Proof.Machine.execShootDown asid lo hi s
  | .pageExchangeStart nearPte farPte big => Sys2Proof.Machine.execPageExchangeStart nearPte farPte big s
  | .pageExchangeComplete nearPte farPte => Sys2Proof.Machine.execPageExchangeComplete nearPte farPte s
  | .copySectorPerformed xfer sector => Sys2Proof.Machine.execCopySectorPerformed xfer sector s
  | .copyPermitAcquire xfer => Sys2Proof.Machine.execCopyPermitAcquire xfer s
  | .followOnFire wave slot => Sys2Proof.Machine.execFollowOnFire wave slot s
  | .lwaitWakeup wave leaf => Sys2Proof.Machine.execLwaitWakeup wave leaf s
  | .monitorWakeup wave leaf => Sys2Proof.Machine.execMonitorWakeup wave leaf s
  | .queueWaiterRetry wave leaf => Sys2Proof.Machine.execQueueWaiterRetry wave leaf s
  | .spawnRingResume wave leaf => Sys2Proof.Machine.execSpawnRingResume wave leaf s
  | .fencexRetire wave leaf => Sys2Proof.Machine.execFencexRetire wave leaf s
  | .confirmCommit ctx => Sys2Proof.Machine.execConfirmCommit ctx s
  | .refuteApplied ctx => Sys2Proof.Machine.execRefuteApplied ctx s
  | .hypnewReply ctx => Sys2Proof.Machine.execHypnewReply ctx s
  | .mldsLand core arr => Sys2Proof.Machine.execMldsLand core arr s
  | .mswapExecute core arr => Sys2Proof.Machine.execMswapExecute core arr s
  | .mstreamStart core arr => Sys2Proof.Machine.execMstreamStart core arr s
  | .mdrainExecute core arr => Sys2Proof.Machine.execMdrainExecute core arr s
  | .tileCommandExecute core arr => Sys2Proof.Machine.execTileCommandExecute core arr s
  | .trapEntry wave => Sys2Proof.Machine.execTrapEntry wave s
  | .registerFileEccError wave => Sys2Proof.Machine.execRegisterFileEccError wave s
  | .contextEnd ctx => Sys2Proof.Machine.execContextEnd ctx s
  | .waveSwitchOut unit => Sys2Proof.Machine.execWaveSwitchOut unit s
  | .ppointPatienceTimeout unit => Sys2Proof.Machine.execPpointPatienceTimeout unit s
  | .imageReadback unit => Sys2Proof.Machine.execImageReadback unit s
  | .debugLatchTimeout wave latch => Sys2Proof.Machine.execDebugLatchTimeout wave latch s
  | .launch slot p => Sys2Proof.Machine.execLaunch slot p s
  | .nbhdLaunch slot p => Sys2Proof.Machine.execNbhdLaunch slot p s
  | .taskSeed slot p => Sys2Proof.Machine.execTaskSeed slot p s
  | .edge slot p => Sys2Proof.Machine.execEdge slot p s
  | .signal slot p => Sys2Proof.Machine.execSignal slot p s
  | .wait slot p => Sys2Proof.Machine.execWait slot p s
  | .waitSatisfied slot => Sys2Proof.Machine.execWaitSatisfied slot s
  | .copy slot p => Sys2Proof.Machine.execCopy slot p s
  | .write slot p => Sys2Proof.Machine.execWrite slot p s
  | .stamp slot p => Sys2Proof.Machine.execStamp slot p s
  | .hypSweep slot p => Sys2Proof.Machine.execHypSweep slot p s
  | .replay slot p => Sys2Proof.Machine.execReplay slot p s
  | .replayPass slot => Sys2Proof.Machine.execReplayPass slot s
  | .nopPacket slot p => Sys2Proof.Machine.execNopPacket slot p s
  | .launchCompletion id => Sys2Proof.Machine.execLaunchCompletion id s
  | .doorbell qcb => Sys2Proof.Machine.execDoorbell qcb s
  | .evtPop => Sys2Proof.Machine.execEvtPop s
  | .queueMap slot => Sys2Proof.Machine.execQueueMap slot s
  | .forceUnmap slot => Sys2Proof.Machine.execForceUnmap slot s
  | .unmapComplete slot => Sys2Proof.Machine.execUnmapComplete slot s
  | .queueIdleTimeout slot => Sys2Proof.Machine.execQueueIdleTimeout slot s
  | .gangSwitchOutRequest handle => Sys2Proof.Machine.execGangSwitchOutRequest handle s
  | .gangRestore handle => Sys2Proof.Machine.execGangRestore handle s
  | .vhighClear chiplet => Sys2Proof.Machine.execVhighClear chiplet s
  | .registerWrite addr value => Sys2Proof.Machine.execRegisterWrite addr value s
  | .hostAccess store addr data => Sys2Proof.Machine.execHostAccess store addr data s
  | .podPeerAccess asid op ofs data => Sys2Proof.Machine.execPodPeerAccess asid op ofs data s
  | .linkFlitRetry => Sys2Proof.Machine.execLinkFlitRetry s
  | .linkDownTimeout => Sys2Proof.Machine.execLinkDownTimeout s
  | .thermalRefreshThreshold stack temp => Sys2Proof.Machine.execThermalRefreshThreshold stack temp s
  | .thermalAlarm stack temp => Sys2Proof.Machine.execThermalAlarm stack temp s
  | .resetBoot trained => Sys2Proof.Machine.execResetBoot trained s
  | .configRecordReceive record sig => Sys2Proof.Machine.execConfigRecordReceive record sig s
  | .bootImageReceive tables tablesSig image imageSig => Sys2Proof.Machine.execBootImageReceive tables tablesSig image imageSig s
  | .attestationQuote nonce => Sys2Proof.Machine.execAttestationQuote nonce s
  | .unassignedOpcode w => Sys2Proof.Machine.execUnassignedOpcode w s
  | .unknownPacketType slot p => Sys2Proof.Machine.execUnknownPacketType slot p s
  | .versionSlotFreed ctx vslot => Sys2Proof.Machine.execVersionSlotFreed ctx vslot s
  | .jenwaldLinkLost => Sys2Proof.Machine.execJenwaldLinkLost s
  | .jenwaldLinkRestored => Sys2Proof.Machine.execJenwaldLinkRestored s
  | .linePoisoned line => Sys2Proof.Machine.execLinePoisoned line s

end Sys2Proof.Machine
end

