-- ==== Sys2Proof/Machine/Hasp.lean ====
section
/-!
DEFINITION. The Hasp's core (spec/16_launch.md R296): an in-order RV32IMC core in machine mode with 256 KiB of memory, whose
instructions are the RISC-V standard's (R15), and its accesses to the front end's window.
-/

namespace Sys2Proof.Machine

/-! ### Its memory and registers -/

/-- A register; x0 is zero. -/
def HaspCore.get (c : HaspCore) (n : Nat) : Word := if n % 32 = 0 then 0 else c.x[n % 32]'(Nat.mod_lt _ (by decide))

/-- Write a register; x0 discards it. -/
def HaspCore.put (c : HaspCore) (n : Nat) (w : Word) : HaspCore :=
  if n % 32 = 0 then c else { c with x := c.x.set (n % 32) w (Nat.mod_lt _ (by decide)) }

/-- Bytes of memory from an address on, as a number. -/
def HaspCore.mget (c : HaspCore) (a n : Nat) : Nat := leNat ((span a n).map (memGet c.mem))

/-! ### The front end's window (R296) -/

/-- The first address of the window. -/
def haspWindow : Nat := 0x40000000

/-- A read of a word of the window, and the state after it: EVT pops; a write-only register reads zero (R14). -/
def haspRead (s : State) (o : Nat) : Word × State :=
  let h := s.hasp
  let w : Word :=
    if o = 0x04 || o = 0x08 then half h.evq (o = 0x08)
    else if o = 0x10 || o = 0x14 then half h.mapq (o = 0x14)
    else if 0x20 ≤ o && o < 0x30 then h.min[below 4 ((o - 0x20) / 4)].zeroExtend 32
    else if o = 0x30 then h.pcur.zeroExtend 32
    else if o = 0x34 then h.seed.zeroExtend 32
    else if o = 0x60 || o = 0x64 then half h.trbase (o = 0x64)
    else if o = 0x68 then h.trsize
    else if o = 0x6C then h.tridx
    else if o = 0x70 || o = 0x74 then half s.clk (o = 0x74)
    else if 0x80 ≤ o && o < 0xB0 then h.pexcl[below 12 ((o - 0x80) / 4)]
    else 0
  if o = 0 then ((popEvent s).hasp.evt, popEvent s) else (w, s)

/-- A word of a load, what is read of it beginning `b` bytes in. -/
def haspLoadFrom (w : Word) (b n : Nat) : Nat := w.toNat / 2 ^ (8 * b) % 2 ^ (8 * n)

/-- A load of the Hasp: of its memory, of the window, or of an address where nothing is said to stand, whose value is free
(log 18: DESIGN CHOICE). -/
def haspLoad (s : State) (a n : Nat) : Nat × State :=
  if a + n ≤ tcmBytes then (s.hasp.core.mget a n, s)
  else if haspWindow ≤ a && a < haspWindow + 0xB0 && a % n = 0 then
    let o := a - haspWindow
    let r := haspRead s (o / 4 * 4)
    (haspLoadFrom r.1 (o % 4) n, r.2)
  else ((Config.freeWord s.freeCtr).toNat % 2 ^ (8 * n), { s with freeCtr := s.freeCtr + 1 })

/-- A store of the Hasp: to its memory, as a whole word to the window, or where nothing is said to stand, without effect. -/
def haspStore (s : State) (a n x : Nat) : State :=
  if a + n ≤ tcmBytes then
    let m := ((span a n).zip (leBytes n x)).foldl (fun m c => memSet m c.1 c.2) s.hasp.core.mem
    { s with hasp := { s.hasp with core := { s.hasp.core with mem := m } } }
  else if n = 4 && haspWindow ≤ a && a < haspWindow + 0xB0 && a % 4 = 0 then haspWrite s (a - haspWindow) (BitVec.ofNat 32 x)
  else s

/-! ### Fields and immediates -/

/-- Bits hi..lo of an instruction. -/
def rvBits (w : Word) (hi lo : Nat) : Nat := bitsOf w.toNat hi lo

/-- A number of `n` bits, sign-extended to a word. -/
def rvSext (n x : Nat) : Word := BitVec.ofInt 32 (if 2 ^ (n - 1) ≤ x % 2 ^ n then (x % 2 ^ n : Int) - 2 ^ n else (x % 2 ^ n : Int))

/-- The immediate of an I form. -/
def immI (w : Word) : Word := rvSext 12 (rvBits w 31 20)
/-- The immediate of an S form. -/
def immS (w : Word) : Word := rvSext 12 (rvBits w 31 25 * 32 + rvBits w 11 7)
/-- The immediate of a B form. -/
def immB (w : Word) : Word :=
  rvSext 13 (rvBits w 31 31 * 4096 + rvBits w 7 7 * 2048 + rvBits w 30 25 * 32 + rvBits w 11 8 * 2)
/-- The immediate of a U form. -/
def immU (w : Word) : Word := w &&& 0xFFFFF000
/-- The immediate of a J form. -/
def immJ (w : Word) : Word :=
  rvSext 21 (rvBits w 31 31 * 2 ^ 20 + rvBits w 19 12 * 4096 + rvBits w 20 20 * 2048 + rvBits w 30 21 * 2)

/-! ### Compressed instructions: the word each stands for -/

/-- An R form. -/
def rvR (f7 rs2 rs1 f3 rd op : Nat) : Word := BitVec.ofNat 32 (f7 * 2 ^ 25 + rs2 * 2 ^ 20 + rs1 * 2 ^ 15 + f3 * 2 ^ 12 + rd * 2 ^ 7 + op)
/-- An I form. -/
def rvI (imm : Nat) (rs1 f3 rd op : Nat) : Word :=
  BitVec.ofNat 32 (imm % 4096 * 2 ^ 20 + rs1 * 2 ^ 15 + f3 * 2 ^ 12 + rd * 2 ^ 7 + op)
/-- An S form. -/
def rvS (imm rs2 rs1 f3 op : Nat) : Word :=
  BitVec.ofNat 32 (imm / 32 % 128 * 2 ^ 25 + rs2 * 2 ^ 20 + rs1 * 2 ^ 15 + f3 * 2 ^ 12 + imm % 32 * 2 ^ 7 + op)
/-- A B form. -/
def rvB (imm rs2 rs1 f3 : Nat) : Word :=
  BitVec.ofNat 32 (imm / 4096 % 2 * 2 ^ 31 + imm / 32 % 64 * 2 ^ 25 + rs2 * 2 ^ 20 + rs1 * 2 ^ 15 + f3 * 2 ^ 12 +
    imm / 2 % 16 * 2 ^ 8 + imm / 2048 % 2 * 2 ^ 7 + 0x63)
/-- JAL. -/
def rvJ (imm rd : Nat) : Word :=
  BitVec.ofNat 32 (imm / 2 ^ 20 % 2 * 2 ^ 31 + imm / 2 % 1024 * 2 ^ 21 + imm / 2048 % 2 * 2 ^ 20 + imm / 4096 % 256 * 4096 +
    rd * 2 ^ 7 + 0x6F)

/-- A number of `n` bits sign-extended, as the low bits of a form's immediate. -/
def rvSx (n x : Nat) : Nat := (rvSext n x).toNat

/-- Quadrant 0: ADDI4SPN, LW, SW. -/
def rvc0 (h : Nat) : Option Word :=
  let rd := 8 + bitsOf h 4 2
  let rs := 8 + bitsOf h 9 7
  let off := bitsOf h 5 5 * 64 + bitsOf h 12 10 * 8 + bitsOf h 6 6 * 4
  match bitsOf h 15 13 with
  | 0 =>
    let imm := bitsOf h 10 7 * 64 + bitsOf h 12 11 * 16 + bitsOf h 5 5 * 8 + bitsOf h 6 6 * 4
    if imm = 0 then none else some (rvI imm 2 0 rd 0x13)
  | 2 => some (rvI off rs 2 rd 0x03)
  | 6 => some (rvS off rd rs 2 0x23)
  | _ => none

/-- Quadrant 1, the arithmetic of `100`. -/
def rvcAlu (h : Nat) : Option Word :=
  let rd := 8 + bitsOf h 9 7
  let rs := 8 + bitsOf h 4 2
  let imm := bitsOf h 12 12 * 32 + bitsOf h 6 2
  match bitsOf h 11 10 with
  | 0 => if 32 ≤ imm then none else some (rvI imm rd 5 rd 0x13)
  | 1 => if 32 ≤ imm then none else some (rvI (imm + 0x400) rd 5 rd 0x13)
  | 2 => some (rvI (rvSx 6 imm) rd 7 rd 0x13)
  | _ =>
    if bitsOf h 12 12 = 1 then none
    else match bitsOf h 6 5 with
      | 0 => some (rvR 0x20 rs rd 0 rd 0x33)
      | 1 => some (rvR 0 rs rd 4 rd 0x33)
      | 2 => some (rvR 0 rs rd 6 rd 0x33)
      | _ => some (rvR 0 rs rd 7 rd 0x33)

/-- Quadrant 1. -/
def rvc1 (h : Nat) : Option Word :=
  let rd := bitsOf h 11 7
  let imm := bitsOf h 12 12 * 32 + bitsOf h 6 2
  let jimm := rvSx 12 (bitsOf h 12 12 * 2048 + bitsOf h 8 8 * 1024 + bitsOf h 10 9 * 256 + bitsOf h 6 6 * 128 + bitsOf h 7 7 * 64 +
    bitsOf h 2 2 * 32 + bitsOf h 11 11 * 16 + bitsOf h 5 3 * 2)
  let bimm := rvSx 9 (bitsOf h 12 12 * 256 + bitsOf h 6 5 * 64 + bitsOf h 2 2 * 32 + bitsOf h 11 10 * 8 + bitsOf h 4 3 * 2)
  match bitsOf h 15 13 with
  | 0 => some (rvI (rvSx 6 imm) rd 0 rd 0x13)
  | 1 => some (rvJ jimm 1)
  | 2 => some (rvI (rvSx 6 imm) 0 0 rd 0x13)
  | 3 =>
    if imm = 0 then none
    else if rd = 2 then
      some (rvI (rvSx 10 (bitsOf h 12 12 * 512 + bitsOf h 4 3 * 128 + bitsOf h 5 5 * 64 + bitsOf h 2 2 * 32 + bitsOf h 6 6 * 16)) 2 0 2 0x13)
    else some (BitVec.ofNat 32 (rvSx 18 (imm * 4096) / 4096 * 4096 + rd * 128 + 0x37))
  | 4 => rvcAlu h
  | 5 => some (rvJ jimm 0)
  | 6 => some (rvB bimm 0 (8 + bitsOf h 9 7) 0)
  | _ => some (rvB bimm 0 (8 + bitsOf h 9 7) 1)

/-- Quadrant 2. -/
def rvc2 (h : Nat) : Option Word :=
  let rd := bitsOf h 11 7
  let rs := bitsOf h 6 2
  match bitsOf h 15 13 with
  | 0 => if bitsOf h 12 12 = 1 then none else some (rvI rs rd 1 rd 0x13)
  | 2 => if rd = 0 then none else some (rvI (bitsOf h 3 2 * 64 + bitsOf h 12 12 * 32 + bitsOf h 6 4 * 4) 2 2 rd 0x03)
  | 4 =>
    if bitsOf h 12 12 = 0 then
      (if rs ≠ 0 then some (rvR 0 rs 0 0 rd 0x33) else if rd = 0 then none else some (rvI 0 rd 0 0 0x67))
    else if rs ≠ 0 then some (rvR 0 rs rd 0 rd 0x33)
    else if rd = 0 then some 0x00100073
    else some (rvI 0 rd 0 1 0x67)
  | 6 => some (rvS (bitsOf h 8 7 * 64 + bitsOf h 12 9 * 4) rs 2 2 0x23)
  | _ => none

/-- The word a compressed instruction stands for; none for one that RV32C does not have. -/
def rvExpand (h : Nat) : Option Word :=
  match h % 4 with
  | 0 => rvc0 h
  | 1 => rvc1 h
  | 2 => rvc2 h
  | _ => none

/-! ### RV32IM -/

/-- The result of a register form or an immediate form of RV32I. -/
def rvAlu (f3 : Nat) (alt : Bool) (a b : Word) : Word :=
  match f3 with
  | 0 => if alt then a - b else a + b
  | 1 => a <<< (b.toNat % 32)
  | 2 => if a.toInt < b.toInt then 1 else 0
  | 3 => if a.toNat < b.toNat then 1 else 0
  | 4 => a ^^^ b
  | 5 => if alt then a.sshiftRight (b.toNat % 32) else a >>> (b.toNat % 32)
  | 6 => a ||| b
  | _ => a &&& b

/-- The result of an instruction of the M extension: a division by zero gives all ones or the dividend, and one that
overflows the dividend or zero. -/
def rvMul (f3 : Nat) (a b : Word) : Word :=
  match f3 with
  | 0 => a * b
  | 1 => BitVec.ofInt 32 ((a.toInt * b.toInt) / 2 ^ 32)
  | 2 => BitVec.ofInt 32 ((a.toInt * b.toNat) / 2 ^ 32)
  | 3 => BitVec.ofNat 32 ((a.toNat * b.toNat) / 2 ^ 32)
  | 4 => if b = 0 then 0xFFFFFFFF else BitVec.ofInt 32 (a.toInt.tdiv b.toInt)
  | 5 => if b = 0 then 0xFFFFFFFF else BitVec.ofNat 32 (a.toNat / b.toNat)
  | 6 => if b = 0 then a else BitVec.ofInt 32 (a.toInt.tmod b.toInt)
  | _ => if b = 0 then a else BitVec.ofNat 32 (a.toNat % b.toNat)

/-- Is a branch taken? None for an encoding that is none. -/
def rvTaken (f3 : Nat) (a b : Word) : Option Bool :=
  match f3 with
  | 0 => some (a = b)
  | 1 => some (a ≠ b)
  | 4 => some (a.toInt < b.toInt)
  | 5 => some (b.toInt ≤ a.toInt)
  | 6 => some (a.toNat < b.toNat)
  | 7 => some (b.toNat ≤ a.toNat)
  | _ => none

/-- Change the core. -/
def setHaspCore (s : State) (c : HaspCore) : State := { s with hasp := { s.hasp with core := c } }

/-- The core writes a register and goes on. -/
def haspDone (s : State) (rd : Nat) (w : Word) (next : Word) : State :=
  setHaspCore s { s.hasp.core.put rd w with pc := next }

/-- A load's result by its width and sign. -/
def rvLoad (s : State) (f3 : Nat) (a : Nat) : Option (Word × State) :=
  match f3 with
  | 0 => let r := haspLoad s a 1; some (rvSext 8 r.1, r.2)
  | 1 => let r := haspLoad s a 2; some (rvSext 16 r.1, r.2)
  | 2 => let r := haspLoad s a 4; some (BitVec.ofNat 32 r.1, r.2)
  | 4 => let r := haspLoad s a 1; some (BitVec.ofNat 32 r.1, r.2)
  | 5 => let r := haspLoad s a 2; some (BitVec.ofNat 32 r.1, r.2)
  | _ => none

/-- One instruction of RV32IM, `len` bytes long; none where it is not one, or is ECALL or EBREAK. -/
def rvExec (s : State) (w : Word) (len : Nat) : Option State :=
  let c := s.hasp.core
  let rd := rvBits w 11 7
  let f3 := rvBits w 14 12
  let f7 := rvBits w 31 25
  let a := c.get (rvBits w 19 15)
  let b := c.get (rvBits w 24 20)
  let next := c.pc + BitVec.ofNat 32 len
  match rvBits w 6 0 with
  | 0x37 => some (haspDone s rd (immU w) next)
  | 0x17 => some (haspDone s rd (c.pc + immU w) next)
  | 0x6F => some (haspDone s rd next (c.pc + immJ w))
  | 0x67 => if f3 = 0 then some (haspDone s rd next ((a + immI w) &&& 0xFFFFFFFE)) else none
  | 0x63 => (rvTaken f3 a b).map fun t => setHaspCore s { c with pc := if t then c.pc + immB w else next }
  | 0x03 => (rvLoad s f3 (a + immI w).toNat).map fun r => haspDone r.2 rd r.1 next
  | 0x23 =>
    if 3 ≤ f3 then none
    else
      let s1 := haspStore s (a + immS w).toNat (2 ^ f3) b.toNat
      some (setHaspCore s1 { s1.hasp.core with pc := next })
  | 0x13 =>
    if f3 = 1 && f7 ≠ 0 || f3 = 5 && f7 ≠ 0 && f7 ≠ 0x20 then none
    else some (haspDone s rd (rvAlu f3 (f3 = 5 && f7 = 0x20) a (immI w)) next)
  | 0x33 =>
    if f7 = 1 then some (haspDone s rd (rvMul f3 a b) next)
    else if f7 = 0 then some (haspDone s rd (rvAlu f3 false a b) next)
    else if f7 = 0x20 && (f3 = 0 || f3 = 5) then some (haspDone s rd (rvAlu f3 true a b) next)
    else none
  | 0x0F => if f3 = 0 then some (setHaspCore s { c with pc := next }) else none
  | _ => none

/-- One instruction of the Hasp. What no RV32IMC instruction is, ECALL, EBREAK, and a fetch from outside its memory have
no handler the spec names: the core stops (log 18: DESIGN CHOICE). -/
def haspStep (s : State) : State :=
  let c := s.hasp.core
  let stop := setHaspCore s { c with run := false }
  if !c.run then s
  else if tcmBytes < c.pc.toNat + 2 then stop
  else
    let h := c.mget c.pc.toNat 2
    if h % 4 = 3 then
      (if tcmBytes < c.pc.toNat + 4 then stop else (rvExec s (BitVec.ofNat 32 (c.mget c.pc.toNat 4)) 4).getD stop)
    else ((rvExpand h).bind fun w => rvExec s w 2).getD stop

/-- The Hasp issues an instruction in this step, or does not: its clock is not the cores' (log 18: DESIGN CHOICE). -/
def haspTurn (s : State) : State :=
  if !s.hasp.core.run then s
  else
    let s1 := { s with freeCtr := s.freeCtr + 1 }
    if freeOdd s then haspStep s1 else s1

end Sys2Proof.Machine
end

