-- ==== Sys2Proof/Machine/Step.lean ====
section
/-!
DEFINITION. One step of the package (log 4: DESIGN CHOICE): the head of the agenda, which holds the steps of agents other
than the issuing waves; with the agenda empty, a cycle of the next wave, after which the agenda holds what those agents may do now. The
steps of the outside world (the host, the Hasp's firmware, errors) come in through the agenda alone.
-/

namespace Sys2Proof.Machine

/-! ### What the other agents may do (log 4: DESIGN CHOICE) -/

/-- The step of an array's head command. -/
def cmdStep (n : Fin 384) (a : Fin 2) (c : Cmd) : Instr :=
  match c.op with
  | .swap => .mswapExecute n a
  | .stream .. => .mstreamStart n a
  | .drain _ => .mdrainExecute n a
  | .zero _ | .load .. | .store .. => .tileCommandExecute n a

/-- An array's steps. -/
def arraySteps (c : Core) (a : Fin 2) : List Instr :=
  (if c.arrays[a].mlds.isSome then [.mldsLand c.n a] else []) ++ (c.arrays[a].queue.head?.toList.map (cmdStep c.n a))

/-- A transfer's steps. -/
def xferSteps (x : Xfer) : List Instr :=
  match x.left, x.spad, x.queue with
  | k :: _, none, some _ => [.copyPermitAcquire x.id, .copySectorPerformed x.id k]
  | k :: _, _, _ => [.copySectorPerformed x.id k]
  | [], _, _ =>
    if x.kind = .packet then [.launchCompletion x.id] else x.thn.toList.map fun n => .followOnFire x.wave n

/-- The slot map's steps for a context. -/
def ctxSteps (c : Context) : List Instr :=
  (match c.reqs with
    | r :: _ => match r.op with
      | .new _ | .query .. => [.hypnewReply c.ctx]
      | .confirm _ => [.confirmCommit c.ctx]
      | .refute _ => [.refuteApplied c.ctx]
    | [] => []) ++ (c.lazy.head?.toList.map fun v => .versionSlotFreed c.ctx v)

/-- The step that may end a wait. -/
def waitStep (id : Nat) (n : Fin 4) (k : WaitKind) : List Instr :=
  match k with
  | .monitor => [.monitorWakeup id n]
  | .latch => [.lwaitWakeup id n]
  | .queue => [.queueWaiterRetry id n]
  | .spawn | .tret .. => [.spawnRingResume id n]
  | .fencex .. => [.fencexRetire id n]
  | .sleep _ => [.sleepExpiry id n]
  | .mov .. => [.movWaitTimeout id n]
  | .hypres | .hypnew | .busy _ | .service | .score | .link => []

/-- The steps that may end a wave's waits; the supervisor leaf's is named by a leaf that does not wait. -/
def waveSteps (w : Wave) : List Instr :=
  if w.id = 0 || w.res = .out then []
  else
    ((List.finRange 4).flatMap fun n => match w.leaves[n].wait with
      | some x => waitStep w.id n x.kind
      | none => []) ++
      (match w.sup.wait with
        | some x => waitStep w.id (((List.finRange 4).find? fun n => w.leaves[n].wait.isNone).getD 0) x.kind
        | none => []) ++
      (match w.hwait with
        | some x => waitStep w.id 0 x.kind
        | none => []) ++
      (w.held.filter fun h => !h.ready).map (fun h => .movWaitTimeout w.id h.leaf) ++
      List.replicate (w.idle / 32) (.idleIssueCycle w.id)

/-- A launch's steps. -/
def launchSteps (l : Launch) : List Instr :=
  if l.held then []
  else if !l.placed then [if l.nbhd then .neighbourhoodPlacement l.id else .workgroupPlacement l.id]
  else if l.live = 0 then [.launchCompletion l.id]
  else []

/-- A gang unit's steps. -/
def unitSteps (s : State) (u : GangUnit) : List Instr :=
  (if u.preempt.isSome then [.waveSwitchOut u.handle, .ppointPatienceTimeout u.handle] else []) ++
    (if u.out && u.restore then [.gangRestore (BitVec.ofNat 16 u.handle)] else []) ++
    (if (allWaves s).all fun w => w.unit ≠ u.handle then [.workgroupExit u.handle] else [])

/-- The step of the packet at a slot's head. After a wake of an empty ring the Strike reads WR (R278). -/
def packetStep (s : State) (x : Slot) : List Instr :=
  let blank : Packet := { at_ := 0, len := 0, ord := false, irq := false, fields := [] }
  match headOf s x with
  | .empty => if 2 ^ 31 ≤ qcbGet s x.qcb 0x14 4 then [.nopPacket x.n blank] else []
  | .stall _ => [.nopPacket x.n blank]
  | .packet t e =>
    let p : Packet := match e with
      | .ok p => p
      | .error _ => blank
    [if !typeEnabled s t then .unknownPacketType x.n p
     else match t with
      | 0x001 => .launch x.n p
      | 0x002 => .nbhdLaunch x.n p
      | 0x003 => .taskSeed x.n p
      | 0x004 => .edge x.n p
      | 0x005 => .signal x.n p
      | 0x006 => .wait x.n p
      | 0x007 => .copy x.n p
      | 0x008 => .write x.n p
      | 0x009 => .stamp x.n p
      | 0x00A => .hypSweep x.n p
      | 0x00B => .replay x.n p
      | _ => .nopPacket x.n p]

/-- A slot's steps. -/
def slotSteps (s : State) (x : Slot) : List Instr :=
  (if x.drain ≠ 0 then [.unmapComplete x.n]
   else if x.wait.isSome then [.waitSatisfied x.n]
   else if x.replay.isSome then [.replayPass x.n]
   else if mayTake s x then packetStep s x
   else []) ++ (if x.idle then [] else [.queueIdleTimeout x.n])

/-- What the agents other than the issuing waves may do, in a fixed order. -/
def background (s : State) : List Instr :=
  s.cores.flatMap (fun c => arraySteps c 0 ++ arraySteps c 1) ++ s.xfers.flatMap xferSteps ++ s.ctxs.flatMap ctxSteps ++
    (allWaves s).flatMap waveSteps ++ s.launches.flatMap launchSteps ++
    (s.seeds.filter fun x => x.left = 0).map (fun x => .launchCompletion x.id) ++
    ((List.finRange 8).filterMap fun c => (nextRing s c).map fun r => .taskWaveStart r.ctx c) ++
    s.units.flatMap (unitSteps s) ++ s.slots.flatMap (slotSteps s) ++
    s.exchanges.map (fun x => .pageExchangeComplete x.near x.far) ++
    s.moved.filterMap fun x => ((allWaves s).find? fun w => w.id ≠ 0 && w.core = x.core && w.res ≠ .out).map fun w =>
      .atomicMovedReissue w.id 0

/-- The agenda is filled anew. -/
def refill (s : State) : State := { s with agenda := background s }

/-- The cycles that have passed since `before` count for the waves that idle; a wave that does not begins anew (R103). -/
def countIdle (before s : State) : State :=
  mapWaves s fun w => { w with idle := if w.idles || s.clk = before.clk then w.idle + (s.clk - before.clk).toNat else 0 }

/-- The cycles that a step of another agent took count for the waves that idle. -/
def idling (before : State) (o : Out) : Out :=
  match o with
  | .next t => .next (countIdle before t)
  | o => o

/-- The end of a wave's cycle: the cycles the spec leaves open pass, idle waves count, a pod access is acknowledged, the swap
engine copies, the TLBs change, the agenda is filled, and the Hasp has its turn. -/
def endOfCycle (before s : State) : State := haspTurn (refill (tlbTurn (swapTurn (ackPod (countIdle before (drift s))))))

/-- A leaf's turn that the agenda names, if it is the turn of that leaf (R76, R237): the checks, then its chain. -/
def turnStep (s : State) (wave : Nat) (n : Fin 4) : Out :=
  let s1 := updW (focus s wave) Wave.freshOverride
  if wave ≠ 0 && s1.w.id = wave && s1.w.mode = .program && s1.w.res = .resident && s1.w.offered = some n && turnDue exec s1 then
    leafCycle exec s1 n
  else .next s

/-- A step at a wave's boundary that the agenda names: it does not arise while the wave's next chain ends in a precise
trap (R237). -/
def boundaryStep (s : State) (wave : Nat) (i : Instr) : Out :=
  let s1 := focus s wave
  if wave ≠ 0 && s1.w.id = wave && precedesBoundary exec s1 then .next s else exec i s

/-- The cycle of the next wave; with none ready, a cycle passes, which counts once the boot has started the count (R335). -/
def waveStep (s : State) : Out :=
  match pickWave s with
  | none => .next (if s.boot.up then endOfCycle s (tick s 1) else refill s)
  | some w =>
    let s1 := focus s w.id
    match waveCycle exec s1 with
    | .next t => .next (endOfCycle s (countWaits w (t.clk - s.clk).toNat s1 t))
    | o => o

/-- One step of the machine. -/
def step (s : State) : Host.Outcome State Fault Refusal :=
  match s.agenda with
  | .leafTurn wave n :: t => idling s (turnStep { s with agenda := t } wave n)
  | .eventDelivery wave :: t => idling s (boundaryStep { s with agenda := t } wave (.eventDelivery wave))
  | .starvationOverride wave :: t => idling s (boundaryStep { s with agenda := t } wave (.starvationOverride wave))
  | .trapEntry wave :: t => idling s (boundaryStep { s with agenda := t } wave (.trapEntry wave))
  | i :: t => idling s (exec i { s with agenda := t })
  | [] => waveStep s

/-! ### Placing an instruction (log 34: DESIGN CHOICE) -/

/-- A booted full package (R307, R310). -/
def bootedConfig : ConfigRec :=
  { pkg := 0, pod1 := 0, hbm := 0xFF, ports := 0, cores := BitVec.allOnes 384, debug := false, bytes := [] }

/-- Every packet type enabled (R308). -/
def bootedTables : StrikeTables :=
  { types := 0xFFF, done := Vector.replicate 4 0, err := Vector.replicate 4 0, bytes := [] }

/-- The context of the placed instruction: its level-1 table at 0x10000. -/
def placedContext : Context := { ctx := 1, asid := 1, table := 0x10000, supco := 0x10000 }

/-- Its page tables and code: virtual 0 to 1 GiB lies at physical 1 GiB, and every access is allowed there (R156, R157). -/
def placedMemory (w : Nat) : List Host.Cell :=
  let put (m : List Host.Cell) (a x : Nat) : List Host.Cell :=
    ((span a 8).zip (leBytes 8 x)).foldl (fun m c => memSet m c.1 c.2) m
  put (put (put (put [] 0x10000 0x20001) 0x20000 0x30001) 0x30000 0x4000201F) 0x40000000 w

/-- Its launch: one workgroup of one wave. -/
def placedLaunch : Launch :=
  { id := 1, qcb := 0, hdr := 0, ctx := 1, k := { code := 0, scr := 0x8000 }, nbhd := false, args := [], next := 1, live := 1
    lb := some 0, li := some 0 }

/-- Its gang unit, alone on core 0. -/
def placedUnit : GangUnit :=
  { handle := 2, ctx := 1, launch := some 1, members := [{ wg := 0, core := 0, base := 0x021000000000, alloc := 0x8000 }] }

/-- Its wave: all 32 lanes in leaf 0, at offset 0 of the code object at virtual address 0. -/
def placedWave : Wave :=
  { id := 3, ctx := 1, unit := 2, age := 3
    leaves := (Vector.replicate 4 {}).set 0 { mask := 0xFFFFFFFF }
    sr := { ctx := 1, asid := 1 }, absent := 0 }

/-- The machine about to fetch an instruction whose bits are `w`: booted, a context bound, a wave resident (log 34: DESIGN CHOICE). -/
def State.withFetchWord (s : State) (_nbits w : Nat) : State :=
  { s with
    w := placedWave
    others := []
    agenda := []
    tlb := []
    nextId := 4
    mem := placedMemory w
    ctxs := [placedContext]
    launches := [placedLaunch]
    units := [placedUnit]
    config := some bootedConfig
    tables := some bootedTables
    boot := { s.boot with on := true, step := 6, up := true } }

end Sys2Proof.Machine
end

