-- ==== Sys2Proof/WellFormed.lean ====
section
/-!
DEFINITION. Well-formed instructions: the words every check of the decoder passes (spec/02_encoding.md R46 to R64), in
a mode (R67, R98, R239).
-/

namespace Sys2Proof

/-- How many operand fields ask for a literal. A word has at most one trailing word (R35). -/
def Instr.literals (m : Mode) (i : Instr) : Nat := ((operandRoles m i).filter (fun f => f.o.isLit)).length

/-- Is an instruction word legal in a mode: its function codes, field values and operands are all in their roles, and at
most one operand is a literal. -/
def Instr.wellFormedIn (m : Mode) (i : Instr) : Bool := (checkFault m i).isNone && i.literals m ≤ 1

/-- Legal as a word of the program, but for its mode: some mode admits it. -/
def Instr.wellFormed (i : Instr) : Bool :=
  i.wellFormedIn .program || i.wellFormedIn .hinge || i.wellFormedIn .supervisor

/-- A step of another agent than a wave's issue: it has no word (R467, spec/95_what_each_step_holds.md). -/
def Instr.isWord (i : Instr) : Bool := !(encode i).isEmpty

end Sys2Proof
end

