-- ==== Sys2Proof/Safety.lean ====
section
/-!
DEFINITION. The terms claims are stated in: a safe run, the invariant of memory, and the updates of one register, one
mask, one leaf or one memory range, each written out as the record it makes.
-/

namespace Sys2Proof.Machine

/-- A step that neither faults nor is refused. -/
def Runs (s : State) : Prop := ∃ t, step s = .next t

/-- A run of `n` steps, none of which faults or is refused. -/
def SafeFor : Nat → State → Prop
  | 0, _ => True
  | n + 1, s => ∃ t, step s = .next t ∧ SafeFor n t

/-! ### Updates -/

/-- The issuing wave's scalar `r` holds `x`; in hinge mode s24 to s31 are the shadows h0 to h7 (R43). -/
def withScalar (s : State) (r : Fin 32) (x : Word) : State :=
  if s.w.mode = .hinge ∧ 24 ≤ r.val then
    { s with w := { s.w with r := { s.w.r with h := s.w.r.h.set (r.val - 24) x } } }
  else { s with w := { s.w with r := { s.w.r with s := s.w.r.s.set r x } } }

/-- The issuing wave's vector `r` holds `f l` in each lane `l` of a mask, and in the others what it held. -/
def withVector (s : State) (r : Fin 88) (m : Mask) (f : Fin 32 → Word) : State :=
  { s with w := { s.w with r := { s.w.r with
      v := s.w.r.v.set r (Vector.ofFn fun l => if m.getLsbD l then f l else s.w.r.v[r][l]) } } }

/-- As `withVector`, by number; past v87 there is no register. -/
def withVectorAt (s : State) (r : Nat) (m : Mask) (f : Fin 32 → Word) : State :=
  if h : r < 88 then withVector s ⟨r, h⟩ m f else s

/-- The issuing wave's mask `k` holds `m`; k0 is never written (R40). -/
def withMask (s : State) (k : Fin 16) (m : Mask) : State :=
  if k = 0 then s else { s with w := { s.w with r := { s.w.r with k := s.w.r.k.set k m } } }

/-- Flags are ORed into %fstat. -/
def withFlags (s : State) (f : Flags) : State :=
  { s with w := { s.w with sr := { s.w.sr with fstat := s.w.sr.fstat ||| f.zeroExtend 32 } } }

/-- The lanes a word of the issue acts for: the agent's, without those a recoverable fault took out of the chain
(R236). -/
def issueLanes (w : Wave) : Mask := w.agentMask &&& ~~~w.iss.excl

/-- The loop stack of the issuing agent after its lanes `m` branch from the word to their targets (R89); the handler has
none. -/
def unwound (s : State) (m : Mask) (tgt : Fin 32 → Word) : State :=
  match s.w.iss.agent with
  | .leaf _ => { s with w := { s.w with loops := unwind s.w.loops m s.w.iss.pc tgt } }
  | .handler => s
  | .supervisor => { s with w := { s.w with supLoops := unwind s.w.supLoops m s.w.iss.pc tgt } }

/-- Leaf `n` is suspended with an event, whose lanes' offsets go to their own targets; a resume of leaf 3 after a placement
waits for the slot again (R94, R96, R105). -/
def withParting (s : State) (n : Fin 4) (e : Event) (tgt : Fin 32 → Word) : State :=
  { s with w := { s.w with
      lpc := Vector.ofFn fun l => if e.mask.getLsbD l then tgt l else s.w.lpc[l]
      leaves := s.w.leaves.set n { s.w.leaves[n] with pend := some { e with leaf := n, order := s.w.evOrder } }
      resumes := s.w.resumes ++ (s.w.leaves[n].pend.filter fun x => x.cause = 5).toList
      evOrder := s.w.evOrder + 1 } }

/-- The lanes a pending split or multi-split of a leaf has sent on (R387). -/
def sentOn (lf : Leaf) : Mask :=
  match lf.pend with
  | some e => if e.cause = 1 ∨ e.cause = 2 then e.mask else 0
  | none => 0

/-! ### Accesses -/

/-- The debug detector has nothing to report of a context's accesses: it is not in debug mode, or no record is kept
(R197). -/
abbrev NoHazardOf (s : State) (ctx : Nat) : Prop := s.hazards = [] ∨ debugCtx s ctx = false

/-- It has nothing to report of the issuing wave's. -/
abbrev NoHazard (s : State) : Prop := NoHazardOf s s.w.ctx

/-- Copies the issuing wave's core holds under leases that have not ended (R151, R165). -/
abbrev LiveCopies (s : State) (hits : List L1Line) : Prop :=
  ∀ c ∈ hits, c ∈ s.copies ∧ c.core = s.w.core ∧ ltOf s s.w.core ≤ c.ends

/-- What a lane-path read may change beside its wave: lines' times, the core's time and monitors, the L1's copies, the counts
of merges, and the free values drawn (R151, R152, R165). -/
def accessed (s t : State) : State :=
  { s with lines := t.lines, cores := t.cores, freeCtr := t.freeCtr, copies := t.copies, chips := t.chips }

/-- What a lane-path write may change beside its wave: memory and its monitors, lines' times, the core's time and monitors,
the L1's copies, a replay's captured units, and the debug detector's records (R157, R182, R314, R197). -/
def stored (s t : State) : State :=
  { s with mem := t.mem, monitors := t.monitors, lines := t.lines, cores := t.cores, slots := t.slots
           copies := t.copies, hazards := t.hazards }

/-- Every lane of a mask reaches its bytes: its checks find them, here, and no line of them is poisoned. The issue has
not yet made its agent wait. -/
def Reaches (s : State) (m : Mask) (chk : Fin 32 → Except Miss Loc) (at_ : Fin 32 → Loc) : Prop :=
  s.w.iss.redo = false ∧ ∀ l : Fin 32, m.getLsbD l = true →
    chk l = .ok (at_ l) ∧ (at_ l).peer = none ∧ (at_ l).bad = none ∧ ∀ a ∈ (at_ l).pas, homeLine s a ∉ s.poisoned

/-- The lanes of a mask with their bytes, ascending. -/
def reached (m : Mask) (at_ : Fin 32 → Loc) : List (Fin 32 × Loc) := (lanesOf m).map fun l => (l, at_ l)

/-- Does the DIRTY byte of a leaf entry that lanes of a mask store through lie at `b` (R157)? -/
def dirtiedAt (s : State) (m : Mask) (at_ : Fin 32 → Loc) (b : Nat) : Prop :=
  ∃ l : Fin 32, m.getLsbD l = true ∧ ∃ e ∈ (at_ l).entries, route s (e + 1) = route s b

/-- The byte at `b` after the writes of a list, the last one there remaining. -/
def lastWrite (s : State) (ws : List (Nat × Byte)) (b : Nat) : Byte :=
  match ws.reverse.find? fun c => route s c.1 = route s b with
  | some c => c.2
  | none => plainByte s b

/-- The bytes the lanes of a mask reach are `n` each, plain memory, and apart: two lanes reach the same bytes or none in
common, and no DIRTY byte of an entry gone through is among them. -/
def Apart (s : State) (m : Mask) (n : Nat) (at_ : Fin 32 → Loc) : Prop :=
  ∀ l : Fin 32, m.getLsbD l = true →
    (at_ l).pas.length = n ∧ ((at_ l).pas.map (route s)).Nodup ∧ (∀ a ∈ (at_ l).pas, physKind a ≠ some .view) ∧
    ∀ j : Fin 32, m.getLsbD j = true →
      (∀ e ∈ (at_ j).entries, ∀ a ∈ (at_ l).pas, route s (e + 1) ≠ route s a) ∧
      (at_ j = at_ l ∨ ∀ a ∈ (at_ j).pas, ∀ b ∈ (at_ l).pas, route s a ≠ route s b)

/-- How many lanes of a mask reach the bytes of lane `l`. -/
def sharing (m : Mask) (at_ : Fin 32 → Loc) (l : Fin 32) : Nat :=
  ((lanesOf m).filter fun j => at_ j = at_ l).length

/-- No byte at `b` is reached by a lane of the mask, and none is a DIRTY byte gone through. -/
def untouched (s : State) (m : Mask) (at_ : Fin 32 → Loc) (b : Nat) : Prop :=
  ¬dirtiedAt s m at_ b ∧ ∀ l : Fin 32, m.getLsbD l = true → ∀ a ∈ (at_ l).pas, route s a ≠ route s b

/-- A 32-bit word of memory at a list of byte addresses. -/
def wordOf (s : State) (pas : List Nat) : Word := BitVec.ofNat 32 (leNat (pas.map (physByte s)))

/-- The agent's leaf waits, and goes on at `pc` when the wait ends (R74, R77). -/
def agentWaits (w : Wave) (k : WaitKind) (pc : Word) (a : Nat) : Wave :=
  match w.iss.agent with
  | .leaf n => { w with leaves := w.leaves.set n { w.leaves[n] with wait := some ⟨k, pc, a⟩ } }
  | .handler => { w with hwait := some ⟨k, pc, a⟩ }
  | .supervisor => { w with sup := { w.sup with wait := some ⟨k, pc, a⟩ } }

/-- The agent waits before the chain's first effect and will issue it again (R77). -/
def awaits (s : State) (k : WaitKind) (a : Nat) : State :=
  let w := agentWaits s.w k s.w.iss.first a
  { s with w := { w with iss := { w.iss with redo := true } } }

/-! ### A word about to be carried out (R70, R77) -/

/-- An agent carries out one word at `pc`, followed by the one at `nxt`. -/
def issuing (s : State) (a : Agent) (pc nxt : Word) : State :=
  { s with w := { s.w with iss := { agent := a, pc := pc, first := pc, next := nxt, born := s.nextId } } }

/-- The word an agent's fetch at `pc` finds in its code object (R34, R35). -/
def FetchesWord (u : State) (pc word : Word) : Prop :=
  let acc := u.w.committed (leaderOf u.w.agentMask)
  let g := codeBase u + pc.zeroExtend 64
  ∃ x, resolve u acc .fetch g 4 = .ok x ∧ (∀ a ∈ x.pas, homeLine u a ∉ u.poisoned) ∧ word = codeWord u acc g x

/-- The bytes at `pc` decode to a well-formed instruction of the wave's mode, with its trailing word if it has one; the
word ends its chain (R37, R69, R98, R218). -/
def DecodesAt (u : State) (pc word next : Word) (i : Instr) : Prop :=
  FetchesWord u pc word ∧ (wordCount word = 2 → FetchesWord u (pc + 4) next) ∧ (wordCount word = 1 → next = 0) ∧
  decode (slotOf pc) word next = .ok i ∧ i.wellFormedIn u.w.mode = true ∧ chainBit word = false ∧
  (opOf word = 0x7C → u.w.task = false) ∧
  (u.w.mode = .hinge → hingeOpcode (opOf word) (bOf word) = true ∧ gdOf word = 0)

/-- The issuing wave's next cycle is the agent's word at `pc`: no held access, no event, no pending fault, no placement and
no turn of a loop comes first (R76, R88, R95, R97, R99, R158, R237). -/
def AgentDue (s : State) (a : Agent) (pc : Word) (counts : Nat) : Prop :=
  (∀ h ∈ s.w.held, h.ready = false) ∧ match a with
  | .leaf n => s.w.mode = .program ∧ s.w.pending = [] ∧ s.w.override = false ∧ s.w.overrideDue = false ∧
      s.w.earliest = none ∧ s.w.offered = some n ∧ s.w.turnChecks n = (s.w, false) ∧ pc = s.w.leaves[n].pc
  | .handler => s.w.mode = .hinge ∧ s.w.hcount + counts ≤ s.w.sr.budget.toNat ∧ pc = s.w.hpc
  | .supervisor => s.w.mode = .supervisor ∧ pc = s.w.sup.pc ∧
      loopBack s.w.present s.w.sup.mask s.w.supLoops pc = (s.w.supLoops, pc, false)

/-- What the cycle adds to the word's own effect: the turn's end, the counts, the cycle's cost. -/
def cycleEnd (s : State) (a : Agent) (t : State) (counts : Nat) : State :=
  match a with
  | .leaf n => leafIssued s t n
  | .handler => handlerIssued s t counts
  | .supervisor => supervisorIssued s t

/-! ### Queues -/

/-- The Strike may take a packet of the slot: it is not being unmapped, its last packet has started, and the link is up if
its queue control block lies in host memory (R283, R289, R305, R314). -/
def Takes (s : State) (slot : Fin 256) (x : Slot) : Prop :=
  s.slots.find? (fun y => y.n = slot) = some x ∧ x.drain = 0 ∧ x.wait = none ∧ x.replay = none ∧
    (∀ l ∈ s.launches, l.qcb = x.qcb → l.held = true ∨ l.total ≤ l.next) ∧
    (s.link.up = true ∨ physKind x.qcb ≠ some .host)

/-- Packet `p` of type `t` stands at the head of the slot's ring, as read once PEND is clear, and may be taken (R278). -/
def AtHead (s : State) (slot : Fin 256) (x : Slot) (t : Nat) (p : Packet) : Prop :=
  Takes s slot x ∧ headOf (clearPend s x.qcb) x = .packet t (.ok p)

/-- Every packet of the queue that has started has completed: what a packet with ORD, and one that acts after every
earlier packet, wait for (R279, R283). -/
def Settled (s : State) (q : Nat) : Prop :=
  (∀ l ∈ s.launches, l.qcb ≠ q) ∧ (∀ x ∈ s.seeds, x.qcb ≠ q) ∧ ∀ x ∈ s.xfers, x.kind = .packet → x.qcb ≠ q

/-- The 128 bytes of a queue control block are plain memory of one kind, each its own, and none of them is posted to the host
but while the link to it is down (R276, R305). -/
def PlainQcb (s : State) (q : Nat) : Prop :=
  ((span q 128).map (route s)).Nodup ∧ (∀ a ∈ span q 128, physKind a ≠ some .view ∧ physKind a = physKind q) ∧
    ∀ c ∈ s.link.posted, c.1 ∈ span q 128 → linkHolds s [q] = true

/-- A field of a queue control block, little-endian, as the package sees it (R276, R305). -/
def field (s : State) (q off n : Nat) : Nat := leNat ((span (q + off) n).map (postedByte s))

/-- No byte of a queue control block is kept at `b`. -/
def outside (s : State) (q b : Nat) : Prop := ∀ a ∈ span q 128, route s a ≠ route s b

/-! ### Shapes of a register instruction's result

Each says for one mnemonic, given as its constructor, that it completes and what the next state is, for every operand
form its roles admit: the registers it names, the ports it names once they are ready, a port that is not ready (the
leaf waits, or takes the fault of R443, in the state `portsReady` gives), and an empty effective mask. -/

/-- A scalar instruction of two sources (R417). -/
def ScalarGives (mk : Bool → Operand → Operand → Operand → Instr) (val : Word → Word → Word) : Prop :=
  ∀ (s : State) (ch : Bool) (r : Fin 32) (a b : Operand),
    exec (mk ch (.s r) a b) s = .next (withScalar s r (val (scalarVal s.w a) (scalarVal s.w b)))

/-- A lane-wise integer instruction of two sources (R441): `val` sees what D held and both sources. -/
def LanesGive2 (mk : Hdr → Operand → Operand → Operand → Instr) (val : Word → Word → Word → Word) : Prop :=
  (∀ (s : State) (h : Hdr) (r : Fin 88) (a b : Operand), a.isQ = false → b.isQ = false →
    exec (mk h (.v r) a b) s = .next (withVector s r (s.w.eff h.gd) fun l =>
      val (getV s.w r l) (vecVal s.w a l) (vecVal s.w b l))) ∧
  (∀ (s s1 s2 : State) (h : Hdr) (d a b : Operand) (x y : Lanes Word), s.w.eff h.gd ≠ 0 →
    portsReady s (s.w.eff h.gd) d [a, b] [a, b] = .ok () → readVec s (s.w.eff h.gd) a = .ok (s1, x) →
    readVec s1 (s.w.eff h.gd) b = .ok (s2, y) →
    exec (mk h d a b) s = .next (writeVec s2 (s.w.eff h.gd) d fun l => val (getV s.w (regNum d) l) x[l] y[l])) ∧
  (∀ (s s' : State) (h : Hdr) (d a b : Operand), s.w.eff h.gd ≠ 0 →
    portsReady s (s.w.eff h.gd) d [a, b] [a, b] = .error s' → exec (mk h d a b) s = .next s') ∧
  ∀ (s : State) (h : Hdr) (d a b : Operand), s.w.eff h.gd = 0 → exec (mk h d a b) s = .next s

/-- A lane-wise integer instruction of one source (R441). -/
def LanesGive1 (mk : Hdr → Operand → Operand → Instr) (val : Word → Word) : Prop :=
  (∀ (s : State) (h : Hdr) (r : Fin 88) (a : Operand), a.isQ = false →
    exec (mk h (.v r) a) s = .next (withVector s r (s.w.eff h.gd) fun l => val (vecVal s.w a l))) ∧
  (∀ (s s1 : State) (h : Hdr) (d a : Operand) (x : Lanes Word), s.w.eff h.gd ≠ 0 →
    portsReady s (s.w.eff h.gd) d [a] [a] = .ok () → readVec s (s.w.eff h.gd) a = .ok (s1, x) →
    exec (mk h d a) s = .next (writeVec s1 (s.w.eff h.gd) d fun l => val x[l])) ∧
  (∀ (s s' : State) (h : Hdr) (d a : Operand), s.w.eff h.gd ≠ 0 →
    portsReady s (s.w.eff h.gd) d [a] [a] = .error s' → exec (mk h d a) s = .next s') ∧
  ∀ (s : State) (h : Hdr) (d a : Operand), s.w.eff h.gd = 0 → exec (mk h d a) s = .next s

/-- A lane-wise float instruction of two sources: each lane's value and the flags it raises (R441, R452). -/
def FloatsGive2 (mk : Hdr → Operand → Operand → Operand → Instr) (val : Rnd → Word → Word → Word → Word × Flags) :
    Prop :=
  (∀ (s : State) (h : Hdr) (r : Fin 88) (a b : Operand), a.isQ = false → b.isQ = false →
    exec (mk h (.v r) a b) s = .next (withFlags
      (withVector s r (s.w.eff h.gd) fun l => (val s.w.rnd (getV s.w r l) (vecVal s.w a l) (vecVal s.w b l)).1)
      (orFlags (s.w.eff h.gd) fun l => (val s.w.rnd (getV s.w r l) (vecVal s.w a l) (vecVal s.w b l)).2))) ∧
  (∀ (s s1 s2 : State) (h : Hdr) (d a b : Operand) (x y : Lanes Word), s.w.eff h.gd ≠ 0 →
    portsReady s (s.w.eff h.gd) d [a, b] [a, b] = .ok () → readVec s (s.w.eff h.gd) a = .ok (s1, x) →
    readVec s1 (s.w.eff h.gd) b = .ok (s2, y) →
    exec (mk h d a b) s = .next (withFlags
      (writeVec s2 (s.w.eff h.gd) d fun l => (val s.w.rnd (getV s.w (regNum d) l) x[l] y[l]).1)
      (orFlags (s.w.eff h.gd) fun l => (val s.w.rnd (getV s.w (regNum d) l) x[l] y[l]).2))) ∧
  (∀ (s s' : State) (h : Hdr) (d a b : Operand), s.w.eff h.gd ≠ 0 →
    portsReady s (s.w.eff h.gd) d [a, b] [a, b] = .error s' → exec (mk h d a b) s = .next s') ∧
  ∀ (s : State) (h : Hdr) (d a b : Operand), s.w.eff h.gd = 0 → exec (mk h d a b) s = .next s

/-- A lane-wise float or conversion instruction of one source. -/
def FloatsGive1 (mk : Hdr → Operand → Operand → Instr) (val : Rnd → Word → Word × Flags) : Prop :=
  (∀ (s : State) (h : Hdr) (r : Fin 88) (a : Operand), a.isQ = false →
    exec (mk h (.v r) a) s = .next (withFlags
      (withVector s r (s.w.eff h.gd) fun l => (val s.w.rnd (vecVal s.w a l)).1)
      (orFlags (s.w.eff h.gd) fun l => (val s.w.rnd (vecVal s.w a l)).2))) ∧
  (∀ (s s1 : State) (h : Hdr) (d a : Operand) (x : Lanes Word), s.w.eff h.gd ≠ 0 →
    portsReady s (s.w.eff h.gd) d [a] [a] = .ok () → readVec s (s.w.eff h.gd) a = .ok (s1, x) →
    exec (mk h d a) s = .next (withFlags
      (writeVec s1 (s.w.eff h.gd) d fun l => (val s.w.rnd x[l]).1)
      (orFlags (s.w.eff h.gd) fun l => (val s.w.rnd x[l]).2))) ∧
  (∀ (s s' : State) (h : Hdr) (d a : Operand), s.w.eff h.gd ≠ 0 →
    portsReady s (s.w.eff h.gd) d [a] [a] = .error s' → exec (mk h d a) s = .next s') ∧
  ∀ (s : State) (h : Hdr) (d a : Operand), s.w.eff h.gd = 0 → exec (mk h d a) s = .next s

/-- A cross-lane instruction of one source (R460): `val` sees the wave, the effective mask and every lane of A. -/
def CrossGives1 (mk : Hdr → Operand → Operand → Instr) (val : Wave → Mask → Lanes Word → Fin 32 → Word × Flags) :
    Prop :=
  (∀ (s : State) (h : Hdr) (r : Fin 88) (a : Operand), a.isQ = false →
    exec (mk h (.v r) a) s = .next (withFlags
      (withVector s r (s.w.eff h.gd) fun l => (val s.w (s.w.eff h.gd) (lanes (vecVal s.w a)) l).1)
      (orFlags (s.w.eff h.gd) fun l => (val s.w (s.w.eff h.gd) (lanes (vecVal s.w a)) l).2))) ∧
  (∀ (s s1 : State) (h : Hdr) (d a : Operand) (x : Lanes Word), s.w.eff h.gd ≠ 0 →
    portsReady s (s.w.eff h.gd) d [a] [a] = .ok () → readVec s (s.w.eff h.gd) a = .ok (s1, x) →
    exec (mk h d a) s = .next (withFlags
      (writeVec s1 (s.w.eff h.gd) d fun l => (val s.w (s.w.eff h.gd) x l).1)
      (orFlags (s.w.eff h.gd) fun l => (val s.w (s.w.eff h.gd) x l).2))) ∧
  (∀ (s s' : State) (h : Hdr) (d a : Operand), s.w.eff h.gd ≠ 0 →
    portsReady s (s.w.eff h.gd) d [a] [a] = .error s' → exec (mk h d a) s = .next s') ∧
  ∀ (s : State) (h : Hdr) (d a : Operand), s.w.eff h.gd = 0 → exec (mk h d a) s = .next s

/-- A cross-lane instruction of two sources (R458): `val` sees every lane of A and B. -/
def CrossGives2 (mk : Hdr → Operand → Operand → Operand → Instr) (val : Lanes Word → Lanes Word → Fin 32 → Word) :
    Prop :=
  (∀ (s : State) (h : Hdr) (r : Fin 88) (a b : Operand), a.isQ = false → b.isQ = false →
    exec (mk h (.v r) a b) s = .next (withVector s r (s.w.eff h.gd)
      (val (lanes (vecVal s.w a)) (lanes (vecVal s.w b))))) ∧
  (∀ (s s1 s2 : State) (h : Hdr) (d a b : Operand) (x y : Lanes Word), s.w.eff h.gd ≠ 0 →
    portsReady s (s.w.eff h.gd) d [a, b] [a, b] = .ok () → readVec s (s.w.eff h.gd) a = .ok (s1, x) →
    readVec s1 (s.w.eff h.gd) b = .ok (s2, y) →
    exec (mk h d a b) s = .next (writeVec s2 (s.w.eff h.gd) d (val x y))) ∧
  (∀ (s s' : State) (h : Hdr) (d a b : Operand), s.w.eff h.gd ≠ 0 →
    portsReady s (s.w.eff h.gd) d [a, b] [a, b] = .error s' → exec (mk h d a b) s = .next s') ∧
  ∀ (s : State) (h : Hdr) (d a b : Operand), s.w.eff h.gd = 0 → exec (mk h d a b) s = .next s

/-- A lane-wise compare (R450): D gets the lanes of the effective mask where `rel` holds, and zeros elsewhere. -/
def LanesCompare (mk : Hdr → Fin 16 → Operand → Operand → Instr) (rel : Rnd → Word → Word → Bool) : Prop :=
  (∀ (s : State) (h : Hdr) (k : Fin 16) (a b : Operand), s.w.eff h.gd ≠ 0 → a.isQ = false → b.isQ = false →
    exec (mk h k a b) s = .next (withMask s k (maskWhere fun l =>
      (s.w.eff h.gd).getLsbD l && rel s.w.rnd (vecVal s.w a l) (vecVal s.w b l)))) ∧
  (∀ (s s1 s2 : State) (h : Hdr) (k : Fin 16) (a b : Operand) (x y : Lanes Word), s.w.eff h.gd ≠ 0 →
    portsReady s (s.w.eff h.gd) .lid [a, b] [a, b] = .ok () → readVec s (s.w.eff h.gd) a = .ok (s1, x) →
    readVec s1 (s.w.eff h.gd) b = .ok (s2, y) →
    exec (mk h k a b) s = .next (withMask s2 k (maskWhere fun l =>
      (s.w.eff h.gd).getLsbD l && rel s.w.rnd x[l] y[l]))) ∧
  (∀ (s s' : State) (h : Hdr) (k : Fin 16) (a b : Operand), s.w.eff h.gd ≠ 0 →
    portsReady s (s.w.eff h.gd) .lid [a, b] [a, b] = .error s' → exec (mk h k a b) s = .next s') ∧
  ∀ (s : State) (h : Hdr) (k : Fin 16) (a b : Operand), s.w.eff h.gd = 0 → exec (mk h k a b) s = .next s

/-- Conditions 0 to 5 (R47): eq, ne, lt, le, gt, ge. -/
def relation (c : Nat) (x y : Int) : Bool :=
  match c with
  | 0 => x = y
  | 1 => x ≠ y
  | 2 => x < y
  | 3 => x ≤ y
  | 4 => y < x
  | _ => y ≤ x

end Sys2Proof.Machine
end

