-- ==== Sys2Proof/Certificates/Slice0/Obligations.lean ====
section
/-!
DEFINITION. The statements for the provers.
-/

open Sys2Proof Sys2Proof.Machine

/-! ### Scalar, mask and vector registers -/

/-- R417, R43: the twelve scalar instructions complete in every state, writing sD, or in hinge mode a shadow, and
nothing else. -/
def Obligations.ScalarArithmeticResults : Prop :=
  (∀ (s : State) (ch : Bool) (r : Fin 32) (a : Operand),
    exec (.smov ch (.s r) a) s = .next (withScalar s r (scalarVal s.w a))) ∧
  ScalarGives .sadd (fun x y => BitVec.ofInt 32 (x.toInt + y.toInt)) ∧
  ScalarGives .ssub (fun x y => BitVec.ofInt 32 (x.toInt - y.toInt)) ∧
  ScalarGives .smul (fun x y => BitVec.ofInt 32 (x.toInt * y.toInt)) ∧
  ScalarGives .sand (fun x y => x &&& y) ∧
  ScalarGives .sor (fun x y => x ||| y) ∧
  ScalarGives .sxor (fun x y => x ^^^ y) ∧
  ScalarGives .sshl (fun x y => BitVec.ofNat 32 (x.toNat * 2 ^ y.toNat)) ∧
  ScalarGives .sshr (fun x y => BitVec.ofNat 32 (x.toNat / 2 ^ y.toNat)) ∧
  ScalarGives .ssha (fun x y => BitVec.ofInt 32 (x.toInt / 2 ^ y.toNat)) ∧
  ScalarGives .smin (fun x y => BitVec.ofInt 32 (min x.toInt y.toInt)) ∧
  ScalarGives .smax (fun x y => BitVec.ofInt 32 (max x.toInt y.toInt))

/-- R422, R428, R433, R369 to R371, R40: SCMP, SRDV, SWRV and the mask instructions complete in every state, the mask
instructions whatever the leaf's mask: a mask, a scalar, one lane of a vector register or of lpc is written, and nothing
else. -/
def Obligations.ScalarLaneAndMaskResults : Prop :=
  ((∀ (s : State) (h : Hdr) (k : Fin 16) (c : BitVec 3) (a b : Operand), c.toNat < 6 →
    exec (.scmp h k c a b) s = .next (withMask s k
      (if relation c.toNat (scalarVal s.w a).toInt (scalarVal s.w b).toInt then
        (if s.w.iss.agent = .handler then s.w.present else s.w.eff h.gd) else 0))) ∧
  (∀ (s : State) (ch : Bool) (r : Fin 32) (a b : Operand), a ≠ .lpc →
    exec (.srdv ch (.s r) a b) s = .next (withScalar s r (vecVal s.w a (laneOfVal (scalarVal s.w b))))) ∧
  (∀ (s : State) (ch : Bool) (r : Fin 32) (b : Operand),
    exec (.srdv ch (.s r) .lpc b) s = .next (withScalar s r (offsetRead s.w (laneOfVal (scalarVal s.w b))))) ∧
  (∀ (s : State) (ch : Bool) (r : Fin 88) (a b : Operand),
    exec (.swrv ch (.v r) a b) s =
      .next (withVector s r (laneBit (laneOfVal (scalarVal s.w b))) fun _ => scalarVal s.w a)) ∧
  ∀ (s : State) (ch : Bool) (a b : Operand),
    exec (.swrv ch .lpc a b) s = .next
      (if s.w.absent.getLsbD (laneOfVal (scalarVal s.w b)) then s
       else { s with w := { s.w with
         lpc := s.w.lpc.set (laneOfVal (scalarVal s.w b)) (scalarVal s.w a &&& 0xFFFFFFFC) } })) ∧
  (∀ (s : State) (ch : Bool) (d a b : Fin 16),
    exec (.kand ch d a b) s = .next (withMask s d (s.w.maskReg a &&& s.w.maskReg b)) ∧
    exec (.kor ch d a b) s = .next (withMask s d (s.w.maskReg a ||| s.w.maskReg b)) ∧
    exec (.kxor ch d a b) s = .next (withMask s d (s.w.maskReg a ^^^ s.w.maskReg b)) ∧
    exec (.knot ch d a) s = .next (withMask s d (~~~ s.w.maskReg a)) ∧
    exec (.kmov ch d a) s = .next (withMask s d (s.w.maskReg a))) ∧
  (∀ (s : State) (ch : Bool) (d b : Fin 16) (a : Operand),
    exec (.kset ch d a) s = .next (withMask s d (scalarVal s.w a)) ∧
    exec (.kpceq ch d a b) s = .next (withMask s d (maskWhere fun l =>
      (s.w.maskReg b).getLsbD l && !s.w.absent.getLsbD l && offsetRead s.w l = scalarVal s.w a))) ∧
  ∀ (s : State) (ch : Bool) (r : Fin 32) (a : Fin 16),
    exec (.kpop ch (.s r) a) s = .next (withScalar s r (BitVec.ofNat 32
      ((List.finRange 32).countP fun l : Fin 32 => (s.w.maskReg a).getLsbD l))) ∧
    exec (.kget ch (.s r) a) s = .next (withScalar s r (s.w.maskReg a)) ∧
    (∃ x : Word, exec (.kfirst ch (.s r) a) s = .next (withScalar s r x) ∧ x.toNat ≤ 32 ∧
      (∀ j < x.toNat, (s.w.maskReg a).getLsbD j = false) ∧ (x.toNat < 32 → (s.w.maskReg a).getLsbD x.toNat = true)) ∧
    (∃ x : Word, exec (.kpcmin ch (.s r) a) s = .next (withScalar s r x) ∧
      (∀ l : Fin 32, (s.w.maskReg a).getLsbD l = true → s.w.absent.getLsbD l = false → x ≤ offsetRead s.w l) ∧
      (x = 0xFFFFFFFF ∨ ∃ l : Fin 32, (s.w.maskReg a).getLsbD l = true ∧ s.w.absent.getLsbD l = false ∧
        x = offsetRead s.w l))

/-- R445, R448, R441: the two-source integer instructions complete under every mask; the lanes of the effective mask get
their values, and nothing else changes. -/
def Obligations.VectorIntegerResults : Prop :=
  LanesGive2 .vadd (fun _ x y => BitVec.ofInt 32 (x.toInt + y.toInt)) ∧
  LanesGive2 .vsub (fun _ x y => BitVec.ofInt 32 (x.toInt - y.toInt)) ∧
  LanesGive2 .vmul (fun _ x y => BitVec.ofInt 32 (x.toInt * y.toInt)) ∧
  LanesGive2 .vmulh (fun _ x y => BitVec.ofInt 32 (x.toInt * y.toInt / 2 ^ 32)) ∧
  LanesGive2 .vmulhn (fun _ x y => BitVec.ofNat 32 (x.toNat * y.toNat / 2 ^ 32)) ∧
  LanesGive2 .vmad (fun t x y => BitVec.ofInt 32 (x.toInt * y.toInt + t.toInt)) ∧
  LanesGive2 .vmin (fun _ x y => BitVec.ofInt 32 (min x.toInt y.toInt)) ∧
  LanesGive2 .vmax (fun _ x y => BitVec.ofInt 32 (max x.toInt y.toInt)) ∧
  LanesGive2 .vminn (fun _ x y => BitVec.ofNat 32 (min x.toNat y.toNat)) ∧
  LanesGive2 .vmaxn (fun _ x y => BitVec.ofNat 32 (max x.toNat y.toNat)) ∧
  LanesGive2 .vand (fun _ x y => x &&& y) ∧
  LanesGive2 .vor (fun _ x y => x ||| y) ∧
  LanesGive2 .vxor (fun _ x y => x ^^^ y) ∧
  LanesGive2 .vshl (fun _ x y => BitVec.ofNat 32 (x.toNat * 2 ^ y.toNat)) ∧
  LanesGive2 .vshr (fun _ x y => BitVec.ofNat 32 (x.toNat / 2 ^ y.toNat)) ∧
  LanesGive2 .vsha (fun _ x y => BitVec.ofInt 32 (x.toInt / 2 ^ y.toNat))

/-- R447 to R449, R451, R53: the bit-field and unary instructions; VADD64 writes both halves of the pair sum in the lanes of
the effective mask; VSEL writes every lane of the leaf, the guard choosing the source. -/
def Obligations.BitFieldUnaryPairAndSelectResults : Prop :=
  (LanesGive2 .vbfx (fun _ x y =>
    (x >>> (y.toNat % 32)) &&& BitVec.ofNat 32 (2 ^ min (y.toNat / 2 ^ 8 % 64) (32 - y.toNat % 32) - 1)) ∧
  LanesGive2 .vbfi (fun t x y =>
    let m : Word := BitVec.ofNat 32 (2 ^ min (y.toNat / 2 ^ 8 % 64) (32 - y.toNat % 32) - 1)
    (t &&& ~~~(m <<< (y.toNat % 32))) ||| ((x &&& m) <<< (y.toNat % 32))) ∧
  LanesGive1 .vabs (fun x => BitVec.ofInt 32 x.toInt.natAbs) ∧
  LanesGive1 .vneg (fun x => BitVec.ofInt 32 (-x.toInt)) ∧
  LanesGive1 .vnot (fun x => ~~~x) ∧
  LanesGive1 .vpopc (fun x => BitVec.ofNat 32 ((List.finRange 32).countP fun i : Fin 32 => x.getLsbD i)) ∧
  LanesGive1 .vclz (fun x => if x = 0 then 32 else BitVec.ofNat 32 (31 - x.toNat.log2))) ∧
  (∀ (s : State) (h : Hdr) (r : Fin 88) (a b : Operand) (hr : r.val + 1 < 88),
    exec (.vadd64 h (.v r) a b) s = .next (withVector
      (withVector s r (s.w.eff h.gd) fun l =>
        BitVec.ofNat 32 ((pairVal s.w a l).toNat + (pairVal s.w b l).toNat))
      ⟨r.val + 1, hr⟩ (s.w.eff h.gd) fun l =>
        BitVec.ofNat 32 (((pairVal s.w a l).toNat + (pairVal s.w b l).toNat) / 2 ^ 32))) ∧
  (∀ (s : State) (h : Hdr) (r : Fin 88) (a b : Operand), a.isQ = false → b.isQ = false →
    exec (.vsel h (.v r) a b) s = .next (withVector s r (s.w.eff 0) fun l =>
      if h.gd = 0 ∨ (s.w.src.k[h.gd.val]).getLsbD l = true then vecVal s.w a l else vecVal s.w b l)) ∧
  ∀ (s s1 s2 : State) (h : Hdr) (d a b : Operand) (x y : Lanes Word), s.w.eff 0 ≠ 0 →
    portsReady s (s.w.eff 0) d [a, b] [a, b] = .ok () → readVec s (s.w.eff 0) a = .ok (s1, x) →
    readVec s1 (s.w.eff 0) b = .ok (s2, y) →
    exec (.vsel h d a b) s = .next (writeVec s2 (s.w.eff 0) d fun l =>
      if (if h.gd = 0 then s.w.agentMask else s.w.src.k[h.gd.val]).getLsbD l = true then x[l] else y[l])

/-- R450, R453, R47: the compares write a whole mask, zero outside the effective mask, and no flag. -/
def Obligations.VectorCompareResults : Prop :=
  (∀ c : BitVec 3, c.toNat < 6 →
    LanesCompare (fun h k a b => .vcmp h k c a b) (fun _ x y => relation c.toNat x.toInt y.toInt) ∧
    LanesCompare (fun h k a b => .vcmpn h k c a b) (fun _ x y => relation c.toNat x.toNat y.toNat)) ∧
  ∀ c : BitVec 3, c.toNat < 7 → LanesCompare (fun h k a b => .vfcmp h k c a b) (fun r => fcmp r c)

/-- R452, R454, R455, R441: the float and conversion instructions complete under every mask; the lanes of the effective
mask get their values, %fstat the flags those lanes raise, and nothing else changes. -/
def Obligations.FloatInstructionResults : Prop :=
  FloatsGive2 .vfadd (fun r _ x y => fadd r x y) ∧
  FloatsGive2 .vfsub (fun r _ x y => fsub r x y) ∧
  FloatsGive2 .vfmul (fun r _ x y => fmul r x y) ∧
  FloatsGive2 .vfma (fun r t x y => ffma r x y t) ∧
  FloatsGive2 .vfmin (fun r _ x y => fmin r x y) ∧
  FloatsGive2 .vfmax (fun r _ x y => fmax r x y) ∧
  FloatsGive1 .vfrcp frcp ∧
  FloatsGive1 .vfrsq frsq ∧
  FloatsGive1 .vfexp2 fexp2 ∧
  FloatsGive1 .vflog2 flog2 ∧
  FloatsGive1 .vfsqrt fsqrt ∧
  FloatsGive1 .vfabs fabs ∧
  (∀ m : BitVec 2, FloatsGive1 (fun h d a => .vfrnd h d a m) (fun r => frnd r m)) ∧
  ∀ (t f : BitVec 3) (sat : Bool), FloatsGive1 (fun h d a => .vcvt h d a t f sat) (fun r => cvt r t f sat)

/-- R458, R460, R132, R133: the cross-lane instructions complete under every mask. VRED gives every lane of the effective
mask the root of the tree over those lanes, VSCAN its inclusive or exclusive value, VSEGSCAN its inclusive value over the
lanes of its segment. -/
def Obligations.CrossLaneResults : Prop :=
  CrossGives2 .vshuf (fun x y l => x[y[l].toNat % 32]) ∧
  CrossGives2 .vbcast (fun x y _ => x[y[0].toNat % 32]) ∧
  (∀ op : BitVec 4, CrossGives1 (fun h d a => .vred h d a op) (fun w e x _ =>
    let n := treeNode w.rnd op (leafNodes e x) 5 0
    (nodeVal op n, nodeFlags n))) ∧
  (∀ op : BitVec 4, CrossGives1 (fun h d a => .vscan h d a false op) (fun w e x l =>
    let n := inclusive w.rnd op (leafNodes e x) l
    (nodeVal op n, nodeFlags n))) ∧
  (∀ op : BitVec 4, CrossGives1 (fun h d a => .vscan h d a true op) (fun w e x l =>
    let n : Node := if l = 0 then none else inclusive w.rnd op (leafNodes e x) (l.val - 1)
    (nodeVal op n, nodeFlags n))) ∧
  ∀ (hm : BitVec 3) (op : BitVec 4), CrossGives1 (fun h d a => .vsegscan h d a hm op) (fun w e x l =>
    let heads := if hm = 0 then w.agentMask else w.src.k[hm.toNat]
    let mine := maskWhere fun i => e.getLsbD i && decide (i ≤ l) &&
      !((List.finRange 32).any fun j => decide (i < j) && decide (j ≤ l) && heads.getLsbD j)
    let n := inclusive w.rnd op (leafNodes mine x) l
    (nodeVal op n, nodeFlags n))

/-- R132, R133: for the integer ops the tree's order does not show: a lane's inclusive value is the op folded over the
active lanes up to it in ascending order, and VRED's root the fold over all of them; no flag is raised. -/
def Obligations.IntegerScansFoldInLaneOrder : Prop :=
  ∀ (r : Rnd) (op : BitVec 4) (m : Mask) (x : Lanes Word), op.toNat < 9 → op ≠ 1 →
    (∀ l : Fin 32,
      nodeVal op (inclusive r op (leafNodes m x) l) =
        ((List.finRange 32).filter fun i => decide (i ≤ l) && m.getLsbD i).foldl
          (fun acc i => (scanOp r op acc x[i]).1) (scanId op) ∧
      nodeFlags (inclusive r op (leafNodes m x) l) = 0) ∧
    nodeVal op (treeNode r op (leafNodes m x) 5 0) =
      ((List.finRange 32).filter fun i : Fin 32 => m.getLsbD i).foldl (fun acc i => (scanOp r op acc x[i]).1) (scanId op)

/-- R457, R127: VPACK writes the converted elements of its register list side by side, element 0 lowest; VUNPK writes one
register per element and sets no flag. -/
def Obligations.PackAndUnpackResults : Prop :=
  (∀ (s : State) (h : Hdr) (r b : Fin 88) (et : BitVec 3) (sat : Bool), 3 ≤ et.toNat →
    let n := if et = 3 ∨ et = 4 then 2 else 4
    let elem (l : Fin 32) (j : Nat) : Nat × Flags := packElem s.w.rnd et sat (getV s.w (b + j) l)
    exec (.vpack h (.v r) (.v b) et sat) s = .next (withFlags
      (withVector s r (s.w.eff h.gd) fun l =>
        BitVec.ofNat 32 ((List.range n).map fun j => (elem l j).1 * 2 ^ (32 / n * j)).sum)
      (orFlags (s.w.eff h.gd) fun l => (List.range n).foldr (fun j f => (elem l j).2 ||| f) 0))) ∧
  (∀ (s : State) (h : Hdr) (p : Fin 4) (b : Fin 88) (et : BitVec 3) (sat : Bool), 3 ≤ et.toNat →
    let n := if et = 3 ∨ et = 4 then 2 else 4
    let elem (l : Fin 32) (j : Nat) : Nat × Flags := packElem s.w.rnd et sat (getV s.w (b + j) l)
    s.w.eff h.gd ≠ 0 → pushReady s (s.w.eff h.gd) (.q p) [.lit 0] = .ok () →
    exec (.vpack h (.q p) (.v b) et sat) s = .next (withFlags
      (pushPort s (s.w.eff h.gd) p fun l =>
        BitVec.ofNat 32 ((List.range n).map fun j => (elem l j).1 * 2 ^ (32 / n * j)).sum)
      (orFlags (s.w.eff h.gd) fun l => (List.range n).foldr (fun j f => (elem l j).2 ||| f) 0))) ∧
  (∀ (s : State) (h : Hdr) (r : Fin 88) (a : Operand) (et : BitVec 3) (sat : Bool), 3 ≤ et.toNat → a.isQ = false →
    let n := if et = 3 ∨ et = 4 then 2 else 4
    exec (.vunpk h (.v r) a et sat) s = .next ((List.range n).foldl (fun t j =>
      withVectorAt t (r + j) (s.w.eff h.gd) fun l =>
        (unpackElem {} et ((vecVal s.w a l).toNat / 2 ^ (32 / n * j) % 2 ^ (32 / n))).1) s)) ∧
  ∀ (s t : State) (h : Hdr) (r : Fin 88) (p : Fin 4) (x : Lanes Word) (et : BitVec 3) (sat : Bool), 3 ≤ et.toNat →
    s.w.eff h.gd ≠ 0 → popReady s (s.w.eff h.gd) [] (.q p) = .ok () →
    readVec s (s.w.eff h.gd) (.q p) = .ok (t, x) →
    let n := if et = 3 ∨ et = 4 then 2 else 4
    exec (.vunpk h (.v r) (.q p) et sat) s = .next ((List.range n).foldl (fun t j =>
      withVectorAt t (r + j) (s.w.eff h.gd) fun l =>
        (unpackElem {} et (x[l].toNat / 2 ^ (32 / n * j) % 2 ^ (32 / n))).1) t)

/-- R126, R128, R129, R130: a NaN operand gives the canonical NaN and no flag; VFMIN and VFMAX return the other operand
for one NaN, put −0 below +0 and raise no flag; VFABS clears the sign. -/
def Obligations.FloatSpecialValues : Prop :=
  ∀ (r : Rnd) (a b c : Word),
    let nan (w : Word) : Prop := 0x7F800000 < w.toNat % 2 ^ 31
    (nan a ∨ nan b → fadd r a b = (0x7FC00000, 0) ∧ fsub r a b = (0x7FC00000, 0) ∧ fmul r a b = (0x7FC00000, 0)) ∧
    (nan a ∨ nan b ∨ nan c → (ffma r a b c).1 = 0x7FC00000) ∧
    (nan a → frcp r a = (0x7FC00000, 0) ∧ frsq r a = (0x7FC00000, 0) ∧ fsqrt r a = (0x7FC00000, 0) ∧
      fexp2 r a = (0x7FC00000, 0) ∧ flog2 r a = (0x7FC00000, 0) ∧ fabs r a = (0x7FC00000, 0) ∧
      ∀ m, frnd r m a = (0x7FC00000, 0)) ∧
    (nan a ∧ nan b → fmin r a b = (0x7FC00000, 0) ∧ fmax r a b = (0x7FC00000, 0)) ∧
    (r.ftz = false → nan a ∧ ¬nan b →
      fmin r a b = (b, 0) ∧ fmin r b a = (b, 0) ∧ fmax r a b = (b, 0) ∧ fmax r b a = (b, 0)) ∧
    (fmin r 0 0x80000000 = (0x80000000, 0) ∧ fmin r 0x80000000 0 = (0x80000000, 0) ∧
      fmax r 0 0x80000000 = (0, 0) ∧ fmax r 0x80000000 0 = (0, 0)) ∧
    ((fmin r a b).2 = 0 ∧ (fmax r a b).2 = 0) ∧
    (r.ftz = false → ¬nan a → fabs r a = (a &&& 0x7FFFFFFF, 0)) ∧
    (nan a ∨ nan b → (∀ k : BitVec 3, k ≠ 1 → k.toNat < 6 → fcmp r k a b = false) ∧ fcmp r 1 a b = true) ∧
    (fcmp r 6 a b = true ↔ nan a ∨ nan b)

/-- R128: rounding is the identity on what is representable: every binary32 code that is no NaN is the rounded form of its
own exact value, in every rounding mode, without a flag. -/
def Obligations.RepresentableValuesRoundToThemselves : Prop :=
  ∀ (mode : RMode) (c : Word), c.toNat % 2 ^ 31 ≤ 0x7F800000 →
    roundVal Fmt.f32 mode (Fmt.f32.value c.toNat) = ⟨c.toNat, 0⟩

/-- R33, R17, R41, R43, R20: what a source operand gives. Without a chain, registers read as they stand; in a chain, as
they stood before it. In hinge mode codes 0x70 to 0x77 read and write h0 to h7, in pairs too; outside it the shadows are
neither read nor written. -/
def Obligations.OperandValues : Prop :=
  ∀ (w : Wave) (l : Fin 32),
    let src : Regs := match w.iss.snap with
      | none => w.r
      | some x => x.r
    (∀ r : Fin 88, vecVal w (.v r) l = src.v[r][l]) ∧
    (∀ r : Fin 32, vecVal w (.s r) l = scalarVal w (.s r)) ∧
    (∀ x : Word, vecVal w (.lit x) l = x ∧ scalarVal w (.lit x) = x ∧
      pairVal w (.lit x) l = BitVec.ofInt 64 x.toInt) ∧
    vecVal w .lpc l = w.iss.pc ∧
    (vecVal w .lid l).toNat = l.val ∧
    (∀ r : Fin 32, w.mode ≠ .hinge → scalarVal w (.s r) = src.s[r]) ∧
    (∀ r : Fin 32, r.val < 24 → scalarVal w (.s r) = src.s[r]) ∧
    (∀ j : Fin 8, w.mode = .hinge → ∀ r : Fin 32, r.val = 24 + j.val → scalarVal w (.s r) = src.h[j]) ∧
    (∀ (j : Fin 8) (next : Word), ∃ r : Fin 32, operandOf (BitVec.ofNat 7 (0x70 + j.val)) next = .s r ∧
      r.val = 24 + j.val) ∧
    (∀ (j : Fin 8) (x : Word), w.mode = .hinge →
      setS w (24 + j.val) x = { w with r := { w.r with h := w.r.h.set j x } }) ∧
    (w.mode ≠ .hinge → ∀ (r : Nat) (x : Word), (setS w r x).r.h = w.r.h) ∧
    (∀ k : Fin 16, k ≠ 0 → w.maskReg k = src.k[k]) ∧
    w.maskReg 0 = w.agentMask ∧
    (∀ (r : Fin 88) (hr : r.val + 1 < 88), pairVal w (.v r) l = src.v[r.val + 1][l] ++ src.v[r][l]) ∧
    ∀ (r : Fin 32) (hr : r.val + 1 < 32),
      pairVal w (.s r) l = scalarVal w (.s ⟨r.val + 1, hr⟩) ++ scalarVal w (.s r)

/-- R42, R210, R213: reading a queue port takes the entry at its head, lane l receiving word l, and returns the permit;
writing one puts an entry at its tail, zero outside the effective mask, and publishes a token; the word retires after the
publication's fence (the full package's costs: log 46). TOKENS is sampled as it stands afterwards (log 62). With no token,
or no permit, the leaf waits and nothing moves. In a chain an entry popped before its first word is read where it was put. -/
def Obligations.QueuePortTransfers : Prop :=
  ∀ (s : State) (e : Mask) (p : Fin 4) (a : Nat), s.w.task = false → portAddr s.w p ≠ 0 →
    locateQueue s e (portAddr s.w p) = .ok a → (∀ b ∈ span a 16, homeLine s b ∉ s.poisoned) →
    let q := readQueue s a
    (∀ x, stashed s.w p = some x → readVec s e (.q p) = .ok (s, x)) ∧
    (stashed s.w p = none → NoHazard s → q.ccls = 0 → 0 < q.tokens → ∀ pas,
      spadRange s (s.w.committed (leaderOf e)) (q.sbase + 32 * q.ssize * q.head) 128 = some pas →
      (∀ b ∈ pas, homeLine s b ∉ s.poisoned) →
      readVec s e (.q p) = .ok
        (sample (writeQueue (laneLoads s pas) a
          { q with tokens := q.tokens - 1, head := (q.head + 1) % max 1 q.slots, permits := q.permits + 1 })
            s.w.core 3 (q.tokens - 1),
         lanes fun l => BitVec.ofNat 32 (leNat (((pas.map (physByte s)).drop (4 * l)).take 4)))) ∧
    (stashed s.w p = none → q.ccls = 0 → q.tokens = 0 →
      readVec s e (.q p) = .error (waitQueue s a (some (p, portAddr s.w p)))) ∧
    (NoHazard s → q.pcls = 0 → ∀ pas,
      spadRange s (s.w.committed (leaderOf e)) (q.sbase + 32 * q.ssize * q.tail) 128 = some pas →
      ∀ x : Fin 32 → Word, writeVec s e (.q p) x = waitCost
        (sample (writeQueue (writeCells (laneStores s pas) (pas.zip ((List.finRange 32).flatMap fun l : Fin 32 =>
            leBytes 4 (if e.getLsbD l then (x l).toNat else 0)))) a
          { q with permits := q.permits - 1, tail := (q.tail + 1) % max 1 q.slots, tokens := q.tokens + 1 })
          s.w.core 3 (q.tokens + 1)) (pubCost s a q)) ∧
    (q.pcls = 0 → q.permits = 0 → ∀ srcs : List Operand, (∀ o ∈ srcs, popHome s e o ≠ some a) →
      pushReady s e (.q p) srcs = .error (waitQueue s a (some (p, portAddr s.w p))))

/-! ### Control -/

/-- R329, R332, R333, R89, R94: BRA moves the leaf to one next PC, or raises a split when both sets of lanes are
non-empty; BRS moves the whole agent on a non-zero scalar; CALL writes the link and branches. -/
def Obligations.BranchResults : Prop :=
  (∀ (s : State) (h : Hdr) (k : Fin 16) (ofs : BitVec 17),
    let leaf := issueLanes s.w
    let t := s.w.eff h.gd &&& s.w.maskReg k
    let n := leaf &&& ~~~t
    let fall := s.w.iss.pc + 4
    let goal := fall + 4 * ofs.signExtend 32
    let tgt (l : Fin 32) : Word := if t.getLsbD l then goal else fall
    (t = 0 → exec (.bra h k ofs) s = .next (setNext s fall)) ∧
    (t ≠ 0 → n = 0 → exec (.bra h k ofs) s = .next (setNext (unwound s leaf tgt) goal)) ∧
    (t ≠ 0 → n ≠ 0 → ∀ i : Fin 4, s.w.iss.agent = .leaf i →
      exec (.bra h k ofs) s = .next (withParting (unwound s leaf tgt) i
        { cause := 1, mask := leaf, k14 := t, k15 := n, pc0 := goal, pc1 := fall, leaf := i } tgt)) ∧
    (t ≠ 0 → n ≠ 0 → s.w.iss.agent = .supervisor →
      exec (.bra h k ofs) s = .next (endContext (unwound s leaf tgt) s.w.ctx 0x0F 0 s.w.core))) ∧
  (∀ (s : State) (ch : Bool) (d : Operand) (ofs : BitVec 14),
    exec (.brs ch d ofs) s = .next
      (if scalarVal s.w d = 0 then s
       else setNext (unwound s s.w.agentMask fun _ => s.w.iss.next + 4 * ofs.signExtend 32)
         (s.w.iss.next + 4 * ofs.signExtend 32))) ∧
  ∀ (s : State) (ch : Bool) (r : Fin 88) (ofs : BitVec 14),
    exec (.call ch (.v r) ofs) s = .next (setNext
      (withVector s r (issueLanes s.w) fun _ => s.w.iss.pc + 4) (s.w.iss.pc + 4 + 4 * ofs.signExtend 32))

/-- R415, R367, R94, R168: RET sends each lane of the effective mask to its register's offset, JMPX to its table word in
the code as the launch began with it, and the others on; one common target moves the leaf, several raise a multi-split.
JMPX traps on an index outside the table with the lowest such lane, its index and the mask of all such lanes (R122). -/
def Obligations.IndirectBranchResults : Prop :=
  (∀ (s : State) (h : Hdr) (r : Fin 88),
    let leaf := issueLanes s.w
    let tgt (l : Fin 32) : Word :=
      if (s.w.eff h.gd).getLsbD l then getV s.w r l &&& 0xFFFFFFFC else s.w.iss.next
    leaf ≠ 0 →
    (∀ p : Word, (∀ l : Fin 32, leaf.getLsbD l = true → tgt l = p) → exec (.ret h (.v r)) s = .next (setNext s p)) ∧
    ((∃ l j : Fin 32, leaf.getLsbD l = true ∧ leaf.getLsbD j = true ∧ tgt l ≠ tgt j) →
      ∀ i : Fin 4, s.w.iss.agent = .leaf i →
      exec (.ret h (.v r)) s = .next (withParting s i
        { cause := 2, mask := leaf, k14 := leaf, k15 := 0, pc0 := s.w.iss.pc, pc1 := 0, leaf := i } tgt))) ∧
  (∀ (s : State) (h : Hdr) (r : Fin 88) (table : BitVec 20) (n : BitVec 12) (at_ : Fin 32 → Loc),
    let leaf := issueLanes s.w
    let e := s.w.eff h.gd
    let g (l : Fin 32) : DWord := codeBase s + BitVec.ofNat 64 (4 * (table.toNat + (getV s.w r l).toNat))
    let tgt (l : Fin 32) : Word :=
      if e.getLsbD l then codeWord s (s.w.committed l) (g l) (at_ l) &&& 0xFFFFFFFC else s.w.iss.next
    let u := if e = 0 then s else unwound s leaf tgt
    (∀ l : Fin 32, e.getLsbD l = true → (getV s.w r l).toNat < n.toNat ∧
      resolve s (s.w.committed l) .fetch (g l) 4 = .ok (at_ l) ∧ ∀ a ∈ (at_ l).pas, homeLine s a ∉ s.poisoned) →
    leaf ≠ 0 → s.w.iss.redo = false →
    (∀ p : Word, (∀ l : Fin 32, leaf.getLsbD l = true → tgt l = p) →
      exec (.jmpx h (.v r) table n) s = .next (setNext u p)) ∧
    ((∃ l j : Fin 32, leaf.getLsbD l = true ∧ leaf.getLsbD j = true ∧ tgt l ≠ tgt j) →
      ∀ i : Fin 4, s.w.iss.agent = .leaf i →
      exec (.jmpx h (.v r) table n) s = .next (withParting u i
        { cause := 2, mask := leaf, k14 := leaf, k15 := 0, pc0 := s.w.iss.pc, pc1 := 0, leaf := i } tgt))) ∧
  ∀ (s : State) (h : Hdr) (r : Fin 88) (table : BitVec 20) (n : BitVec 12) (l : Fin 32) (bad : Mask),
    (∀ j : Fin 32, bad.getLsbD j = true ↔ (s.w.eff h.gd).getLsbD j = true ∧ n.toNat ≤ (getV s.w r j).toNat) →
    bad.getLsbD l = true → (∀ j : Fin 32, j < l → bad.getLsbD j = false) →
    exec (.jmpx h (.v r) table n) s = .next (fault s 0x04 (BitVec.ofNat 32 l) (getV s.w r l) bad)

/-- R390, R378, R89: LOOP pushes its entry, or skips the body on a count of 0; LBRK pops n entries and branches; a fifth
LOOP and an LBRK past the bottom trap. A branch takes lanes out of the entries they leave and pops the empty ones on
top. -/
def Obligations.LoopResults : Prop :=
  (∀ (s : State) (ch : Bool) (d : Operand) (dist : BitVec 14),
    let start := s.w.iss.next
    let finish := start + 4 * dist.zeroExtend 32
    (scalarVal s.w d = 0 → exec (.loop ch d dist) s = .next (setNext s (finish + 4))) ∧
    (scalarVal s.w d ≠ 0 → 4 ≤ s.w.agentLoops.length → exec (.loop ch d dist) s = .next (fault s 0x05 4)) ∧
    (scalarVal s.w d ≠ 0 → s.w.agentLoops.length < 4 → ∀ i : Fin 4, s.w.iss.agent = .leaf i →
      exec (.loop ch d dist) s = .next { s with w := { s.w with
        loops := ⟨start, finish, scalarVal s.w d, issueLanes s.w⟩ :: s.w.loops } }) ∧
    (scalarVal s.w d ≠ 0 → s.w.agentLoops.length < 4 → s.w.iss.agent = .supervisor →
      exec (.loop ch d dist) s = .next { s with w := { s.w with
        supLoops := ⟨start, finish, scalarVal s.w d, issueLanes s.w⟩ :: s.w.supLoops } })) ∧
  (∀ (s : State) (ch : Bool) (n : BitVec 3) (ofs : BitVec 14),
    let goal := s.w.iss.pc + 4 + 4 * ofs.signExtend 32
    (s.w.agentLoops.length < n.toNat →
      exec (.lbrk ch n ofs) s = .next (fault s 0x05 (BitVec.ofNat 32 s.w.agentLoops.length))) ∧
    (n.toNat ≤ s.w.agentLoops.length → ∀ i : Fin 4, s.w.iss.agent = .leaf i →
      exec (.lbrk ch n ofs) s = .next (setNext { s with w := { s.w with loops := s.w.loops.drop n.toNat } } goal)) ∧
    (n.toNat ≤ s.w.agentLoops.length → s.w.iss.agent = .supervisor →
      exec (.lbrk ch n ofs) s =
        .next (setNext { s with w := { s.w with supLoops := s.w.supLoops.drop n.toNat } } goal))) ∧
  ∀ (ls : List LoopEntry) (m : Mask) (src : Word) (tgt : Fin 32 → Word),
    let inside (e : LoopEntry) (p : Word) : Prop := e.start.toNat ≤ p.toNat ∧ p.toNat ≤ e.finish.toNat
    ∃ all : List LoopEntry, all.length = ls.length ∧
      (∀ (i : Nat) (hi : i < ls.length) (hj : i < all.length),
        all[i].start = ls[i].start ∧ all[i].finish = ls[i].finish ∧ all[i].count = ls[i].count ∧
        ∀ l : Fin 32, all[i].mask.getLsbD l = true ↔ ls[i].mask.getLsbD l = true ∧
          ¬(inside ls[i] src ∧ m.getLsbD l = true ∧ ¬inside ls[i] (tgt l))) ∧
      ∃ k, unwind ls m src tgt = all.drop k ∧ (∀ e ∈ all.take k, e.mask = 0) ∧
        ∀ e, (all.drop k).head? = some e → e.mask ≠ 0

/-- R345, R403, R75: EXIT makes its lanes absent and takes them out of every leaf and loop entry, their registers keep
their values, and the wave retires with its last lane; PARK takes its lanes out of the leaves, at the next word. -/
def Obligations.LanesLeave : Prop :=
  (∀ (s : State) (h : Hdr),
    let m := s.w.eff h.gd &&& s.w.present
    (s.w.present &&& ~~~m ≠ 0 → ∃ t, exec (.exit h) s = .next t ∧
      t.w.absent = s.w.absent ||| m ∧ t.w.r = s.w.r ∧ t.w.sr = s.w.sr ∧ t.w.cur = s.w.cur ∧ t.mem = s.mem ∧
      t.others = s.others ∧ t.w.mode = s.w.mode ∧ t.w.iss = s.w.iss ∧
      (∀ n : Fin 4, t.w.leaves[n] = { s.w.leaves[n] with mask := s.w.leaves[n].mask &&& ~~~m }) ∧
      (∀ l : Fin 32, t.w.lpc[l] = if m.getLsbD l then s.w.iss.pc else s.w.lpc[l]) ∧
      t.w.loops = popEmpty (s.w.loops.map fun e => { e with mask := e.mask &&& ~~~m })) ∧
    (s.w.present &&& ~~~m = 0 → s.w.id ≠ 0 → ∃ t, exec (.exit h) s = .next t ∧
      t.w = {} ∧ t.mem = s.mem ∧ t.others = s.others.filter fun w => w.id ≠ s.w.id)) ∧
  ∀ (s : State) (h : Hdr),
    exec (.park h) s = .next { s with w := { s.w with
      lpc := Vector.ofFn fun l => if (s.w.eff h.gd).getLsbD l then s.w.iss.next else s.w.lpc[l]
      leaves := Vector.ofFn fun n => { s.w.leaves[n] with mask := s.w.leaves[n].mask &&& ~~~s.w.eff h.gd } } }

/-- R100, R386, R387: LEAFSET, LEAFCLR, LEAFJOIN and LEAFGET. Lanes that leaf n loses take its PC, unless a pending split
or multi-split has sent them on; a pending resume stays, another event and a wait are dropped. -/
def Obligations.LeafTableResults : Prop :=
  (∀ (s : State) (n : Fin 4) (m : Mask) (pc : Word) (held : Bool) (i : Instr),
    ((∃ ch a b, i = .leafset ch held n a b ∧ m = s.w.maskReg a ∧ pc = scalarVal s.w b &&& 0xFFFFFFFC) ∨
      ((∃ ch, i = .leafclr ch n) ∧ m = 0 ∧ pc = 0 ∧ held = false)) →
    ∃ t, exec i s = .next t ∧ t.mem = s.mem ∧ t.others = s.others ∧ t.w.r = s.w.r ∧ t.w.loops = s.w.loops ∧
      t.w.leaves[n].mask = m ∧ t.w.leaves[n].pc = pc ∧ t.w.leaves[n].join = 0xFFFFFFFF ∧ t.w.leaves[n].held = held ∧
      t.w.leaves[n].wait = none ∧
      (∀ j : Fin 4, j ≠ n → t.w.leaves[j] = s.w.leaves[j]) ∧
      (∀ e, t.w.leaves[n].pend = some e → e.cause = 5) ∧
      (∀ l : Fin 32, t.w.lpc[l] =
        if s.w.leaves[n].mask.getLsbD l ∧ ¬m.getLsbD l ∧ ¬(sentOn s.w.leaves[n]).getLsbD l
        then s.w.leaves[n].pc else s.w.lpc[l]) ∧
      (∀ x ∈ t.monitors, ¬(x.wave = s.w.id ∧ x.leaf = some n))) ∧
  (∀ (s : State) (ch : Bool) (n : Fin 4) (a : Operand),
    exec (.leafjoin ch n a) s = .next { s with w := { s.w with
      leaves := s.w.leaves.set n { s.w.leaves[n] with join := scalarVal s.w a } } }) ∧
  ∀ (s : State) (ch : Bool) (k : Fin 16) (r : Fin 32) (n : Fin 4),
    exec (.leafget ch k (.s r) 0 n) s = .next (withScalar (withMask s k s.w.leaves[n].mask) r
      (if s.w.iss.agent = .leaf n then s.w.iss.pc else s.w.leaves[n].pc)) ∧
    exec (.leafget ch k (.s r) 1 n) s =
      .next (withScalar (withMask s k s.w.leaves[n].mask) r s.w.leaves[n].join) ∧
    exec (.leafget ch k (.s r) 2 n) s =
      .next (withScalar (withMask s k s.w.leaves[n].mask) r (if s.w.leaves[n].held then 1 else 0))

/-- R101, R104, R115: HRET checks the leaves for overlap and for absent lanes; then every lane of a leaf takes its PC, the
counters of the other lanes count its cycles, those of lanes of live leaves are zeroed, and the program goes on. -/
def Obligations.HandlerReturn : Prop :=
  ∀ (s : State) (ch : Bool),
    (∀ i j : Fin 4, overlapPair s.w = some (i, j) →
      exec (.hret ch) s = .next (fault s 0x03 1 s.w.sr.evcause (BitVec.ofNat 32 (4 * i.val + j.val)))) ∧
    (overlapPair s.w = none → ∀ i : Fin 4, absentLeaf s.w = some i →
      exec (.hret ch) s = .next (fault s 0x03 2 s.w.sr.evcause (BitVec.ofNat 32 i))) ∧
    ((∀ i j : Fin 4, i < j → s.w.leaves[i].mask &&& s.w.leaves[j].mask = 0) →
      (∀ i : Fin 4, s.w.leaves[i].mask &&& s.w.absent = 0) →
      ∃ t, exec (.hret ch) s = .next t ∧ t.w.mode = .program ∧ t.w.leaves = s.w.leaves ∧ t.w.r = s.w.r ∧
        t.w.sr = s.w.sr ∧ t.w.loops = s.w.loops ∧ t.mem = s.mem ∧ t.others = s.others ∧ t.w.absent = s.w.absent ∧
        (∀ (i : Fin 4) (l : Fin 32), s.w.leaves[i].mask.getLsbD l = true → t.w.lpc[l] = s.w.leaves[i].pc) ∧
        (∀ l : Fin 32, (∀ i : Fin 4, s.w.leaves[i].mask.getLsbD l = false) → t.w.lpc[l] = s.w.lpc[l]) ∧
        (∀ (i : Fin 4) (l : Fin 32), s.w.leaves[i].mask.getLsbD l = true → s.w.leaves[i].held = false →
          t.w.park[l] = 0) ∧
        ∀ l : Fin 32, (∀ i : Fin 4, s.w.leaves[i].mask.getLsbD l = true → s.w.leaves[i].held = true) →
          t.w.park[l] = (s.w.cyclesN (if s.w.iss.snap.isSome then 4 else 3)).park[l])

/-! ### Memory -/

/-- R381, R382, R158, R165: LD whose lanes reach their bytes gives each lane of the effective mask its value, in one, two or
four vector registers (in the handler one to four scalars, once, under hypothesis 0), or pushes them on a port. A byte is
its home's, or that of a line the core's L1 holds under a lease that has not ended, which `.nl` never is. Memory and every
other register stay; lines' and copies' times, the core's and the wave's last time move, merges are counted. -/
def Obligations.LoadResults : Prop :=
  ∀ (s : State) (h : Hdr) (d a : Operand) (x : MemExt) (at_ : Fin 32 → Loc),
    let e : Mask := if s.w.iss.agent = .handler then 1 else s.w.eff h.gd
    let n := 2 ^ x.size.toNat
    let acc (l : Fin 32) : Accessor :=
      if s.w.iss.agent = .handler then s.w.committed 0 else { s.w.accessor l with lane := if x.bk then 0 else l }
    let g (l : Fin 32) : DWord := pairVal s.w a l + x.ofs.signExtend 64
    let k := max 1 (n / 4)
    (e = 0 → exec (.ld h d a x) s = .next s) ∧
    (Reaches s e (fun l => laneChk s (acc l) .load (g l) n) at_ → NoHazard s → e ≠ 0 →
      ∃ hits : List L1Line,
        LiveCopies s hits ∧ (x.pol = 3 → hits = []) ∧
        let got (l : Fin 32) : List Byte := (at_ l).pas.map (hitByte s hits (acc l) (at_ l))
        (∀ r : Fin 88, d = .v r → ∃ t, exec (.ld h d a x) s = .next t ∧
          t = { accessed s t with w := { s.w with r := { s.w.r with v := t.w.r.v }, lastTime := t.w.lastTime } } ∧
          ∀ (q : Fin 88) (l : Fin 32), t.w.r.v[q][l] =
            if e.getLsbD l ∧ r ≤ q ∧ q.val < r.val + k then loadWord (got l) x.sx (q.val - r.val)
            else s.w.r.v[q][l]) ∧
        (∀ r : Fin 32, d = .s r → s.w.iss.agent = .handler → x.size.toNat ≤ 2 → ∃ t u, exec (.ld h d a x) s = .next t ∧
          t = withScalar u r (loadWord (got 0) x.sx 0) ∧
          u = { accessed s u with w := { s.w with lastTime := u.w.lastTime } }) ∧
        (∀ r : Fin 32, d = .s r → s.w.iss.agent = .handler → s.w.mode ≠ .hinge ∨ r.val + k ≤ 24 → r.val + k ≤ 32 →
          ∃ t, exec (.ld h d a x) s = .next t ∧
          t = { accessed s t with w := { s.w with r := { s.w.r with s := t.w.r.s }, lastTime := t.w.lastTime } } ∧
          ∀ q : Fin 32, t.w.r.s[q] =
            if r ≤ q ∧ q.val < r.val + k then loadWord (got 0) x.sx (q.val - r.val) else s.w.r.s[q]) ∧
        ∀ p : Fin 4, d = .q p → pushReady s e d [] = .ok () → ∃ t u, exec (.ld h d a x) s = .next t ∧
          t = pushPort u e p (fun l => loadWord (if e.getLsbD l then got l else []) x.sx 0) ∧
          u = { accessed s u with w := { s.w with lastTime := u.w.lastTime } })

/-- R430, R181, R157, R42: ST whose lanes reach their bytes in committed memory completes. A byte of memory is the last
of the stored bytes that lie there, the highest lane's, and stays where none does, but for the DIRTY bits of the entries
gone through; registers stay. Orphan lanes store nothing, but the handler's store is always made. ST from a port pops
one entry and stores lane l's word of it. -/
def Obligations.StoreResults : Prop :=
  (∀ (s : State) (h : Hdr) (d a : Operand) (x : MemExt) (at_ : Fin 32 → Loc),
    let e : Mask := if s.w.iss.agent = .handler then 1 else s.w.eff h.gd
    let m : Mask := if s.w.iss.agent = .handler then 1 else e &&& ~~~s.w.orphans
    let n := 2 ^ x.size.toNat
    let acc (l : Fin 32) : Accessor :=
      if s.w.iss.agent = .handler then s.w.committed 0 else { s.w.accessor l with lane := if x.bk then 0 else l }
    let g (l : Fin 32) : DWord := pairVal s.w a l + x.ofs.signExtend 64
    let data (l : Fin 32) : List Byte := storeData n (dataWords s.w d (max 1 (n / 4)) l)
    let ws := (lanesOf m).flatMap fun l => (at_ l).pas.zip (data l)
    (e = 0 → exec (.st h d a x) s = .next s) ∧
    (e ≠ 0 → d.isQ = false → NoHazard s → Reaches s m (fun l => laneChk s (acc l) .store (g l) n) at_ →
      (∀ l : Fin 32, m.getLsbD l = true → (at_ l).vers = false) →
      ∃ t, exec (.st h d a x) s = .next t ∧
        t = { stored s t with w := { s.w with lastTime := t.w.lastTime } } ∧
        ∀ b, ¬dirtiedAt s m at_ b → plainByte t b = lastWrite s ws b)) ∧
  ∀ (s u v : State) (h : Hdr) (p : Fin 4) (a : Operand) (x : MemExt) (at_ : Fin 32 → Loc) (q : Lanes Word),
    let e := s.w.eff h.gd
    let m := e &&& ~~~s.w.orphans
    let acc (l : Fin 32) : Accessor := { s.w.accessor l with lane := if x.bk then 0 else l }
    let g (l : Fin 32) : DWord := pairVal s.w a l + x.ofs.signExtend 64
    let u' : State := { u with w := { u.w with iss := { u.w.iss with
      popped := u.w.iss.popped ++ [(u.w.iss.pc, p, q)] } } }
    s.w.iss.agent ≠ .handler → e ≠ 0 → x.size = 2 → NoHazard s → popReady s e [] (.q p) = .ok () →
    readVec s e (.q p) = .ok (u, q) → Reaches s m (fun l => laneChk s (acc l) .store (g l) 4) at_ →
    storeLanes (podWrites (storeRequests u' acc (byLane g (reached m at_))) g (reached m at_)) acc
      (fun l => leBytes 4 q[l].toNat) (reached m at_) = .ok v →
    exec (.st h (.q p) a x) s = .next (bump v s.w.core 36 (versCount (reached m at_)))

/-- R254 to R256, R264: a byte stored under a hypothesis is read back under it, and no wave changes; while no version line
lies in the pool and the L2 has room for another, no byte of committed memory changes, and the hypothesis reads every
other byte as before. -/
def Obligations.VersionedStoreIsIsolated : Prop :=
  ∀ (s t : State) (c : Context) (h : BitVec 6) (a : Nat) (x : Byte), h ≠ 0 → ctxOf s c.ctx = some c →
    (c.node h).slots ≠ [] → (∀ v ∈ c.vers, v.data.length = 32) → versStoreByte s c.ctx h a x = some t →
    t.w = s.w ∧ t.others = s.others ∧
    ∃ c', ctxOf t c.ctx = some c' ∧ c'.nodes = c.nodes ∧ seenByte t c' h a = x ∧
      ((∀ v ∈ c.vers, v.pool = none) → versLines s (chipletOf a) < versCapacity →
        t.mem = s.mem ∧ ∀ b, b ≠ a → seenByte t c' h b = seenByte s c h b)

/-- R159, R322, R431: an access whose lowest failing lane meets a cause of R158 that traps is a precise fault of the
word: %trapinfo0 names that lane, %trapinfo2 and %trapinfo3 its address; nothing is performed. -/
def Obligations.AccessFaultsArePrecise : Prop :=
  ∀ (s : State) (h : Hdr) (d a : Operand) (l : Fin 32) (c : BitVec 8), s.w.iss.agent ≠ .handler →
    (s.w.eff h.gd).getLsbD l = true →
    (∀ x : MemExt,
      let acc (j : Fin 32) : Accessor := { s.w.accessor j with lane := if x.bk then 0 else j }
      let g (j : Fin 32) : DWord := pairVal s.w a j + x.ofs.signExtend 64
      let fails (k : AccKind) (j : Fin 32) (c : BitVec 8) : Prop :=
        laneChk s (acc j) k (g j) (2 ^ x.size.toNat) = .error (.trap c)
      (d.isQ = false → fails .load l c → (∀ j < l, ∀ c', (s.w.eff h.gd).getLsbD j = true → ¬fails .load j c') →
        exec (.ld h d a x) s = .next (faultAt s c (BitVec.ofNat 32 l) (g l))) ∧
      (d.isQ = false → s.w.orphans = 0 → fails .store l c →
        (∀ j < l, ∀ c', (s.w.eff h.gd).getLsbD j = true → ¬fails .store j c') →
        exec (.st h d a x) s = .next (faultAt s c (BitVec.ofNat 32 l) (g l)))) ∧
    ∀ x : AtomExt,
      let acc (j : Fin 32) : Accessor := { s.w.accessor j with lane := (if x.bk then 0 else j), hyp := 0 }
      let g (j : Fin 32) : DWord := pairVal s.w a j + x.ofs.signExtend 64
      let fails (j : Fin 32) (c : BitVec 8) : Prop :=
        ((g j).toNat % 4 ≠ 0 ∧ c = 0x10) ∨
          ((g j).toNat % 4 = 0 ∧ laneChk s (acc j) .atomic (g j) 4 = .error (.trap c))
      fails l c → (∀ j < l, ∀ c', (s.w.eff h.gd).getLsbD j = true → ¬fails j c') →
        exec (.atom h d a x) s = .next (faultAt s c (BitVec.ofNat 32 l) (g l)) ∧
        exec (.atomr h d a x) s = .next (faultAt s c (BitVec.ofNat 32 l) (g l))

/-- R320, R324, R181: ATOM and ATOMR whose lanes reach their words perform them in ascending lane order; ATOMR writes the
old values to D in those lanes. Where every lane names one word, its value is the operation folded over the lanes, and
each lane's old value the fold over the lanes below it. The operations are those of R320's table. -/
def Obligations.AtomicResults : Prop :=
  ((∀ (s : State) (h : Hdr) (d a : Operand) (x : AtomExt) (at_ : Fin 32 → Loc),
    let e := s.w.eff h.gd
    let acc (l : Fin 32) : Accessor := { s.w.accessor l with lane := (if x.bk then 0 else l), hyp := 0 }
    let g (l : Fin 32) : DWord := pairVal s.w a l + x.ofs.signExtend 64
    let d1 (l : Fin 32) : Word := match d with
      | .v r => getV s.w (r + 1) l
      | .s r => getS s.w (r + 1)
      | _ => 0
    s.w.iss.agent ≠ .handler →
    (e = 0 → exec (.atom h d a x) s = .next s) ∧
    (e ≠ 0 → NoHazard s → (∀ l : Fin 32, e.getLsbD l = true → (g l).toNat % 4 = 0) →
      Reaches s e (fun l => laneChk s (acc l) .atomic (g l) 4) at_ →
      ∃ u, u = { s with lines := u.lines, cores := u.cores, copies := u.copies, hazards := u.hazards
                        w := { s.w with lastTime := u.w.lastTime } } ∧
        exec (.atom h d a x) s = .next (atomLanes u x.aop (vecVal s.w d) d1 (reached e at_)).2 ∧
        ∀ r : Fin 88, d = .v r → ∃ t, exec (.atomr h d a x) s = .next t ∧
          t = { (withVector (atomLanes u x.aop (vecVal s.w d) d1 (reached e at_)).2 r e fun l =>
              BitVec.ofNat 32 (leNat (bytesOf (atomLanes u x.aop (vecVal s.w d) d1 (reached e at_)).1 l))) with
            w := { (withVector (atomLanes u x.aop (vecVal s.w d) d1 (reached e at_)).2 r e fun l =>
              BitVec.ofNat 32 (leNat (bytesOf (atomLanes u x.aop (vecVal s.w d) d1 (reached e at_)).1 l))).w with
              sig := t.w.sig } })) ∧
  ∀ (s : State) (aop : BitVec 4) (m : Mask) (d dn : Fin 32 → Word) (x : Loc) (a0 a1 a2 a3 : Nat),
    x.peer = none → x.bad = none → x.pas = [a0, a1, a2, a3] →
    (x.pas.map (route s)).Nodup → (∀ a ∈ x.pas, physKind a ≠ some .view) →
    (∀ e ∈ x.entries, ∀ a ∈ x.pas, route s (e + 1) ≠ route s a) →
    let word (t : State) : Word := BitVec.ofNat 32 (leNat (x.pas.map (physByte t)))
    let below (l : Fin 32) : List (Fin 32) := (lanesOf m).filter (· < l)
    let r := atomLanes s aop d dn (reached m fun _ => x)
    word r.2 = (lanesOf m).foldl (fun v l => atomFn aop v (d l) (dn l)) (word s) ∧
    (∀ l : Fin 32, m.getLsbD l = true → BitVec.ofNat 32 (leNat (bytesOf r.1 l)) =
      (below l).foldl (fun v j => atomFn aop v (d j) (dn j)) (word s)) ∧
    ∀ b, (∀ a ∈ x.pas, route s a ≠ route s b) → (∀ e ∈ x.entries, route s (e + 1) ≠ route s b) →
      plainByte r.2 b = plainByte s b) ∧
  ∀ m d dn : Word,
    atomFn 0 m d dn = BitVec.ofInt 32 (m.toInt + d.toInt) ∧
    atomFn 1 m d dn = (fadd { mode := 0, ftz := false } m d).1 ∧
    atomFn 2 m d dn = BitVec.ofInt 32 (min m.toInt d.toInt) ∧
    atomFn 3 m d dn = BitVec.ofInt 32 (max m.toInt d.toInt) ∧
    atomFn 4 m d dn = BitVec.ofNat 32 (min m.toNat d.toNat) ∧
    atomFn 5 m d dn = BitVec.ofNat 32 (max m.toNat d.toNat) ∧
    atomFn 6 m d dn = m &&& d ∧
    atomFn 7 m d dn = m ||| d ∧
    atomFn 8 m d dn = m ^^^ d ∧
    atomFn 9 m d dn = d ∧
    atomFn 10 m d dn = if m = d then dn else m

/-- R182, R462, R167, R86, R408, R409, R172, R173, R347, R349: WAITC reads its word at a time no later write is given, and
goes on where the word differs from the expected value, else its leaf waits at a monitor on that word; in a task wave it
traps. PREF always completes: it may bring lines into its core's L1, as memory holds them, and leaves the rest of the state,
the core's time among it, as it was; which lines, is free (log 7). A fence under an empty mask only retires; one with nothing
to wait for and no cost retires at once; else the leaf waits for the transfers, array commands and pod accesses before it and
for its cost (the full package's costs, in every partition: log 46; which sectors and MLDSs: log 59). -/
def Obligations.WaitPrefetchAndFenceResults : Prop :=
  ((∀ (s : State) (h : Hdr) (a : Operand) (x : MemExt), ∃ t, exec (.pref h a x) s = .next t ∧
    t = { s with lines := t.lines, copies := t.copies, chips := t.chips, freeCtr := t.freeCtr } ∧
    (x.pol = 3 → t = s) ∧
    ∀ c ∈ t.copies, c ∈ s.copies ∨
      (c.core = s.w.core ∧ c.data = (List.range 128).map fun i => physByte s (128 * c.line + i))) ∧
  ∀ (s : State) (h : Hdr) (d a : Operand) (x : Loc),
    let g := scalarPair s.w a
    let v : Word := BitVec.ofNat 32 (leNat (x.pas.map (physByte s)))
    let pa := x.pas.headD 0
    let line := lineOf s (homeLine s pa)
    let tm := max (ltOf s s.w.core) line.wts
    let u : State := { s with lines := insLine { line with rts := max line.rts tm } s.lines }
    (s.w.eff h.gd = 0 → exec (.waitc h d a) s = .next s) ∧
    (s.w.eff h.gd ≠ 0 → s.w.task = true → exec (.waitc h d a) s = .next (fault s 0x08 0)) ∧
    (s.w.eff h.gd ≠ 0 → s.w.task = false → (g.toNat % 4 ≠ 0 ∨ selOf g = 5 ∨ selOf g = 1) →
      exec (.waitc h d a) s = .next (faultAt s 0x10 (BitVec.ofNat 32 (leaderOf (s.w.eff h.gd))) g)) ∧
    (s.w.eff h.gd ≠ 0 → s.w.task = false → g.toNat % 4 = 0 → selOf g ≠ 5 → selOf g ≠ 1 →
      resolve s (s.w.committed (leaderOf (s.w.eff h.gd))) .load g 4 = .ok x → x.ca ≠ 4 →
      (∀ b ∈ x.pas, homeLine s b ∉ s.poisoned) → NoHazard s →
      (v ≠ scalarVal s.w d → exec (.waitc h d a) s = .next (laneTime u tm)) ∧
      (v = scalarVal s.w d → ∀ i : Fin 4, s.w.iss.agent = .leaf i → ∃ t, exec (.waitc h d a) s = .next t ∧
        t = { putMonitor u { addr := pa, len := 4, wave := s.w.id, leaf := some i } with
          w := { s.w with leaves := s.w.leaves.set i { s.w.leaves[i] with
            wait := some ⟨.monitor, s.w.iss.next, pa⟩ } } })) ∧
    ∀ m : Monitor, m.home s ∉ s.coarse → monitorsAt s (m.home s) < monitorCap (m.home s) →
      putMonitor s m = { s with monitors := s.monitors ++ [{ m with coarse := false }] }) ∧
  ∀ (s : State) (h : Hdr) (scope : BitVec 3) (before after : BitVec 6),
    let e := s.w.eff h.gd
    let xs := fenceXfers s e scope.toNat before
    let ms := fenceMlds s e scope.toNat before
    let m0 := fenceCmds s e scope.toNat before 0
    let m1 := fenceCmds s e scope.toNat before 1
    let ps := fencePods s e scope.toNat before
    let cost := fencexCost scope before after
    let free : Prop := xs = [] ∧ ms = [] ∧ m0 = 0 ∧ m1 = 0 ∧ ps = [] ∧ cost = 0
    (e = 0 → exec (.fencex h scope before after) s = .next (bump s s.w.core 22 1)) ∧
    (e ≠ 0 → free → exec (.fencex h scope before after) s = .next (fenceDone s s.w scope before after e)) ∧
    (e ≠ 0 → ¬free → ∀ i : Fin 4, s.w.iss.agent = .leaf i →
      exec (.fencex h scope before after) s = .next { s with w := { s.w with
        leaves := s.w.leaves.set i { s.w.leaves[i] with
          wait := some ⟨.fencex xs ms m0 m1 ps (s.clk.toNat + cost) scope before after e, s.w.iss.next, 0⟩ } } }) ∧
    exec (.fence h scope) s = exec (.fencex h scope 1 1) s ∧
    (scope.toNat < 6 → e ≠ 0 → ∃ t, exec (.fence h scope) s = .next t ∧ t = fenceDone s s.w scope 1 1 e ∧
      t.mem = s.mem ∧ t.w.r = s.w.r ∧ t.w.leaves = s.w.leaves) ∧
    fencexCost 6 1 1 = 900

/-! ### Tasks -/

/-- R424, R425, R292, R295: SPAWN under an empty mask, for an orphan leader or with count 0 does nothing; it traps with
subcode 11 on a count, base or record it may not take; else the join count grows by n and one entry is enqueued in the
ring of its chiplet and context, for which it waits where that is full; the entry descends from the packet of the leader's
task (R282). An entry is put last, with its queue's class, in a place of the spill area where the base die's ring is full
(over a link that is down it is posted: log 28). -/
def Obligations.SpawnResults : Prop :=
  (∀ (s : State) (h : Hdr) (d a : Operand) (jn : BitVec 5) (j : Bool) (entry : BitVec 22),
    let e := s.w.eff h.gd
    let l := leaderOf e
    let n := getS s.w (regNum d)
    let base := scalarPair s.w a
    let g : DWord := getS s.w (jn.toNat + 1) ++ getS s.w jn.toNat
    let virt (x : DWord) (k : Nat) : Prop := (x.toNat / 2 ^ 57 = 0 ∨ x.toNat / 2 ^ 57 = 0x7F) ∧ x.toNat % k = 0
    let go : Prop := e ≠ 0 ∧ s.w.orphans.getLsbD l = false ∧ n ≠ 0
    let legal : Prop := go ∧ n.toNat ≤ 2 ^ 20 ∧ virt base 64 ∧ (j = true → virt g 8)
    let chip := chipOf s.w.core
    let child (t : State) : SpawnEntry :=
      { kdesc := s.w.kdesc, args := base, join := if j then g else 0, entry := entry.zeroExtend 32, n := n.toNat,
        qcb := (s.w.origin l).1, hdr := (s.w.origin l).2, time := BitVec.ofNat 64 (ltOf t s.w.core) }
    (¬go → exec (.spawn h d a jn j entry) s = .next s) ∧
    (go → 2 ^ 20 < n.toNat → exec (.spawn h d a jn j entry) s = .next (faultAt s 0x07 11 (n.zeroExtend 64))) ∧
    (go → n.toNat ≤ 2 ^ 20 → ¬virt base 64 → exec (.spawn h d a jn j entry) s = .next (faultAt s 0x07 11 base)) ∧
    (go → n.toNat ≤ 2 ^ 20 → virt base 64 → j = true → ¬virt g 8 →
      exec (.spawn h d a jn j entry) s = .next (faultAt s 0x07 11 g)) ∧
    (legal → j = false → exec (.spawn h d a jn j entry) s = .next
      (if ringFull s chip s.w.ctx then awaits s .spawn 0 else enqueue s chip s.w.ctx (child s))) ∧
    (legal → ∀ x : Loc, j = true → resolve s (s.w.committed l) .atomic g 4 = .ok x →
      (∀ b ∈ x.pas, homeLine s b ∉ s.poisoned) → Apart s 1 4 (fun _ => x) →
      ∃ u, exec (.spawn h d a jn j entry) s = .next
          (if ringFull s chip s.w.ctx then { u with w := agentWaits u.w (.tret 0 [.child (child u)]) u.w.iss.next 0 }
           else enqueue u chip s.w.ctx (child u)) ∧
        u = { stored s u with w := { s.w with lastTime := u.w.lastTime } } ∧
        wordOf u x.pas = wordOf s x.pas + n ∧ ∀ b, untouched s 1 (fun _ => x) b → plainByte u b = plainByte s b)) ∧
  ∀ (s : State) (c : Fin 8) (x : Nat) (e : SpawnEntry),
    let t := enqueue s c x e
    let e' : SpawnEntry := { e with cls := qcbClass s e.qcb, spill := if dieFull s c x then spillPlace s x else none }
    t = { s with rings := t.rings, mem := t.mem, monitors := t.monitors, lines := t.lines, slots := t.slots
                 link := t.link } ∧
    ringOf t c x = ringOf s c x ++ [e'] ∧
    (∀ c' x', (c', x') ≠ (c, x) → ringOf t c' x' = ringOf s c' x') ∧
    (dieFull s c x = false → t = { s with rings := t.rings }) ∧
    ∀ b, (∀ pas, e'.spill.bind (spillBytes s x) = some pas → ∀ a ∈ pas, route s a ≠ route s b) →
      plainByte t b = plainByte s b

/-- R438, R295, R300: TRET's lanes without a record exit as EXIT's; lanes that arrive at one record whose count stays
above zero take their number off it and exit; an arrival that brings it to zero enqueues the record's continuation,
which descends from the packet of the task that arrived (R282), and with no continuation and no parent nothing; a
misaligned record traps. -/
def Obligations.TaskReturnResults : Prop :=
  ∀ (s : State) (h : Hdr) (a : Operand),
    let e := s.w.eff h.gd
    (e = 0 → exec (.tret h a) s = .next s) ∧
    (e ≠ 0 → e &&& s.w.iss.parked = 0 → s.w.iss.redo = false → (∀ l : Fin 32, e.getLsbD l = true → pairVal s.w a l = 0) →
      exec (.tret h a) s = exec (.exit h) s) ∧
    (∀ l : Fin 32, e.getLsbD l = true → (pairVal s.w a l).toNat % 8 ≠ 0 →
      (∀ i : Fin 32, i < l → e.getLsbD i = true → pairVal s.w a i ≠ 0 → virtAligned (pairVal s.w a i) 8) →
      exec (.tret h a) s = .next (faultAt s 0x07 11 (pairVal s.w a l))) ∧
    ∀ (g : DWord) (x : Loc), e ≠ 0 → e &&& s.w.iss.parked = 0 → s.w.iss.redo = false → g ≠ 0 → virtAligned g 8 →
      (∀ l : Fin 32, e.getLsbD l = true → pairVal s.w a l = g ∧
        resolve s (s.w.committed l) .atomic g 32 = .ok x) →
      (∀ b ∈ x.pas, homeLine s b ∉ s.poisoned) → Apart s 1 32 (fun _ => x) →
      let n := (lanesOf e).length
      let count := wordOf s (x.pas.take 4)
      let flags := physByte s (x.pas.getD 0x18 0)
      let chip := chipOf s.w.core
      let last := (lanesOf e).getLastD 0
      let cont : SpawnEntry :=
        { kdesc := s.w.kdesc, args := BitVec.ofNat 64 (leNat (((x.pas.drop 8).take 8).map (physByte s))), join := 0
          entry := BitVec.ofNat 32 ((wordOf s ((x.pas.drop 4).take 4)).toNat % 2 ^ 22), n := 1
          qcb := (s.w.origin last).1, hdr := (s.w.origin last).2 }
      ∀ more : Bool, (more = false ∧ n < count.toNat) ∨
          (more = false ∧ n = count.toNat ∧ flags.getLsbD 0 = false ∧ flags.getLsbD 1 = false) ∨
          (more = true ∧ n = count.toNat ∧ flags.getLsbD 0 = true ∧ ringFull s chip s.w.ctx = false) →
        ∃ u : State, u = { stored s u with w := { s.w with lastTime := u.w.lastTime } } ∧
          wordOf u (x.pas.take 4) = BitVec.ofNat 32 (count.toNat - n) ∧
          (∀ b, (∀ y ∈ x.pas.take 4, route s y ≠ route s b) → ¬dirtiedAt s 1 (fun _ => x) b →
            plainByte u b = plainByte s b) ∧
          exec (.tret h a) s = .next (exitAt (if more then enqueue u chip s.w.ctx cont else u) e)

/-! ### Latches and queues -/

/-- R208, R374, R376: LINIT, LARV and LEXP perform their operation once for each lane that names a latch, a scalar base
and `.one` for the leader alone; nothing else of memory changes. LWAIT goes on when no latch named shows the phase given
and none is poisoned, faults on a poisoned one, and else waits at the first latch that shows the phase. -/
def Obligations.LatchResults : Prop :=
  ∀ (s : State) (h : Hdr) (one : Bool) (a b : Operand) (at_ : Fin 32 → Loc),
    let e := s.w.eff h.gd
    let m : Mask := if one ∨ a.isV = false then laneBit (leaderOf e) else e
    let g (l : Fin 32) : DWord := pairVal s.w a l
    let n := (scalarVal s.w b).toNat
    let acc (l : Fin 32) : Accessor := if a.isV then s.w.committed l else s.w.committed 0
    let advance (x : Latch) : Latch :=
      if x.pendArr = 0 ∧ x.pendSec = 0 then { x with phase := (x.phase + 1) % 16, pendArr := x.expArr, eng := false }
      else x
    let does (i : Instr) (f : Latch → Latch) : Prop := ∃ t, exec i s = .next t ∧
      t = { stored s t with w := { s.w with lastTime := t.w.lastTime } } ∧
      (∀ l : Fin 32, m.getLsbD l = true →
        latchAt t (at_ l).pas = Nat.repeat f (sharing m at_ l) (latchAt s (at_ l).pas)) ∧
      ∀ b, untouched s m at_ b → plainByte t b = plainByte s b
    (e = 0 → exec (.linit h one a b) s = .next s ∧ exec (.larv h one a b) s = .next s ∧
      exec (.lexp h one a b) s = .next s ∧ exec (.lwait h one a b) s = .next s) ∧
    (e ≠ 0 → (n = 0 ∨ 0xFFFFF < n) → exec (.linit h one a b) s = .next (badHandle s 4 (g (leaderOf m)))) ∧
    (e ≠ 0 → (∀ l : Fin 32, m.getLsbD l = true → (g l).toNat % 16 = 0 ∧ selOf (g l) ≠ 5) →
      Reaches s m (fun l => resolve s (acc l) .atomic (g l) 16) at_ → Apart s m 16 at_ → NoHazard s →
      (0 < n → n ≤ 0xFFFFF → does (.linit h one a b) fun _ => ⟨0, false, false, false, n, n, 0⟩) ∧
      does (.larv h one a b) (fun x =>
        advance (if x.pendArr < n then { x with poison := true, pendArr := 0 } else { x with pendArr := x.pendArr - n })) ∧
      does (.lexp h one a b) (fun x => advance { x with pendSec := (x.pendSec + n) % 2 ^ 32 }) ∧
      (s.w.task = true → (∃ l : Fin 32, m.getLsbD l = true ∧ (latchAt s (at_ l).pas).expArr ≠ 1) →
        exec (.lwait h one a b) s = .next (fault s 0x08 0)) ∧
      (s.w.task = false →
        ((∀ l : Fin 32, m.getLsbD l = true →
            (latchAt s (at_ l).pas).phase ≠ n % 16 ∧ (latchAt s (at_ l).pas).poison = false) →
          ∃ t, exec (.lwait h one a b) s = .next t ∧
            t = { accessed s t with w := { s.w with lastTime := t.w.lastTime } }) ∧
        (∀ l : Fin 32, m.getLsbD l = true → (latchAt s (at_ l).pas).poison = true →
          (∀ j : Fin 32, m.getLsbD j = true →
            (latchAt s (at_ j).pas).phase ≠ n % 16 ∧ (j < l → (latchAt s (at_ j).pas).poison = false)) →
          exec (.lwait h one a b) s = .next (faultAt s 0x20 2 (g l))) ∧
        (∀ l : Fin 32, m.getLsbD l = true → (latchAt s (at_ l).pas).phase = n % 16 →
          (∀ j : Fin 32, j < l → m.getLsbD j = true → (latchAt s (at_ j).pas).phase ≠ n % 16) →
          let pa := (at_ l).pas.headD 0
          let leaf : Option (Fin 4) := match s.w.iss.agent with
            | .leaf i => some i
            | _ => none
          exec (.lwait h one a b) s =
            .next (awaits (putMonitor s { addr := pa, len := 16, wave := s.w.id, leaf := leaf }) .latch pa))))

/-- R211, R212, R213, R86, R241, R413: the queue instructions act once on the object at its home. QINIT writes it
afresh; QACQ and QTAKE give the tail and the head slot and wait without a permit or token; QPUB and QREL give one back,
QPUB for the cost of a fence toward the queue's consumer (by the full package's table in every partition: log 46); QBIND
binds a port. A word that consumes a poisoned object ends its context. -/
def Obligations.QueueInstructionResults : Prop :=
  ∀ (s : State) (h : Hdr) (a b : Operand) (pa : Nat),
    let e := s.w.eff h.gd
    let g := scalarPair s.w a
    let q := readQueue s pa
    let slot := (scalarVal s.w b).toNat
    let full : Prop := q.slots ≤ slot ∨ q.permits + q.tokens = q.slots
    let cost := (fenceCost 0 q.consumer (scopeOfAll [.core s.w.core, homeAt s pa])).getD 0
    (e = 0 → ∀ d : Operand, exec (.qinit h d a b) s = .next s ∧ exec (.qacq h d a) s = .next s ∧
      exec (.qpub h a b) s = .next s ∧ exec (.qtake h d a) s = .next s ∧ exec (.qrel h a b) s = .next s ∧
      exec (.qbind h d a) s = .next s) ∧
    (e ≠ 0 → s.w.task = true → ∀ d : Operand, exec (.qacq h d a) s = .next (fault s 0x08 0) ∧
      exec (.qtake h d a) s = .next (fault s 0x08 0) ∧ exec (.qbind h d a) s = .next (fault s 0x08 0)) ∧
    (e ≠ 0 → locateQueue s e g = .ok pa → NoHazard s →
      (∀ d : Operand,
        let cfg := (scalarVal s.w b).toNat
        let base := (scalarVal s.w d).toNat
        let slots := cfg % 2 ^ 8
        let size := cfg / 2 ^ 24 % 2 ^ 8
        let pc := cfg / 2 ^ 8 % 2 ^ 8
        let cc := cfg / 2 ^ 16 % 2 ^ 8
        1 ≤ slots → 1 ≤ size → pc ≤ 1 → cc ≤ 2 → base % 32 = 0 →
        (∃ pas, spadRange s (s.w.committed (leaderOf e)) base (slots * 32 * size) = some pas) →
        (∀ x ∈ s.xfers, x.queue.bind (winByte s x.unit x.member ·) ≠ some pa) →
        exec (.qinit h d a b) s = .next (writeQueue s pa
          { slots := slots, permits := slots, tokens := 0, head := 0, tail := 0, ssize := size, sbase := base,
            pcls := pc, ccls := cc })) ∧
      ((∃ x ∈ span pa 16, homeLine s x ∈ s.poisoned) → exec (.qpub h a b) s = .next (poisonEnd s) ∧
        exec (.qrel h a b) s = .next (poisonEnd s)) ∧
      ((∀ x ∈ span pa 16, homeLine s x ∉ s.poisoned) →
      (q.pcls ≠ 0 → (s.w.task = false → ∀ d : Operand, exec (.qacq h d a) s = .next (badHandle s 6 g)) ∧
        exec (.qpub h a b) s = .next (badHandle s 6 g)) ∧
      (q.ccls ≠ 0 → (s.w.task = false → ∀ d : Operand, exec (.qtake h d a) s = .next (badHandle s 6 g)) ∧
        exec (.qrel h a b) s = .next (badHandle s 6 g)) ∧
      (s.w.task = false → ∀ r : Fin 32,
        (q.pcls = 0 → q.permits = 0 → exec (.qacq h (.s r) a) s = .next (waitQueue s pa none)) ∧
        (q.pcls = 0 → 0 < q.permits → exec (.qacq h (.s r) a) s = .next (withScalar
          (writeQueue s pa { q with permits := q.permits - 1, tail := (q.tail + 1) % max 1 q.slots }) r
          (BitVec.ofNat 32 q.tail))) ∧
        (q.ccls = 0 → q.tokens = 0 → exec (.qtake h (.s r) a) s = .next (waitQueue s pa none)) ∧
        (q.ccls = 0 → 0 < q.tokens → ∃ u, exec (.qtake h (.s r) a) s = .next (withScalar u r (BitVec.ofNat 32 q.head)) ∧
          u = { writeQueue s pa { q with tokens := q.tokens - 1, head := (q.head + 1) % max 1 q.slots } with
                cores := u.cores, hazards := u.hazards })) ∧
      (q.pcls = 0 → full → exec (.qpub h a b) s = .next (badHandle s 8 g)) ∧
      (q.pcls = 0 → ¬full → ∃ u, u = { writeQueue s pa { q with tokens := q.tokens + 1 } with cores := u.cores } ∧
        exec (.qpub h a b) s = .next (waitCost u cost) ∧ (cost = 0 → waitCost u cost = u) ∧
        (cost ≠ 0 → s.w.agentLeaf.wait = none → waitCost u cost =
          { u with w := agentWaits u.w (.sleep (s.clk.toNat + cost)) s.w.iss.next 0 })) ∧
      (q.ccls = 0 → full → exec (.qrel h a b) s = .next (badHandle s 8 g)) ∧
      (q.ccls = 0 → ¬full →
        exec (.qrel h a b) s = .next (writeQueue s pa { q with permits := q.permits + 1 })) ∧
      (s.w.task = false → q.ssize ≠ 4 → ∀ d : Operand, exec (.qbind h d a) s = .next (badHandle s 6 g)) ∧
      (s.w.task = false → q.ssize = 4 → ∀ p : Fin 4, ∃ u,
        exec (.qbind h (.q p) a) s = .next { u with w := { u.w with ports := s.w.ports.set p g } } ∧
        u = { accessed s u with w := { s.w with lastTime := u.w.lastTime } })))

/-! ### Hypotheses -/

/-- R259, R261, R357 to R363: the five instructions. HYPENT and HYPLV change lanes' hypotheses at the core, on the map as
the core last applied it; HYPQ gives a node's word, at once or behind the requests ahead; HYPNEW and HYPRES check against
the slot map as those will leave it, queue a request and wait; each cause 0x31 with its subcode, lane and identifier. -/
def Obligations.HypothesisInstructions : Prop :=
  ∀ (s : State) (h : Hdr) (one : Bool) (a : Operand) (c : Context),
    let e := s.w.eff h.gd
    let l := leaderOf e
    let x := scalarVal s.w a
    let id : BitVec 6 := x.setWidth 6
    let acts : Mask := if one then laneBit l else e
    let near := c.on s.w.core
    let y := aheadOf s c
    let cur := (y.move (s.w.hypOf l)).1
    let lost := (y.move (s.w.hypOf l)).2
    let leaf : Option (Fin 4) := match s.w.iss.agent with
      | .leaf i => some i
      | _ => none
    let asks (i : Instr) (k : WaitKind) (op : HypOp) : Prop := exec i s = .next { s with
      w := agentWaits s.w k s.w.iss.next 0
      ctxs := s.ctxs.map fun z =>
        if z.ctx = c.ctx then { c with reqs := c.reqs ++ [{ wave := s.w.id, leaf := leaf, leader := l, op := op }] } else z }
    (e = 0 → (∀ d : Operand, exec (.hypnew h d) s = .next s ∧ exec (.hypq h d a) s = .next s) ∧
      exec (.hypent h one a) s = .next s ∧ exec (.hyplv h one) s = .next s ∧
      ∀ k, exec (.hypres h a k) s = .next s) ∧
    (e ≠ 0 → s.w.orphans.getLsbD l = true →
      (∀ r : Fin 32, exec (.hypnew h (.s r)) s = .next (withScalar s r 0)) ∧ ∀ k, exec (.hypres h a k) s = .next s) ∧
    (e ≠ 0 → 63 < x.toNat → ∀ d : Operand, exec (.hypq h d a) s = .next (fault s 0x31 5 (BitVec.ofNat 32 l) x)) ∧
    (e ≠ 0 → ctxOf s s.w.ctx = some c →
      ((63 < x.toNat ∨ (id ≠ 0 ∧ (near.node id).st ≠ .live)) →
        exec (.hypent h one a) s = .next (fault s 0x31 5 (BitVec.ofNat 32 (leaderOf acts)) x)) ∧
      (x.toNat ≤ 63 → (id = 0 ∨ (near.node id).st = .live) →
        (∀ j : Fin 32, acts.getLsbD j = true → s.w.orphans.getLsbD j = false →
          s.w.hypOf j = 0 ∨ s.w.hypOf j ∈ hypChain near 8 id) →
        exec (.hypent h one a) s = .next { s with w := { s.w with
          cur := Vector.ofFn fun j : Fin 32 =>
            if acts.getLsbD j = true ∧ s.w.orphans.getLsbD j = false then id else s.w.cur[j] } }) ∧
      (∀ j : Fin 32, x.toNat ≤ 63 → (id = 0 ∨ (near.node id).st = .live) → acts.getLsbD j = true →
        s.w.orphans.getLsbD j = false → s.w.hypOf j ≠ 0 → s.w.hypOf j ∉ hypChain near 8 id →
        (∀ i : Fin 32, i < j → acts.getLsbD i = true → s.w.orphans.getLsbD i = false →
          s.w.hypOf i = 0 ∨ s.w.hypOf i ∈ hypChain near 8 id) →
        exec (.hypent h one a) s = .next (fault s 0x31 3 (BitVec.ofNat 32 j) x)) ∧
      exec (.hyplv h one) s = .next { s with w := { s.w with
        orphan := s.w.orphan &&& ~~~acts
        cur := Vector.ofFn fun j : Fin 32 =>
          if acts.getLsbD j = true ∧ s.w.orphans.getLsbD j = false
          then (if s.w.hypOf j = 0 then 0 else (near.node (s.w.hypOf j)).parent) else s.w.cur[j] } } ∧
      (∀ r : Fin 32, x.toNat ≤ 63 →
        (c.reqs = [] → exec (.hypq h (.s r) a) s = .next (withScalar s r
          (if id = 0 then 1
          else match (c.node id).st with
            | .free => 0
            | .live => BitVec.ofNat 32 ((c.node id).depth.toNat * 2 ^ 16 + (c.node id).parent.toNat * 2 ^ 8 + 1)
            | .confirmed => 2
            | .refuted => 3))) ∧
        (c.reqs ≠ [] → asks (.hypq h (.s r) a) .hypnew (.query r id))) ∧
      (s.w.orphans.getLsbD l = false →
        (∀ r : Fin 32, lost = false → 63 ≤ liveCount y.c →
          exec (.hypnew h (.s r)) s = .next (fault s 0x31 1 (BitVec.ofNat 32 l) (cur.zeroExtend 32))) ∧
        (∀ r : Fin 32, lost = false → liveCount y.c < 63 → (y.c.node cur).depth = 7 →
          exec (.hypnew h (.s r)) s = .next (fault s 0x31 2 (BitVec.ofNat 32 l) (cur.zeroExtend 32))) ∧
        (∀ r : Fin 32, (lost = true ∨ (liveCount y.c < 63 ∧ (y.c.node cur).depth ≠ 7)) →
          asks (.hypnew h (.s r)) .hypnew (.new r)) ∧
        ∀ k : Bool,
          ((x = 0 ∨ 63 < x.toNat ∨ (y.c.node id).st ≠ .live) →
            exec (.hypres h a k) s = .next (fault s 0x31 5 (BitVec.ofNat 32 l) x)) ∧
          (x ≠ 0 → x.toNat ≤ 63 → (y.c.node id).st = .live → id ∈ hypChain y.c 8 cur →
            exec (.hypres h a k) s = .next (fault s 0x31 4 (BitVec.ofNat 32 l) x)) ∧
          (x ≠ 0 → x.toNat ≤ 63 → (y.c.node id).st = .live → id ∉ hypChain y.c 8 cur →
            asks (.hypres h a k) .hypres (if k then .confirm id else .refute id))))

/-- R261 to R264, R283, R363: resolutions at the slot map. A confirm gives the node's slots and children to its parent
and moves its lanes there; into committed memory it writes each sector's newest version, at a time past every time
given; one whose node is no longer live is a fault. A refute takes the whole subtree at the map; core by core, those
that do so later last, its lanes become orphans, with the last core those of every wave wherever it has gone since,
under the nearest node that is not refuted; a sweep of every node takes each tree under 0, and one of a node that is no
longer live, or took its identifier later, does nothing. HYPNEW_REPLY makes the lowest identifier that is not live a
child of the leader's hypothesis, or answers a HYPQ. A freed slot's versions go. That each resolution is one later step
of its own is the model's (log 14), and which cores lag (log 5). -/
def Obligations.HypothesisResolutions : Prop :=
  (∀ (s : State) (ctx : Nat) (c : Context) (r : HypReq) (q : List HypReq) (h : BitVec 6),
    let p := (c.node h).parent
    ctxOf s ctx = some c → c.reqs = r :: q → r.op = .confirm h → h ≠ 0 → s.w.id ≠ 0 →
    ((c.node h).st = .live →
      ∃ t c', exec (.confirmCommit ctx) s = .next t ∧ ctxOf t ctx = some c' ∧ c'.reqs = q ∧ c'.vers = c.vers ∧
      (c'.node h).st = .confirmed ∧
      (p ≠ 0 → p ≠ h → (c'.node p).slots = (c.node h).slots ++ (c.node p).slots ∧ t.mem = s.mem) ∧
      (∀ i : BitVec 6, i ≠ 0 → i ≠ h → i ≠ p → (c.node i).st = .live → (c.node i).parent = h → h ∈ hypChain c 8 i →
        (c'.node i).parent = p ∧ (c'.node i).depth = (c.node i).depth - 1) ∧
      (s.w.ctx = ctx → ∀ l : Fin 32, t.w.cur[l] = if s.w.cur[l] = h then p else s.w.cur[l]) ∧
      t.w.r = s.w.r ∧ t.w.orphan = s.w.orphan ∧
      (p = 0 → (∀ v ∈ nodeVersions c h, v.data.length = 32 ∧ ∀ j < 32, routeOf s (32 * v.sector + j) = none) →
        (∀ v ∈ nodeVersions c h, ∀ j < 32, plainByte t (32 * v.sector + j) = v.data.getD j 0) ∧
        (∀ b, (∀ v ∈ nodeVersions c h, ∀ j < 32, route s b ≠ 32 * v.sector + j) → plainByte t b = plainByte s b) ∧
        ∀ v ∈ nodeVersions c h, ∀ x ∈ s.lines, x.wts < (lineOf t (v.sector / 4)).wts ∧
          x.rts < (lineOf t (v.sector / 4)).wts)) ∧
    ((c.node h).st ≠ .live → r.wave = s.w.id → s.w.pending.length < 8 →
      ∃ t c', exec (.confirmCommit ctx) s = .next t ∧ ctxOf t ctx = some c' ∧ c' = { c with reqs := q } ∧ t.mem = s.mem ∧
        ∃ pc, t.w.pending = s.w.pending ++ [⟨0x31, 5, pc, BitVec.ofNat 32 r.leader, h.zeroExtend 32⟩])) ∧
  (∀ (s : State) (ctx : Nat) (c : Context) (r : HypReq) (q : List HypReq) (h : BitVec 6),
    let p := (c.node h).parent
    let sub (i : BitVec 6) : Prop := i ≠ 0 ∧ (c.node i).st = .live ∧ h ∈ hypChain c 8 i
    let late := lateCores s ctx
    ctxOf s ctx = some c → c.reqs = r :: q → r.op = .refute h → (r.gen = none ∨ (c.node h).slots.getLast? = r.gen) →
    c.lag = [] → h ≠ 0 →
    (c.node h).st = .live → s.w.id ≠ 0 →
    ∃ t c', exec (.refuteApplied ctx) s = .next t ∧ ctxOf t ctx = some c' ∧ c'.vers = c.vers ∧
      (late = [] → c'.reqs = q ∧ c'.lag = []) ∧ (late ≠ [] → c'.reqs = r :: q ∧ c'.lag = late.map fun n => (n, c.nodes)) ∧
      (∀ i : BitVec 6, (sub i → (c'.node i).st = .refuted) ∧ (¬sub i → c'.node i = c.node i)) ∧
      t.mem = s.mem ∧ t.w.r = s.w.r ∧
      (s.w.ctx = ctx → ∀ l : Fin 32,
        ((s.w.res = .out ∨ s.w.core ∉ late) → sub s.w.cur[l] →
          t.w.orphan.getLsbD l = true ∧ t.w.notified.getLsbD l = false ∧
          ((∀ i ∈ (hypChain c 8 s.w.cur[l]).takeWhile (· ≠ h), sub i) → (p = 0 ∨ (c'.node p).st ≠ .refuted) →
            t.w.cur[l] = p)) ∧
        ((s.w.res ≠ .out ∧ s.w.core ∈ late) ∨ (c'.node s.w.cur[l]).st ≠ .refuted →
          t.w.orphan.getLsbD l = s.w.orphan.getLsbD l ∧
          t.w.notified.getLsbD l = s.w.notified.getLsbD l ∧ t.w.cur[l] = s.w.cur[l]))) ∧
  (∀ (s : State) (ctx : Nat) (c : Context) (r : HypReq) (q : List HypReq) (h : BitVec 6),
    ctxOf s ctx = some c → c.reqs = r :: q → r.op = .refute h → c.lag = [] → r.wave = 0 → s.w.id ≠ 0 →
    (h ≠ 0 → ((c.node h).st ≠ .live ∨ (r.gen ≠ none ∧ (c.node h).slots.getLast? ≠ r.gen)) →
      exec (.refuteApplied ctx) s = .next { s with
        ctxs := s.ctxs.map fun z => if z.ctx = c.ctx then { c with reqs := q } else z }) ∧
    (h = 0 → ∃ t c', exec (.refuteApplied ctx) s = .next t ∧ ctxOf t ctx = some c' ∧ c'.vers = c.vers ∧ t.mem = s.mem ∧
      t.w.r = s.w.r ∧ ∀ i : BitVec 6, ((c.node i).st ≠ .live → (c'.node i).st = (c.node i).st) ∧
        (i ≠ 0 → (c.node i).st = .live → (c.node i).parent = 0 → (c'.node i).st = .refuted))) ∧
  (∀ (s : State) (ctx : Nat) (c : Context) (r : HypReq) (q : List HypReq) (h : BitVec 6) (n : Fin 384)
    (old : Vector HypNode 64) (rest : List (Fin 384 × Vector HypNode 64)),
    ctxOf s ctx = some c → c.reqs = r :: q → r.op = .refute h → c.lag = (n, old) :: rest → s.w.id ≠ 0 → s.w.ctx = ctx →
    ∃ t c', exec (.refuteApplied ctx) s = .next t ∧ ctxOf t ctx = some c' ∧ c'.nodes = c.nodes ∧ c'.lag = rest ∧
      c'.reqs = (if rest = [] then q else r :: q) ∧ t.mem = s.mem ∧
      ∀ l : Fin 32, t.w.orphan.getLsbD l =
        (s.w.orphan.getLsbD l ||
          (decide (s.w.core = n ∨ rest = []) && decide ((c.node s.w.cur[l]).st = .refuted)))) ∧
  (∀ (s : State) (ctx : Nat) (c : Context) (r : HypReq) (q : List HypReq) (d : Fin 32) (n : BitVec 6),
    ctxOf s ctx = some c → c.reqs = r :: q → r.wave = s.w.id → s.w.id ≠ 0 →
    (r.op = .new d → n ≠ 0 → (c.node n).st ≠ .live → (∀ i : BitVec 6, i ≠ 0 → i < n → (c.node i).st = .live) →
      s.w.orphan.getLsbD r.leader = false → (∀ x ∈ (c.node n).slots, x ∉ c.lazy) →
      ∃ t c', exec (.hypnewReply ctx) s = .next t ∧ ctxOf t ctx = some c' ∧ c'.reqs = q ∧
        (c'.node n).st = .live ∧ (c'.node n).parent = s.w.cur[r.leader] ∧
        (c'.node n).depth = (c.node s.w.cur[r.leader]).depth + 1 ∧ (c'.node n).slots = [c.nextVs] ∧
        c'.nextVs = c.nextVs + 1 ∧ (∀ i : BitVec 6, i ≠ n → c'.node i = c.node i) ∧
        t.mem = s.mem ∧ t.w.cur = s.w.cur ∧ t.w.r = { s.w.r with s := s.w.r.s.set d (n.zeroExtend 32) }) ∧
    (r.op = .new d → s.w.orphan.getLsbD r.leader = true → ∃ t, exec (.hypnewReply ctx) s = .next t ∧
      ctxOf t ctx = some { c with reqs := q } ∧ t.mem = s.mem ∧ t.w.r = { s.w.r with s := s.w.r.s.set d 0 }) ∧
    (r.op = .query d n → ∃ t, exec (.hypnewReply ctx) s = .next t ∧
      ctxOf t ctx = some { c with reqs := q } ∧ t.mem = s.mem ∧
      t.w.r = { s.w.r with s := s.w.r.s.set d (hypWord c n) })) ∧
  ∀ (s : State) (ctx vslot : Nat) (c : Context), ctxOf s ctx = some c →
    (vslot ∈ c.lazy → c.lag = [] → exec (.versionSlotFreed ctx vslot) s = .next { s with
      lines := s.lines.filter fun x => ¬(x.ctx = ctx ∧ x.slot = vslot)
      ctxs := s.ctxs.map fun z => if z.ctx = c.ctx then { c with
        lazy := c.lazy.filter (· ≠ vslot), vers := c.vers.filter fun v => v.slot ≠ vslot } else z }) ∧
    ((vslot ∉ c.lazy ∨ c.lag ≠ []) → exec (.versionSlotFreed ctx vslot) s = .next s)

/-! ### Engine transfers -/

/-- R202, R203, R206, R214: a CPY, CPYS, GATH or SCAT whose checks pass sets ENG in its latch, puts one transfer with its
issue's values last in flight, and goes on; under `.then` the parked follow-on is armed. No other byte of memory and no
register changes. The record's bytes are read as a load's: a line the core's L1 holds under a lease may give them. -/
def Obligations.TransferIssue : Prop :=
  ∀ (s : State) (h : Hdr) (d a : Operand),
    let e := s.w.eff h.gd
    let l := leaderOf e
    let g := scalarPair s.w a
    let win (o n : Nat) : Option (List Nat) := spadRange s (s.w.committed l) o n
    let latchSet (t : State) (lp : List Nat) : Prop :=
      latchAt t lp = { latchAt s lp with eng := true } ∧
      ∀ b, (∀ y ∈ lp, route s y ≠ route s b) → plainByte t b = plainByte s b
    let latchFine (lp : List Nat) : Prop :=
      lp.length = 16 ∧ (lp.map (route s)).Nodup ∧ ∀ y ∈ lp, physKind y ≠ some .view
    (∀ x : CopyExt, e = 0 → exec (.cpy h d a x) s = .next s ∧ exec (.cpys h d a x) s = .next s) ∧
    (∀ x : GathExt, e = 0 → exec (.gath h d a x) s = .next s ∧ exec (.scat h d a x) s = .next s) ∧
    (∀ (x : CopyExt) (loc : Loc) (lp : List Nat),
      let bytes (hits : List L1Line) : List Byte := loc.pas.map (hitByte s hits (s.w.accessor l) loc)
      let dst := (getS s.w (regNum d)).toNat
      let lat := (getS s.w x.lat.toNat).toNat
      e ≠ 0 → NoHazard s → g.toNat % 64 = 0 →
      laneChk s (s.w.accessor l) .load g 64 = .ok loc → loc.peer = none → loc.bad = none →
      (∀ b ∈ loc.pas, homeLine s b ∉ s.poisoned) → lat % 16 = 0 → win lat 16 = some lp → latchFine lp →
      (x.tv = true → s.w.follow[x.thn].st = .parked) →
      ∀ (i : Instr) (k : XferKind), (i = .cpy h d a x ∧ k = .cpy) ∨ (i = .cpys h d a x ∧ k = .cpys) →
      (∀ hits, LiveCopies s hits →
        let rec_ := recordOf (bytes hits)
        let box := rec_.boxBytes
        recordBad (bytes hits) rec_ = 0 ∧
        ((x.qd = false ∧ dst % (if rec_.swz = 0 then 32 else 128) = 0 ∧ (win dst box).isSome) ∨
          (x.qd = true ∧ dst % 16 = 0 ∧ ∃ qp, win dst 16 = some qp ∧
            let q := readQueue s (qp.headD 0)
            box ≤ 32 * q.ssize ∧ q.sbase % 32 = 0 ∧ (rec_.swz ≠ 0 → q.sbase % 128 = 0 ∧ q.ssize % 4 = 0) ∧
            (win q.sbase (32 * q.ssize * q.slots)).isSome ∧ if k = .cpy then q.pcls = 1 else q.ccls = 1))) →
      ∃ t hits, exec i s = .next t ∧ LiveCopies s hits ∧ latchSet t lp ∧
        let rec_ := recordOf (bytes hits)
        t = { accessed s t with
          mem := t.mem, monitors := t.monitors, nextId := s.nextId + 1,
          xfers := s.xfers ++ [{
            id := s.nextId, kind := k, ctx := s.w.ctx, wave := s.w.id, unit := s.w.unit, member := s.w.member,
            core := s.w.core, pc := s.w.iss.pc, leader := l, qcb := (s.w.origin l).1, hdr := (s.w.origin l).2, tr := some rec_,
            crd := coordsOf s.w x.crd, spad := if x.qd then none else some dst,
            queue := if x.qd then some dst else none, latch := some lat, thn := if x.tv then some x.thn else none,
            hyp := s.w.hypOf l, left := List.range (rec_.boxBytes / 32), sup := s.w.mode = .supervisor }],
          w := { s.w with lastTime := t.w.lastTime, follow := if x.tv then
            s.w.follow.set x.thn { s.w.follow[x.thn] with st := .armed } else s.w.follow } }) ∧
    (∀ x : CopyExt, e ≠ 0 → g.toNat % 64 ≠ 0 →
      exec (.cpy h d a x) s = .next (badHandle s 1 g) ∧ exec (.cpys h d a x) s = .next (badHandle s 1 g)) ∧
    ∀ (x : GathExt) (lp : List Nat),
      let m : Mask := if x.one then laneBit l else e
      let n := 2 ^ x.esz.toNat
      let spa := (getS s.w x.spa.toNat).toNat
      let lat := (getS s.w x.lat.toNat).toNat
      e ≠ 0 → (selOf g = 0 ∨ selOf g = 0x7F) → g.toNat % n = 0 → spa % 32 = 0 → (win spa (32 * n)).isSome →
      lat % 16 = 0 → win lat 16 = some lp → latchFine lp →
      ∀ (i : Instr) (k : XferKind), (i = .gath h d a x ∧ k = .gath) ∨ (i = .scat h d a x ∧ k = .scat) →
      ∃ t, exec i s = .next t ∧ latchSet t lp ∧
        t = { s with
          mem := t.mem, monitors := t.monitors, lines := t.lines, nextId := s.nextId + 1,
          xfers := s.xfers ++ [{
            id := s.nextId, kind := k, ctx := s.w.ctx, wave := s.w.id, unit := s.w.unit, member := s.w.member,
            core := s.w.core, pc := s.w.iss.pc, leader := l, qcb := (s.w.origin l).1, hdr := (s.w.origin l).2, spad := some spa,
            latch := some lat, esz := n,
            lanes := (lanesOf m).map fun j => ⟨j, g + BitVec.ofNat 64 (n * (vecVal s.w d j).toNat), s.w.hypOf j,
              s.w.orphans.getLsbD j⟩,
            left := List.range n, sup := s.w.mode = .supervisor }] }

/-- R202, R203, R206, R181, R211, R257, R283: a queued transfer takes its permit and tail slot, or its token and head
slot, and waits without one. A sector of a CPY writes its elements, zero where they are out of range; of a CPYS its
elements go to memory, none where they are out of range; of a GATH the elements of its lanes go to their positions; of a
SCAT the lanes that are no orphans store, the highest lane's bytes remaining where lanes meet. Each is counted on the
latch, and the last one of a transfer ends it. A sector of a refuted CPYS stores nothing and is counted. A COPY packet's
sector moves 32 bytes. A fired follow-on's stream enters its array's queue. Where an orphan's CPYS stores, which of a
SCAT's lanes remains, and the order of a token and a last count, are the model's readings (logs 25 and 26). -/
def Obligations.TransferProgress : Prop :=
  (∀ (s : State) (id o a : Nat) (x : Xfer), s.xfers.find? (fun y => y.id = id) = some x → x.spad = none →
    x.queue = some o → winByte s x.unit x.member o = some a →
    let q := readQueue s a
    let put (q' : Queue) : State := capturedWrite (writeTimes s (max s.clk.toNat (x.tmax + 1)) (span a 16)).2
      ((span a 16).zip (leBytes 16 (queueBits q')))
    (x.kind = .cpy → q.permits = 0 → exec (.copyPermitAcquire id) s = .next s) ∧
    (x.kind = .cpy → 0 < q.permits → exec (.copyPermitAcquire id) s = .next (putXfer
      (put { q with permits := q.permits - 1, tail := (q.tail + 1) % max 1 q.slots })
      { x with spad := some (q.sbase + 32 * q.ssize * q.tail) })) ∧
    (x.kind ≠ .cpy → q.tokens = 0 → exec (.copyPermitAcquire id) s = .next s) ∧
    (x.kind ≠ .cpy → 0 < q.tokens → exec (.copyPermitAcquire id) s = .next (putXfer
      (put { q with tokens := q.tokens - 1, head := (q.head + 1) % max 1 q.slots })
      { x with spad := some (q.sbase + 32 * q.ssize * q.head) }))) ∧
  (∀ (s : State) (id k o lo : Nat) (x : Xfer) (lp : List Nat),
    s.xfers.find? (fun y => y.id = id) = some x → x.spad = some o → k ∈ x.left →
    x.latch = some lo → x.queue = none → x.thn = none → NoHazardOf s x.ctx → xferOut s x = false →
    winBytes s x.unit x.member lo 16 = some lp → lp.length = 16 → (lp.map (route s)).Nodup →
    (∀ b ∈ lp, physKind b ≠ some .view) →
    let counted (t : State) : Prop :=
      latchAt t lp = { latchAt s lp with pendSec := ((latchAt s lp).pendSec + 2 ^ 32 - 1) % 2 ^ 32 }.update ∧
      (∃ last, x.tmax ≤ last ∧ t.xfers = (if x.left.all (· = k) then s.xfers.filter fun y => y.id ≠ id else
        s.xfers.map fun y => if y.id = id then { x with left := x.left.filter (· ≠ k), tmax := last } else y)) ∧
      t.w.r = s.w.r ∧ t.w.iss = s.w.iss ∧ t.w.leaves = s.w.leaves
    let apart (ys : List Nat) : Prop := ∀ y ∈ ys, ∀ b ∈ lp, route s y ≠ route s b
    let stores (i : Instr) (ws : List (Nat × Byte)) (dirty : List Nat) : Prop := ∃ t, exec i s = .next t ∧ counted t ∧
      ∀ b, apart [b] → (∀ y ∈ dirty, route s (y + 1) ≠ route s b) → plainByte t b = lastWrite s ws b
    let runs : Instr := .copySectorPerformed id k
    (∀ (r : TensorRec) (pas : List Nat) (at_ : DWord → Loc), x.tr = some r →
      winBytes s x.unit x.member (o + swzOff r.swz.toNat (32 * k)) 32 = some pas → apart pas →
      let elem (j : Nat) : List Byte := match elemAddr r x.crd j with
        | none => List.replicate r.size 0
        | some g => locBytes s (xferAcc x x.hyp) (at_ g)
      let part (i : Nat) : List Byte := ((pas.map (physByte s)).drop (r.size * i)).take r.size
      let ours : List (DWord × List Byte) := (List.range (32 / r.size)).filterMap fun i =>
        (elemAddr r x.crd (32 / r.size * k + i)).map fun g => (g, part i)
      (x.kind = .cpy → (∀ j g, elemAddr r x.crd j = some g →
          engineChk s (xferAcc x x.hyp) .load g r.size = .ok (at_ g) ∧ (at_ g).pas.length = r.size) →
        stores runs (pas.zip ((List.range (32 / r.size)).flatMap fun i => elem (32 / r.size * k + i))) []) ∧
      (x.kind = .cpys → x.orphan = true → stores runs [] []) ∧
      (x.kind = .cpys → x.orphan = false → (∀ j g, elemAddr r x.crd j = some g →
          engineChk s (xferAcc x x.hyp) .store g r.size = .ok (at_ g) ∧ (at_ g).vers = false ∧
          apart (at_ g).pas ∧ apart ((at_ g).entries.map (· + 1))) →
        stores runs (ours.flatMap fun y => (at_ y.1).pas.zip y.2) (ours.flatMap fun y => (at_ y.1).entries))) ∧
    ∀ (at_ : XferLane → Loc) (own : XferLane → List Nat),
      (∀ l ∈ sectorLanes x k, winBytes s x.unit x.member (o + x.esz * l.lane.val) x.esz = some (own l) ∧ apart (own l)) →
      (winByte s x.unit x.member o).isSome →
      (x.kind = .gath → (∀ l ∈ sectorLanes x k,
          engineChk s (xferAcc x l.hyp) .load l.addr x.esz = .ok (at_ l) ∧ (at_ l).pas.length = x.esz) →
        stores runs ((sectorLanes x k).flatMap fun l => (own l).zip (locBytes s (xferAcc x l.hyp) (at_ l))) []) ∧
      ∀ byte : XferLane → Nat → Loc,
        let ours := (sectorLanes x k).filter fun l => !l.orphan
        let shown (l : XferLane) : List Nat :=
          (List.range x.esz).filter fun i => !hiddenByte s x l (l.addr + BitVec.ofNat 64 i)
        x.kind = .scat →
        (∀ l ∈ ours, engineChk s (xferAcc x l.hyp) .store l.addr x.esz = .ok (at_ l) ∧ ∀ i < x.esz,
          engineChk s (xferAcc x l.hyp) .store (l.addr + BitVec.ofNat 64 i) 1 = .ok (byte l i) ∧
          (byte l i).vers = false ∧ apart (byte l i).pas ∧ apart ((byte l i).entries.map (· + 1))) →
        stores runs
          (ours.flatMap fun l => (shown l).flatMap fun i =>
            (byte l i).pas.zip [((own l).map (physByte s)).getD i 0])
          (ours.flatMap fun l => (shown l).flatMap fun i => (byte l i).entries)) ∧
  (∀ (s : State) (id k : Nat) (x : Xfer) (from_ into : Loc), s.xfers.find? (fun y => y.id = id) = some x →
    x.kind = .packet → x.latch = none → x.queue = none → x.thn = none → k ∈ x.left → x.wave = 0 → NoHazardOf s x.ctx →
    engineChk s (xferAcc x 0) .load (x.src + BitVec.ofNat 64 (32 * k)) 32 = .ok from_ →
    engineChk s (xferAcc x 0) .store (x.dst + BitVec.ofNat 64 (32 * k)) 32 = .ok into →
    from_.vers = false → into.vers = false → from_.pas.length = 32 → into.pas.length = 32 →
    (into.pas.map (route s)).Nodup →
    ∃ t, exec (.copySectorPerformed id k) s = .next t ∧ into.pas.map (plainByte t) = from_.pas.map (physByte s) ∧
      (∀ b, (∀ y ∈ into.pas, route s y ≠ route s b) → (∀ y ∈ into.entries, route s (y + 1) ≠ route s b) →
        plainByte t b = plainByte s b) ∧
      (∃ last, x.tmax ≤ last ∧
        t.xfers = s.xfers.map fun y => if y.id = id then { x with left := x.left.filter (· ≠ k), tmax := last } else y) ∧
      t.w = s.w) ∧
  ∀ (s : State) (slot : Fin 4) (x : Xfer),
    let f := s.w.follow[slot]
    let y := arrayOf s s.w.core f.arr
    s.xfers.find? (fun z => z.wave = s.w.id && z.thn = some slot && z.left = []) = some x → s.w.id ≠ 0 →
    (f.st = .fired → (s.w.res ≠ .resident ∨ 4 ≤ y.queue.length) → exec (.followOnFire s.w.id slot) s = .next s) ∧
    (f.st = .fired → s.w.res = .resident → y.queue.length < 4 → x.kind ≠ .packet →
      ∃ t, exec (.followOnFire s.w.id slot) s = .next t ∧
        t.w = { s.w with follow := s.w.follow.set slot {} } ∧
        arrayOf t s.w.core f.arr = { y with queue := y.queue ++ [{
          op := .stream f.fmt (f.rows1.toNat + 1) f.qs f.a.toNat, wave := s.w.id, unit := s.w.unit, pc := f.pc,
          leader := f.leader, id := s.nextId }] } ∧ t.nextId = s.nextId + 1 ∧
        t.xfers = s.xfers.filter fun z => z.id ≠ x.id)

/-! ### The matrix arrays -/

/-- R84, R219, R224 to R228, R232, R393 to R398: a matrix word under an empty mask does nothing; while its array cannot
accept it, it waits; else its command goes last into the queue of its array, or an MLDS takes flight, or a deferred stream
is parked; the workgroup has live array state, and registers and memory stay. An MSTREAM's row length is the model's reading
(log 24). -/
def Obligations.MatrixIssue : Prop :=
  (∀ (s : State) (h : Hdr) (i : Instr) (op : CmdOp) (arr : Fin 2),
    let e := s.w.eff h.gd
    let y := arrayOf s s.w.core arr
    let win (o n : Nat) : Option (List Nat) := spadRange s (s.w.committed (leaderOf e)) o n
    let home (tile : Fin 16) : Fin 2 := if tile.val < 8 then 0 else 1
    let size (mf : BitVec 3) : Nat := mfSize mf
    ((i = .mswap h arr ∧ op = .swap) ∨
      (∃ tile, (i = .mdrain h tile ∧ op = .drain tile ∨ i = .mzero h tile ∧ op = .zero tile) ∧ arr = home tile) ∨
      (∃ a tile mf sat, (i = .mld h a tile mf ∧ op = .load tile mf (scalarVal s.w a).toNat ∨
          i = .mst h a tile mf sat ∧ op = .store tile mf sat (scalarVal s.w a).toNat) ∧ arr = home tile ∧
        (scalarVal s.w a).toNat % 128 = 0 ∧ (win (scalarVal s.w a).toNat (4096 * size mf)).isSome) ∨
      (∃ a fmt rows1 slot, i = .mstream h a arr fmt rows1 false false slot ∧
        op = .stream fmt (rows1.toNat + 1) false (scalarVal s.w a).toNat ∧ (scalarVal s.w a).toNat % 32 = 0 ∧
        (win (scalarVal s.w a).toNat ((rows1.toNat + 1) * rowBytes (spAhead y) fmt)).isSome) ∨
      (∃ a fmt rows1 slot qp, i = .mstream h a arr fmt rows1 true false slot ∧
        op = .stream fmt (rows1.toNat + 1) true (scalarVal s.w a).toNat ∧ (scalarVal s.w a).toNat % 16 = 0 ∧
        win (scalarVal s.w a).toNat 16 = some qp ∧ (readQueue s (qp.headD 0)).ccls = 2 ∧
        (rows1.toNat + 1) * rowBytes (spAhead y) fmt ≤ 32 * (readQueue s (qp.headD 0)).ssize)) →
    (e = 0 → exec i s = .next s) ∧
    (e ≠ 0 → 4 ≤ y.queue.length → exec i s = .next (awaits s (.busy arr) 0)) ∧
    (e ≠ 0 → y.queue.length < 4 → ∃ t, exec i s = .next t ∧
      t = { s with cores := t.cores, units := t.units, nextId := s.nextId + 1 } ∧
      arrayOf t s.w.core arr =
        { y with queue := y.queue ++ [⟨op, s.w.id, s.w.unit, s.w.iss.pc, leaderOf e, s.nextId⟩] } ∧
      (∀ c k, (c, k) ≠ (s.w.core, arr) → arrayOf t c k = arrayOf s c k) ∧ (∀ c k, tileOf t c k = tileOf s c k) ∧
      ∀ u m, unitOf s s.w.unit = some u → u.members[s.w.member]? = some m →
        ∃ u', unitOf t s.w.unit = some u' ∧ u'.members[s.w.member]? = some { m with live := true })) ∧
  (∀ (s : State) (h : Hdr) (a : Operand) (arr : Fin 2) (fmt : BitVec 3) (rows1 : BitVec 6) (qs : Bool) (slot : Fin 4),
    let e := s.w.eff h.gd
    let base := (scalarVal s.w a).toNat
    let ws := encode (.mstream h a arr fmt rows1 qs true slot)
    let size := (rows1.toNat + 1) * rowBytes (spAhead (arrayOf s s.w.core arr)) fmt
    let win (n : Nat) : Option (List Nat) := spadRange s (s.w.committed (leaderOf e)) base n
    e ≠ 0 → (if qs then base % 16 = 0 ∧ ∃ qp, win 16 = some qp ∧ (readQueue s (qp.headD 0)).ccls = 2 ∧
        size ≤ 32 * (readQueue s (qp.headD 0)).ssize
      else base % 32 = 0 ∧ (win size).isSome) →
    (s.w.follow[slot].st ≠ .empty →
      exec (.mstream h a arr fmt rows1 qs true slot) s = .next (badHandle s 10 (BitVec.ofNat 64 base))) ∧
    (s.w.follow[slot].st = .empty → ∃ t, exec (.mstream h a arr fmt rows1 qs true slot) s = .next t ∧
      t = { s with units := t.units, w := { s.w with follow := s.w.follow.set slot {
        st := .parked, pc := s.w.iss.pc, leader := leaderOf e, arr := arr, fmt := fmt, rows1 := rows1, qs := qs,
        slot := slot, a := scalarVal s.w a, word := ws.headD 0, ext := trailingWord ws } } })) ∧
  ∀ (s : State) (h : Hdr) (a : Operand) (arr : Fin 2) (fmt : BitVec 3) (sp : Bool) (crd mta : BitVec 5) (loc : Loc),
    let e := s.w.eff h.gd
    let l := leaderOf e
    let g := scalarPair s.w a
    let y := arrayOf s s.w.core arr
    let bytes (hits : List L1Line) : List Byte := loc.pas.map (hitByte s hits (s.w.accessor l) loc)
    (e = 0 → exec (.mlds h a arr fmt sp crd mta) s = .next s) ∧
    (e ≠ 0 → ((∃ c ∈ y.queue, c.op = .swap) ∨ y.mlds ≠ none) →
      exec (.mlds h a arr fmt sp crd mta) s = .next (awaits s (.busy arr) 0)) ∧
    (e ≠ 0 → (∀ c ∈ y.queue, c.op ≠ .swap) → y.mlds = none → NoHazard s → g.toNat % 64 = 0 →
      laneChk s (s.w.accessor l) .load g 64 = .ok loc → loc.peer = none → loc.bad = none →
      (∀ b ∈ loc.pas, homeLine s b ∉ s.poisoned) →
      (∀ hits, LiveCopies s hits →
        let rec_ := recordOf (bytes hits)
        recordBad (bytes hits) rec_ = 0 ∧ mldsRecOk rec_ fmt = true ∧ (fmt = 5 → nq4Base s e g rec_ = .ok ())) →
      ∀ md : List Byte, (if sp = true then ∃ v, readMeta s e (getS s.w (mta.toNat + 1) ++ getS s.w mta.toNat) = .ok (v, md)
        else md = []) →
      ∃ t hits, exec (.mlds h a arr fmt sp crd mta) s = .next t ∧ LiveCopies s hits ∧
        t = { accessed s t with nextId := s.nextId + 1, units := t.units,
                                w := { s.w with lastTime := t.w.lastTime, perf := t.w.perf } } ∧
        arrayOf t s.w.core arr = { y with mlds := some {
          id := s.nextId, leader := l, unit := s.w.unit, wave := s.w.id, ctx := s.w.ctx, pc := s.w.iss.pc, fmt := fmt,
          sp := sp, tr := recordOf (bytes hits), crd := coordsOf s.w crd, mta := md, hyp := s.w.hypOf l,
          qcb := (s.w.origin l).1, hdr := (s.w.origin l).2, sup := s.w.mode = .supervisor } })

/-- R223 to R228, R138 to R140: a landing MLDS fills the shadow plane. The command at the head of a queue executes: a swap
exchanges the planes; a stream forms partials from the active plane, or faults on a pair the formats do not make, and one fed
from a queue takes its token and head slot and returns the permit, or waits for a token; a drain
adds both halves to its tile and clears the partials, other rows staying; MZERO, MLD and MST clear, fill and store a tile.
Each leaves the queue; general registers stay. An element outside its view is the model's reading (log 24). -/
def Obligations.MatrixCommands : Prop :=
  ∀ (s : State) (n : Fin 384) (arr : Fin 2),
    let y := arrayOf s n arr
    let z (t : State) : ArrayState := arrayOf t n arr
    let still (t : State) : Prop := t.w.r = s.w.r ∧ t.w.sr = s.w.sr ∧ t.w.iss = s.w.iss ∧ t.w.cur = s.w.cur
    let quiet (c : Cmd) : Prop := NoHazardOf s (((unitOf s c.unit).map (·.ctx)).getD 0)
    (∀ c q, y.queue = c :: q → c.op = .swap → y.mlds = none →
      ∃ t, exec (.mswapExecute n arr) s = .next t ∧
        z t = { y with active := y.shadow, shadow := y.active, queue := q } ∧ still t ∧ t.mem = s.mem) ∧
    (∀ c q fmt rows base, y.queue = c :: q → c.op = .stream fmt rows false base →
      (pairOk y.active.fmt fmt = true → quiet c → ∃ t, exec (.mstreamStart n arr) s = .next t ∧
        let row (i k : Nat) : Nat := leNat ((List.range (fmtSize fmt)).map fun j =>
          winGet s c.unit (base + (i * rowBytes y.active.sp fmt + fmtSize fmt * k + j)))
        z t = { y with queue := q, part := (z t).part } ∧ (z t).part.rows = rows ∧
        (z t).part.int = decide (y.active.fmt = 2) ∧ (z t).part.scales = y.active.scales ∧
        (∀ h < 2, ∀ i < rows, ∀ j < 64, ∀ r : Nat → Nat,
          (∀ k < if y.active.sp then 256 else 128, r k = row i k) →
          (z t).part.vals[64 * (rows * h + i) + j]? = some (halfSum y.active fmt r h j)) ∧
        still t ∧ t.mem = s.mem) ∧
      (pairOk y.active.fmt fmt = false → ∃ t, exec (.mstreamStart n arr) s = .next t ∧
        (s.w.id = c.wave → s.w.pending.length < 8 →
          t.w.pending = s.w.pending ++ [⟨0x01, 2, c.pc, BitVec.ofNat 32 (fmt.toNat + 16 * y.active.fmt.toNat), 0⟩] ∧
          still t ∧ z t = { y with queue := q } ∧ t.mem = s.mem))) ∧
    (∀ c q fmt rows base a, y.queue = c :: q → c.op = .stream fmt rows true base → pairOk y.active.fmt fmt = true →
      winByte s c.unit 0 base = some a →
      let o := readQueue s a
      (o.tokens = 0 → exec (.mstreamStart n arr) s = .next s) ∧
      (0 < o.tokens → quiet c → ((span a 16).map (route s)).Nodup → (∀ b ∈ span a 16, physKind b ≠ some .view) →
        ∃ t, exec (.mstreamStart n arr) s = .next t ∧
        let row (i k : Nat) : Nat := leNat ((List.range (fmtSize fmt)).map fun j =>
          winGet s c.unit (o.sbase + 32 * o.ssize * o.head + (i * rowBytes y.active.sp fmt + fmtSize fmt * k + j)))
        z t = { y with queue := q, part := (z t).part } ∧ (z t).part.rows = rows ∧
        (z t).part.int = decide (y.active.fmt = 2) ∧ (z t).part.scales = y.active.scales ∧
        (∀ h < 2, ∀ i < rows, ∀ j < 64, ∀ r : Nat → Nat,
          (∀ k < if y.active.sp then 256 else 128, r k = row i k) →
          (z t).part.vals[64 * (rows * h + i) + j]? = some (halfSum y.active fmt r h j)) ∧
        still t ∧ physNat t a 16 = queueBits { o with
          tokens := o.tokens - 1, head := (o.head + 1) % max 1 o.slots, permits := o.permits + 1 } ∧
        ∀ b, (∀ x ∈ span a 16, route s x ≠ route s b) → plainByte t b = plainByte s b)) ∧
    (∀ c q tile, y.queue = c :: q → c.op = .drain tile →
      (y.part.rows = 0 → ∃ t, exec (.mdrainExecute n arr) s = .next t ∧ z t = { y with queue := q } ∧ still t ∧
        t.mem = s.mem ∧ tileOf t n tile = tileOf s n tile) ∧
      (y.part.rows ≠ 0 → (∀ u, unitOf s c.unit = some u → (ctxOf s u.ctx).any (·.dbg) = false) →
        ∃ t, exec (.mdrainExecute n arr) s = .next t ∧
        z t = { y with queue := q, part := {} } ∧ still t ∧ t.mem = s.mem ∧
        (∀ k, k ≠ tile → tileOf t n k = tileOf s n k) ∧
        ∀ i < 64, ∀ j < 64,
          let old := tileGet (tileOf s n tile) i j
          let part (h : Nat) : Word := y.part.vals.getD (64 * (y.part.rows * h + i) + j) 0
          let term (h : Nat) : Word :=
            let x := y.part.scales.getD (64 * h + j) 0x3F800000
            if x.toNat % 2 ^ 31 = 0 then 0 else (fmul rne (part h) x).1
          tileGet (tileOf t n tile) i j =
            if y.part.rows ≤ i then old
            else if y.part.int then old + part 0 + part 1
            else (fadd rne (fadd rne old (term 0)).1 (term 1)).1)) ∧
    (∀ c q tile, y.queue = c :: q →
      (c.op = .zero tile → ∃ t, exec (.tileCommandExecute n arr) s = .next t ∧ z t = { y with queue := q } ∧ still t ∧
        t.mem = s.mem ∧ (∀ k, k ≠ tile → tileOf t n k = tileOf s n k) ∧ ∀ i j, tileGet (tileOf t n tile) i j = 0) ∧
      (∀ mf base, c.op = .load tile mf base → quiet c → ∃ t, exec (.tileCommandExecute n arr) s = .next t ∧
        z t = { y with queue := q } ∧ still t ∧ t.mem = s.mem ∧ (∀ k, k ≠ tile → tileOf t n k = tileOf s n k) ∧
        ∀ i < 64, ∀ j < 64, tileGet (tileOf t n tile) i j = tileIn mf (leNat ((List.range (mfSize mf)).map fun b =>
          winGet s c.unit (base + mfSize mf * (64 * i + j) + b)))) ∧
      (∀ mf sat base pas, c.op = .store tile mf sat base → (∀ u, unitOf s c.unit = some u →
          (ctxOf s u.ctx).any (·.dbg) = false) →
        winBytes s c.unit 0 base (4096 * mfSize mf) = some pas → (pas.map (route s)).Nodup →
        ∃ t, exec (.tileCommandExecute n arr) s = .next t ∧ z t = { y with queue := q } ∧ still t ∧
          (∀ k, tileOf t n k = tileOf s n k) ∧
          pas.map (plainByte t) = (List.range 4096).flatMap (fun j =>
            leBytes (mfSize mf) (tileOut mf sat (tileGet (tileOf s n tile) (j / 64) (j % 64)))) ∧
          ∀ b, (∀ p ∈ pas, route s p ≠ route s b) → plainByte t b = plainByte s b)) ∧
    ∀ (m : MldsFlight) (at_ : DWord → Loc), y.mlds = some m → NoHazardOf s m.ctx →
      (∀ k g, elemAddr m.tr m.crd k = some g →
        engineChk s (mldsAcc m) .load g (fmtSize m.fmt) = .ok (at_ g) ∧
        (m.fmt = 5 → ∀ p ∈ (at_ g).pas, physKind p = some .view)) →
      ∃ t, exec (.mldsLand n arr) s = .next t ∧ still t ∧ t.mem = s.mem ∧
        z t = { y with shadow := (z t).shadow, mlds := none } ∧
        (z t).shadow.fmt = m.fmt ∧ (z t).shadow.sp = m.sp ∧ (z t).shadow.mta = m.mta ∧
        (m.fmt ≠ 5 → (z t).shadow.scales = []) ∧
        (m.fmt = 5 → ∀ h < 2, ∀ j < 64,
          (z t).shadow.scales[64 * h + j]? = some (viewScale s m (elemAddr m.tr m.crd (64 * h + 128 * j))).1) ∧
        ∀ k < 128, ∀ j < 64, (z t).shadow.wts[64 * k + j]? = some (BitVec.ofNat 16 (match elemAddr m.tr m.crd (k + 128 * j) with
          | none => 0
          | some g => leNat (locBytes s (mldsAcc m) (at_ g))))

/-! ### Traps and system registers -/

/-- R235, R238 to R240, R326, R437, R52, R241: taking a fault saves its cause and words, leaves the program's leaves,
registers, loop stack and memory as they stand, and enters supervisor mode at the trap entry with every present lane; in
supervisor mode it ends the context. TRAP, BKPT and an unassigned opcode take theirs; TRAP_ENTRY takes the earliest
imprecise one; a register-file error ends the context. -/
def Obligations.TrapsTaken : Prop :=
  (∀ (s : State) (f : FaultRec),
    (s.w.mode = .supervisor → takeFault s f = endContext s s.w.ctx 0x0F 0 s.w.core) ∧
    (s.w.mode ≠ .supervisor → takeFault s f = { s with w := { s.w with
      sr := { s.w.sr with trapcause := f.cause.zeroExtend 32, trapinfo0 := f.info0, trapinfo1 := f.info1,
                          trapinfo2 := f.info2, trapinfo3 := f.info3 }
      mode := .supervisor
      sup := { mask := ~~~s.w.absent, pc := match ctxOf s s.w.ctx with
        | some c => c.trapent
        | none => 0 }
      supLoops := []
      supHinge := s.w.mode = .hinge
      supFault := s.w.mode = .hinge && f.cause = 0x03
      hpc := if s.w.mode = .program then s.w.hpc else s.w.iss.first
      hwait := none
      res := if s.w.res = .stopped then .resident else s.w.res
      waitCtr := 0
      iss := { s.w.iss with fault := some f } } })) ∧
  (∀ (s : State) (h : Hdr) (code : BitVec 7),
    let e := s.w.eff h.gd
    let past : State := match s.w.iss.agent with
      | .leaf n => { s with w := { s.w with leaves := s.w.leaves.set n { s.w.leaves[n] with pc := s.w.iss.next } } }
      | _ => s
    (e = 0 → exec (.trap h code) s = .next s ∧ exec (.bkpt h code) s = .next s) ∧
    (e ≠ 0 →
      exec (.trap h code) s = .next (takeFault past ⟨BitVec.ofNat 8 (0x80 + code.toNat), e, s.w.iss.pc, 0, 0⟩) ∧
      exec (.bkpt h code) s = .next (takeFault past ⟨0x0B, BitVec.ofNat 32 code.toNat, s.w.iss.pc, e, 0⟩))) ∧
  (∀ (slot : Nat) (word next : Word), (opOf word).toNat ∈ [0x2C, 0x2D, 0x2E, 0x2F, 0x3B, 0x3C, 0x3D, 0x3E, 0x3F, 0x4B, 0x4C,
      0x4D, 0x4E, 0x4F, 0x7B, 0x7E, 0x7F] → decode slot word next = .ok (.unassignedOpcode word)) ∧
  (∀ (s : State) (word : Word), exec (.unassignedOpcode word) s = .next (takeFault s
    ⟨0x01, if word.toNat / 2 ^ 21 % 2 ^ 7 = 0x7D then 2 else 1, s.w.iss.pc, word, s.w.iss.first⟩)) ∧
  (∀ (s : State) (id : Nat) (w : Wave) (f : FaultRec) (q : List FaultRec), id ≠ 0 → waveOf s id = some w →
    w.mode = .program → w.res = .resident → w.pending = f :: q → ∃ t, exec (.trapEntry id) s = .next t ∧
      t.w = (takeFault { s with w := { w with pending := q } } f).w ∧ t.mem = s.mem ∧ t.ctxs = s.ctxs) ∧
  ∀ (s : State) (id : Nat) (w : Wave), id ≠ 0 → waveOf s id = some w →
    exec (.registerFileEccError id) s = .next (endContext s w.ctx 0x21 0 w.core)

/-- R240, R343, R102: ERET returns to the interrupted program, or to its hinge handler with the budget counted afresh,
after a hinge fault at the word %trapinfo1 names: every lane in a leaf takes its leaf's PC and is parked no more,
supervisor state goes, and the rest stays. Overlapping leaves or a leaf with an absent lane end the context; with no
present lane the wave retires. -/
def Obligations.TrapReturn : Prop :=
  ∀ (s : State) (ch : Bool),
    let placed (l : Fin 32) : Prop := ∃ n : Fin 4, s.w.leaves[n].mask.getLsbD l = true
    (~~~s.w.absent ≠ 0 → (∃ i j : Fin 4, i < j ∧ s.w.leaves[i].mask &&& s.w.leaves[j].mask ≠ 0) →
      exec (.eret ch) s = .next (endContext s s.w.ctx 0x0F 0 s.w.core)) ∧
    (~~~s.w.absent ≠ 0 → (∃ i : Fin 4, s.w.leaves[i].mask &&& s.w.absent ≠ 0) →
      exec (.eret ch) s = .next (endContext s s.w.ctx 0x0F 0 s.w.core)) ∧
    (~~~s.w.absent ≠ 0 → (∀ i j : Fin 4, i < j → s.w.leaves[i].mask &&& s.w.leaves[j].mask = 0) →
      (∀ i : Fin 4, s.w.leaves[i].mask &&& s.w.absent = 0) → ∃ t, exec (.eret ch) s = .next t ∧
      t = { s with w := { s.w with
        lpc := t.w.lpc, fparked := t.w.fparked, sup := {}, supLoops := [], supHinge := false, supFault := false
        hpc := if s.w.supFault then s.w.sr.trapinfo1 else s.w.hpc
        mode := if s.w.supHinge then .hinge else .program
        hcount := if s.w.supHinge then 0 else s.w.hcount } } ∧
      ∀ l : Fin 32, (placed l → t.w.fparked.getLsbD l = false) ∧
        (¬placed l → t.w.fparked.getLsbD l = s.w.fparked.getLsbD l ∧ t.w.lpc[l] = s.w.lpc[l]) ∧
        ∀ n : Fin 4, s.w.leaves[n].mask.getLsbD l = true → t.w.lpc[l] = s.w.leaves[n].pc) ∧
    (~~~s.w.absent = 0 → s.w.id ≠ 0 → ∃ t, exec (.eret ch) s = .next t ∧ t.w = {} ∧ t.mem = s.mem ∧
      t.others = s.others.filter fun w => w.id ≠ s.w.id)

/-- R65, R66, R67, R435, R436, R176: SYSR of a number the decoder admits completes: it writes the register's value to sD, a
read of %scope moving its index on. SYSW completes: it stores what the register keeps of its operand, and into a read-only
or reserved number nothing. The decoder refuses numbers not listed, writes of read-only registers, of the event registers
outside hinge mode and of supervisor registers outside supervisor mode, a destination or source outside its role, and in
hinge mode every number past 0x06. That a privilege fault comes before an operand's is log 52; the cost words of the
discovery table are the full package's in every partition (log 46). -/
def Obligations.SystemRegisterResults : Prop :=
  (∀ (s : State) (ch : Bool) (r : Fin 32) (num : BitVec 7), ∃ x : Word,
    exec (.sysr ch (.s r) num) s = .next (withScalar (if num = 0x15 then
      { s with w := { s.w with sr := { s.w.sr with scope := s.w.sr.scope + 1 } } } else s) r x) ∧
    let q := s.w.sr
    let reads (n : BitVec 7) (v : Word) : Prop := num = n → x = v
    reads 0x00 q.hinge ∧ reads 0x01 q.patience ∧ reads 0x02 q.budget ∧ reads 0x03 q.evcause ∧ reads 0x04 q.evpc0 ∧
    reads 0x05 q.evpc1 ∧ reads 0x06 q.evleaf ∧ reads 0x08 q.round ∧ reads 0x09 q.fstat ∧ reads 0x10 q.wave ∧
    reads 0x11 q.wg ∧ reads 0x12 q.nbhd ∧ reads 0x13 (BitVec.ofNat 32 s.w.core) ∧
    reads 0x14 (BitVec.ofNat 32 (((s.config.map (·.pkg.toNat)).getD 0) * 2 ^ 17 + s.w.core.val / 192 * 2 ^ 16 +
      s.w.core.val / 48 * 2 ^ 13 + s.w.core.val / 24 * 2 ^ 9 + s.w.core.val)) ∧
    reads 0x15 (discovery s s.w q.scope.toNat) ∧ reads 0x18 (s.clk.setWidth 32) ∧
    reads 0x19 (BitVec.ofNat 32 (s.clk.toNat + (coreOf s s.w.core).lead)) ∧ reads 0x40 q.ctx ∧ reads 0x41 q.asid ∧
    reads 0x42 q.trapcause ∧ reads 0x43 q.trapinfo0 ∧ reads 0x44 q.trapinfo1 ∧ reads 0x45 q.trapinfo2 ∧
    reads 0x46 q.trapinfo3) ∧
  (∀ (s : State) (ch : Bool) (num : BitVec 7) (a : Operand), ∃ q : SysRegs,
    exec (.sysw ch num a) s = .next { s with w := { s.w with sr := q } } ∧
    let o := s.w.sr
    let x := scalarVal s.w a
    let keeps (n : BitVec 7) (v : SysRegs) : Prop := num = n → q = v
    keeps 0x00 { o with hinge := x &&& 0xFFFFFFFC } ∧ keeps 0x01 { o with patience := BitVec.ofNat 32 (max x.toNat 256) } ∧
    keeps 0x02 { o with budget := BitVec.ofNat 32 (max (x.toNat % 2 ^ 16) 16) } ∧
    keeps 0x03 { o with evcause := if x.toNat / 2 ^ 31 = 1 then o.evcause &&& 0x7FFFFFFF else o.evcause } ∧
    keeps 0x04 { o with evpc0 := x } ∧ keeps 0x05 { o with evpc1 := x } ∧ keeps 0x06 { o with evleaf := x &&& 3 } ∧
    keeps 0x08 { o with round := x &&& 7 } ∧ keeps 0x09 { o with fstat := x &&& 0x1F } ∧ keeps 0x15 { o with scope := x } ∧
    keeps 0x40 { o with ctx := x } ∧ keeps 0x41 { o with asid := x &&& 0x7FF } ∧
    keeps 0x42 { o with trapcause := x &&& 0xFF } ∧ keeps 0x43 { o with trapinfo0 := x } ∧
    keeps 0x44 { o with trapinfo1 := x } ∧ keeps 0x45 { o with trapinfo2 := x } ∧ keeps 0x46 { o with trapinfo3 := x } ∧
    (num.toNat ∉ [0x00, 0x01, 0x02, 0x03, 0x04, 0x05, 0x06, 0x08, 0x09, 0x15, 0x40, 0x41, 0x42, 0x43, 0x44, 0x45, 0x46] →
      q = o)) ∧
  (∀ (ch : Bool) (num : BitVec 7) (d a : Operand),
    let known : Prop := num.toNat ∈ [0x00, 0x01, 0x02, 0x03, 0x04, 0x05, 0x06, 0x08, 0x09, 0x10, 0x11, 0x12, 0x13, 0x14, 0x15,
      0x18, 0x19, 0x40, 0x41, 0x42, 0x43, 0x44, 0x45, 0x46]
    let supervisors : Prop := num.toNat ∈ [0x40, 0x41, 0x42, 0x43, 0x44, 0x45, 0x46]
    (6 < num.toNat → checkFault .hinge (.sysr ch d num) = some (0x03, 4) ∧
      checkFault .hinge (.sysw ch num a) = some (0x03, 4)) ∧
    (∀ m : Mode, m ≠ .hinge →
      (¬known → checkFault m (.sysr ch d num) = some (0x01, 3) ∧ checkFault m (.sysw ch num a) = some (0x01, 3)) ∧
      (supervisors → m = .program →
        checkFault m (.sysr ch d num) = some (0x01, 6) ∧ checkFault m (.sysw ch num a) = some (0x01, 6)) ∧
      (num.toNat ∈ [0x04, 0x05, 0x06, 0x10, 0x11, 0x12, 0x13, 0x14, 0x18, 0x19] →
        checkFault m (.sysw ch num a) = some (0x01, 6)) ∧
      (known → (supervisors → m = .supervisor) →
        ((∃ r, d = .s r) → checkFault m (.sysr ch d num) = none) ∧
        ((∀ r, d ≠ .s r) → checkFault m (.sysr ch d num) = some (0x01, 4))))) ∧
  ∀ (s : State) (w : Wave), discovery s w 0 = 0x00010128 ∧ discovery s w 1 = 0 ∧ (∀ i, 296 ≤ i → discovery s w i = 0) ∧
    (∀ i < 12, discovery s w (284 + i) = (match s.config with
      | some c => c.cores
      | none => BitVec.allOnes 384).extractLsb' (32 * i) 32) ∧
    ∀ b < 6, ∀ a < 6, ∀ k < 7, discovery s w (32 + 7 * (6 * b + a) + k) = match fenceCost b a k with
      | some n => BitVec.ofNat 32 n
      | none => 0xFFFFFFFF

/-- R402, R335, R405, R311, R423, R406, R232: NOP; CLK writes a pair with the package cycle count or the core's logical
time; PMON writes the low word of a counter, a free value where the count is open (log 7); SLEEP waits for its cycles;
PPOINT puts its live set on record, and stops its workgroup where a switch-out is wanted and arrays are live: a wave that
runs its program stops, one in a handler goes on. -/
def Obligations.TimeAndPreemptionResults : Prop :=
  (∀ (s : State) (ch : Bool), exec (.nop ch) s = .next s) ∧
  (∀ (s : State) (ch : Bool) (r r' : Fin 32) (sel : Bool), r'.val = r.val + 1 →
    let x : DWord := if sel then BitVec.ofNat 64 (s.clk.toNat + (coreOf s s.w.core).lead) else s.clk
    exec (.clk ch (.s r) sel) s = .next (withScalar (withScalar s r (x.setWidth 32)) r'
      (BitVec.ofNat 32 (x.toNat / 2 ^ 32)))) ∧
  (∀ (s : State) (ch : Bool) (r : Fin 32) (n : Fin 4), ∃ x,
    exec (.pmon ch (.s r) n) s = .next (withScalar { s with freeCtr := s.freeCtr + 1 } r x) ∧
    (freeEvent ((coreOf s s.w.core).ctl[n].extractLsb' 0 6) = false ∨ (coreOf s s.w.core).ctl[n].getLsbD 6 = false →
      x = ((coreOf s s.w.core).cnt[n]).setWidth 32)) ∧
  (∀ (s : State) (ch : Bool) (a : Operand),
    (scalarVal s.w a = 0 → exec (.sleep ch a) s = .next s) ∧
    (scalarVal s.w a ≠ 0 → exec (.sleep ch a) s = .next { s with
      w := agentWaits s.w (.sleep (s.clk.toNat + (scalarVal s.w a).toNat)) s.w.iss.next 0 })) ∧
  ∀ (s : State) (h : Hdr) (lit : Word) (u : GangUnit) (m : Member),
    ((s.w.eff h.gd = 0 ∨ s.w.task = true) → exec (.ppoint h lit) s = .next s) ∧
    (s.w.eff h.gd ≠ 0 → s.w.task = false → unitOf s s.w.unit = some u → u.members[s.w.member]? = some m →
      ∃ t, exec (.ppoint h lit) s = .next t ∧
      (∃ u' m', unitOf t s.w.unit = some u' ∧ u'.members[s.w.member]? = some m' ∧ m'.ppoint = lit ∧
        u' = { u with members := u'.members } ∧
        (∀ j, j ≠ s.w.member → u'.members[j]? = u.members[j]?) ∧
        m' = { m with ppoint := lit, stopped := m'.stopped, full := m'.full } ∧
        (u.preempt = none ∨ m.live = false ∨ s.w.mode = .supervisor →
          m' = { m with ppoint := lit } ∧ t.w = s.w ∧ t.others = s.others) ∧
        (u.preempt ≠ none → m.live = true → s.w.mode ≠ .supervisor → m'.stopped = true ∧
          (s.w.id ≠ 0 → s.w.res = .resident → s.w.mode = .program → t.w = { s.w with res := .stopped }) ∧
          (s.w.mode = .hinge → t.w = s.w))) ∧
      t = { s with w := t.w, others := t.others, units := t.units, cores := t.cores })

/-! ### Waits, turns and hinge events -/

/-- R77, R182, R183, R208, R411, R292, R423, R172, R158, R163: what ends each wait of a leaf. A latch or queue waiter
whose monitor a write has met issues its word again; a WAITC goes on at the next word, its core's time not below the
write's; a SPAWN issues again once its ring has room, or makes its one enqueue and goes on if its count has grown; a
SLEEP goes on at its time, a FENCEX when all it waits for is done and its cost spent, its core's time then not below its
accesses'. A word held whole for an exchange parks its lanes after 256 CCLK, or issues again. Which writes meet a
monitor is the model's reading (log 27). -/
def Obligations.WaitsEnd : Prop :=
  ∀ (s : State) (id : Nat) (w : Wave) (n : Fin 4) (x : Wait), id ≠ 0 → waveOf s id = some w →
    w.leaves[n].wait = some x →
    let again : Wave := { w with leaves := w.leaves.set n { w.leaves[n] with wait := none } }
    let onward : Wave :=
      { w with leaves := w.leaves.set n { w.leaves[n] with pc := x.next, wait := none, bound := none } }
    let met : Prop := ∃ m ∈ s.monitors, m.wave = id ∧ m.leaf = some n ∧ m.woken = true
    let at_ : Nat := wokenTime s id (some n)
    let ends (i : Instr) (w' : Wave) : Prop := ∃ t, exec i s = .next t ∧ waveOf t id = some w'.checkStarved ∧
      t.mem = s.mem ∧ t.monitors = (s.monitors.filter fun m => ¬(m.wave = id ∧ m.leaf = some n)) ∧
      (∀ j, j ≠ id → waveOf t j = waveOf s j) ∧
      (x.kind = .monitor → ltOf t w.core = max (ltOf s w.core) at_)
    (x.kind = .latch → (met → ends (.lwaitWakeup id n) again) ∧ (¬met → exec (.lwaitWakeup id n) s = .next s)) ∧
    (x.kind = .queue → (met → ends (.queueWaiterRetry id n) again) ∧
      (¬met → exec (.queueWaiterRetry id n) s = .next s)) ∧
    (x.kind = .monitor → (met → ends (.monitorWakeup id n) { onward with lastTime := BitVec.ofNat 64 (max w.lastTime.toNat at_) } ∧
        (∃ m ∈ s.monitors, m.wave = id ∧ m.leaf = some n ∧ m.woken = true ∧ m.at_ = at_) ∧
        ∀ m ∈ s.monitors, m.wave = id → m.leaf = some n → m.woken = true → m.at_ ≤ at_) ∧
      (¬met → exec (.monitorWakeup id n) s = .next s)) ∧
    (x.kind = .spawn →
      (ringFull s (chipOf w.core) w.ctx = true → exec (.spawnRingResume id n) s = .next (focus s id)) ∧
      (ringFull s (chipOf w.core) w.ctx = false →
        exec (.spawnRingResume id n) s = .next { focus s id with w := again.checkStarved })) ∧
    (∀ c, x.kind = .tret 0 [.child c] → w.mode = .program →
      let chip := chipOf w.core
      let u := enqueue (focus s id) chip w.ctx { c with time := BitVec.ofNat 64 (ltOf s w.core) }
      (ringFull s chip w.ctx = true → exec (.spawnRingResume id n) s =
        .next { focus s id with w := { w with iss := {} } }) ∧
      (ringFull s chip w.ctx = false → exec (.spawnRingResume id n) s = .next
        { u with w := { ({ w with leaves := w.leaves.set n { w.leaves[n] with pc := x.next, wait := none } } : Wave).checkStarved
                        with iss := {} } })) ∧
    (∀ ends, x.kind = .sleep ends →
      (s.clk.toNat < ends → exec (.sleepExpiry id n) s = .next (setWave s w)) ∧
      (ends ≤ s.clk.toNat → exec (.sleepExpiry id n) s = .next (setWave s onward))) ∧
    (∀ xs ms m0 m1 pods ends scope before after lanes, x.kind = .fencex xs ms m0 m1 pods ends scope before after lanes →
      ((m0 ≠ 0 ∨ m1 ≠ 0 ∨ s.clk.toNat < ends ∨ (∃ i ∈ xs, stillMoving s i = true) ∨ (∃ i ∈ ms, stillLoading s i = true) ∨
          ∃ i ∈ pods, ∃ p ∈ s.pods, p.id = i) → exec (.fencexRetire id n) s = .next s) ∧
      (m0 = 0 → m1 = 0 → ends ≤ s.clk.toNat → (∀ i ∈ xs, stillMoving s i = false) →
        (∀ i ∈ ms, stillLoading s i = false) → (∀ i ∈ pods, ∀ p ∈ s.pods, p.id ≠ i) →
        ∃ t, exec (.fencexRetire id n) s = .next t ∧ waveOf t id = some onward ∧ t.mem = s.mem ∧
          (∀ j, j ≠ id → waveOf t j = waveOf s j) ∧ ltOf s w.core ≤ ltOf t w.core ∧
          ∀ p ∈ w.perf, before.getLsbD p.cls = true → lanes.getLsbD p.leader = true → p.scope ≤ scope.toNat →
            p.time ≤ ltOf t w.core)) ∧
    ∀ m since, x.kind = .mov m since → (∀ h ∈ w.held, h.leaf ≠ n) → w.hwait = none →
      let fresh := m &&& ~~~askedLanes s id
      ((∀ y ∈ s.moved, y.core ≠ w.core) → exec (.atomicMovedReissue id n) s = .next { focus s id with w := again }) ∧
      (s.clk.toNat < since + 256 →
        exec (.movWaitTimeout id n) s = .next { focus s id with w := w.checkStarved }) ∧
      (since + 256 ≤ s.clk.toNat → ∃ t w', exec (.movWaitTimeout id n) s = .next t ∧ waveOf t id = some w' ∧
        t.mem = s.mem ∧ t.services = (if fresh = 0 then s.services else s.services ++ [⟨id, fresh, 2⟩]) ∧ w'.r = w.r ∧
        w'.leaves[n] = { w.leaves[n] with mask := w.leaves[n].mask &&& ~~~(m &&& ~~~w.absent), wait := none } ∧
        ∀ l : Fin 32, m.getLsbD l = true → w.leaves[n].mask.getLsbD l = true → w.absent.getLsbD l = false →
          w'.fparked.getLsbD l = true ∧ w'.reason[l] = 2 ∧ w'.faultLf[l] = n ∧ w'.lpc[l] = w.leaves[n].pc)

/-- R96, R97: the event raised first is delivered: its lanes leave every leaf, those whose leaf sent them on already keeping
their offsets; the captured values stand in k14, k15 and the event registers, the overrun bit staying; the handler begins at
%hinge with nothing counted. Imprecise faults and a placement by the override go first (R92, R237). How the raise order is
counted is the model's (log 38). -/
def Obligations.EventDelivery : Prop :=
  (∀ (w : Wave) (slot : Option (Fin 4)) (e : Event), w.earliest = some (slot, e) →
    (slot = none → w.starve = some e) ∧ (∀ n, slot = some n → w.leaves[n].pend = some e) ∧
    (∀ (n : Fin 4) (e' : Event), w.leaves[n].pend = some e' → e.order ≤ e'.order) ∧ ∀ e', w.starve = some e' → e.order ≤ e'.order) ∧
  ∀ (s : State) (id : Nat) (w : Wave) (slot : Option (Fin 4)) (e : Event), id ≠ 0 → waveOf s id = some w →
    w.mode = .program → w.res = .resident → w.override = false → w.pending = [] → w.overrideDue = false →
    w.earliest = some (slot, e) →
    let m := e.mask &&& ~~~w.absent
    ∃ t, exec (.eventDelivery id) s = .next t ∧ t.mem = s.mem ∧ t.w.id = id ∧ t.w.mode = .hinge ∧
      t.w.hpc = w.sr.hinge ∧ t.w.hcount = 0 ∧ t.w.rot = e.leaf ∧ t.w.loops = w.loops ∧ t.w.cur = w.cur ∧
      t.w.r = { w.r with k := (w.r.k.set 14 e.k14).set 15 e.k15 } ∧
      t.w.sr = { w.sr with evpc0 := e.pc0, evpc1 := e.pc1, evleaf := BitVec.ofNat 32 e.leaf.val, evcause := t.w.sr.evcause } ∧
      t.w.sr.evcause.toNat = w.sr.evcause.toNat / 2 ^ 31 * 2 ^ 31 + e.cause.toNat ∧
      (∀ n : Fin 4, t.w.leaves[n].mask = w.leaves[n].mask &&& ~~~m ∧ t.w.leaves[n].pc = w.leaves[n].pc ∧
        t.w.leaves[n].held = w.leaves[n].held ∧
        t.w.leaves[n].join = if e.cause = 3 ∧ n = e.leaf then 0xFFFFFFFF else w.leaves[n].join) ∧
      (slot = none → e.at104 = true → t.w.seq104 = e.mask) ∧
      (e.cause = 6 → t.w.notified = w.notified ||| m) ∧ (e.cause ≠ 6 → t.w.notified = w.notified) ∧
      ∀ l : Fin 32, t.w.lpc[l] =
        if m.getLsbD l = true ∧ e.cause ≠ 1 ∧ e.cause ≠ 2 then laneOffset w l else w.lpc[l]

/-- R88, R92, R95, R96, R237: a leaf's turn, once nothing goes ahead of it and the order offers this leaf; else nothing
happens. After a placement by the override leaf 3 skips the first two checks. Its orphans not yet notified raise an
event, else reaching its join does, else a loop's end does unless the leaf holds every present lane of the entry: then
the body begins again with one pass less, or the entry is popped and the next one is met. Otherwise the turn changes
nothing, and never a register or memory. -/
def Obligations.LeafTurnChecks : Prop :=
  ∀ (s : State) (id : Nat) (w : Wave) (n : Fin 4), id ≠ 0 → waveOf s id = some w → w.mode = .program →
    w.res = .resident →
    (w.offered ≠ some n ∨ w.turnFree = false → exec (.leafTurn id n) s = .next (focus s id)) ∧
    (w.offered = some n → w.turnFree = true → w.override = true → n = 3 →
      (∀ e q, w.loops = e :: q → w.leaves[n].pc ≠ e.finish + 4) →
      exec (.leafTurn id n) s = .next { focus s id with w := w }) ∧
    (w.offered = some n → w.turnFree = true → w.override = false →
    let lf := w.leaves[n]
    let fresh := lf.mask &&& w.orphan &&& ~~~w.notified
    let joined : Prop := lf.join.toNat % 4 = 0 ∧ lf.pc = lf.join
    ∃ t, exec (.leafTurn id n) s = .next t ∧ t.mem = s.mem ∧ t.w.id = id ∧ t.w.r.v = w.r.v ∧ t.w.r.s = w.r.s ∧
      (w.earliest = none →
        (fresh ≠ 0 → t.w.mode = .hinge ∧ t.w.sr.evcause.toNat % 8 = 6 ∧ t.w.r.k[14] = fresh ∧ t.w.sr.evpc0 = lf.pc) ∧
        (fresh = 0 → joined → t.w.mode = .hinge ∧ t.w.sr.evcause.toNat % 8 = 3 ∧ t.w.r.k[14] = lf.mask ∧
          t.w.sr.evpc0 = lf.pc ∧ t.w.sr.evpc1 = lf.join)) ∧
      (fresh = 0 → ¬joined → ∀ e q, w.loops = e :: q → lf.pc = e.finish + 4 →
        (lf.mask ≠ e.mask &&& ~~~w.absent → w.earliest = none → t.w.mode = .hinge ∧ t.w.sr.evcause.toNat % 8 = 3 ∧
          t.w.r.k[14] = lf.mask ∧ t.w.sr.evpc1 = 0xFFFFFFFF) ∧
        (lf.mask = e.mask &&& ~~~w.absent → e.count ≠ 1 → t.w = { w with
          loops := { e with count := e.count - 1 } :: q, leaves := w.leaves.set n { lf with pc := e.start } }) ∧
        (lf.mask = e.mask &&& ~~~w.absent → e.count = 1 → q = [] → t.w = { w with loops := [] })) ∧
      (fresh = 0 → ¬joined → (∀ e q, w.loops = e :: q → lf.pc ≠ e.finish + 4) → t.w = w))

/-- R78, R83, R92, R99, R103, R105: an idle cycle adds one to the counters of counting lanes, up to twice %patience; a
lane whose counter has reached %patience enters the starve event once; an override brings the lowest offset's starved
lanes into leaf 3, counters zeroed and the overrun bit set; a spent budget is hinge fault 3; an aged wave issues next. -/
def Obligations.PatienceResults : Prop :=
  ∀ (s : State) (id : Nat) (w : Wave), id ≠ 0 → waveOf s id = some w →
    (w.idles = true → w.mode = .program → ∃ t, exec (.idleIssueCycle id) s = .next t ∧ t.mem = s.mem ∧ t.w.r = w.r ∧
      t.w.leaves = w.leaves ∧ t.w.idle = w.idle - 32 ∧ ∀ l : Fin 32, t.w.park[l] =
        if (countingLanes w).getLsbD l = true ∧ w.park[l].toNat < 2 * w.sr.patience.toNat then w.park[l] + 1
        else w.park[l]) ∧
    (let m : Mask := w.counts &&& ~~~w.starved &&& maskWhere fun l => w.sr.patience.toNat ≤ w.park[l].toNat
     (m ≠ 0 → w.starve = none → ∃ t, exec (.starveStage1 id) s = .next t ∧ t.mem = s.mem ∧
       t.w = { w with
         starved := w.starved ||| m
         starve := some { cause := 4, mask := m, k14 := m, pc0 := leastOffset w m, leaf := 0, order := w.evOrder }
         evOrder := w.evOrder + 1 }) ∧
     (m ≠ 0 → ∀ e, w.starve = some e → ∃ t, exec (.starveStage1 id) s = .next t ∧ t.mem = s.mem ∧
       t.w = { w with
         starved := w.starved ||| m
         starve := some { e with
           mask := e.mask ||| m, k14 := e.mask ||| m, pc0 := leastOffset w (e.mask ||| m) } }) ∧
     (m = 0 → ∃ t, exec (.starveStage1 id) s = .next t ∧ t.w = w)) ∧
    (w.res = .resident → w.mode = .program → w.override = false → w.pending = [] →
      let m := w.overrideMask
      let pc := leastOffset w m
      let g : Mask := maskWhere fun l => m.getLsbD l && laneOffset w l = pc
      m ≠ 0 → ∃ t, exec (.starvationOverride id) s = .next t ∧ t.mem = s.mem ∧ t.w.r = w.r ∧ t.w.override = true ∧
        t.w.sr = { w.sr with evcause := w.sr.evcause ||| 0x80000000 } ∧ t.w.mode = .program ∧
        t.w.leaves[(3 : Fin 4)].held = false ∧ t.w.leaves[(3 : Fin 4)].pc = pc ∧
        ∀ l : Fin 32, g.getLsbD l = true → t.w.leaves[(3 : Fin 4)].mask.getLsbD l = true ∧ t.w.park[l] = 0) ∧
    (w.mode = .hinge → w.res = .resident → overBudget (focus s id) = true →
      ∃ t, exec (.hingeBudgetExceeded id) s = .next t ∧ t.mem = s.mem ∧ t.w.mode = .supervisor ∧ t.w.r = w.r ∧
        t.w.leaves = w.leaves ∧ t.w.hpc = w.hpc ∧
        t.w.sr = { w.sr with trapcause := 0x03, trapinfo0 := 3, trapinfo1 := w.hpc, trapinfo2 := w.sr.evcause,
                             trapinfo3 := 0 }) ∧
    (32 ≤ w.waitCtr → w.ready = true → ∃ t, exec (.waveAged id) s = .next t ∧ t.w = w ∧
      t = { s with w := t.w, others := t.others } ∧ ∀ j, j ≠ 0 → waveOf t j = waveOf s j)

/-! ### Homes, pages and poison -/

/-- R165, R161, R241, R106, R162, R163, R314: a load at its home gets a lease of 16 to 4,096 past its core's time; a
store takes a time past every lease and its bytes stand in memory, a replay's units being captured first; a request's
atomics fold in lane order. A request for a frame under exchange stalls until its line is copied; then a load or store
goes where its line lies now, and an atomic is answered "moved" and translated and checked again before it is sent
there. A reply raises its core's time alone. A shoot-down raises the sequence number and drops the TLB entries of its
range; an uncorrectable error poisons its line. An address where nothing is (log 53) is a fault of the model. Serviced
lanes of a leaf are parked no more and get one resume event. An exchange sets MOV in both entries and shoots them down;
its lines change places as they are copied, not while the link they need is down (log 28); when all are, the entries'
frames and FAR bits have changed places, MOV and DIRTY are clear, and the exchange is over. What else an exchange moves
is the model's reading (log 10). -/
def Obligations.HomeAndPageResults : Prop :=
  ((∀ (s : State) (c : Fin 384) (a n : Nat), thereAt s a = true → laneHome (span a n) = true →
    (∀ b ∈ span a n, exchangeOf s b = none) → ∃ t, exec (.laneAccessAtHome c (.load a n)) s = .next t ∧
      t = { s with lines := t.lines, freeCtr := t.freeCtr, chips := t.chips } ∧
      (∀ i < n, let l := homeLine s (a + i)
        (lineOf t l).wts = (lineOf s l).wts ∧ ltOf s c + 16 ≤ (lineOf t l).rts ∧ (lineOf s l).rts ≤ (lineOf t l).rts ∧
        (lineOf t l).rts ≤ max (max (lineOf s l).wts (lineOf s l).rts) (ltOf s c + 4096)) ∧
      ∀ l, (∀ i < n, l ≠ homeLine s (a + i)) → lineOf t l = lineOf s l) ∧
  (∀ (s : State) (c : Fin 384) (a : Nat) (bs : List Byte), thereAt s a = true →
    storeHome (span a bs.length) = true → (∀ b ∈ span a bs.length, exchangeOf s b = none) →
    ((span a bs.length).map (route s)).Nodup →
    ∃ t, exec (.laneAccessAtHome c (.store a bs)) s = .next t ∧
      t = { s with mem := t.mem, monitors := t.monitors, lines := t.lines, slots := t.slots } ∧
      ((∀ x ∈ s.slots, x.replay = none) → t.slots = s.slots) ∧
      (span a bs.length).map (plainByte t) = bs ∧
      (∀ b, (∀ i < bs.length, route s (a + i) ≠ route s b) → plainByte t b = plainByte s b) ∧
      ∀ i < bs.length, let l := homeLine s (a + i)
        (lineOf s l).rts < (lineOf t l).wts ∧ ltOf s c ≤ (lineOf t l).wts ∧ (lineOf t l).rts = (lineOf t l).wts) ∧
  (∀ (s : State) (c : Fin 384) (a : Nat) (op : BitVec 4) (data : List DWord), thereAt s a = true →
    storeHome (span a 4) = true → (∀ b ∈ span a 4, exchangeOf s b = none) → ((span a 4).map (route s)).Nodup →
    ∃ t, exec (.laneAccessAtHome c (.atomic a op data)) s = .next t ∧
      t = { s with mem := t.mem, monitors := t.monitors, lines := t.lines, slots := t.slots } ∧
      wordOf t (span a 4) = data.foldl (fun v d => atomFn op v (d.setWidth 32) (BitVec.ofNat 32 (d.toNat / 2 ^ 32)))
        (wordOf s (span a 4)) ∧
      ∀ b, (∀ i < 4, route s (a + i) ≠ route s b) → plainByte t b = plainByte s b) ∧
  (∀ (s : State) (c : Fin 384) (req : HomeReq), thereAt s (reqAddr req) = true →
    (∃ b ∈ reqBytes req, exchangeOf s b ≠ none) →
    ((∀ y, exchangeOf s (reqAddr req) = some y → y.x.done ≤ y.ofs / 128) →
      exec (.laneAccessAtHome c req) s = .next { s with stalled := s.stalled ++ [⟨c, req⟩] }) ∧
    (∀ y, exchangeOf s (reqAddr req) = some y → y.ofs / 128 < y.x.done →
      (∀ a op data, req = .atomic a op data →
        exec (.laneAccessAtHome c req) s = .next { s with moved := s.moved ++ [⟨c, y.pte, y.ofs, req⟩] }) ∧
      ((∀ a op data, req ≠ .atomic a op data) →
        exec (.laneAccessAtHome c req) s = .next (atHome s c (reqMove req y.other))))) ∧
  (∀ (s : State) (id : Nat) (w : Wave) (n : Fin 4) (x : Moved), id ≠ 0 → waveOf s id = some w → s.moved = [x] →
    x.core = w.core →
    let e := physNat s x.pte 8
    let pa := e / 2 ^ 16 % 2 ^ 36 * 2 ^ 16 + x.ofs
    (e % 2 = 1 → e / 2 ^ 10 % 2 = 1 → exec (.atomicMovedReissue id n) s = .next (focus s id)) ∧
    (e % 2 = 1 → e / 2 ^ 10 % 2 = 0 → leafMiss true .atomic false e pa = none → thereAt s pa = true →
      exec (.atomicMovedReissue id n) s =
        exec (.laneAccessAtHome x.core (reqMove x.req pa)) { focus s id with moved := [] }) ∧
    (e / 2 ^ 10 % 2 = 0 → (e % 2 = 0 ∨ leafMiss true .atomic false e pa ≠ none) →
      exec (.atomicMovedReissue id n) s = .next { focus s id with moved := [] })) ∧
  (∀ (s : State) (c : Fin 384) (req : HomeReq), thereAt s (reqAddr req) = false →
    exec (.laneAccessAtHome c req) s = .fault (.unmappedPhysical (reqAddr req))) ∧
  (∀ (s : State) (c : Fin 384) (time : Nat), ∃ t, exec (.laneAccessReply c time) s = .next t ∧
    t = { s with cores := t.cores } ∧ ltOf t c = max (ltOf s c) time ∧ ∀ d, d ≠ c → coreOf t d = coreOf s d) ∧
  (∀ (s : State) (asid : BitVec 11) (lo hi : Nat), exec (.shootDown asid lo hi) s = .next { s with
    shootSeq := s.shootSeq + 1
    tlb := s.tlb.filter fun t => ¬(t.asid = asid ∧ t.va < hi ∧ lo < t.va + 2 ^ leafBits t.level) }) ∧
  ∀ (s : State) (line : Nat),
    (line ∈ s.poisoned → exec (.linePoisoned line) s = .next s) ∧
    (line ∉ s.poisoned → exec (.linePoisoned line) s = .next { s with poisoned := s.poisoned ++ [line] })) ∧
  (∀ (s : State) (id : Nat) (w : Wave) (m : Mask) (n : Fin 4), id ≠ 0 → waveOf s id = some w →
    m &&& w.fparked ≠ 0 → w.leaves[n].pend = none →
    (∀ l : Fin 32, m.getLsbD l = true → w.fparked.getLsbD l = true → w.faultLf[l] = n) →
    ∃ t w' e, exec (.pageFaultServiceComplete id m) s = .next t ∧ waveOf t id = some w' ∧ t.mem = s.mem ∧
      w'.r = w.r ∧ w'.cur = w.cur ∧ w'.mode = w.mode ∧ w'.fparked = w.fparked &&& ~~~m ∧
      w'.leaves[n].pend = some e ∧ e.cause = 5 ∧ e.mask = m &&& w.fparked ∧ e.k14 = m &&& w.fparked ∧ e.leaf = n ∧
      (∀ j : Fin 4, w'.leaves[j].mask = w.leaves[j].mask ∧ w'.leaves[j].pc = w.leaves[j].pc ∧
        (j ≠ n → w'.leaves[j].pend = w.leaves[j].pend)) ∧
      t.services = ((s.services.map fun x => if x.wave = id then { x with lanes := x.lanes &&& ~~~m } else x).filter
        fun x => x.wave ≠ id ∨ x.lanes ≠ 0)) ∧
  (∀ (s : State) (near far : Nat) (big : Bool),
    (thereAt s near = false → exec (.pageExchangeStart near far big) s = .fault (.unmappedPhysical near)) ∧
    (thereAt s near = true → thereAt s far = false →
      exec (.pageExchangeStart near far big) s = .fault (.unmappedPhysical far)) ∧
    (exchangeOk s near far big = false → thereAt s near = true → thereAt s far = true →
      exec (.pageExchangeStart near far big) s = .next s) ∧
    (exchangeOk s near far big = true → thereAt s near = true → thereAt s far = true →
      (∀ i < 8, physKind (near + i) = some .hbm ∧ physKind (far + i) = some .hbm) →
      ((span near 8 ++ span far 8).map (route s)).Nodup →
      ∃ t, exec (.pageExchangeStart near far big) s = .next t ∧
        t = { s with mem := t.mem, monitors := t.monitors, lines := t.lines, shootSeq := s.shootSeq + 2,
                     tlb := s.tlb.filter fun x => ¬(x.pte = near ∨ x.pte = far)
                     exchanges := s.exchanges ++ [⟨near, far, big, s.clk.toNat, 0⟩] } ∧
        physNat t near 8 = physNat s near 8 + 2 ^ 10 ∧ physNat t far 8 = physNat s far 8 + 2 ^ 10 ∧
        (lineOf s (homeLine s near)).rts < (lineOf t (homeLine s near)).wts ∧
        (lineOf s (homeLine s far)).rts < (lineOf t (homeLine s far)).wts ∧
        ∀ b, (∀ i < 8, route s (near + i) ≠ route s b ∧ route s (far + i) ≠ route s b) →
          plainByte t b = plainByte s b)) ∧
  (∀ (s : State) (x : Exchange) (k : Nat),
    let a := physNat s x.near 8 / 2 ^ 16 % 2 ^ 36 * 2 ^ 16
    let b := physNat s x.far 8 / 2 ^ 16 % 2 ^ 36 * 2 ^ 16
    let size := if x.big then 2 ^ 21 else 2 ^ 16
    let m := min k (size / 128 - x.done)
    let here (o : Nat) : Prop := 128 * x.done ≤ o ∧ o < 128 * (x.done + m)
    ((m = 0 ∨ linkHolds s [a, b] = true) → copyLines s x k = s) ∧
    (m ≠ 0 → linkHolds s [a, b] = false → memWf s.mem = true → s.stalled = [] → (∀ c ∈ s.ctxs, c.vers = []) →
      (∀ u ∈ s.units, ∀ v ∈ u.members, v.frames = []) → (a + size ≤ b ∨ b + size ≤ a) →
      let t := copyLines s x k
      t.exchanges = s.exchanges.map (fun y => if y.near = x.near ∧ y.far = x.far then { y with done := x.done + m } else y) ∧
      (∀ o, here o → plainByte t (a + o) = plainByte s (b + o) ∧ plainByte t (b + o) = plainByte s (a + o)) ∧
      ∀ p, (∀ o, here o → p ≠ a + o ∧ p ≠ b + o) → plainByte t p = plainByte s p)) ∧
  ∀ (s : State) (x : Exchange),
    s.exchanges.find? (fun y => y.near = x.near && y.far = x.far) = some x →
    let a := physNat s x.near 8
    let b := physNat s x.far 8
    let size := if x.big then 2 ^ 21 else 2 ^ 16
    (128 * x.done < size → exec (.pageExchangeComplete x.near x.far) s = .next s) ∧
    (size ≤ 128 * x.done → ∃ t, exec (.pageExchangeComplete x.near x.far) s = .next t ∧ t.w.r = s.w.r ∧
      t.shootSeq = s.shootSeq + 2 ∧ t.exchanges = s.exchanges.filter (fun y => ¬(y.near = x.near ∧ y.far = x.far)) ∧
      (∀ y ∈ t.services, y.reason ≠ 2) ∧ t.podWaits = [] ∧ (∀ y ∈ t.tlb, y ∈ s.tlb ∧ y.pte ≠ x.near ∧ y.pte ≠ x.far) ∧
      (memWf s.mem = true → s.stalled = [] → (∀ u ∈ s.units, ∀ m ∈ u.members, m.frames = []) →
      (∀ i < 8, physKind (x.near + i) = some .hbm ∧ physKind (x.far + i) = some .hbm) →
      (x.near + 8 ≤ x.far ∨ x.far + 8 ≤ x.near) →
      (∀ (e e' f : Nat), ((e, e', f) = (a, physNat t x.near 8, b) ∨ (e, e', f) = (b, physNat t x.far 8, a)) →
        e' / 2 ^ 16 % 2 ^ 36 = f / 2 ^ 16 % 2 ^ 36 ∧ e' / 2 ^ 9 % 2 = f / 2 ^ 9 % 2 ∧ e' / 2 ^ 10 % 4 = 0 ∧
        e' % 2 ^ 9 = e % 2 ^ 9 ∧ e' / 2 ^ 13 % 8 = e / 2 ^ 13 % 8) ∧
      ∀ p, (p < x.near ∨ x.near + 8 ≤ p) → (p < x.far ∨ x.far + 8 ≤ p) → plainByte t p = plainByte s p))

/-! ### Ending, switching and restoring -/

/-- R299, R242, R232, R233, R216, R197: a context that ends loses its waves, units, launches, rings and transfers and
records why, once. A switch-out is asked for once; a unit whose members have stopped leaves with its scratchpad in its
image; a live member past every patience stops with a full save, its waves in a handler at their return; late latches
lose SAVED at read-back; a restore waits for transfers and cores (the latter the model's reading, log 40); a restored
unit's waves go on where they stood, the youngest of their core; an unbalanced latch is hazard 4 in debug mode, whose
%trapinfo3 is the model's (log 49). -/
def Obligations.ContextAndSwitchResults : Prop :=
  (∀ (s : State) (ctx : Nat) (c : Context), ctxOf s ctx = some c →
    (c.ended ≠ none → exec (.contextEnd ctx) s = .next s) ∧
    (c.ended = none → ∃ t c', exec (.contextEnd ctx) s = .next t ∧ ctxOf t ctx = some c' ∧
      c'.ended = some 0x01FF0000 ∧ c'.reqs = [] ∧ (∀ u ∈ t.units, u.ctx ≠ ctx) ∧ (∀ w ∈ t.others, w.ctx ≠ ctx) ∧
      (s.w.ctx = ctx → s.w.id ≠ 0 → t.w = {}) ∧ (∀ l ∈ t.launches, l.ctx ≠ ctx) ∧ (∀ r ∈ t.rings, r.ctx ≠ ctx) ∧
      (∀ x ∈ t.xfers, x.ctx ≠ ctx) ∧ (∀ x ∈ t.seeds, x.qcb ∉ c.qcbs) ∧ ∀ x ∈ t.slots, x.qcb ∉ c.qcbs)) ∧
  (∀ (s : State) (handle : BitVec 16) (u : GangUnit),
    s.units.find? (fun v => v.handle % 65536 = handle.toNat) = some u →
    ((u.out = true ∨ u.preempt ≠ none) → exec (.gangSwitchOutRequest handle) s = .next s) ∧
    (u.out = false → u.preempt = none → ∃ t, exec (.gangSwitchOutRequest handle) s = .next t ∧
      t = { s with units := t.units, mem := t.mem, monitors := t.monitors, lines := t.lines, freeCtr := t.freeCtr,
                   hasp := t.hasp, link := t.link } ∧
      t.units = s.units.map (fun v => if v.handle = u.handle then { u with preempt := some s.clk.toNat } else v) ∧
      (s.hasp.trsize = 0 → t.mem = s.mem))) ∧
  (∀ (s : State) (u : GangUnit) (m : Member), unitOf s u.handle = some u → u.members = [m] →
    ((u.preempt = none ∨ u.out = true) → exec (.waveSwitchOut u.handle) s = .next s) ∧
    (∀ (c : Context) (fs : List Nat), u.preempt ≠ none → u.out = false → m.stopped = true → m.exited = false →
      m.live = false → (∀ w ∈ s.w :: s.others, w.unit = u.handle → w.id ≠ 0 →
        w.mode = .program ∧ (w.res = .stopped ∨ w.res = .resident) ∧ w.savable s = true) →
      ctxOf s u.ctx = some c → allFrames s c u.images = .ok [fs] →
      (∀ f ∈ fs, f + 2048 ≤ m.base ∨ m.base + m.alloc ≤ f) →
      (∀ (i j f g : Nat), i ≠ j → fs[i]? = some f → fs[j]? = some g → f + 2048 ≤ g ∨ g + 2048 ≤ f) →
      ∃ t u', exec (.waveSwitchOut u.handle) s = .next t ∧ unitOf t u.handle = some u' ∧ u'.out = true ∧
        u'.preempt = none ∧ u'.members = [{ m with frames := [], record := [] }] ∧
        (∀ (j f o : Nat), fs[j]? = some f → o < 2048 →
          memGet t.mem (f + o) = memGet s.mem (m.base + 2048 * j + o)) ∧
        (∀ a, m.base ≤ a → a < m.base + m.alloc → memGet t.mem a = 0) ∧
        (s.w.unit = u.handle → s.w.id ≠ 0 → t.w.res = .out ∧ t.w.r = s.w.r ∧ t.w.sr = s.w.sr ∧
          ((∀ d, ctxOf s s.w.ctx = some d → ∀ l : Fin 32, (d.node s.w.cur[l]).st ≠ .refuted) → t.w.cur = s.w.cur) ∧
          t.w.lpc = s.w.lpc ∧ ∀ n : Fin 4, t.w.leaves[n].mask = s.w.leaves[n].mask ∧ t.w.leaves[n].wait = none) ∧
        (s.w.unit ≠ u.handle → t.w = s.w)) ∧
    (∀ t0, u.preempt = some t0 → m.live = true → m.stopped = false → m.exited = false → s.w.unit = u.handle →
      s.w.member = 0 → s.w.id ≠ 0 → s.w.res = .resident → (∀ w ∈ s.others, w.unit ≠ u.handle) →
      (s.clk.toNat < t0 + s.w.sr.patience.toNat → exec (.ppointPatienceTimeout u.handle) s = .next s) ∧
      (t0 + s.w.sr.patience.toNat ≤ s.clk.toNat →
        ∃ t, exec (.ppointPatienceTimeout u.handle) s = .next t ∧
          t = { s with w := { s.w with res := if s.w.mode = .program then .stopped else .resident }, others := t.others,
                       units := t.units } ∧
          unitOf t u.handle = some { u with members := [{ m with stopped := true, full := true }] })) ∧
    (u.out = true → (∃ x ∈ s.xfers, x.unit = u.handle ∧ x.left ≠ []) → exec (.imageReadback u.handle) s = .next s) ∧
    ∀ (o : Nat) (pas : List Nat), u.out = true → (∀ x ∈ s.xfers, x.unit = u.handle → x.left = []) → m.late = [o] →
      winBytes s u.handle 0 o 16 = some pas → pas.length = 16 → (pas.map (route s)).Nodup →
      (∀ b ∈ pas, physKind b ≠ some .view) →
      ∃ t, exec (.imageReadback u.handle) s = .next t ∧ latchAt t pas = { latchAt s pas with saved := false } ∧
        unitOf t u.handle = some { u with members := [{ m with late := [] }] } ∧ t.w = s.w ∧
        ∀ b, (∀ y ∈ pas, route s y ≠ route s b) → plainByte t b = plainByte s b) ∧
  (∀ (s s' : State) (handle : BitVec 16) (u : GangUnit) (c : Context) (cs : List (Fin 384)) (fs : List (List Nat)),
    s.units.find? (fun v => v.handle % 65536 = handle.toNat) = some u → unitOf s u.handle = some u →
    (u.out = false → exec (.gangRestore handle) s = .next s) ∧
    (u.out = true → ((∃ x ∈ s.xfers, x.unit = u.handle ∧ x.left ≠ []) ∨ restoreCores s u = none) →
      exec (.gangRestore handle) s = .next { s with
        units := s.units.map fun v => if v.handle = u.handle then { u with restore := true } else v }) ∧
    (u.out = true → (∀ x ∈ s.xfers, x.unit = u.handle → x.left = []) → restoreCores s u = some cs →
      ctxOf s u.ctx = some c → allFrames s c u.images = .ok fs → regrant s u = some s' → (∀ w ∈ s.others, w.id ≠ s.w.id) →
      ∃ t u', exec (.gangRestore handle) s = .next t ∧ unitOf t u.handle = some u' ∧ u'.out = false ∧
        u'.preempt = none ∧ u'.restore = false ∧
        (∀ (n : Fin 384), s.w.unit = u.handle → s.w.id ≠ 0 → s.w.sr.wave.toNat < 32 → cs[s.w.member]? = some n →
          s.nextId ≤ t.w.age ∧ t.w = { s.w with
            core := n, quad := t.w.quad, res := .resident, waitCtr := 0, age := t.w.age, saved := [] }) ∧
        (s.w.unit ≠ u.handle → t.w = s.w) ∧
        ∀ n, cs.getLast? = some n → t.hasp.pcur = BitVec.ofNat 9 ((n.val + 1) % 384))) ∧
  ∀ (s : State) (id : Nat) (w : Wave) (n : Fin 4) (nx : Word) (a : Nat) (latch : DWord), id ≠ 0 →
    waveOf s id = some w → w.leaves[n].wait = some ⟨.latch, nx, a⟩ →
    (∀ j : Fin 4, j < n → ∀ x, w.leaves[j].wait = some x → x.kind ≠ .latch) →
    ((ctxOf s w.ctx).any (·.dbg) = false → exec (.debugLatchTimeout id latch) s = .next s) ∧
    ((ctxOf s w.ctx).any (·.dbg) = true → w.pending.length < 8 →
      exec (.debugLatchTimeout id latch) s = .next (setWave s { w with pending := w.pending ++
        [⟨0x09, 4, w.leaves[n].pc, latch.setWidth 32 &&& 0xFFFFFFE0, 0x3800⟩] }))

/-! ### Placement -/

/-- R45, R80 to R82, R146, R147, R286, R287: the next workgroup or neighbourhood of a launch goes to the first cores,
from the cursor on, that can take it; its allocations are zeroed and its created waves begin with R45's values; the
cursor moves past them. A launch that finds no core, or no room for a grant that was reclaimed (R148), waits. Which
waves hold slots is the model's reading (log 22). -/
def Obligations.PlacementResults : Prop :=
  (∀ (s : State) (ws : List Nat) (alloc : Nat) (mx : Bool) (n : Fin 384), findCore s ws alloc mx = some n →
    coreTakes s n ws alloc mx = true ∧ ∃ i < 384, n.val = (s.hasp.pcur.toNat + i) % 384 ∧
      ∀ j < i, ∀ m : Fin 384, m.val = (s.hasp.pcur.toNat + j) % 384 → coreTakes s m ws alloc mx = false) ∧
  (∀ (s : State) (l l' : Launch) (c : Context) (wg : Nat) (n : Fin 384) (fs : List (List Nat)),
    s.launches.find? (fun x => x.id = l.id) = some l → ctxOf s l.ctx = some c → l.nbhd = false → l.held = false →
    l.saved = none → l.next ≤ wg → wg < l.k.groups → l.k.created wg ≠ [] → (∀ j, l.next ≤ j → j < wg → l.k.created j = []) →
    takeRuns s c l = some l' → findCore s ((l.k.created wg).map (·.1)) l.k.scr l.k.mx = some n →
    allFrames s c [(l'.li.map fun g => g + wg * (l.k.scr / 2048), l.k.scr)] = .ok fs →
    ∃ t u, exec (.workgroupPlacement l.id) s = .next t ∧ t.w = s.w ∧ t.units = s.units ++ [u] ∧
      u.handle = s.nextId ∧ u.ctx = l.ctx ∧ u.launch = some l.id ∧ u.out = false ∧
      (∃ m, u.members = [m] ∧ m.wg = wg ∧ m.core = n ∧ freeBase s n l.k.scr = some m.base ∧ m.alloc = l.k.scr ∧
        (s.hasp.trsize = 0 → (∀ a, m.base ≤ a → a < m.base + m.alloc → memGet t.mem a = 0) ∧
          ∀ a, (a < m.base ∨ m.base + m.alloc ≤ a) → memGet t.mem a = memGet s.mem a)) ∧
      t.hasp.pcur.toNat = (n.val + 1) % 384 ∧ (∃ e ∈ t.hasp.events, e.kind = 5 ∧ e.qcb = l.qcb) ∧
      t.others.length = s.others.length + (l.k.created wg).length ∧ (∀ w ∈ s.others, w ∈ t.others) ∧
      ∀ x ∈ l.k.created wg, ∃ w ∈ t.others, w.unit = s.nextId ∧ w.core = n ∧ w.sr.wave = BitVec.ofNat 32 x.1 ∧
        w.sr.wg = BitVec.ofNat 32 wg ∧ w.leaves[(0 : Fin 4)].mask = x.2 ∧ w.leaves[(0 : Fin 4)].pc = l.k.entry ∧
        w.absent = ~~~x.2 ∧ w.mode = .program ∧ w.res = .resident ∧
        (∀ r : Fin 32, w.r.s[r] = l.args.getD r.val 0) ∧ (∀ r : Fin 88, w.r.v[r] = Vector.replicate 32 0) ∧
        w.sr.hinge = l.k.hinge ∧ w.sr.patience = 65536 ∧ w.sr.budget = 256 ∧ w.loops = [] ∧ w.kdesc = l.k.addr) ∧
  (∀ (s : State) (l l' : Launch) (c : Context) (nb : Nat) (cs : List (Fin 384)) (fs : List (List Nat)),
    let size := l.k.members
    let waves (k : Nat) : List (Nat × Mask) :=
      if nb * size + k < l.k.groups then l.k.created (nb * size + k) else []
    s.launches.find? (fun x => x.id = l.id) = some l → ctxOf s l.ctx = some c → l.nbhd = true → l.held = false →
    l.saved = none → l.next = nb → nb < (l.k.groups + size - 1) / max 1 size → (∃ k < size, waves k ≠ []) → takeRuns s c l = some l' →
    findRect s l.k.nw l.k.nh (fun k n => coreTakes s n ((waves k).map (·.1)) l.k.scr l.k.mx) = some cs →
    allFrames s c ((List.range size).map fun k =>
      (if nb * size + k < l.k.groups then l'.li.map fun g => g + (nb * size + k) * (l.k.scr / 2048) else none,
        l.k.scr)) = .ok fs →
    ∃ t u, exec (.neighbourhoodPlacement l.id) s = .next t ∧ t.w = s.w ∧ t.units = s.units ++ [u] ∧
      u.handle = s.nextId ∧ u.launch = some l.id ∧ u.nbhdIx = nb ∧ u.members.map (·.core) = cs ∧
      (∀ k m, u.members[k]? = some m → m.wg = nb * size + k ∧ m.alloc = l.k.scr) ∧
      (∀ n, cs.getLast? = some n → t.hasp.pcur.toNat = (n.val + 1) % 384) ∧
      t.others.length = s.others.length + (((List.range cs.length).map fun k => (waves k).length).sum)) ∧
  ∀ (s : State) (l l' : Launch) (c : Context) (wg : Nat), s.launches.find? (fun x => x.id = l.id) = some l →
    ctxOf s l.ctx = some c → l.nbhd = false → l.held = false → l.next = wg → wg < l.k.groups → l.k.created wg ≠ [] →
    takeRuns s c l = some l' →
    (findCore s ((l.k.created wg).map (·.1)) l.k.scr l.k.mx = none ∨
      ∃ n fs, findCore s ((l.k.created wg).map (·.1)) l.k.scr l.k.mx = some n ∧ grantBack s l' = none ∧
        allFrames s c [(l'.li.map fun g => g + wg * (l.k.scr / 2048), l.k.scr)] = .ok fs) →
    ∃ t, exec (.workgroupPlacement l.id) s = .next t ∧ t = { s with hasp := { s.hasp with events := t.hasp.events } } ∧
      ∃ e ∈ t.hasp.events, e.kind = 4 ∧ e.qcb = l.qcb

/-- R85, R293, R426, R215, R234: the packer starts a task wave of up to 32 tasks of the entry at a ring's head on the
lowest core of the chiplet that can take it, each lane with its task's argument address in v0 and v1. A member whose
waves have retired, whose transfers have been counted, whose pod accesses are acknowledged and whose array work is done
exits: its allocation and image read as zero; with the last member the unit goes and its launch counts it off. -/
def Obligations.TaskWaveAndExitResults : Prop :=
  (∀ (s : State) (ctx : Nat) (chip : Fin 8) (c : Context) (e : SpawnEntry) (k : Kernel) (bs : List Bucket) (n : Fin 384)
    (b : Nat) (fs : List Nat), ctxOf s ctx = some c → s.rings = [⟨chip, ctx, [e]⟩] → e.next < e.n → e.spill = none →
    readKernel s ctx e.kdesc = .ok k bs → taskCore s chip = some n → freeBlock s c = some b →
    imageFrames s c b 1 = .ok fs →
    let count := min 32 (e.n - e.next)
    let present (l : Fin 32) : Prop := l.val < count
    let arg (l : Fin 32) : DWord := e.args + BitVec.ofNat 64 (64 * (e.next + l.val))
    ∃ t w u, exec (.taskWaveStart ctx chip) s = .next t ∧ t.w = s.w ∧ t.others = s.others ++ [w] ∧
      t.units = s.units ++ [u] ∧ u.handle = s.nextId ∧ u.task = true ∧ w.unit = u.handle ∧ w.task = true ∧ w.core = n ∧
      w.blk = BitVec.ofNat 24 b ∧ w.mode = .program ∧ w.kdesc = e.kdesc ∧
      (∀ l : Fin 32, (present l ↔ w.leaves[(0 : Fin 4)].mask.getLsbD l = true) ∧
        (present l ↔ w.absent.getLsbD l = false) ∧
        (present l → w.r.v[(0 : Fin 88)][l] = (arg l).setWidth 32 ∧
          w.r.v[(1 : Fin 88)][l] = BitVec.ofNat 32 ((arg l).toNat / 2 ^ 32) ∧ w.seeds[l] = e.seed ∧
          w.origins[l] = (e.qcb, e.hdr))) ∧
      w.leaves[(0 : Fin 4)].pc = 4 * e.entry ∧
      t.rings = [⟨chip, ctx, if e.next + count < e.n then [{ e with next := e.next + count }] else []⟩] ∧
      ltOf t n = max (ltOf s n) (max s.feTime.toNat e.time.toNat)) ∧
  ∀ (s : State) (u : GangUnit) (m : Member), unitOf s u.handle = some u → u.members = [m] → u.out = false →
    m.exited = false → s.w.unit ≠ u.handle →
    ((∃ w ∈ s.others, w.unit = u.handle ∧ w.member = 0) →
      exec (.workgroupExit u.handle) s = .next s) ∧
    ((∀ w ∈ s.others, w.unit ≠ u.handle) → (∀ x ∈ s.xfers, x.unit ≠ u.handle) → (∀ p ∈ s.pods, p.unit ≠ u.handle) →
      (m.live = true → ∀ a : Fin 2, (arrayOf s m.core a).queue = [] ∧ (arrayOf s m.core a).mlds = none) →
      ∃ t, exec (.workgroupExit u.handle) s = .next t ∧ t.w = s.w ∧ t.others = s.others ∧
        t.units = s.units.filter (fun v => v.handle ≠ u.handle) ∧
        (∀ a, ((m.base ≤ a ∧ a < m.base + m.alloc) ∨ ∃ f ∈ m.frames, f ≤ a ∧ a < f + 2048) → memGet t.mem a = 0) ∧
        (∀ a, ¬(m.base ≤ a ∧ a < m.base + m.alloc) → (∀ f ∈ m.frames, ¬(f ≤ a ∧ a < f + 2048)) →
          memGet t.mem a = memGet s.mem a) ∧
        (m.live = true → ∀ a, arrayOf t m.core a = {}) ∧
        t.launches = s.launches.map fun l => if some l.id = u.launch then { l with live := l.live - 1 } else l)

/-! ### The command front end -/

/-- R278 to R280, R282, R283, R308: each look at a queue's ring clears PEND. A NOP packet, taken at the head of the
ring, moves RD past it and counts it; with ORD it waits for every earlier packet. A packet in error, of a disabled type
among them, stops its queue: STATE 5, ERR and ERRAT, the slot released, the host and the Hasp told. WAIT goes on where
its condition holds, else its queue waits in state 4 with a monitor on the word, until it does. That the slot is
released, and the order of a packet's checks, are the model's readings (logs 8 and 9), and so is the detail the Hasp is told
(log 19). -/
def Obligations.PacketsTaken : Prop :=
  (∀ (s : State) (slot : Fin 256) (x : Slot) (p : Packet), AtHead s slot x 0x00C p →
    (p.ord = true → ¬Settled s x.qcb → exec (.nopPacket slot p) s = .next (clearPend s x.qcb)) ∧
    ((p.ord = true → Settled s x.qcb) → PlainQcb s x.qcb → ∃ t, exec (.nopPacket slot p) s = .next t ∧
      t = doneAtOnce (clearPend s x.qcb) x p ∧
      field t x.qcb 0x0C 4 = (p.at_.toNat + p.len) % 2 ^ 32 ∧ field t x.qcb 0x10 4 = field s x.qcb 0x10 4 ∧
      field t x.qcb 0x40 8 = (field s x.qcb 0x40 8 + 1) % 2 ^ 64 ∧
      field t x.qcb 0x14 4 = field s x.qcb 0x14 4 % 2 ^ 31 ∧ field t x.qcb 0x18 4 = field s x.qcb 0x18 4 ∧
      (∀ b, outside s x.qcb b → plainByte t b = plainByte s b) ∧ t.w = s.w ∧ t.others = s.others ∧ t.ctxs = s.ctxs ∧
      t.units = s.units ∧ t.launches = s.launches)) ∧
  (∀ (s : State) (slot : Fin 256) (x : Slot) (p : Packet) (ty c : Nat),
    let s0 := clearPend s x.qcb
    Takes s slot x →
    (headOf s x = .packet ty (.error c) → typeEnabled s ty = false → exec (.unknownPacketType slot p) s =
      .next (queueError s0 x.qcb c (BitVec.ofNat 32 (field s x.qcb 0x0C 4)))) ∧
    (headOf s0 x = .packet 0x00C (.error c) → exec (.nopPacket slot p) s =
      .next (queueError s0 x.qcb c (BitVec.ofNat 32 (field s0 x.qcb 0x0C 4)))) ∧
    (headOf s0 x = .empty → exec (.nopPacket slot p) s = .next s0)) ∧
  (∀ (s : State) (x : Slot) (h : Word), field s x.qcb 0x0C 4 ≠ field s x.qcb 0x10 4 →
    ringWord s x (field s x.qcb 0x0C 4) = .ok h → typeEnabled s (h.toNat / 2 ^ 20) = false →
    headOf s x = .packet (h.toNat / 2 ^ 20) (.error 0x21)) ∧
  (∀ (s : State) (q code : Nat) (errat : Word), PlainQcb s q → s.hasp.trsize = 0 → code < 2 ^ 32 →
    let t := queueError s q code errat
    let cls : Fin 4 := ⟨field s q 0x18 4 / 16 % 4, Nat.mod_lt _ (by decide)⟩
    field t q 0x18 4 % 8 = 5 ∧ field t q 0x18 4 / 8 = field s q 0x18 4 / 8 ∧ field t q 0x38 4 = code ∧
      field t q 0x3C 4 = errat.toNat ∧ (∀ y ∈ t.slots, y.qcb ≠ q) ∧ (∀ y ∈ t.slots, y ∈ s.slots) ∧
      (∀ b, outside s q b → plainByte t b = plainByte s b) ∧ t.w = s.w ∧ t.others = s.others ∧
      (∀ tb, s.tables = some tb →
        (s.link.up = true → t.link.irqs = s.link.irqs ++ [(tb.err[cls], q)] ∧ t.link.late = s.link.late) ∧
        (s.link.up = false → t.link.irqs = s.link.irqs ∧ t.link.late = s.link.late ++ [(tb.err[cls], q)])) ∧
      ∃ e, t.hasp.events = s.hasp.events ++ [e] ∧ e.kind = 7 ∧ e.detail = BitVec.ofNat 20 code ∧ e.qcb = q) ∧
  (∀ (s : State) (slot : Fin 256) (x : Slot) (p : Packet) (l : Loc), AtHead s slot x 0x006 p →
    let s0 := clearPend s x.qcb
    let v := wordOf s0 l.pas
    let want := pWord p 0x009 0
    let holds : Prop := match (pWord p 0x00A 0).toNat with
      | 0 => v = want
      | 1 => want ≤ v
      | _ => v ≠ want
    Settled s x.qcb → engineChk s0 (frontAcc x.ctx) .load (pDWord p 0x007 0) 4 = .ok l →
    (holds → exec (.wait slot p) s = .next (doneAtOnce (frontSeen s0 x.ctx (pDWord p 0x007 0) 4) x p)) ∧
    (¬holds → PlainQcb s x.qcb → ∃ t ms y cz, exec (.wait slot p) s = .next t ∧ field t x.qcb 0x18 4 % 8 = 4 ∧
      field t x.qcb 0x0C 4 = (p.at_.toNat + p.len) % 2 ^ 32 ∧ t.slots.find? (fun z => z.n = slot) = some y ∧
      y.wait = some p ∧
      t.monitors = ms ++ [{ addr := l.pas.headD 0, len := 4, wave := 0, leaf := none, slot := some slot, coarse := cz }] ∧
      (homeOf (route s (l.pas.headD 0)) ∉ s.coarse →
        monitorsAt s (homeOf (route s (l.pas.headD 0))) < monitorCap (homeOf (route s (l.pas.headD 0))) → cz = false) ∧
      (∀ b, outside s x.qcb b → plainByte t b = plainByte s b) ∧ t.w = s.w ∧ t.others = s.others)) ∧
  ∀ (s : State) (slot : Fin 256) (x : Slot) (p : Packet) (l : Loc), s.slots.find? (fun y => y.n = slot) = some x →
    x.wait = some p → x.drain = 0 → engineChk s (frontAcc x.ctx) .load (pDWord p 0x007 0) 4 = .ok l →
    (waitHolds p (wordOf s l.pas) = false → exec (.waitSatisfied slot) s = .next s) ∧
    (waitHolds p (wordOf s l.pas) = true → PlainQcb s x.qcb → ∃ t y es, exec (.waitSatisfied slot) s = .next t ∧
      field t x.qcb 0x18 4 % 8 = 2 ∧ t.slots.find? (fun z => z.n = slot) = some y ∧ y.wait = none ∧
      t.hasp.events = es ++ [⟨10, BitVec.ofNat 8 slot.val, 0, x.qcb⟩] ∧ t.w = s.w ∧ t.others = s.others ∧
      ∀ b, outside s x.qcb b → plainByte t b = plainByte s b)

/-- R281, R283: SIGNAL stores, adds or ors its value, or wakes a queue; WRITE stores its words, STAMP the cycle count
and the front end's time, once every earlier packet has completed; other bytes of memory stay. EDGE passes its cost; a
pair without one is error 0x25. An address that cannot be stored to is error 0x25 (log 30), and one whose page is to be
brought in is asked for. That an EDGE's cost is spent in its step is the model's choice (log 13), and that the table is
the full package's in every partition (log 46). -/
def Obligations.PacketStores : Prop :=
  (∀ (s : State) (slot : Fin 256) (x : Slot) (p : Packet) (at_ : Nat → Loc),
    let s0 := clearPend s x.qcb
    let g := pDWord p 0x007 0
    let now : DWord := BitVec.ofNat 64 (feNow (raiseFe s0))
    let old := wordOf s0 (at_ 0).pas
    let v := pWord p 0x009 0
    ∀ (i : Instr) (ty : Nat) (kind : AccKind) (ws : List Word), AtHead s slot x ty p → Settled s x.qcb →
      (∀ k < ws.length, engineChk s0 (frontAcc x.ctx) kind (g + BitVec.ofNat 64 (4 * k)) 4 = .ok (at_ k) ∧
        (at_ k).vers = false ∧ (at_ k).pas.length = 4 ∧ ((at_ k).pas.map (route s)).Nodup ∧
        (∀ a ∈ (at_ k).pas, physKind a ≠ some .view) ∧ ∀ j < ws.length,
          (∀ e ∈ (at_ j).entries, ∀ a ∈ (at_ k).pas, route s (e + 1) ≠ route s a) ∧
          (j ≠ k → ∀ a ∈ (at_ j).pas, ∀ b ∈ (at_ k).pas, route s a ≠ route s b)) →
      ((i = .write slot p ∧ ty = 0x008 ∧ kind = .store ∧ pField p 0x00B = some ws) ∨
        (i = .stamp slot p ∧ ty = 0x009 ∧ kind = .store ∧
          ws = [s.clk.setWidth 32, BitVec.ofNat 32 (s.clk.toNat / 2 ^ 32), now.setWidth 32,
            BitVec.ofNat 32 (now.toNat / 2 ^ 32)]) ∨
        (i = .signal slot p ∧ ty = 0x005 ∧ pWord p 0x00A 0 = 0 ∧ kind = .store ∧ ws = [v]) ∨
        (i = .signal slot p ∧ ty = 0x005 ∧ kind = .atomic ∧
          (∃ l, engineChk s0 (frontAcc x.ctx) .load g 4 = .ok l ∧ l.pas = (at_ 0).pas) ∧
          (pWord p 0x00A 0 = 1 ∧ ws = [old + v] ∨ pWord p 0x00A 0 = 2 ∧ ws = [old ||| v]))) →
      ∃ u, exec i s = .next (doneAtOnce u x p) ∧ u.w = s.w ∧ u.others = s.others ∧ u.units = s.units ∧
        (∀ (k : Nat) (y : Word), ws[k]? = some y → wordOf u (at_ k).pas = y) ∧
        ∀ b, (∀ k < ws.length, (∀ a ∈ (at_ k).pas, route s a ≠ route s b) ∧
          ∀ e ∈ (at_ k).entries, route s (e + 1) ≠ route s b) → plainByte u b = plainByte s0 b) ∧
  (∀ (s : State) (slot : Fin 256) (x : Slot) (p : Packet) (i : Instr) (ty n k : Nat) (kind : AccKind) (m : Miss),
    let s0 := clearPend s x.qcb
    let chk (j : Nat) : Except Miss Loc :=
      engineChk s0 (frontAcc x.ctx) kind (pDWord p 0x007 0 + BitVec.ofNat 64 (4 * j)) 4
    AtHead s slot x ty p → Settled s x.qcb →
    ((i = .write slot p ∧ ty = 0x008 ∧ kind = .store ∧ ∃ ws, pField p 0x00B = some ws ∧ ws.length = n) ∨
      (i = .stamp slot p ∧ ty = 0x009 ∧ kind = .store ∧ n = 4) ∨
      (i = .signal slot p ∧ ty = 0x005 ∧ n = 1 ∧
        (pWord p 0x00A 0 = 0 ∧ kind = .store ∨ (pWord p 0x00A 0 = 1 ∨ pWord p 0x00A 0 = 2) ∧ kind = .atomic))) →
    k < n → (∀ j < k, ∃ l, chk j = .ok l) → chk k = .error m →
    (∀ c, m = .trap c → exec i s = .next (queueError s0 x.qcb 0x25 p.at_)) ∧
    ∀ r, m = .recov r → ∃ t, exec i s = .next t ∧ t = { s0 with services := t.services } ∧
      (r = 0 → t.services = s.services) ∧
      (r ≠ 0 → ⟨0, 0, r⟩ ∈ t.services ∨ ∃ y ∈ s.services, y.wave = 0 ∧ y.reason = r)) ∧
  (∀ (s : State) (slot : Fin 256) (x : Slot) (p : Packet), AtHead s slot x 0x005 p → Settled s x.qcb →
    pWord p 0x00A 0 = 3 →
    exec (.signal slot p) s = .next (doneAtOnce (wakeQueue (clearPend s x.qcb) (pDWord p 0x007 0).toNat) x p)) ∧
  (∀ (s : State) (slot : Fin 256) (x : Slot) (p : Packet), AtHead s slot x 0x004 p → Settled s x.qcb →
    let w := (pWord p 0x00E 0).toNat
    let s0 := clearPend s x.qcb
    let pairs : List (Nat × Nat) := (classesOf (BitVec.ofNat 6 (w / 2 ^ 8))).flatMap fun b =>
      (classesOf (BitVec.ofNat 6 (w / 2 ^ 16))).map fun a => (b, a)
    ((∃ q ∈ pairs, fenceCost q.1 q.2 (w % 8) = none) →
      exec (.edge slot p) s = .next (queueError s0 x.qcb 0x25 p.at_)) ∧
    ((∀ q ∈ pairs, fenceCost q.1 q.2 (w % 8) ≠ none) → ∃ u c, exec (.edge slot p) s = .next (tick (doneAtOnce u x p) c) ∧
      u = { s0 with hazards := u.hazards, pods := u.pods, link := u.link } ∧ (w / 2 ^ 21 % 2 = 0 → u.link = s.link) ∧
      (∀ q ∈ pairs, ∀ k, fenceCost q.1 q.2 (w % 8) = some k → k ≤ c) ∧
      (c = 0 ∨ ∃ q ∈ pairs, fenceCost q.1 q.2 (w % 8) = some c)))

/-- R280, R283 to R285, R292, R314: a launch packet takes its descriptor, its first matching bucket, and its grant of the
package scratchpad, zeroed; a seed puts one entry into a ring; COPY starts a transfer; HYP_SWEEP is put at the slot map,
behind the requests there, unless its node is not live, and completes when it has been performed; REPLAY is a launch with
capture, and each later pass restores what was captured, has every live hypothesis refuted at the slot map, and launches
again. A completed launch or seed is counted in LDONE.
Which granules are granted, that a launch waits for them, and the replay's signature and count are the model's (logs 15 and
31). -/
def Obligations.PacketWork : Prop :=
  (∀ (s : State) (slot : Fin 256) (x : Slot) (p : Packet) (k : Kernel) (bs : List Bucket) (i : Instr) (ty : Nat),
    (i = .launch slot p ∧ ty = 0x001 ∨ i = .nbhdLaunch slot p ∧ ty = 0x002) → AtHead s slot x ty p →
    (p.ord = true → Settled s x.qcb) →
    let s0 := clearPend s x.qcb
    let shape : Vector Nat 4 := Vector.ofFn fun j => ((((pField p 0x002).getD []).getD j.val 1).toNat)
    (readKernel s0 x.ctx (pDWord p 0x001 0) = .bad → exec i s = .next (queueError s0 x.qcb 0x27 p.at_)) ∧
    (readKernel s0 x.ctx (pDWord p 0x001 0) = .ok k bs →
      (ty = 0x001 → k.nw * k.nh ≠ 1 → exec i s = .next (queueError s0 x.qcb 0x25 p.at_)) ∧
      ((ty = 0x001 → k.nw * k.nh = 1) →
        (chooseBucket k bs shape = none → exec i s = .next (queueError s0 x.qcb 0x24 p.at_)) ∧
        ∀ k', chooseBucket k bs shape = some k' →
          (grantRoom s0 (pWord p 0x004 0).toNat s.launches = none → exec i s = .next s0) ∧
          ∀ gs s1, grantRoom s0 (pWord p 0x004 0).toNat s.launches = some (gs, s1) →
            let u := consume (kernelSeen s1 x.ctx (pDWord p 0x001 0)) x p
            let mem := gs.foldl (fun m a => m.filter fun c => ¬(a ≤ c.1 ∧ c.1 < a + 0x10000)) u.mem
            exec i s = .next { u with
              nextId := s.nextId + 1
              mem := mem
              launches := s1.launches ++ [{
                id := s.nextId, qcb := x.qcb, hdr := p.at_, ctx := x.ctx, k := k', nbhd := decide (ty = 0x002),
                args := (pField p 0x003).getD [], pscr := (pWord p 0x004 0).toNat, irq := p.irq, mem0 := some mem,
                grant := if pWord p 0x004 0 = 0 then none else some gs }] }))) ∧
  (∀ (s : State) (n : Nat) (ls : List Launch) (gs : List Nat),
    (freeGranules s n = some gs → grantRoom s n ls = some (gs, s)) ∧ (n = 0 → freeGranules s n = some [])) ∧
  (∀ (k k' : Kernel) (bs : List Bucket) (shape : Vector Nat 4), chooseBucket k bs shape = some k' →
    ∃ (n : Nat) (b : Bucket), bs[n]? = some b ∧ k' = { k with entry := BitVec.ofNat 32 (4 * b.entry), shape := shape, pad := k'.pad } ∧
      (∀ j : Fin 4, k'.pad[j] = b.pad.getD j 0 ∧ b.lo.getD j 0 ≤ shape[j] ∧ shape[j] ≤ b.hi.getD j 0) ∧
      ∀ i < n, ∀ c : Bucket, bs[i]? = some c → ∃ j : Fin 4, shape[j] < c.lo.getD j 0 ∨ c.hi.getD j 0 < shape[j]) ∧
  (∀ (s : State) (slot : Fin 256) (x : Slot) (p : Packet) (k : Kernel) (bs : List Bucket), AtHead s slot x 0x003 p →
    (p.ord = true → Settled s x.qcb) →
    let s0 := clearPend s x.qcb
    let chip : Fin 8 := s.hasp.seed.toFin
    let n := (pWord p 0x005 3).toNat
    readKernel s0 x.ctx (pDWord p 0x001 0) = .ok k bs →
    (ringFull s0 chip x.ctx = true → exec (.taskSeed slot p) s = .next s0) ∧
    ((ringOf s chip x.ctx).length < dieEntries → ∃ t, exec (.taskSeed slot p) s = .next t ∧
      t = { consume (kernelSeen s0 x.ctx (pDWord p 0x001 0)) x p with
        nextId := s.nextId + 1, rings := t.rings, seeds := s.seeds ++ [⟨s.nextId, x.qcb, p.at_, n, p.irq⟩] } ∧
      ringOf t chip x.ctx = ringOf s chip x.ctx ++ [{
        kdesc := pDWord p 0x001 0, args := pDWord p 0x005 1, join := pDWord p 0x006 0, entry := pWord p 0x005 0, n := n,
        qcb := x.qcb, hdr := p.at_, seed := s.nextId, time := s.feTime, cls := qcbClass t x.qcb }] ∧
      ∀ c y, (c, y) ≠ (chip, x.ctx) → ringOf t c y = ringOf s c y)) ∧
  (∀ (s : State) (slot : Fin 256) (x : Slot) (p : Packet), AtHead s slot x 0x007 p → (p.ord = true → Settled s x.qcb) →
    exec (.copy slot p) s = .next { consume (clearPend s x.qcb) x p with
      nextId := s.nextId + 1
      xfers := s.xfers ++ [{
        id := s.nextId, kind := .packet, ctx := x.ctx, wave := 0, unit := 0, member := 0, pc := 0, qcb := x.qcb,
        hdr := p.at_, sup := true, irq := p.irq, left := List.range ((pWord p 0x00C 0).toNat / 32),
        src := pDWord p 0x008 0, dst := pDWord p 0x007 0 }] }) ∧
  (∀ (s : State) (slot : Fin 256) (x : Slot) (p : Packet) (c : Context), AtHead s slot x 0x00A p → Settled s x.qcb →
    ctxOf s x.ctx = some c →
    let s0 := clearPend s x.qcb
    let h : BitVec 6 := (pWord p 0x00F 0).setWidth 6
    (x.sweep = none → h ≠ 0 → (c.node h).st ≠ .live → exec (.hypSweep slot p) s = .next (doneAtOnce s0 x p)) ∧
    (x.sweep = none → (h = 0 ∨ (c.node h).st = .live) → ∃ t r, exec (.hypSweep slot p) s = .next t ∧
      t = { s0 with slots := s0.slots.map fun y => if y.n = x.n then { x with sweep := some p } else y
                    ctxs := s.ctxs.map fun y => if y.ctx = c.ctx then { c with reqs := c.reqs ++ [r] } else y } ∧
      r.op = .refute h ∧ r.slot = some slot ∧ r.wave = 0 ∧ r.gen = if h = 0 then none else (c.node h).slots.getLast?) ∧
    ∀ q, x.sweep = some q →
      ((∃ r ∈ c.reqs, r.slot = some slot) → exec (.hypSweep slot p) s = .next s0) ∧
      ((∀ r ∈ c.reqs, r.slot ≠ some slot) → exec (.hypSweep slot p) s = .next (doneAtOnce { s0 with
        slots := s0.slots.map fun y => if y.n = x.n then { x with sweep := none } else y } x q))) ∧
  (∀ (s s1 : State) (slot : Fin 256) (x : Slot) (p : Packet) (k k' : Kernel) (bs : List Bucket) (gs : List Nat),
    let s0 := clearPend s x.qcb
    let shape : Vector Nat 4 := Vector.ofFn fun j => ((((pField p 0x002).getD []).getD j.val 1).toNat)
    AtHead s slot x 0x00B p → Settled s x.qcb → readKernel s0 x.ctx (pDWord p 0x001 0) = .ok k bs →
    chooseBucket k bs shape = some k' → grantRoom s0 (pWord p 0x004 0).toNat s.launches = some (gs, s1) →
    ∃ t y l r, exec (.replay slot p) s = .next t ∧ t.w = s.w ∧ t.nextId = s.nextId + 1 ∧ l ∈ t.launches ∧
      l.id = s.nextId ∧ l.replay = true ∧ t.slots.find? (fun z => z.n = slot) = some y ∧ y.replay = some r ∧
      r.passes = 0 ∧ r.reps = (pWord p 0x010 0).toNat ∧ r.units = [] ∧ r.launch.k = k' ∧
      r.launch.nbhd = decide (k.nw * k.nh ≠ 1)) ∧
  (∀ (s : State) (slot : Fin 256) (x : Slot) (r : Replay), s.slots.find? (fun y => y.n = slot) = some x →
    x.replay = some r →
    ((r.passes = 0 ∨ ∃ l ∈ s.launches, l.qcb = x.qcb) → exec (.replayPass slot) s = .next s) ∧
    (r.passes ≠ 0 → (∀ l ∈ s.launches, l.qcb ≠ x.qcb) → r.begun = false → ∀ c, ctxOf s x.ctx = some c →
      ∃ t y q, exec (.replayPass slot) s = .next t ∧ t.w = s.w ∧ t.launches = s.launches ∧ t.copies = [] ∧
        (∀ e ∈ t.tlb, e ∈ s.tlb ∧ e.asid ≠ c.asid) ∧ ctxOf t x.ctx = some { c with reqs := c.reqs ++ [q] } ∧
        q.op = .refute 0 ∧ q.slot = some x.n ∧ t.slots.find? (fun z => z.n = slot) = some y ∧
        y.replay = some { r with begun := true } ∧
        ∀ n cells, r.units = [(n, cells)] → memWf s.mem = true → memWf cells = true → (∀ d ∈ cells, d.1 / 0x10000 = n) →
          ∀ a, memGet t.mem a = if a / 0x10000 = n then memGet cells a else memGet s.mem a) ∧
    (r.passes ≠ 0 → (∀ l ∈ s.launches, l.qcb ≠ x.qcb) → r.begun = true →
      ((sweeping s x = true ∨ grantRoom s r.launch.pscr s.launches = none) → exec (.replayPass slot) s = .next s) ∧
      (sweeping s x = false → r.launch.pscr = 0 →
        let l : Launch := { r.launch with id := s.nextId }
        exec (.replayPass slot) s = .next { s with
          nextId := s.nextId + 1
          launches := s.launches ++ [{ l with grant := none, mem0 := some s.mem }]
          slots := s.slots.map fun y =>
            if y.n = x.n then { x with replay := some { r with launch := l, begun := false } } else y }))) ∧
  (∀ (s : State) (l : Launch), s.launches.find? (fun y => y.id = l.id) = some l → l.total ≤ l.next → l.live = 0 →
    (∀ y ∈ s.slots, y.qcb = l.qcb → y.replay = none) → PlainQcb s l.qcb →
    ∃ t, exec (.launchCompletion l.id) s = .next t ∧ t.launches = s.launches.filter (fun y => y.id ≠ l.id) ∧
      field t l.qcb 0x48 8 = (field s l.qcb 0x48 8 + 1) % 2 ^ 64 ∧ t.w = s.w ∧
      ∀ b, outside s l.qcb b → plainByte t b = plainByte s b) ∧
  (∀ (s : State) (l : Launch) (x : Slot) (r : Replay), s.launches.find? (fun y => y.id = l.id) = some l →
    l.total ≤ l.next → l.live = 0 → l.replay = true → s.slots.find? (fun y => y.qcb = l.qcb) = some x →
    x.replay = some r → r.passes < 65535 → ∃ t st, exec (.launchCompletion l.id) s = .next t ∧ t.w = s.w ∧
      st ∈ t.replays ∧ st.slot = x.n ∧ st.sigN = r.sum ∧ (r.passes = 0 → st.sig1 = r.sum) ∧
      st.w0.toNat % 2 ^ 16 = r.passes + 1 ∧ t.launches = s.launches.filter fun y => y.id ≠ l.id) ∧
  ∀ (s : State) (id : Nat), (∀ l ∈ s.launches, l.id ≠ id) →
    (∀ x : Seed, s.seeds.find? (fun y => y.id = id) = some x → x.left = 0 → PlainQcb s x.qcb →
      ∃ t, exec (.launchCompletion id) s = .next t ∧ t.seeds = s.seeds.filter (fun y => y.id ≠ id) ∧
        field t x.qcb 0x48 8 = (field s x.qcb 0x48 8 + 1) % 2 ^ 64 ∧ t.w = s.w ∧
        ∀ b, outside s x.qcb b → plainByte t b = plainByte s b) ∧
    ∀ x : Xfer, (∀ y ∈ s.seeds, y.id ≠ id) → s.xfers.find? (fun y => y.id = id) = some x → x.kind = .packet →
      x.left = [] → ∃ t, exec (.launchCompletion id) s = .next t ∧
        t = { s with xfers := s.xfers.filter (fun y => y.id ≠ id), feTime := t.feTime, link := t.link, slots := t.slots }

/-- R276 to R278, R288, R289, R296, R297, R305, R316: a doorbell counts a wake in PEND and tells the mapped slot if its
ring holds work, else the Hasp; none comes while the link is down, and a map or unmapping waits for the link its queue
needs (log 28), and one of an address where nothing is is a fault of the model (log 53). EVT gives the oldest event, and
a thermal alarm is answered. QUEUE_MAP binds a context and gives the queue its slot in state 2, or reclaims the slot of
the lowest class holding a surplus that is mapped longest; FORCE_UNMAP stops the slot in state 3, and when it has
drained, a launch not begun is given back, one partly placed leaves RESUME and RNEXT, and the slot is released, the
queue ready again if it has work; a slot that has nothing to do is idle, and one without movement is recorded once. When
a map or an unmapping is taken is the model's reading (logs 29 and 32), as are the slot and detail of the Hasp's events
(log 19) and who answers an alarm (log 18). -/
def Obligations.QueueMappingResults : Prop :=
  (∀ (s : State) (q : Nat),
    (thereAt s q = false → exec (.doorbell q) s = .fault (.unmappedPhysical q)) ∧
    (thereAt s q = true → s.link.up = false → exec (.doorbell q) s = .next s) ∧
    (thereAt s q = true → s.link.up = true → PlainQcb s q → ∃ t, exec (.doorbell q) s = .next t ∧
      field t q 0x14 4 = 2 ^ 31 + (field s q 0x14 4 + 1) % 2 ^ 31 ∧ t.w = s.w ∧
      (∀ b, outside s q b → plainByte t b = plainByte s b) ∧
      (∀ x, s.slots.find? (fun y => y.qcb = q) = some x → t.hasp = s.hasp ∧ t.slots =
        if x.drain ≠ 0 ∨ field s q 0x0C 4 = field s q 0x10 4 then s.slots
        else s.slots.map fun y => if y.n = x.n then { x with idle := false, idleAt := s.clk.toNat } else y) ∧
      ((∀ x ∈ s.slots, x.qcb ≠ q) → t.slots = s.slots ∧ t.hasp.events = s.hasp.events ++ [⟨1, 0, 0, q⟩]))) ∧
  (∀ (s : State), (s.hasp.events = [] → exec .evtPop s = .next { s with hasp := { s.hasp with evt := 0 } }) ∧
    ∀ e q, s.hasp.events = e :: q →
      let popped : State := { s with hasp := { s.hasp with
        events := q, evq := BitVec.ofNat 64 e.qcb
        evt := BitVec.ofNat 32 (e.kind.toNat * 2 ^ 28 + e.slot.toNat * 2 ^ 20 + e.detail.toNat) } }
      let c : Fin 8 := Fin.ofNat 8 e.detail.toNat
      let now := (s.thermal[c]).tallow.toNat
      (e.kind ≠ 9 → exec .evtPop s = .next popped) ∧
      (e.kind = 9 → s.hasp.trsize = 0 → ∃ t, exec .evtPop s = .next t ∧
        t = { popped with
          thermal := s.thermal.set c { s.thermal[c] with
            tallow := BitVec.ofNat 7 (min now (max 40 (now - 10))), before := some ((s.thermal[c]).before.getD (s.thermal[c]).tallow) }
          hasp := { popped.hasp with pexcl := t.hasp.pexcl, pcur := t.hasp.pcur } } ∧
        ∀ n : Fin 384, (t.hasp.pexcl[n.val / 32]'(by omega)).getLsbD (n.val % 32) =
          ((s.hasp.pexcl[n.val / 32]'(by omega)).getLsbD (n.val % 32) || decide (n.val / 48 = c.val)))) ∧
  (∀ (s : State) (c : Fin 4) (x : Slot), reclaimSlot s c = some x →
    x ∈ s.slots ∧ x.drain = 0 ∧ 256 ≤ s.slots.length ∧ slotsHeld s c < (s.hasp.min[c]).toNat ∧
      (s.hasp.min[x.cls]).toNat < slotsHeld s x.cls ∧
      (∀ d : Fin 4, x.cls < d → slotsHeld s d ≤ (s.hasp.min[d]).toNat) ∧
      ∀ y ∈ s.slots, y.cls = x.cls → y.drain = 0 → x.mappedAt ≤ y.mappedAt) ∧
  (∀ (s : State) (slot : Fin 256),
    let q := s.hasp.mapq.toNat
    let ctx := field s q 0x1C 2
    let c := boundContext s q ctx
    let size := field s q 0x08 4
    let st := field s q 0x18 4 % 8
    let taken : Prop := st = 1 ∧ ∃ x, reclaimSlot s (qcbClass s q) = some x ∧ x.n = slot
    ((linkHolds s [q] = true ∨ s.boot.up = false ∨ (¬taken ∧ ((∃ x ∈ s.slots, x.n = slot) ∨ (∃ x ∈ s.slots, x.qcb = q) ∨ (st ≠ 0 ∧ st ≠ 1)))) →
      exec (.queueMap slot) s = .next s) ∧
    (linkHolds s [q] = false → s.boot.up = true → taken → s.hasp.trsize = 0 → (∀ x ∈ s.slots, ∀ y ∈ s.slots, x.n = y.n → x = y) →
      exec (.queueMap slot) s = exec (.forceUnmap slot) s) ∧
    (linkHolds s [q] = false → s.boot.up = true → (∀ x ∈ s.slots, x.n ≠ slot ∧ x.qcb ≠ q) → (st = 0 ∨ st = 1) → ctxOf s ctx = none →
      wtabOk s c.wtab.toNat = true → dbgRefused s c = false → (∃ n, 6 ≤ n ∧ n ≤ 24 ∧ size = 2 ^ n) → PlainQcb s q →
      s.hasp.trsize = 0 →
      ∃ t x, exec (.queueMap slot) s = .next t ∧ t.slots = s.slots ++ [x] ∧ x.n = slot ∧ x.qcb = q ∧ x.ctx = ctx ∧
        x.idle = false ∧ x.drain = 0 ∧ x.wait = none ∧ ctxOf t ctx = some c ∧ field t q 0x18 4 % 8 = 2 ∧
        field t q 0x34 4 = slot.val ∧ field t q 0x0C 4 = field s q 0x0C 4 ∧
        (∀ b, outside s q b → plainByte t b = plainByte s b) ∧ t.w = s.w)) ∧
  (∀ (s : State) (slot : Fin 256) (x : Slot), s.slots.find? (fun y => y.n = slot) = some x → PlainQcb s x.qcb →
    (x.drain ≠ 0 → exec (.forceUnmap slot) s = .next s) ∧
    (x.drain = 0 → s.hasp.trsize = 0 → ∃ t, exec (.forceUnmap slot) s = .next t ∧ field t x.qcb 0x18 4 % 8 = 3 ∧
      t = { s with mem := t.mem, monitors := t.monitors, lines := t.lines, link := t.link
                   slots := s.slots.map fun y => if y.n = x.n then { x with drain := 1 } else y } ∧
      ∀ b, outside s x.qcb b → plainByte t b = plainByte s b) ∧
    ((x.drain = 0 ∨ x.replay ≠ none ∨ sweeping s x = true ∨ linkHolds s [x.qcb] = true) →
      exec (.unmapComplete slot) s = .next s) ∧
    (∀ p, x.drain ≠ 0 → x.replay = none → sweeping s x = false → linkHolds s [x.qcb] = false → x.sweep = some p →
      exec (.unmapComplete slot) s = exec (.unmapComplete slot) (doneAtOnce { s with
        slots := s.slots.map fun y => if y.n = x.n then { x with sweep := none } else y } x p)) ∧
    (x.drain ≠ 0 → x.replay = none → x.wait = none → x.sweep = none → sweeping s x = false → linkHolds s [x.qcb] = false →
      s.hasp.trsize = 0 →
      let back := s.launches.find? fun l => l.qcb = x.qcb && !l.placed && l.next = 0
      let rest := s.launches.filter fun y => ∀ l, back = some l → y.id ≠ l.id
      let rd := match back with
        | some l => l.hdr.toNat
        | none => field s x.qcb 0x0C 4
      let begun := rest.find? fun l => l.qcb = x.qcb && !l.placed
      let more : Prop := 2 ^ 31 ≤ field s x.qcb 0x14 4 ∨ field s x.qcb 0x10 4 ≠ rd ∨ begun ≠ none
      ∃ t, exec (.unmapComplete slot) s = .next t ∧
        t.slots = s.slots.filter (fun y => y.n ≠ x.n) ∧ field t x.qcb 0x34 4 = 0xFFFF ∧
        field t x.qcb 0x14 4 = field s x.qcb 0x14 4 % 2 ^ 31 ∧ field t x.qcb 0x0C 4 = rd ∧
        field t x.qcb 0x40 8 = (field s x.qcb 0x40 8 + if back = none then 0 else 2 ^ 64 - 1) % 2 ^ 64 ∧
        (begun = none → field t x.qcb 0x70 4 = 0xFFFFFFFF ∧ field t x.qcb 0x74 4 = 0) ∧
        (∀ l, begun = some l → field t x.qcb 0x70 4 = l.hdr.toNat ∧ field t x.qcb 0x74 4 = l.next % 2 ^ 32) ∧
        (more → field t x.qcb 0x18 4 % 8 = 1 ∧ t.hasp.ready[x.cls] = s.hasp.ready[x.cls] ++ [x.qcb]) ∧
        (¬more → field t x.qcb 0x18 4 % 8 = 0 ∧ t.hasp.ready = s.hasp.ready) ∧ t.w = s.w ∧
        t.launches = (rest.map fun l => if l.qcb = x.qcb && !l.placed then { l with held := true } else l) ∧
        ∀ b, outside s x.qcb b → plainByte t b = plainByte s b) ∧
    (s.hasp.trsize = 0 →
      let rests : Prop := field s x.qcb 0x18 4 % 8 = 4 ∨ (field s x.qcb 0x0C 4 = field s x.qcb 0x10 4 ∧
        x.idleAt + 4096 ≤ s.clk.toNat ∧ ∀ l ∈ s.launches, l.qcb = x.qcb → l.held = true ∨ l.total ≤ l.next)
      ∃ a b : Bool, exec (.queueIdleTimeout slot) s = .next { s with
        slots := s.slots.map fun y => if y.n = x.n then { x with idle := a, stalled := b } else y } ∧
        (a = true ↔ x.idle = true ∨ rests) ∧ (b = true ↔ x.stalled = true ∨ x.movedAt + 2 ^ 30 ≤ s.clk.toNat)))

/-! ### Registers, the host, the pod -/

/-- R10, R304, R311 to R313, R154, R315, R316, R296: REGISTER_WRITE stores into the registers of the Hasp's window, the
monitors of cores and chiplets, the range registers and the thermal blocks, each keeping the bits it has, and into
nothing else; a write to VHIGH clears it, and one to a component out of service changes nothing. A new temperature sets
REFX above 85 °C and clears it below 82 °C; a crossing of ALARM upwards raises event 9, and 5 °C below ALARM what the
firmware did for one is undone. The thresholds in TEMP's unit and what a crossing is are the model's readings (log 16),
as are TEMP exactly 5 °C below ALARM and a TALLOW above 100 (log 62), and that a component out of service takes no write
(log 33). -/
def Obligations.DeviceRegisterResults : Prop :=
  (∀ (s : State) (c : Fin 8) (x : DWord),
    exec (.vhighClear c) s = .next { s with chips := s.chips.set c { s.chips[c] with vhigh := 0 } } ∧
    (chipletOn s c.val = false → ∀ o < 0x100, exec (.registerWrite (0x030000080000 + 0x100 * c.val + o) x) s = .next s) ∧
    (chipletOn s c.val = true →
    exec (.registerWrite (0x030000080004 + 0x100 * c.val) x) s = exec (.vhighClear c) s ∧
    exec (.registerWrite (0x030000080000 + 0x100 * c.val) x) s = .next s ∧
    exec (.registerWrite (0x030000080008 + 0x100 * c.val) x) s =
      .next { s with chips := s.chips.set c { s.chips[c] with vpool := x } } ∧
    exec (.registerWrite (0x030000080010 + 0x100 * c.val) x) s =
      .next { s with chips := s.chips.set c { s.chips[c] with merged := x } } ∧
    exec (.registerWrite (0x030000080018 + 0x100 * c.val) x) s =
      .next { s with chips := s.chips.set c { s.chips[c] with mcast := x } } ∧
    exec (.registerWrite (0x030000080020 + 0x100 * c.val) x) s =
      .next { s with chips := s.chips.set c { s.chips[c] with coarse := x.setWidth 32 } })) ∧
  (∀ (s : State) (x : DWord), let h := s.hasp
    let w : Word := x.setWidth 32
    exec (.registerWrite 0x40000010 x) s = .next { s with hasp := { h with mapq := h.mapq.extractLsb' 32 32 ++ w } } ∧
    exec (.registerWrite 0x40000014 x) s = .next { s with hasp := { h with mapq := w ++ h.mapq.extractLsb' 0 32 } } ∧
    exec (.registerWrite 0x40000030 x) s = .next { s with hasp := { h with pcur := x.setWidth 9 } } ∧
    exec (.registerWrite 0x40000034 x) s = .next { s with hasp := { h with seed := x.setWidth 3 } } ∧
    exec (.registerWrite 0x40000060 x) s =
      .next { s with hasp := { h with trbase := h.trbase.extractLsb' 32 32 ++ w } } ∧
    exec (.registerWrite 0x40000064 x) s =
      .next { s with hasp := { h with trbase := w ++ h.trbase.extractLsb' 0 32 } } ∧
    exec (.registerWrite 0x40000068 x) s = .next { s with hasp := { h with trsize := w } } ∧
    exec (.registerWrite 0x4000006C x) s = .next { s with hasp := { h with tridx := w } } ∧
    (∀ k : Fin 4, exec (.registerWrite (0x40000020 + 4 * k.val) x) s =
      .next { s with hasp := { h with min := h.min.set k (x.setWidth 9) } }) ∧
    ∀ k : Fin 12, exec (.registerWrite (0x40000080 + 4 * k.val) x) s =
      .next { s with hasp := { h with pexcl := h.pexcl.set k w } }) ∧
  (∀ (s : State) (n : Fin 384) (x : DWord), let c := coreOf s n
    ((coreMask s).getLsbD n = false → ∀ o < 0x400, exec (.registerWrite (0x030000000000 + 0x400 * n.val + o) x) s = .next s) ∧
    ((coreMask s).getLsbD n = true → ∀ (a : Nat) (c' : Core),
      ((∃ i : Fin 4, a = 8 * i.val ∧ c' = { c with cnt := c.cnt.set i (x.setWidth 48) }) ∨
        (∃ i : Fin 4, a = 0x20 + 4 * i.val ∧ countFree c.ctl[i] = false ∧
          c' = { c with ctl := c.ctl.set i (x.setWidth 7) }) ∨
        (∃ u : Fin 2, a = 0x40 + 0x80 * u.val ∧ histFree c.hist[u] = false ∧
          c' = { c with hist := c.hist.set u { c.hist[u] with
            shift := x.extractLsb' 8 8, en := x.getLsbD 4, log := x.getLsbD 3, src := x.extractLsb' 0 3 } }) ∨
        (∃ u : Fin 2, a = 0x44 + 0x80 * u.val ∧
          c' = { c with hist := c.hist.set u { c.hist[u] with base := x.setWidth 32 } })) →
      ∃ t, exec (.registerWrite (0x030000000000 + 0x400 * n.val + a) x) s = .next t ∧
        t = { s with cores := t.cores, freeCtr := t.freeCtr } ∧ coreOf t n = c' ∧
        ∀ d, d ≠ n → coreOf t d = coreOf s d)) ∧
  (∀ (s : State) (st : Fin 8) (ix : Fin 64) (k : Fin 4) (x : DWord), (∀ c, s.config = some c → c.hbm.getLsbD st = true) →
    ∃ t, exec (.registerWrite (0x030000100000 + 0x800 * st.val + 0x20 * ix.val + 8 * k.val) x) s = .next t ∧
      t = { s with ranges := t.ranges } ∧ (∀ d i, (d, i) ≠ (st, ix) → rangeAt t d i = rangeAt s d i) ∧
      let r := rangeAt s st ix
      rangeAt t st ix = match k with
        | 0 => { r with w0 := x &&& 0x800FFFFFFFFFFFFF }
        | 1 => { r with w1 := x }
        | 2 => { r with w2 := x }
        | 3 => { r with w3 := x &&& 0x000FFFFFFFFFFFFF }) ∧
  (∀ (s : State) (st : Fin 8) (x : DWord) (o : Nat) (c : ConfigRec), s.config = some c → c.hbm.getLsbD st = false →
    (o < 0x800 → exec (.registerWrite (0x030000100000 + 0x800 * st.val + o) x) s = .next s) ∧
    (o < 0x40 → exec (.registerWrite (0x030000180000 + 0x40 * st.val + o) x) s = .next s)) ∧
  (∀ (s : State) (st : Fin 8) (x : DWord), (∀ c, s.config = some c → c.hbm.getLsbD st = true) →
    exec (.registerWrite (0x030000180008 + 0x40 * st.val) x) s = .next { s with
      thermal := s.thermal.set st { s.thermal[st] with
        tallow := if x.toNat % 2 ^ 7 = 0 then 1 else x.setWidth 7 } } ∧
    exec (.registerWrite (0x03000018000C + 0x40 * st.val) x) s = .next { s with
      thermal := s.thermal.set st { s.thermal[st] with alarm := x.setWidth 12 } } ∧
    exec (.registerWrite (0x030000180000 + 0x40 * st.val) x) s = .next s) ∧
  ∀ (s : State) (st : Fin 8) (temp : BitVec 12), let x := s.thermal[st]
    exec (.thermalAlarm st temp) s = exec (.thermalRefreshThreshold st temp) s ∧
    ∃ t y, exec (.thermalRefreshThreshold st temp) s = .next t ∧
      t = { s with thermal := s.thermal.set st y
                   hasp := { s.hasp with events := t.hasp.events, pexcl := t.hasp.pexcl } } ∧
      y.temp = temp ∧ y.alarm = x.alarm ∧ (680 < temp.toNat → y.refx = true) ∧
      (temp.toNat < 656 → y.refx = false) ∧ (656 ≤ temp.toNat → temp.toNat ≤ 680 → y.refx = x.refx) ∧
      (x.temp ≤ x.alarm ∧ x.alarm < temp → t.hasp.events = s.hasp.events ++ [⟨9, 0, BitVec.ofNat 20 st.val, 0⟩] ∧
        y.tallow = x.tallow ∧ y.before = x.before ∧ t.hasp.pexcl = s.hasp.pexcl) ∧
      (¬(x.temp ≤ x.alarm ∧ x.alarm < temp) → t.hasp.events = s.hasp.events ∧
        ((x.before = none ∨ x.alarm.toNat ≤ temp.toNat + 40) → y.tallow = x.tallow ∧ y.before = x.before ∧
          t.hasp.pexcl = s.hasp.pexcl) ∧
        ∀ a, x.before = some a → temp.toNat + 40 < x.alarm.toNat → y.tallow = a ∧ y.before = none ∧
          ∀ n : Fin 384, (t.hasp.pexcl[n.val / 32]'(by omega)).getLsbD (n.val % 32) =
            ((s.hasp.pexcl[n.val / 32]'(by omega)).getLsbD (n.val % 32) && decide (n.val / 48 ≠ st.val)))

/-- R305, R149, R278, R302: a host read gives the bytes that stand at the address, or those of a line its side of the
link has read before and still holds; a host write to memory puts its bytes there, waking their monitors, changes no
other byte, and ends such copies; the view range and the range registers keep what they hold; a 64-bit write of the
doorbell register wakes a queue. With the link down nothing arrives (log 28). An address where nothing is is a fault of
the model (log 53). That the host does not write the range registers is the model's reading (log 35), as is which lines
its side holds (log 7). -/
def Obligations.HostAccessResults : Prop :=
  ∀ (s : State) (a : Nat) (bs : List Byte),
    let present : Prop := ∀ i < max bs.length 1, thereAt s (a + i) = true
    let got (b : List Byte) : State := { s with link := { s.link with read := b } }
    (∀ store, (∀ k < max bs.length 1, (∀ i < k, thereAt s (a + i) = true) → thereAt s (a + k) = false →
        exec (.hostAccess store a bs) s = .fault (.unmappedPhysical (a + k))) ∧
      (present → (s.link.up = false ∨ bs = []) → exec (.hostAccess store a bs) s = .next s)) ∧
    (present → s.link.up = true → bs ≠ [] →
      (physKind a ≠ some .device → ∃ t, exec (.hostAccess false a bs) s = .next t ∧
        t = { s with lines := t.lines, freeCtr := t.freeCtr, link := { s.link with read := t.link.read, buf := t.link.buf } } ∧
        t.link.read.length = bs.length ∧ ∀ i < bs.length,
          ((∀ c ∈ s.link.buf, c.1 ≠ (a + i) / 128) → t.link.read.getD i 0 = physByte s (a + i)) ∧
          (t.link.read.getD i 0 = physByte s (a + i) ∨
            ∃ c ∈ s.link.buf, c.1 = (a + i) / 128 ∧ t.link.read.getD i 0 = c.2.getD ((a + i) % 128) 0)) ∧
      (physKind a = some .view → exec (.hostAccess true a bs) s = .next s) ∧
      (physKind a ≠ some .device → physKind a ≠ some .view → ((span a bs.length).map (route s)).Nodup →
        ∃ t, exec (.hostAccess true a bs) s = .next t ∧
          t = { s with
            mem := t.mem, monitors := t.monitors, lines := t.lines, hazards := t.hazards, slots := t.slots
            link := { s.link with buf := s.link.buf.filter fun c => ∀ i < bs.length, (a + i) / 128 ≠ c.1 } } ∧
          (span a bs.length).map (plainByte t) = bs ∧
          (∀ b, (∀ i < bs.length, route s (a + i) ≠ route s b) → plainByte t b = plainByte s b) ∧
          ∀ m ∈ s.monitors, (∃ i < bs.length, route s m.addr ≤ route s (a + i) ∧
              route s (a + i) < route s m.addr + m.len) →
            ∃ m' ∈ t.monitors, m'.woken = true ∧ m' = { m with woken := true, at_ := m'.at_ })) ∧
    (s.link.up = true → bs.length = 8 →
      exec (.hostAccess true 0x030000200000 bs) s = .next (wakeQueue s (leNat bs))) ∧
    (s.link.up = true → bs.length = 4 →
      (∀ o < 0x4000, exec (.hostAccess true (0x030000100000 + o) bs) s = .next s) ∧
      (∀ o < 0x200, o % 4 = 0 → exec (.hostAccess true (0x030000180000 + o) bs) s =
        exec (.registerWrite (0x030000180000 + o) (BitVec.ofNat 64 (leNat bs))) s) ∧
      exec (.hostAccess false 0x030000200008 bs) s = .next (got (leBytes 4 (s.boot.stage.toNat * 2 ^ 8 +
        (if s.boot.att then 2 ^ 7 else 0) + if s.boot.up then 1 else 0))) ∧
      (∀ st : Fin 8, (∀ c, s.config = some c → c.hbm.getLsbD st = true) →
        exec (.hostAccess false (0x030000180000 + 0x40 * st.val) bs) s = .next (got (leBytes 4 s.thermal[st].temp.toNat))) ∧
      ∀ c : Fin 8, chipletOn s c.val = true → exec (.hostAccess false (0x030000080004 + 0x100 * c.val) bs) s =
        .next (got (leBytes 4 s.chips[c].vhigh.toNat)))

/-- R305, R306, R246: a peer's store and atomic are performed on the export region of the context with its ASID, its load
changes lines' times alone, an access that fails its checks is not performed, and one that meets a page to be moved or
brought in waits for it. A flit retry is counted; the link goes down and up, and what was posted meanwhile then arrives;
after 15,000,000 CCLK down the contexts whose queues lie in host memory end, those that do not depend on it go on. What
depends on the link, and what a peer's access does beyond R306, are the model's readings (logs 28 and 36). -/
def Obligations.PodAndLinkResults : Prop :=
  (∀ (s : State) (asid : BitVec 11) (ofs : Nat) (data : List Byte),
    ((∀ c ∈ s.ctxs, c.asid = asid → c.ended ≠ none) → ∀ op, exec (.podPeerAccess asid op ofs data) s = .next s) ∧
    ∀ (c : Context), s.ctxs.find? (fun c => c.asid = asid && c.ended.isNone) = some c →
      let va := (va57 c.pbase + ofs) % 2 ^ 57
      let acc : Accessor := { frontAcc c.ctx with sup := false }
      let apart (l : Loc) : Prop := l.vers = false ∧ (l.pas.map (route s)).Nodup ∧
        (∀ a ∈ l.pas, physKind a ≠ some .view) ∧ ∀ e ∈ l.entries, ∀ a ∈ l.pas, route s (e + 1) ≠ route s a
      let else_ (l : Loc) (t : State) : Prop :=
        t = { s with mem := t.mem, monitors := t.monitors, lines := t.lines, hazards := t.hazards, slots := t.slots } ∧
        ∀ b, (∀ a ∈ l.pas, route s a ≠ route s b) → (∀ e ∈ l.entries, route s (e + 1) ≠ route s b) →
          plainByte t b = plainByte s b
      (∀ n, (c.psize.toNat < ofs + n → exec (.podPeerAccess asid (.load n) ofs data) s = .next s) ∧
        (ofs + n ≤ c.psize.toNat → ∀ l, virtAcc s acc .load va n false = .ok l →
          ∃ t, exec (.podPeerAccess asid (.load n) ofs data) s = .next t ∧ t = { s with lines := t.lines })) ∧
      (c.psize.toNat < ofs + data.length → exec (.podPeerAccess asid .store ofs data) s = .next s) ∧
      (ofs + data.length ≤ c.psize.toNat →
        (∀ k, virtAcc s acc .store va data.length false = .error (.trap k) →
          exec (.podPeerAccess asid .store ofs data) s = .next s) ∧
        (∀ r, virtAcc s acc .store va data.length false = .error (.recov r) →
          ∃ t, exec (.podPeerAccess asid .store ofs data) s = .next t ∧
            t = { s with podWaits := s.podWaits ++ [⟨asid, .store, ofs, data⟩], services := t.services } ∧
            (r = 2 → t.services = s.services) ∧
            (r ≠ 0 → r ≠ 2 → ∃ v ∈ t.services, v.wave = 0 ∧ v.reason = r)) ∧
        ∀ l, virtAcc s acc .store va data.length false = .ok l → apart l → l.pas.length = data.length →
          ∃ t, exec (.podPeerAccess asid .store ofs data) s = .next t ∧ else_ l t ∧ l.pas.map (plainByte t) = data) ∧
      (ofs + 4 ≤ c.psize.toNat → ∀ (op : BitVec 4) (d : DWord) (l : Loc), virtAcc s acc .atomic va 4 false = .ok l →
        apart l → l.pas.length = 4 → ∃ t, exec (.podPeerAccess asid (.atomic op d) ofs data) s = .next t ∧ else_ l t ∧
          wordOf t l.pas = atomFn op (wordOf s l.pas) (d.setWidth 32) (BitVec.ofNat 32 (d.toNat / 2 ^ 32)))) ∧
  (∀ s : State, let l := s.link
    exec .linkFlitRetry s = .next { s with link := { l with retries := l.retries + 1 } } ∧
    (∃ t, exec .jenwaldLinkRestored s = .next t ∧
      t = { s with link := { l with up := true, posted := [], irqs := l.irqs ++ l.late, late := [] }
                   w := t.w, others := t.others, mem := t.mem, monitors := t.monitors, lines := t.lines, slots := t.slots } ∧
      (∀ b, (∀ c ∈ l.posted, route s c.1 ≠ route s b) → plainByte t b = plainByte s b) ∧
      ((l.posted.map fun c => route s c.1).Nodup → ∀ c ∈ l.posted, plainByte t c.1 = c.2) ∧
      ∀ n : Fin 4, ((∀ x, s.w.leaves[n].wait = some x → x.kind ≠ .link) → t.w.leaves[n] = s.w.leaves[n]) ∧
        ∀ x, s.w.leaves[n].wait = some x → x.kind = .link → t.w.leaves[n] = { s.w.leaves[n] with wait := none }) ∧
    (l.up = false → exec .jenwaldLinkLost s = .next s) ∧
    (l.up = true → exec .jenwaldLinkLost s = .next { s with link := { l with up := false, since := s.clk.toNat } }) ∧
    ((l.up = true ∨ s.clk.toNat < l.since + 15000000) → exec .linkDownTimeout s = .next s)) ∧
  ∀ s : State, s.link.up = false → s.link.since + 15000000 ≤ s.clk.toNat → ∃ t, exec .linkDownTimeout s = .next t ∧
    ∀ c ∈ s.ctxs, (∀ d ∈ s.ctxs, d.ctx = c.ctx → d = c) →
      (c.ended = none → (∃ q ∈ c.qcbs, physKind q = some .host) →
        ∃ c', ctxOf t c.ctx = some c' ∧ c'.ended = some 0x01FF0000) ∧
      (needsLink s c = false → ctxOf t c.ctx = some c)

/-! ### Boot -/

/-- R307 to R310: the boot steps in their order. Training done, a verified configuration record is applied, then verified
tables and image are loaded and the Hasp starts; a step that fails halts the boot with its number, and a step out of order
does nothing. With the Hasp's start the package cycle count begins. An attestation key takes an unused leaf of the identity
key, and a quote of a 32-byte nonce is signed at most 1,024 times in one boot. Signatures are LMS's, checked against the
digest the ROM holds; that a public key comes before its signature (log 12), the record's length, the image's limit and the
training's outcome as an input (log 17), the state the Hasp's core starts in (log 18), and that record, image and nonce come
over the link and so not while it is down (log 28) are the model's. -/
def Obligations.BootResults : Prop :=
  (∀ (s : State) (trained : Bool), let b := s.boot
    (b.on = true → exec (.resetBoot trained) s = .next s) ∧
    (b.on = false → exec (.resetBoot trained) s = .next { s with boot :=
      if trained then { b with on := true, step := 1 } else { b with on := true, stage := 1 } })) ∧
  (∀ (s : State) (record sig : List Byte), let b := s.boot
    let w (o : Nat) : Nat := leNat ((record.drop o).take 4)
    let cores := leNat ((record.drop 0x10).take 48)
    let legal : Prop := record.length = 0x44 ∧ w 0 = 0x504C4352 ∧ w 4 = 1 ∧ w 8 / 2 ^ 6 % 4 = 0 ∧ w 8 / 2 ^ 14 = 0 ∧
      w 0xC / 2 ^ 26 = 0 ∧ w 0x40 < 2 ∧ ∀ c < 8, w 0xC / 2 ^ c % 2 = 0 → cores / 2 ^ (48 * c) % 2 ^ 48 = 0
    ((b.on = false ∨ b.step ≠ 1 ∨ b.stage ≠ 0 ∨ s.link.up = false) →
      exec (.configRecordReceive record sig) s = .next s) ∧
    (b.on = true → b.step = 1 → b.stage = 0 → s.link.up = true →
      (romVerify record sig = true ∧ legal → exec (.configRecordReceive record sig) s = .next { s with
        boot := { b with step := 3 }
        config := some {
          pkg := BitVec.ofNat 6 (w 8), pod1 := BitVec.ofNat 6 (w 8 / 2 ^ 8), hbm := BitVec.ofNat 8 (w 0xC)
          ports := BitVec.ofNat 18 (w 0xC / 2 ^ 8), cores := BitVec.ofNat 384 cores
          debug := decide (w 0x40 % 2 = 1), bytes := record } }) ∧
      (¬(romVerify record sig = true ∧ legal) →
        exec (.configRecordReceive record sig) s = .next { s with boot := { b with stage := 2 } }))) ∧
  (∀ (s : State) (tabs tsig image isig : List Byte), let b := s.boot
    let good := romVerify tabs tsig = true ∧ tablesOk tabs = true ∧ romVerify image isig = true ∧
      image.length ≤ 0x40000
    ((b.on = false ∨ b.step ≠ 3 ∨ b.stage ≠ 0 ∨ s.link.up = false) →
      exec (.bootImageReceive tabs tsig image isig) s = .next s) ∧
    (b.on = true → b.step = 3 → b.stage = 0 → s.link.up = true →
      (¬good → exec (.bootImageReceive tabs tsig image isig) s = .next { s with boot := { b with stage := 4 } }) ∧
      (good → ∃ t tb, exec (.bootImageReceive tabs tsig image isig) s = .next t ∧ t = { s with
          clk := 0, tables := some tb, hasp := { s.hasp with image := image, core := t.hasp.core }, boot := t.boot } ∧
        t.hasp.core.run = true ∧ t.hasp.core.pc = 0 ∧ (∀ r : Fin 32, t.hasp.core.x[r] = 0) ∧
        (∀ a, memGet t.hasp.core.mem a = image.getD a 0) ∧
        tb.types = BitVec.ofNat 12 (leNat ((tabs.drop 8).take 4)) ∧
        (∀ c : Fin 4, tb.done[c] = BitVec.ofNat 16 (leNat ((tabs.drop (0x10 + 8 * c.val)).take 4)) ∧
          tb.err[c] = BitVec.ofNat 16 (leNat ((tabs.drop (0x10 + 8 * c.val)).take 4) / 2 ^ 16)) ∧
        (b.leaf < 1024 → t.boot = { b with step := 6, up := true, att := true, leaf := b.leaf + 1
                                           cert := some (b.leaf, b.leaf + 1) }) ∧
        (1024 ≤ b.leaf → t.boot = { b with step := 5, up := true, att := false, cert := none })))) ∧
  ∀ (s : State) (nonce : List Byte), let b := s.boot
    let q := nonce ++ sha256 ((s.config.map (·.bytes)).getD []) ++
      sha256 ((s.tables.map (·.bytes)).getD []) ++ sha256 s.hasp.image ++ Config.romVersion
    ((b.att = false ∨ 1024 ≤ b.quotes ∨ nonce.length ≠ 32 ∨ s.link.up = false) →
      exec (.attestationQuote nonce) s = .next s) ∧
    (b.att = true → b.quotes < 1024 → nonce.length = 32 → s.link.up = true → ∃ x : Signed,
      exec (.attestationQuote nonce) s = .next { s with
        boot := { b with quotes := b.quotes + 1, sent := b.sent ++ [x] } } ∧
      x.key = b.leaf ∧ x.leaf = b.quotes ∧ x.bytes = q ++ lmsSign b.leaf b.quotes q)

/-! ### The machine -/

/-- Reset (R154, R164, R296, R304, R307, R311 to R313, R315): no range is in force, the monitors count nothing, thermal
allowance is 100 with the alarm at 680, MIN is 64, the event queue is empty, the boot has done nothing and no context,
wave, launch or queue is there. That memory lists nothing, and so reads 0, and that the cycle count is 0 are the model's
choices (logs 1 and 3), and so are the values of the idle issuing wave (log 2). -/
def Obligations.ResetState : Prop :=
  let s := State.reset
  memWf s.mem = true ∧ (∀ a, memGet s.mem a = 0) ∧ s.clk = 0 ∧ s.feTime = 0 ∧ s.config = none ∧ s.tables = none ∧
  s.boot.step = 0 ∧ s.boot.stage = 0 ∧ s.boot.att = false ∧ s.boot.up = false ∧ s.boot.on = false ∧
  s.ctxs = [] ∧ s.others = [] ∧ s.launches = [] ∧ s.units = [] ∧ s.slots = [] ∧ s.rings = [] ∧ s.seeds = [] ∧
  s.xfers = [] ∧ s.poisoned = [] ∧ s.copies = [] ∧ s.monitors = [] ∧ s.coarse = [] ∧ s.stalled = [] ∧ s.podWaits = [] ∧
  s.moved = [] ∧ s.exchanges = [] ∧ s.tlb = [] ∧ s.hazards = [] ∧ s.link.posted = [] ∧ s.link.late = [] ∧
  s.boot.cert = none ∧ s.boot.sent = [] ∧ s.hasp.core.run = false ∧ s.link.buf = [] ∧
  s.hasp.events = [] ∧ s.hasp.pcur = 0 ∧ s.hasp.seed = 0 ∧
  (∀ c : Fin 4, s.hasp.min[c] = 64) ∧ (∀ k : Fin 12, s.hasp.pexcl[k] = 0) ∧
  (∀ (st : Fin 8) (ix : Fin 64), rangeAt s st ix = ⟨st, ix, 0, 0, 0, 0⟩) ∧
  (∀ st : Fin 8, s.thermal[st].refx = false ∧ s.thermal[st].tallow = 100 ∧ s.thermal[st].alarm = 680) ∧
  (∀ c : Fin 8, s.chips[c] = ⟨0, 0, 0, 0, 0⟩ ∧ versLines s c.val = 0) ∧
  (∀ n : Fin 384, ltOf s n = 0 ∧ (∀ i : Fin 4, (coreOf s n).cnt[i] = 0 ∧ (coreOf s n).ctl[i] = 0) ∧
    ∀ u : Fin 2, (coreOf s n).hist[u].en = false ∧ (coreOf s n).hist[u].min = 0xFFFFFFFF ∧
      (coreOf s n).hist[u].max = 0 ∧ ∀ b : Fin 16, (coreOf s n).hist[u].bins[b] = 0) ∧
  (∀ r : Fin 32, s.w.r.s[r] = 0) ∧ (∀ r : Fin 88, s.w.r.v[r] = Vector.replicate 32 0) ∧
  (∀ k : Fin 16, s.w.r.k[k] = 0) ∧ s.w.id = 0 ∧ s.agenda = []

/-- R33, R35, R47, R48, R54 to R64: words the spec writes out decode to the instructions it writes beside them. -/
def Obligations.SpecWordsDecode : Prop :=
  ∀ x ∈ ([
    (0x0056EDFE, 0x00000001, .sadd false (.s 3) (.s 3) (.lit 1)),
    (0x01AA2D5B, 0, .scmp ⟨false, 0⟩ 5 0 (.s 2) (.s 3)),
    (0x0400815C, 0, .vadd64 ⟨false, 0⟩ (.v 2) (.v 2) (.s 4)),
    (0x34204103, 0, .vsel ⟨false, 3⟩ (.v 1) (.v 2) (.v 3)),
    (0x046D445B, 0, .vcmpn ⟨false, 0⟩ 6 5 (.v 8) (.s 3)),
    (0x65658A21, 0, .vsegscan ⟨false, 6⟩ (.v 22) (.v 20) 2 1),
    (0x0662867E, 0xBF000000, .vfma ⟨false, 0⟩ (.v 10) (.v 12) (.lit 0xBF000000)),
    (0x0700C155, 0, .vcvt ⟨false, 0⟩ (.v 3) (.v 2) 5 2 true),
    (0x0820C184, 0, .kor false 3 3 4),
    (0x0A03FFFC, 0, .bra ⟨false, 0⟩ 1 0x1FFFC),
    (0x0ABF8003, 0x00000006, .loop false (.lit 6) 3),
    (0x0B372C7F, 0x64000015, .spawn ⟨false, 0⟩ (.s 4) (.s 0) 12 true 0x15),
    (0x0C01ED7F, 0x00040110, .ld ⟨false, 0⟩ (.v 7) (.s 2) ⟨0x40, 0, true, 0, true⟩),
    (0x3C576F7F, 0x0000C710, .atom ⟨false, 3⟩ (.s 5) (.s 6) ⟨12, 7, true⟩),
    (0x0CC0C482, 0, .fencex ⟨false, 0⟩ 3 9 2),
    (0x0D603001, 0, .hypres ⟨false, 0⟩ (.s 8) true),
    (0x0DE02F60, 0, .lexp ⟨false, 0⟩ false (.s 6) (.s 8)),
    (0x0EDE7200, 0, .qbind ⟨false, 0⟩ (.q 1) (.s 12)),
    (0x0EF9357F, 0xA1300000, .cpy ⟨false, 0⟩ (.s 12) (.s 18) ⟨20, 4, true, true, 0⟩),
    (0x0F80367F, 0x20FF4000, .mstream ⟨false, 0⟩ (.s 20) 0 0 63 true true 1),
    (0x1FA00000, 0, .trap ⟨false, 1⟩ 0),
    (0x0FA57003, 0, .sysw false 0x15 (.s 8))] : List (Word × Word × Instr)),
    decode 0 x.1 x.2.1 = .ok x.2.2 ∧ encode x.2.2 = x.1 :: (if wordCount x.1 = 2 then [x.2.1] else [])

/-- R38, R70, R77, R83, R95, R103, R236, R237: a step of the agenda's agents is that step's meaning, but a boundary step
of a wave whose next chain ends in a precise trap, which does not arise; the cycles it takes count for the waves that
idle. With the agenda empty, when the issuing wave's next cycle is an agent's word, the bytes at its PC decode to a
well-formed instruction, and the scoreboard does not hold it, the step is the meaning of that instruction, with the
agent's PC at its word and the next behind it; then the word is counted, the cycle ends, the cycles the spec leaves open
pass, waiting waves age, and the agenda is filled. That outside steps come in through the agenda, and its order, are the
model's choice (log 4), as are those cycles (log 3). -/
def Obligations.StepRunsTheDecodedInstruction : Prop :=
  (∀ (s : State) (i : Instr) (rest : List Instr), s.agenda = i :: rest → (∀ w n, i ≠ .leafTurn w n) →
    ((∀ w, i ≠ .eventDelivery w ∧ i ≠ .starvationOverride w ∧ i ≠ .trapEntry w) →
      step s = idling s (exec i { s with agenda := rest })) ∧
    ∀ w, (i = .eventDelivery w ∨ i = .starvationOverride w ∨ i = .trapEntry w) →
      let s1 := focus { s with agenda := rest } w
      step s = idling s (if w ≠ 0 ∧ s1.w.id = w ∧ precedesBoundary exec s1 = true then .next { s with agenda := rest }
        else exec i { s with agenda := rest })) ∧
  (∀ (s t : State), idling s (.next t) = .next (countIdle s t) ∧ (countIdle s t).w = { t.w with idle := (countIdle s t).w.idle } ∧
    countIdle s t = { t with w := (countIdle s t).w, others := (countIdle s t).others } ∧
    (t.w.idles = true → (countIdle s t).w.idle = t.w.idle + (t.clk - s.clk).toNat)) ∧
  ∀ (s : State) (a : Agent) (pc word next : Word) (i : Instr),
    let counts : Nat := if isHret i then 0 else 1
    let s0 : State := match a with
      | .handler => { s with w := { s.w with hcount := s.w.hcount + counts } }
      | _ => s
    let nxt := pc + BitVec.ofNat 32 (4 * wordCount word)
    let counted (t : State) : State :=
      if t.w.iss.fault.isSome = true ∨ t.w.iss.redo = true then t
      else countWords (if t.w.id ≠ s.w.id then t else standAt t pc) s.w.core [⟨pc, word, i, nxt⟩]
    s.agenda = [] → pickWave s = some s.w → AgentDue s a pc counts → DecodesAt (issuing s0 a pc pc) pc word next i →
    scoreHolds (issuing s0 a pc pc) [⟨pc, word, i, nxt⟩] = false →
    (∀ t, exec i (issuing s0 a pc nxt) = .next t →
      let u := cycleEnd s a (counted t) counts
      step s = .next (endOfCycle s (countWaits s.w (u.clk - s.clk).toNat s u))) ∧
    (∀ f, exec i (issuing s0 a pc nxt) = .fault f → step s = .fault f) ∧
    ∀ r, exec i (issuing s0 a pc nxt) = .refused r → step s = .refused r

/-- R33 to R35, R46 to R64: encoding loses nothing. Every well-formed instruction word decodes, in slots 0 and 1, to the
instruction it encodes, with every operand at every value its role admits; and a word that decodes to a well-formed
instruction is that instruction's encoding, its trailing word included. -/
def Obligations.DecodeInvertsEncode : Prop :=
  (∀ (slot : Nat) (i : Instr), slot < 2 → i.wellFormed = true → i.isWord = true →
    (∀ w, i = .unassignedOpcode w → opAssigned (opOf w) = false ∨ (opOf w = 0x7D ∧ sysAssigned (bOf w) = false)) →
    ∃ w r, encode i = w :: r ∧ decode slot w (trailingWord (encode i)) = .ok i) ∧
  ∀ (slot : Nat) (w next : Word) (i : Instr), decode slot w next = .ok i → i.wellFormed = true →
    (∀ x, i ≠ .unassignedOpcode x) → encode i = w :: (if wordCount w = 2 then [next] else [])

/-- R149, R164: memory keeps its canonical form (log 1): in every state whose memory lists rising addresses with bytes
other than the default, whatever step runs, the next state's memory does so too. -/
def Obligations.MemoryKeepsCanonicalForm : Prop :=
  ∀ s t : State, memWf s.mem = true → step s = .next t → memWf t.mem = true
end

