-- ==== Sys2Proof/Laws/State.lean ====
section
/-!
SUPPORT. What an update of the issuing wave leaves in each field of the state, and what the updates of Safety read back.
-/

namespace Sys2Proof.Machine

/-! ### The issuing wave's record -/

@[simp] theorem updW_w (s : State) (f : Wave → Wave) : (updW s f).w = f s.w := rfl
@[simp] theorem updW_others (s : State) (f : Wave → Wave) : (updW s f).others = s.others := rfl
@[simp] theorem updW_agenda (s : State) (f : Wave → Wave) : (updW s f).agenda = s.agenda := rfl
@[simp] theorem updW_freeCtr (s : State) (f : Wave → Wave) : (updW s f).freeCtr = s.freeCtr := rfl
@[simp] theorem updW_nextId (s : State) (f : Wave → Wave) : (updW s f).nextId = s.nextId := rfl
@[simp] theorem updW_clk (s : State) (f : Wave → Wave) : (updW s f).clk = s.clk := rfl
@[simp] theorem updW_mem (s : State) (f : Wave → Wave) : (updW s f).mem = s.mem := rfl
@[simp] theorem updW_lines (s : State) (f : Wave → Wave) : (updW s f).lines = s.lines := rfl
@[simp] theorem updW_copies (s : State) (f : Wave → Wave) : (updW s f).copies = s.copies := rfl
@[simp] theorem updW_poisoned (s : State) (f : Wave → Wave) : (updW s f).poisoned = s.poisoned := rfl
@[simp] theorem updW_monitors (s : State) (f : Wave → Wave) : (updW s f).monitors = s.monitors := rfl
@[simp] theorem updW_coarse (s : State) (f : Wave → Wave) : (updW s f).coarse = s.coarse := rfl
@[simp] theorem updW_cores (s : State) (f : Wave → Wave) : (updW s f).cores = s.cores := rfl
@[simp] theorem updW_xfers (s : State) (f : Wave → Wave) : (updW s f).xfers = s.xfers := rfl
@[simp] theorem updW_pods (s : State) (f : Wave → Wave) : (updW s f).pods = s.pods := rfl
@[simp] theorem updW_exchanges (s : State) (f : Wave → Wave) : (updW s f).exchanges = s.exchanges := rfl
@[simp] theorem updW_stalled (s : State) (f : Wave → Wave) : (updW s f).stalled = s.stalled := rfl
@[simp] theorem updW_podWaits (s : State) (f : Wave → Wave) : (updW s f).podWaits = s.podWaits := rfl
@[simp] theorem updW_services (s : State) (f : Wave → Wave) : (updW s f).services = s.services := rfl
@[simp] theorem updW_hazards (s : State) (f : Wave → Wave) : (updW s f).hazards = s.hazards := rfl
@[simp] theorem updW_ranges (s : State) (f : Wave → Wave) : (updW s f).ranges = s.ranges := rfl
@[simp] theorem updW_shootSeq (s : State) (f : Wave → Wave) : (updW s f).shootSeq = s.shootSeq := rfl
@[simp] theorem updW_ctxs (s : State) (f : Wave → Wave) : (updW s f).ctxs = s.ctxs := rfl
@[simp] theorem updW_launches (s : State) (f : Wave → Wave) : (updW s f).launches = s.launches := rfl
@[simp] theorem updW_units (s : State) (f : Wave → Wave) : (updW s f).units = s.units := rfl
@[simp] theorem updW_rings (s : State) (f : Wave → Wave) : (updW s f).rings = s.rings := rfl
@[simp] theorem updW_seeds (s : State) (f : Wave → Wave) : (updW s f).seeds = s.seeds := rfl
@[simp] theorem updW_slots (s : State) (f : Wave → Wave) : (updW s f).slots = s.slots := rfl
@[simp] theorem updW_replays (s : State) (f : Wave → Wave) : (updW s f).replays = s.replays := rfl
@[simp] theorem updW_hasp (s : State) (f : Wave → Wave) : (updW s f).hasp = s.hasp := rfl
@[simp] theorem updW_feTime (s : State) (f : Wave → Wave) : (updW s f).feTime = s.feTime := rfl
@[simp] theorem updW_packRot (s : State) (f : Wave → Wave) : (updW s f).packRot = s.packRot := rfl
@[simp] theorem updW_config (s : State) (f : Wave → Wave) : (updW s f).config = s.config := rfl
@[simp] theorem updW_tables (s : State) (f : Wave → Wave) : (updW s f).tables = s.tables := rfl
@[simp] theorem updW_boot (s : State) (f : Wave → Wave) : (updW s f).boot = s.boot := rfl
@[simp] theorem updW_link (s : State) (f : Wave → Wave) : (updW s f).link = s.link := rfl
@[simp] theorem updW_thermal (s : State) (f : Wave → Wave) : (updW s f).thermal = s.thermal := rfl
@[simp] theorem updW_chips (s : State) (f : Wave → Wave) : (updW s f).chips = s.chips := rfl

@[simp] theorem updW_updW (s : State) (f g : Wave → Wave) : updW (updW s f) g = updW s fun w => g (f w) := rfl

/-! ### The issue record -/

@[simp] theorem updIss_iss (s : State) (f : Issue → Issue) : (updIss s f).w.iss = f s.w.iss := rfl
@[simp] theorem updIss_w_id (s : State) (f : Issue → Issue) : (updIss s f).w.id = s.w.id := rfl
@[simp] theorem updIss_w_ctx (s : State) (f : Issue → Issue) : (updIss s f).w.ctx = s.w.ctx := rfl
@[simp] theorem updIss_w_unit (s : State) (f : Issue → Issue) : (updIss s f).w.unit = s.w.unit := rfl
@[simp] theorem updIss_w_member (s : State) (f : Issue → Issue) : (updIss s f).w.member = s.w.member := rfl
@[simp] theorem updIss_w_core (s : State) (f : Issue → Issue) : (updIss s f).w.core = s.w.core := rfl
@[simp] theorem updIss_w_quad (s : State) (f : Issue → Issue) : (updIss s f).w.quad = s.w.quad := rfl
@[simp] theorem updIss_w_res (s : State) (f : Issue → Issue) : (updIss s f).w.res = s.w.res := rfl
@[simp] theorem updIss_w_task (s : State) (f : Issue → Issue) : (updIss s f).w.task = s.w.task := rfl
@[simp] theorem updIss_w_age (s : State) (f : Issue → Issue) : (updIss s f).w.age = s.w.age := rfl
@[simp] theorem updIss_w_waitCtr (s : State) (f : Issue → Issue) : (updIss s f).w.waitCtr = s.w.waitCtr := rfl
@[simp] theorem updIss_w_r (s : State) (f : Issue → Issue) : (updIss s f).w.r = s.w.r := rfl
@[simp] theorem updIss_w_sr (s : State) (f : Issue → Issue) : (updIss s f).w.sr = s.w.sr := rfl
@[simp] theorem updIss_w_ports (s : State) (f : Issue → Issue) : (updIss s f).w.ports = s.w.ports := rfl
@[simp] theorem updIss_w_leaves (s : State) (f : Issue → Issue) : (updIss s f).w.leaves = s.w.leaves := rfl
@[simp] theorem updIss_w_loops (s : State) (f : Issue → Issue) : (updIss s f).w.loops = s.w.loops := rfl
@[simp] theorem updIss_w_rot (s : State) (f : Issue → Issue) : (updIss s f).w.rot = s.w.rot := rfl
@[simp] theorem updIss_w_lpc (s : State) (f : Issue → Issue) : (updIss s f).w.lpc = s.w.lpc := rfl
@[simp] theorem updIss_w_cur (s : State) (f : Issue → Issue) : (updIss s f).w.cur = s.w.cur := rfl
@[simp] theorem updIss_w_park (s : State) (f : Issue → Issue) : (updIss s f).w.park = s.w.park := rfl
@[simp] theorem updIss_w_reason (s : State) (f : Issue → Issue) : (updIss s f).w.reason = s.w.reason := rfl
@[simp] theorem updIss_w_faultLf (s : State) (f : Issue → Issue) : (updIss s f).w.faultLf = s.w.faultLf := rfl
@[simp] theorem updIss_w_orphan (s : State) (f : Issue → Issue) : (updIss s f).w.orphan = s.w.orphan := rfl
@[simp] theorem updIss_w_notified (s : State) (f : Issue → Issue) : (updIss s f).w.notified = s.w.notified := rfl
@[simp] theorem updIss_w_absent (s : State) (f : Issue → Issue) : (updIss s f).w.absent = s.w.absent := rfl
@[simp] theorem updIss_w_fparked (s : State) (f : Issue → Issue) : (updIss s f).w.fparked = s.w.fparked := rfl
@[simp] theorem updIss_w_starved (s : State) (f : Issue → Issue) : (updIss s f).w.starved = s.w.starved := rfl
@[simp] theorem updIss_w_starve (s : State) (f : Issue → Issue) : (updIss s f).w.starve = s.w.starve := rfl
@[simp] theorem updIss_w_resumes (s : State) (f : Issue → Issue) : (updIss s f).w.resumes = s.w.resumes := rfl
@[simp] theorem updIss_w_evOrder (s : State) (f : Issue → Issue) : (updIss s f).w.evOrder = s.w.evOrder := rfl
@[simp] theorem updIss_w_override (s : State) (f : Issue → Issue) : (updIss s f).w.override = s.w.override := rfl
@[simp] theorem updIss_w_seq104 (s : State) (f : Issue → Issue) : (updIss s f).w.seq104 = s.w.seq104 := rfl
@[simp] theorem updIss_w_at104 (s : State) (f : Issue → Issue) : (updIss s f).w.at104 = s.w.at104 := rfl
@[simp] theorem updIss_w_hcounts (s : State) (f : Issue → Issue) : (updIss s f).w.hcounts = s.w.hcounts := rfl
@[simp] theorem updIss_w_mode (s : State) (f : Issue → Issue) : (updIss s f).w.mode = s.w.mode := rfl
@[simp] theorem updIss_w_hpc (s : State) (f : Issue → Issue) : (updIss s f).w.hpc = s.w.hpc := rfl
@[simp] theorem updIss_w_hcount (s : State) (f : Issue → Issue) : (updIss s f).w.hcount = s.w.hcount := rfl
@[simp] theorem updIss_w_hwait (s : State) (f : Issue → Issue) : (updIss s f).w.hwait = s.w.hwait := rfl
@[simp] theorem updIss_w_sup (s : State) (f : Issue → Issue) : (updIss s f).w.sup = s.w.sup := rfl
@[simp] theorem updIss_w_supLoops (s : State) (f : Issue → Issue) : (updIss s f).w.supLoops = s.w.supLoops := rfl
@[simp] theorem updIss_w_supHinge (s : State) (f : Issue → Issue) : (updIss s f).w.supHinge = s.w.supHinge := rfl
@[simp] theorem updIss_w_supFault (s : State) (f : Issue → Issue) : (updIss s f).w.supFault = s.w.supFault := rfl
@[simp] theorem updIss_w_held (s : State) (f : Issue → Issue) : (updIss s f).w.held = s.w.held := rfl
@[simp] theorem updIss_w_pending (s : State) (f : Issue → Issue) : (updIss s f).w.pending = s.w.pending := rfl
@[simp] theorem updIss_w_follow (s : State) (f : Issue → Issue) : (updIss s f).w.follow = s.w.follow := rfl
@[simp] theorem updIss_w_blk (s : State) (f : Issue → Issue) : (updIss s f).w.blk = s.w.blk := rfl
@[simp] theorem updIss_w_lastTime (s : State) (f : Issue → Issue) : (updIss s f).w.lastTime = s.w.lastTime := rfl
@[simp] theorem updIss_w_cycles (s : State) (f : Issue → Issue) : (updIss s f).w.cycles = s.w.cycles := rfl
@[simp] theorem updIss_w_idle (s : State) (f : Issue → Issue) : (updIss s f).w.idle = s.w.idle := rfl
@[simp] theorem updIss_w_kdesc (s : State) (f : Issue → Issue) : (updIss s f).w.kdesc = s.w.kdesc := rfl
@[simp] theorem updIss_w_code (s : State) (f : Issue → Issue) : (updIss s f).w.code = s.w.code := rfl
@[simp] theorem updIss_w_lpriv (s : State) (f : Issue → Issue) : (updIss s f).w.lpriv = s.w.lpriv := rfl
@[simp] theorem updIss_w_qcb (s : State) (f : Issue → Issue) : (updIss s f).w.qcb = s.w.qcb := rfl
@[simp] theorem updIss_w_hdr (s : State) (f : Issue → Issue) : (updIss s f).w.hdr = s.w.hdr := rfl
@[simp] theorem updIss_w_seeds (s : State) (f : Issue → Issue) : (updIss s f).w.seeds = s.w.seeds := rfl
@[simp] theorem updIss_w_sig (s : State) (f : Issue → Issue) : (updIss s f).w.sig = s.w.sig := rfl
@[simp] theorem updIss_w_perf (s : State) (f : Issue → Issue) : (updIss s f).w.perf = s.w.perf := rfl
@[simp] theorem updIss_w_saved (s : State) (f : Issue → Issue) : (updIss s f).w.saved = s.w.saved := rfl
@[simp] theorem updIss_others (s : State) (f : Issue → Issue) : (updIss s f).others = s.others := rfl
@[simp] theorem updIss_agenda (s : State) (f : Issue → Issue) : (updIss s f).agenda = s.agenda := rfl
@[simp] theorem updIss_freeCtr (s : State) (f : Issue → Issue) : (updIss s f).freeCtr = s.freeCtr := rfl
@[simp] theorem updIss_nextId (s : State) (f : Issue → Issue) : (updIss s f).nextId = s.nextId := rfl
@[simp] theorem updIss_clk (s : State) (f : Issue → Issue) : (updIss s f).clk = s.clk := rfl
@[simp] theorem updIss_mem (s : State) (f : Issue → Issue) : (updIss s f).mem = s.mem := rfl
@[simp] theorem updIss_lines (s : State) (f : Issue → Issue) : (updIss s f).lines = s.lines := rfl
@[simp] theorem updIss_copies (s : State) (f : Issue → Issue) : (updIss s f).copies = s.copies := rfl
@[simp] theorem updIss_poisoned (s : State) (f : Issue → Issue) : (updIss s f).poisoned = s.poisoned := rfl
@[simp] theorem updIss_monitors (s : State) (f : Issue → Issue) : (updIss s f).monitors = s.monitors := rfl
@[simp] theorem updIss_coarse (s : State) (f : Issue → Issue) : (updIss s f).coarse = s.coarse := rfl
@[simp] theorem updIss_cores (s : State) (f : Issue → Issue) : (updIss s f).cores = s.cores := rfl
@[simp] theorem updIss_xfers (s : State) (f : Issue → Issue) : (updIss s f).xfers = s.xfers := rfl
@[simp] theorem updIss_pods (s : State) (f : Issue → Issue) : (updIss s f).pods = s.pods := rfl
@[simp] theorem updIss_exchanges (s : State) (f : Issue → Issue) : (updIss s f).exchanges = s.exchanges := rfl
@[simp] theorem updIss_stalled (s : State) (f : Issue → Issue) : (updIss s f).stalled = s.stalled := rfl
@[simp] theorem updIss_podWaits (s : State) (f : Issue → Issue) : (updIss s f).podWaits = s.podWaits := rfl
@[simp] theorem updIss_services (s : State) (f : Issue → Issue) : (updIss s f).services = s.services := rfl
@[simp] theorem updIss_hazards (s : State) (f : Issue → Issue) : (updIss s f).hazards = s.hazards := rfl
@[simp] theorem updIss_ranges (s : State) (f : Issue → Issue) : (updIss s f).ranges = s.ranges := rfl
@[simp] theorem updIss_shootSeq (s : State) (f : Issue → Issue) : (updIss s f).shootSeq = s.shootSeq := rfl
@[simp] theorem updIss_ctxs (s : State) (f : Issue → Issue) : (updIss s f).ctxs = s.ctxs := rfl
@[simp] theorem updIss_launches (s : State) (f : Issue → Issue) : (updIss s f).launches = s.launches := rfl
@[simp] theorem updIss_units (s : State) (f : Issue → Issue) : (updIss s f).units = s.units := rfl
@[simp] theorem updIss_rings (s : State) (f : Issue → Issue) : (updIss s f).rings = s.rings := rfl
@[simp] theorem updIss_seeds (s : State) (f : Issue → Issue) : (updIss s f).seeds = s.seeds := rfl
@[simp] theorem updIss_slots (s : State) (f : Issue → Issue) : (updIss s f).slots = s.slots := rfl
@[simp] theorem updIss_replays (s : State) (f : Issue → Issue) : (updIss s f).replays = s.replays := rfl
@[simp] theorem updIss_hasp (s : State) (f : Issue → Issue) : (updIss s f).hasp = s.hasp := rfl
@[simp] theorem updIss_feTime (s : State) (f : Issue → Issue) : (updIss s f).feTime = s.feTime := rfl
@[simp] theorem updIss_packRot (s : State) (f : Issue → Issue) : (updIss s f).packRot = s.packRot := rfl
@[simp] theorem updIss_config (s : State) (f : Issue → Issue) : (updIss s f).config = s.config := rfl
@[simp] theorem updIss_tables (s : State) (f : Issue → Issue) : (updIss s f).tables = s.tables := rfl
@[simp] theorem updIss_boot (s : State) (f : Issue → Issue) : (updIss s f).boot = s.boot := rfl
@[simp] theorem updIss_link (s : State) (f : Issue → Issue) : (updIss s f).link = s.link := rfl
@[simp] theorem updIss_thermal (s : State) (f : Issue → Issue) : (updIss s f).thermal = s.thermal := rfl
@[simp] theorem updIss_chips (s : State) (f : Issue → Issue) : (updIss s f).chips = s.chips := rfl

@[simp] theorem setNext_next (s : State) (pc : Word) : (setNext s pc).w.iss.next = pc := rfl
@[simp] theorem setNext_mem (s : State) (pc : Word) : (setNext s pc).mem = s.mem := rfl

end Sys2Proof.Machine
end

