-- ==== Sys2Proof/Laws/Memory.lean ====
section
/-!
SUPPORT. The byte list: reading back what was written, and the canonical form every operation keeps.
-/

namespace Sys2Proof.Machine

/-! ### The canonical form -/

/-- The canonical form, as one property of the entries and one of their order. -/
theorem memWf_iff (m : List Host.Cell) :
    memWf m = true ↔ (∀ c ∈ m, c.2 ≠ memDefault) ∧ m.Pairwise fun a b => a.1 < b.1 := by
  induction m with
  | nil => simp [memWf]
  | cons c t ih =>
    obtain ⟨a, x⟩ := c
    cases t with
    | nil => simp [memWf]
    | cons d t =>
      obtain ⟨b, y⟩ := d
      simp only [memWf, Bool.and_eq_true, decide_eq_true_eq, ih, List.pairwise_cons, List.mem_cons, forall_eq_or_imp]
      constructor
      · rintro ⟨⟨hx, hab⟩, ⟨hy, ht⟩, hp, hq⟩
        exact ⟨⟨hx, hy, ht⟩, ⟨hab, fun c hc => Nat.lt_trans hab (hp c hc)⟩, hp, hq⟩
      · rintro ⟨⟨hx, hy, ht⟩, ⟨hab, _⟩, hp, hq⟩
        exact ⟨⟨hx, hab⟩, ⟨hy, ht⟩, hp, hq⟩

@[simp] theorem memWf_nil : memWf [] = true := rfl

/-- Leaving entries out keeps the form. -/
theorem memWf_filter (m : List Host.Cell) (p : Host.Cell → Bool) (h : memWf m = true) : memWf (m.filter p) = true := by
  rw [memWf_iff] at *
  exact ⟨fun c hc => h.1 c (List.mem_filter.1 hc).1, h.2.sublist List.filter_sublist⟩

theorem mem_memIns (a : Nat) (x : Byte) (m : List Host.Cell) (c : Host.Cell) (h : c ∈ memIns a x m) :
    c = (a, x) ∨ c ∈ m := by
  induction m with
  | nil => simpa [memIns] using h
  | cons d t ih =>
    obtain ⟨b, y⟩ := d
    simp only [memIns] at h
    split at h
    · simpa using h
    · split at h
      · rcases List.mem_cons.1 h with h | h
        · exact .inl h
        · exact .inr (List.mem_cons_of_mem _ h)
      · rcases List.mem_cons.1 h with h | h
        · exact .inr (h ▸ List.mem_cons_self)
        · rcases ih h with h | h
          · exact .inl h
          · exact .inr (List.mem_cons_of_mem _ h)

theorem memWf_memIns (a : Nat) (x : Byte) (m : List Host.Cell) (hx : x ≠ memDefault) (h : memWf m = true) :
    memWf (memIns a x m) = true := by
  rw [memWf_iff] at *
  refine ⟨fun c hc => ?_, ?_⟩
  · rcases mem_memIns a x m c hc with rfl | hc
    · exact hx
    · exact h.1 c hc
  · have hp := h.2
    clear h
    induction m with
    | nil => simp [memIns]
    | cons d t ih =>
      obtain ⟨b, y⟩ := d
      rw [List.pairwise_cons] at hp
      simp only [memIns]
      split
      · rename_i hab
        refine List.pairwise_cons.2 ⟨fun c hc => ?_, List.pairwise_cons.2 hp⟩
        rcases List.mem_cons.1 hc with rfl | hc
        · exact hab
        · exact Nat.lt_trans hab (hp.1 c hc)
      · split
        · rename_i hab
          subst hab
          exact List.pairwise_cons.2 hp
        · rename_i h1 h2
          refine List.pairwise_cons.2 ⟨fun c hc => ?_, ih hp.2⟩
          rcases mem_memIns a x t c hc with rfl | hc
          · exact Nat.lt_of_le_of_ne (Nat.le_of_not_lt h1) (Ne.symm h2)
          · exact hp.1 c hc

/-- A write of one byte keeps the form. -/
theorem memWf_memSet (m : List Host.Cell) (a : Nat) (x : Byte) (h : memWf m = true) : memWf (memSet m a x) = true := by
  unfold memSet
  split
  · exact memWf_filter m _ h
  · exact memWf_memIns a x m ‹_› h

/-- Zeroing a range keeps the form. -/
theorem memWf_memZero (m : List Host.Cell) (a n : Nat) (h : memWf m = true) : memWf (memZero m a n) = true :=
  memWf_filter m _ h

/-- Many writes keep the form. -/
theorem memWf_foldl_memSet (l m : List Host.Cell) (h : memWf m = true) :
    memWf (l.foldl (fun m c => memSet m c.1 c.2) m) = true := by
  induction l generalizing m with
  | nil => exact h
  | cons c t ih => exact ih _ (memWf_memSet m c.1 c.2 h)

/-- Zeroing many ranges keeps the form. -/
theorem memWf_foldl_memZero {α : Type} (f g : α → Nat) (l : List α) (m : List Host.Cell) (h : memWf m = true) :
    memWf (l.foldl (fun m x => memZero m (f x) (g x)) m) = true := by
  induction l generalizing m with
  | nil => exact h
  | cons c t ih => exact ih _ (memWf_memZero m _ _ h)

/-- Committed writes keep the form. -/
theorem memWf_writeCells (l : List (Nat × Byte)) (s : State) (h : memWf s.mem = true) :
    memWf (writeCells s l).mem = true := by
  induction l generalizing s with
  | nil => exact h
  | cons c t ih => exact ih _ (memWf_memSet s.mem _ _ h)

theorem memWf_physWrite (s : State) (a : Nat) (bs : List Byte) (h : memWf s.mem = true) :
    memWf (physWrite s a bs).mem = true := memWf_writeCells _ s h

theorem memWf_physPut (s : State) (a n x : Nat) (h : memWf s.mem = true) : memWf (physPut s a n x).mem = true :=
  memWf_writeCells _ s h

theorem memWf_reset : memWf State.reset.mem = true := rfl

/-! ### Reading back -/

theorem memGet_memIns (m : List Host.Cell) (a b : Nat) (x : Byte) :
    memGet (memIns a x m) b = if a = b then x else memGet m b := by
  induction m with
  | nil => rfl
  | cons d t ih =>
    obtain ⟨c, y⟩ := d
    simp only [memIns]
    split
    · simp [memGet]
    · split
      · rename_i h
        subst h
        simp only [memGet]
        split <;> rfl
      · rename_i h
        simp only [memGet, ih]
        split
        · rename_i hc
          subst hc
          simp [h]
        · rfl

theorem memGet_filter (m : List Host.Cell) (a b : Nat) :
    memGet (m.filter fun c => c.1 ≠ a) b = if a = b then memDefault else memGet m b := by
  induction m with
  | nil => simp [memGet]
  | cons d t ih =>
    obtain ⟨c, y⟩ := d
    by_cases h : c = a
    · subst h
      rw [List.filter_cons_of_neg (by simp), ih]
      simp only [memGet]
      split <;> rfl
    · rw [List.filter_cons_of_pos (by simpa using h)]
      simp only [memGet, ih]
      split
      · rename_i hc
        subst hc
        rw [if_neg (Ne.symm h)]
      · rfl

/-- A read after a write gives what was written there and, elsewhere, what stood there. -/
theorem memGet_memSet (m : List Host.Cell) (a b : Nat) (x : Byte) :
    memGet (memSet m a x) b = if a = b then x else memGet m b := by
  unfold memSet
  split
  · rename_i h
    rw [memGet_filter, h]
  · exact memGet_memIns m a b x

/-- Equal memories are equal lists: two lists in canonical form that read alike are one. -/
theorem memGet_of_mem (m : List Host.Cell) (h : memWf m = true) (a : Nat) (x : Byte) (hm : (a, x) ∈ m) :
    memGet m a = x := by
  rw [memWf_iff] at h
  induction m with
  | nil => simp at hm
  | cons d t ih =>
    obtain ⟨b, y⟩ := d
    rcases List.mem_cons.1 hm with heq | hm
    · cases heq
      simp [memGet]
    · have hp := List.pairwise_cons.1 h.2
      have hb : b ≠ a := Nat.ne_of_lt (hp.1 _ hm)
      simp only [memGet, if_neg hb]
      exact ih ⟨fun c hc => h.1 c (List.mem_cons_of_mem _ hc), hp.2⟩ hm

/-! ### What a committed write leaves alone -/

theorem writeCells_w (l : List (Nat × Byte)) (s : State) : (writeCells s l).w = s.w := by
  induction l generalizing s with
  | nil => rfl
  | cons c t ih => exact ih _

theorem writeCells_others (l : List (Nat × Byte)) (s : State) : (writeCells s l).others = s.others := by
  induction l generalizing s with
  | nil => rfl
  | cons c t ih => exact ih _

/-- A committed write changes memory and the monitors alone. -/
theorem writeCells_frame (l : List (Nat × Byte)) (s : State) :
    writeCells s l = { s with mem := (writeCells s l).mem, monitors := (writeCells s l).monitors } := by
  induction l generalizing s with
  | nil => rfl
  | cons c t ih =>
    simp only [writeCells]
    rw [ih]

theorem routeOf_mem (s : State) (m : List Host.Cell) (n : List Monitor) (a : Nat) :
    route { s with mem := m, monitors := n } a = route s a := rfl

/-- Reading a byte after committed writes of other places gives what stood there. -/
theorem plainByte_writeCells (l : List (Nat × Byte)) (s : State) (a : Nat)
    (h : ∀ c ∈ l, route s c.1 ≠ route s a) : plainByte (writeCells s l) a = plainByte s a := by
  induction l generalizing s with
  | nil => rfl
  | cons c t ih =>
    obtain ⟨b, x⟩ := c
    simp only [writeCells]
    rw [ih]
    · simp only [plainByte, routeOf_mem]
      rw [memGet_memSet, if_neg (h (b, x) List.mem_cons_self)]
    · intro d hd
      simp only [routeOf_mem]
      exact h d (List.mem_cons_of_mem _ hd)

end Sys2Proof.Machine
end

