-- ==== Sys2Proof/Laws/Operands.lean ====
section
/-!
SUPPORT. Masks lane by lane, and what the register accessors and the lane-wise mould answer.
-/

namespace Sys2Proof.Machine

/-! ### Masks -/

theorem laneBit_getLsbD (l j : Fin 32) : (laneBit l).getLsbD j = decide (j = l) := by
  revert l j
  decide

theorem foldl_mask (p : Fin 32 → Bool) (ls : List (Fin 32)) (m : Mask) (j : Fin 32) :
    (ls.foldl (fun m l => if p l then m ||| laneBit l else m) m).getLsbD j =
      (m.getLsbD j || decide (∃ l ∈ ls, p l = true ∧ l = j)) := by
  induction ls generalizing m with
  | nil => simp
  | cons l t ih =>
    rw [List.foldl_cons, ih]
    by_cases h : p l
    · rw [if_pos h, BitVec.getLsbD_or, laneBit_getLsbD, Bool.or_assoc]
      congr 1
      rw [← Bool.decide_or]
      refine decide_eq_decide.2 ?_
      simp only [List.mem_cons, or_and_right, exists_or]
      refine ⟨fun e => e.elim (fun e => .inl ⟨l, rfl, h, e.symm⟩) .inr, fun e => e.elim (fun ⟨i, e, _, e'⟩ => .inl (e ▸ e'.symm)) .inr⟩
    · rw [if_neg h]
      congr 1
      refine decide_eq_decide.2 ?_
      simp only [List.mem_cons, or_and_right, exists_or]
      exact ⟨.inr, fun e => e.resolve_left fun ⟨i, e, e', _⟩ => h (e ▸ e')⟩

/-- A mask built lane by lane holds exactly the lanes of its predicate. -/
@[simp] theorem inMask_maskWhere (p : Fin 32 → Bool) (l : Fin 32) : inMask (maskWhere p) l = p l := by
  have h : (∃ j ∈ allLanes, p j = true ∧ j = l) ↔ p l = true :=
    ⟨fun ⟨j, _, hp, e⟩ => e ▸ hp, fun hp => ⟨l, List.mem_finRange l, hp, rfl⟩⟩
  simp only [inMask, maskWhere, foldl_mask, h]
  simp

theorem inMask_zero (l : Fin 32) : inMask 0 l = false := by simp [inMask]

/-- Two masks that hold the same lanes are one. -/
theorem mask_ext {a b : Mask} (h : ∀ l : Fin 32, inMask a l = inMask b l) : a = b := by
  apply BitVec.eq_of_getLsbD_eq
  intro i hi
  exact h ⟨i, hi⟩

/-- Flags of lanes that raise none. -/
theorem orFlags_zero (m : Mask) : orFlags m (fun _ => 0) = 0 := by
  unfold orFlags
  induction lanesOf m with
  | nil => rfl
  | cons l t ih => simpa using ih

/-! ### Registers -/

theorem getV_fin (w : Wave) (r : Fin 88) (l : Fin 32) : getV w r l = w.src.v[r][l] := by
  simp [getV]

theorem setV_fin (w : Wave) (r : Fin 88) (m : Mask) (f : Fin 32 → Word) :
    setV w r m f = { w with r := { w.r with v := w.r.v.set r (setLanes w.r.v[r] m f) } } := by
  simp only [setV, r.isLt, dif_pos]
  rfl

/-- Writing the lanes of a mask in a vector register. -/
theorem updW_setV (s : State) (r : Fin 88) (m : Mask) (f : Fin 32 → Word) :
    (updW s fun w => setV w r m f) = withVector s r m f := by
  simp only [setV_fin]
  rfl

theorem updW_setS (s : State) (r : Fin 32) (x : Word) : (updW s fun w => setS w r x) = withScalar s r x := by
  have h8 : r.val - 24 < 8 := by omega
  by_cases h : s.w.mode = .hinge ∧ 24 ≤ r.val
  · simp only [updW, setS, withScalar, h, h8]
    rfl
  · simp only [updW, setS, withScalar, if_neg h, dif_pos r.isLt]

@[simp] theorem regNum_s (r : Fin 32) : regNum (.s r) = r := rfl
@[simp] theorem regNum_v (r : Fin 88) : regNum (.v r) = r := rfl

theorem writeS_eq (s : State) (r : Fin 32) (x : Word) : writeS s (.s r) x = withScalar s r x := updW_setS s r x

theorem writeK_eq (s : State) (k : Fin 16) (m : Mask) : writeK s k m = withMask s k m := by
  unfold writeK withMask updW
  by_cases h : k = 0
  · simp [h]
  · simp [h]

theorem raiseFlags_eq (s : State) (f : Flags) : raiseFlags s f = withFlags s f := rfl

theorem withFlags_zero (s : State) : withFlags s 0 = s := by
  simp [withFlags]

/-- A write to no lane changes nothing. -/
theorem withVector_empty (s : State) (r : Fin 88) (f : Fin 32 → Word) : withVector s r 0 f = s := by
  have h : (Vector.ofFn fun l : Fin 32 => if (0 : Mask).getLsbD l then f l else s.w.r.v[r][l]) = s.w.r.v[r] := by
    ext i hi
    simp
  unfold withVector
  rw [h]
  simp

/-! ### Sources and destinations that are no port -/

theorem popReady_notQ (s : State) (e : Mask) (l : List Operand) (o : Operand) (h : o.isQ = false) :
    popReady s e l o = .ok () := by
  cases o <;> first | rfl | simp [Operand.isQ] at h

theorem readVec_notQ (s : State) (e : Mask) (o : Operand) (h : o.isQ = false) :
    readVec s e o = .ok (s, lanes (vecVal s.w o)) := by
  cases o <;> first | rfl | simp [Operand.isQ] at h

theorem pushReady_notQ (s : State) (e : Mask) (d : Operand) (l : List Operand) (h : d.isQ = false) :
    pushReady s e d l = .ok () := by
  cases d <;> first | rfl | simp [Operand.isQ] at h

theorem portsReady_notQ (s : State) (e : Mask) (d : Operand) (l a : List Operand) (hd : d.isQ = false)
    (h : ∀ o ∈ l, o.isQ = false) : portsReady s e d l a = .ok () := by
  induction l with
  | nil => simpa only [portsReady] using pushReady_notQ s e d a hd
  | cons o t ih =>
    rw [portsReady, popReady_notQ s e _ o (h o List.mem_cons_self)]
    exact ih fun o ho => h o (List.mem_cons_of_mem _ ho)

@[simp] theorem lanes_get {α : Type} (f : Fin 32 → α) (l : Fin 32) : (lanes f)[l] = f l := by
  simp [lanes]

/-! ### The lane-wise mould -/

/-- Two sources, none a port, into a vector register: the lanes of the effective mask get their values, %fstat the flags
they raise. -/
theorem laneOp2_registers (s : State) (h : Hdr) (r : Fin 88) (a b : Operand)
    (f : Wave → Fin 32 → Word → Word → Word × Flags) (ha : a.isQ = false) (hb : b.isQ = false) :
    laneOp2 s h (.v r) a b f =
      withFlags (withVector s r (s.w.eff h.gd) fun l => (f s.w l (vecVal s.w a l) (vecVal s.w b l)).1)
        (orFlags (s.w.eff h.gd) fun l => (f s.w l (vecVal s.w a l) (vecVal s.w b l)).2) := by
  unfold laneOp2
  by_cases he : s.w.eff h.gd = 0
  · rw [if_pos he, he, withVector_empty]
    exact (withFlags_zero s).symm
  · simp only [if_neg he]
    rw [portsReady_notQ s _ (.v r) [a, b] [a, b] rfl (by simp [ha, hb])]
    simp only [readVec_notQ s _ a ha, readVec_notQ s _ b hb, writeVec, lanes_get]
    rw [raiseFlags_eq, updW_setV]

/-- One source, no port, into a vector register. -/
theorem laneOp1_registers (s : State) (h : Hdr) (r : Fin 88) (a : Operand)
    (f : Wave → Fin 32 → Word → Word × Flags) (ha : a.isQ = false) :
    laneOp1 s h (.v r) a f =
      withFlags (withVector s r (s.w.eff h.gd) fun l => (f s.w l (vecVal s.w a l)).1)
        (orFlags (s.w.eff h.gd) fun l => (f s.w l (vecVal s.w a l)).2) := by
  unfold laneOp1
  by_cases he : s.w.eff h.gd = 0
  · rw [if_pos he, he, withVector_empty]
    exact (withFlags_zero s).symm
  · simp only [if_neg he]
    rw [portsReady_notQ s _ (.v r) [a] [a] rfl (by simp [ha])]
    simp only [readVec_notQ s _ a ha, writeVec, lanes_get]
    rw [raiseFlags_eq, updW_setV]

/-- A compare of two sources, none a port: nothing happens under an empty mask. -/
theorem laneCmp_registers (s : State) (h : Hdr) (k : Fin 16) (a b : Operand) (f : Word → Word → Bool)
    (ha : a.isQ = false) (hb : b.isQ = false) :
    laneCmp s h k a b f =
      if s.w.eff h.gd = 0 then s
      else withMask s k (maskWhere fun l => inMask (s.w.eff h.gd) l && f (vecVal s.w a l) (vecVal s.w b l)) := by
  unfold laneCmp
  by_cases he : s.w.eff h.gd = 0
  · rw [if_pos he, if_pos he]
  · simp only [if_neg he]
    rw [portsReady_notQ s _ .lid [a, b] [a, b] rfl (by simp [ha, hb])]
    simp only [readVec_notQ s _ a ha, readVec_notQ s _ b hb, lanes_get, writeK_eq]

/-- Two sources, ports among them, once every port is ready: the state the pops leave, with the destination written. -/
theorem laneOp2_ports (s s1 s2 : State) (h : Hdr) (d a b : Operand) (x y : Lanes Word)
    (f : Wave → Fin 32 → Word → Word → Word × Flags) (he : s.w.eff h.gd ≠ 0)
    (hp : portsReady s (s.w.eff h.gd) d [a, b] [a, b] = .ok ()) (ha : readVec s (s.w.eff h.gd) a = .ok (s1, x))
    (hb : readVec s1 (s.w.eff h.gd) b = .ok (s2, y)) :
    laneOp2 s h d a b f =
      withFlags (writeVec s2 (s.w.eff h.gd) d fun l => (f s.w l x[l] y[l]).1)
        (orFlags (s.w.eff h.gd) fun l => (f s.w l x[l] y[l]).2) := by
  simp only [laneOp2, if_neg he, hp, ha, hb]
  rfl

/-- One source, a port or not, once every port is ready. -/
theorem laneOp1_ports (s s1 : State) (h : Hdr) (d a : Operand) (x : Lanes Word)
    (f : Wave → Fin 32 → Word → Word × Flags) (he : s.w.eff h.gd ≠ 0)
    (hp : portsReady s (s.w.eff h.gd) d [a] [a] = .ok ()) (ha : readVec s (s.w.eff h.gd) a = .ok (s1, x)) :
    laneOp1 s h d a f =
      withFlags (writeVec s1 (s.w.eff h.gd) d fun l => (f s.w l x[l]).1)
        (orFlags (s.w.eff h.gd) fun l => (f s.w l x[l]).2) := by
  simp only [laneOp1, if_neg he, hp, ha]
  rfl

end Sys2Proof.Machine
end

