-- ==== Sys2Proof/Laws/Ops.lean ====
section
/-!
SUPPORT. Everything each shared operation can do: counting, line times, taking a fault, waiting, cycles.
-/

namespace Sys2Proof.Machine

theorem setCore_frame (s : State) (c : Core) : setCore s c = { s with cores := (setCore s c).cores } := rfl

/-- Counting events changes cores' monitors alone. -/
theorem bump_frame (s : State) (n : Fin 384) (code : BitVec 6) (k : Nat) :
    bump s n code k = { s with cores := (bump s n code k).cores } := by
  unfold bump
  dsimp only
  split <;> rfl

/-- So does sampling a source. -/
theorem sample_frame (s : State) (n : Fin 384) (src : BitVec 3) (v : Nat) :
    sample s n src v = { s with cores := (sample s n src v).cores } := by
  unfold sample
  dsimp only
  split <;> rfl

/-- Raising a core's time changes that core's record alone. -/
theorem raiseLt_frame (s : State) (n : Fin 384) (t : Nat) :
    raiseLt s n t = { s with cores := (raiseLt s n t).cores } := rfl

/-- A read at a home takes a time on its line, and nothing else. -/
theorem readAt_frame (s : State) (lt ends ctx slot l : Nat) :
    (readAt s lt ends ctx slot l).2 = { s with lines := (readAt s lt ends ctx slot l).2.lines } := rfl

/-- So does a write, on its line and on the view lines it feeds. -/
theorem writeAt_frame (s : State) (lt ctx slot : Nat) (l : List Nat) :
    (writeAt s lt ctx slot l).2 = { s with lines := (writeAt s lt ctx slot l).2.lines } := rfl

/-- Steps that change lines alone, one after another, change lines alone. -/
theorem foldl_lines {α : Type} (g : State → α → Nat × State)
    (h : ∀ s x, (g s x).2 = { s with lines := (g s x).2.lines }) (xs : List α) (n : Nat) (s : State) :
    (xs.foldl (fun r x => (max r.1 (g r.2 x).1, (g r.2 x).2)) (n, s)).2 =
      { s with lines := (xs.foldl (fun r x => (max r.1 (g r.2 x).1, (g r.2 x).2)) (n, s)).2.lines } := by
  induction xs generalizing n s with
  | nil => rfl
  | cons x r ih =>
    rw [List.foldl_cons, ih, h]

/-- Writes of committed bytes take times on their lines alone (R170). -/
theorem writeTimes_frame (s : State) (lt : Nat) (pas : List Nat) :
    (writeTimes s lt pas).2 = { s with lines := (writeTimes s lt pas).2.lines } :=
  foldl_lines (fun s g => writeAt s lt 0 0 g) (fun s g => writeAt_frame s lt 0 0 g) (byLine s pas) lt s

/-- So do reads. -/
theorem readTimes_frame (s : State) (lt : Nat) (pas : List Nat) :
    (readTimes s lt pas).2 = { s with lines := (readTimes s lt pas).2.lines } := by
  have h := foldl_lines (fun u g => readAt u lt 0 0 0 (homeLine s (32 * List.headD g 0)))
    (fun u g => readAt_frame u lt 0 0 0 _) (byLine s pas) lt s
  simpa only [readTimes] using h

/-- An engine's write: its lines' times alone. -/
theorem touchEngine_frame (s : State) (pas : List Nat) :
    touchEngine s pas = { s with lines := (touchEngine s pas).lines } := writeTimes_frame s _ pas

/-- A merge at a home: its chiplet's counts and one free value. -/
theorem noteMiss_frame (s : State) (l : Nat) :
    noteMiss s l = { s with chips := (noteMiss s l).chips, freeCtr := s.freeCtr + 1 } := by
  unfold noteMiss
  dsimp only
  split <;> rfl

/-- A lane-path load's times: its line, its core's time, its wave's last time, and one free value. -/
theorem laneLoad_frame (s : State) (ctx slot l : Nat) :
    laneLoad s ctx slot l =
      { s with lines := (laneLoad s ctx slot l).lines, cores := (laneLoad s ctx slot l).cores
               chips := (laneLoad s ctx slot l).chips, freeCtr := s.freeCtr + 1
               w := { s.w with lastTime := (laneLoad s ctx slot l).w.lastTime } } := by
  have h := noteMiss_frame s l
  unfold laneLoad
  rw [h]
  rfl

/-- A lane-path store's times: its lines, its core's time, its wave's last time, and the core's own copy, which goes. -/
theorem laneStore_frame (s : State) (ctx slot : Nat) (l : List Nat) :
    laneStore s ctx slot l =
      { s with lines := (laneStore s ctx slot l).lines, cores := (laneStore s ctx slot l).cores
               copies := (laneStore s ctx slot l).copies
               w := { s.w with lastTime := (laneStore s ctx slot l).w.lastTime } } := rfl

/-- Outside supervisor mode a fault changes the issuing wave alone: trap registers, supervisor leaf and loops, where the
handler will go on, the mode, and the mark in the issue. -/
theorem takeFault_program (s : State) (f : FaultRec) (h : s.w.mode ≠ .supervisor) :
    takeFault s f = { s with w := s.w.enterTrap f (trapEntryOf s) } := if_neg h

/-- In supervisor mode it ends the context with 0x0F. -/
theorem takeFault_supervisor (s : State) (f : FaultRec) (h : s.w.mode = .supervisor) :
    takeFault s f = endContext s s.w.ctx 0x0F 0 s.w.core := if_pos h

/-- A trap leaves every register of the program, its leaves, loop stack, rotation and lanes as they were. -/
theorem enterTrap_frame (w : Wave) (f : FaultRec) (entry : Word) :
    let t := w.enterTrap f entry
    t.r = w.r ∧ t.leaves = w.leaves ∧ t.loops = w.loops ∧ t.rot = w.rot ∧ t.lpc = w.lpc ∧ t.cur = w.cur ∧
      t.park = w.park ∧ t.orphan = w.orphan ∧ t.absent = w.absent ∧ t.fparked = w.fparked ∧ t.ports = w.ports ∧
      t.follow = w.follow ∧ t.pending = w.pending ∧ t.mode = .supervisor :=
  ⟨rfl, rfl, rfl, rfl, rfl, rfl, rfl, rfl, rfl, rfl, rfl, rfl, rfl, rfl⟩

/-- A wait to issue the word again changes the issuing wave alone, and marks the issue. -/
theorem waitRedo_frame (s : State) (k : WaitKind) (a : Nat) :
    waitRedo s k a = { s with w := (waitRedo s k a).w } ∧ (waitRedo s k a).w.iss.redo = true ∧
      (waitRedo s k a).w.r = s.w.r := by
  refine ⟨rfl, rfl, ?_⟩
  simp only [waitRedo, updIss_w_r, updW_w]
  unfold Wave.setAgentLeaf
  split <;> rfl

/-- A wait to go on behind the word changes the issuing wave's agent alone. -/
theorem waitOn_frame (s : State) (k : WaitKind) (a : Nat) :
    waitOn s k a = { s with w := (waitOn s k a).w } ∧ (waitOn s k a).w.r = s.w.r := by
  refine ⟨rfl, ?_⟩
  simp only [waitOn, updW_w]
  unfold Wave.setAgentLeaf
  split <;> rfl

/-- Moving the agent's next word changes the issue record alone. -/
theorem setNext_frame (s : State) (pc : Word) :
    setNext s pc = { s with w := { s.w with iss := { s.w.iss with next := pc } } } := rfl

end Sys2Proof.Machine
end

