-- ==== Sys2Proof/Tests/Slice0.lean ====
section
/-!
SUPPORT. Tests: a word of the spec's encoding for every instruction word, ill-formed terms that are refused, single steps
with the spec's own results, and for every statement with hypotheses a state and operands that meet them.
-/

open Sys2Proof Sys2Proof.Machine

set_option maxRecDepth 20000
set_option Elab.async false

/-! ### Decoding. Words the spec writes out; the others set bit by bit from R32, R33 and R51 -/

/-- R417, R422, R428, R433, R402: the scalar group. -/
theorem test_decode_scalar : ∀ x ∈ ([
    (0x00000000, 0x00000000, .nop false),
    (0x00373F00, 0x00000001, .smov false (.s 4) (.lit 1)),
    (0x0056EDFE, 0x00000001, .sadd false (.s 3) (.s 3) (.lit 1)),
    (0x0079327E, 0x00800000, .ssub false (.s 12) (.s 12) (.lit 0x00800000)),
    (0x00966D77, 0x00000000, .smul false (.s 1) (.s 2) (.s 31)),
    (0x00B62C7E, 0xFFFFE000, .sand false (.s 0) (.s 0) (.lit 0xFFFFE000)),
    (0x00D6ADDC, 0x00000000, .sor false (.s 2) (.s 3) (.s 4)),
    (0x80F6ADDC, 0x00000000, .sxor true (.s 2) (.s 3) (.s 4)),
    (0x0119F3FE, 0x00000006, .sshl false (.s 15) (.s 15) (.lit 6)),
    (0x0136ADDC, 0x00000000, .sshr false (.s 2) (.s 3) (.s 4)),
    (0x01576E7E, 0x00000004, .ssha false (.s 5) (.s 4) (.lit 4)),
    (0x0176ADDC, 0x00000000, .smin false (.s 2) (.s 3) (.s 4)),
    (0x0196ADDC, 0x00000000, .smax false (.s 2) (.s 3) (.s 4)),
    (0x01AA2D5B, 0x00000000, .scmp ⟨false, 0⟩ 5 0 (.s 2) (.s 3)),
    (0x01D60077, 0x00000000, .srdv false (.s 0) (.v 0) (.s 31)),
    (0x01FF2E5D, 0x00000000, .swrv false .lpc (.s 4) (.s 5))] : List (Nat × Nat × Instr)),
    decodeTableWord 64 (x.1 + x.2.1 * 2 ^ 32) = some x.2.2 := by decide +kernel

/-- R445 to R451: the integer vector group. -/
theorem test_decode_vector_integer : ∀ x ∈ ([
    (0x02000064, 0x00000000, .vadd ⟨false, 0⟩ (.v 0) (.v 0) (.s 12)),
    (0x2220ECD7, 0x00000000, .vsub ⟨false, 2⟩ (.v 3) (.s 1) (.v 87)),
    (0x2240ECD7, 0x00000000, .vmul ⟨false, 2⟩ (.v 3) (.s 1) (.v 87)),
    (0x2260ECD7, 0x00000000, .vmulh ⟨false, 2⟩ (.v 3) (.s 1) (.v 87)),
    (0x2280ECD7, 0x00000000, .vmulhn ⟨false, 2⟩ (.v 3) (.s 1) (.v 87)),
    (0x22A0ECD7, 0x00000000, .vmad ⟨false, 2⟩ (.v 3) (.s 1) (.v 87)),
    (0x22C0ECD7, 0x00000000, .vmin ⟨false, 2⟩ (.v 3) (.s 1) (.v 87)),
    (0x22E0ECD7, 0x00000000, .vmax ⟨false, 2⟩ (.v 3) (.s 1) (.v 87)),
    (0x2300ECD7, 0x00000000, .vminn ⟨false, 2⟩ (.v 3) (.s 1) (.v 87)),
    (0x2320ECD7, 0x00000000, .vmaxn ⟨false, 2⟩ (.v 3) (.s 1) (.v 87)),
    (0x2340ECD7, 0x00000000, .vand ⟨false, 2⟩ (.v 3) (.s 1) (.v 87)),
    (0x2360ECD7, 0x00000000, .vor ⟨false, 2⟩ (.v 3) (.s 1) (.v 87)),
    (0x2380ECD7, 0x00000000, .vxor ⟨false, 2⟩ (.v 3) (.s 1) (.v 87)),
    (0x23A0ECD7, 0x00000000, .vshl ⟨false, 2⟩ (.v 3) (.s 1) (.v 87)),
    (0x23C0ECD7, 0x00000000, .vshr ⟨false, 2⟩ (.v 3) (.s 1) (.v 87)),
    (0x23E0ECD7, 0x00000000, .vsha ⟨false, 2⟩ (.v 3) (.s 1) (.v 87)),
    (0x0400815C, 0x00000000, .vadd64 ⟨false, 0⟩ (.v 2) (.v 2) (.s 4)),
    (0x34204103, 0x00000000, .vsel ⟨false, 3⟩ (.v 1) (.v 2) (.v 3)),
    (0x0442C284, 0x00000000, .vcmp ⟨false, 0⟩ 1 3 (.v 5) (.v 4)),
    (0x046D445B, 0x00000000, .vcmpn ⟨false, 0⟩ 6 5 (.v 8) (.s 3)),
    (0x0480C3FE, 0x00000804, .vbfx ⟨false, 0⟩ (.v 3) (.v 7) (.lit 0x0804)),
    (0x04A0C4FE, 0x00000410, .vbfi ⟨false, 0⟩ (.v 3) (.v 9) (.lit 0x0410)),
    (0x04C08180, 0x00000000, .vabs ⟨false, 0⟩ (.v 2) (.v 3)),
    (0x04C08181, 0x00000000, .vneg ⟨false, 0⟩ (.v 2) (.v 3)),
    (0x04C08182, 0x00000000, .vnot ⟨false, 0⟩ (.v 2) (.v 3)),
    (0x04C08183, 0x00000000, .vpopc ⟨false, 0⟩ (.v 2) (.v 3)),
    (0x04C14304, 0x00000000, .vclz ⟨false, 0⟩ (.v 5) (.v 6))] : List (Nat × Nat × Instr)),
    decodeTableWord 64 (x.1 + x.2.1 * 2 ^ 32) = some x.2.2 := by decide +kernel

/-- R458, R460: the cross-lane group. -/
theorem test_decode_cross_lane : ∀ x ∈ ([
    (0x04E1FD7D, 0x00000000, .vshuf ⟨false, 0⟩ (.v 7) (.q 2) .lid),
    (0x0501C17E, 0x00000000, .vbcast ⟨false, 0⟩ (.v 7) (.v 2) (.lit 0)),
    (0x05208092, 0x00000000, .vscan ⟨false, 0⟩ (.v 2) (.v 1) true 2),
    (0x0540808A, 0x00000000, .vred ⟨false, 0⟩ (.v 2) (.v 1) 10),
    (0x656080D0, 0x00000000, .vsegscan ⟨false, 6⟩ (.v 2) (.v 1) 5 0)] : List (Nat × Nat × Instr)),
    decodeTableWord 64 (x.1 + x.2.1 * 2 ^ 32) = some x.2.2 := by decide +kernel

/-- R452 to R456: the float and conversion group. -/
theorem test_decode_float : ∀ x ∈ ([
    (0x0602865B, 0x00000000, .vfadd ⟨false, 0⟩ (.v 10) (.v 12) (.s 3)),
    (0x0622865B, 0x00000000, .vfsub ⟨false, 0⟩ (.v 10) (.v 12) (.s 3)),
    (0x0642865B, 0x00000000, .vfmul ⟨false, 0⟩ (.v 10) (.v 12) (.s 3)),
    (0x0662867E, 0xBF000000, .vfma ⟨false, 0⟩ (.v 10) (.v 12) (.lit 0xBF000000)),
    (0x0682865B, 0x00000000, .vfmin ⟨false, 0⟩ (.v 10) (.v 12) (.s 3)),
    (0x06A2865B, 0x00000000, .vfmax ⟨false, 0⟩ (.v 10) (.v 12) (.s 3)),
    (0x06C4877E, 0x7F800000, .vfcmp ⟨false, 0⟩ 2 2 (.v 14) (.lit 0x7F800000)),
    (0x06E38600, 0x00000000, .vfrcp ⟨false, 0⟩ (.v 14) (.v 12)),
    (0x06E38601, 0x00000000, .vfrsq ⟨false, 0⟩ (.v 14) (.v 12)),
    (0x06E38602, 0x00000000, .vfexp2 ⟨false, 0⟩ (.v 14) (.v 12)),
    (0x06E38603, 0x00000000, .vflog2 ⟨false, 0⟩ (.v 14) (.v 12)),
    (0x06E38604, 0x00000000, .vfsqrt ⟨false, 0⟩ (.v 14) (.v 12)),
    (0x06E38605, 0x00000000, .vfabs ⟨false, 0⟩ (.v 14) (.v 12)),
    (0x06E3860B, 0x00000000, .vfrnd ⟨false, 0⟩ (.v 14) (.v 12) 3),
    (0x0700C155, 0x00000000, .vcvt ⟨false, 0⟩ (.v 3) (.v 2) 5 2 true),
    (0x0721047F, 0xB0000000, .vpack ⟨false, 0⟩ (.v 4) (.v 8) 5 true),
    (0x07413C7F, 0x60000000, .vunpk ⟨false, 0⟩ (.v 4) (.q 0) 3 false)] : List (Nat × Nat × Instr)),
    decodeTableWord 64 (x.1 + x.2.1 * 2 ^ 32) = some x.2.2 := by decide +kernel

/-- R369, R372: the mask group. -/
theorem test_decode_mask : ∀ x ∈ ([
    (0x0800C784, 0x00000000, .kand false 3 15 4),
    (0x0820C184, 0x00000000, .kor false 3 3 4),
    (0x0840C784, 0x00000000, .kxor false 3 15 4),
    (0x0860C100, 0x00000000, .knot false 3 2),
    (0x0880C780, 0x00000000, .kmov false 3 15),
    (0x08B78000, 0x00000000, .kpop false (.s 6) 0),
    (0x08D78480, 0x00000000, .kfirst false (.s 6) 9),
    (0x08E13F00, 0x80000000, .kset false 4 (.lit 0x80000000)),
    (0x09178480, 0x00000000, .kget false (.s 6) 9),
    (0x0923B800, 0x00000000, .kpceq false 14 (.s 24) 0),
    (0x095C0000, 0x00000000, .kpcmin false (.s 24) 0)] : List (Nat × Nat × Instr)),
    decodeTableWord 64 (x.1 + x.2.1 * 2 ^ 32) = some x.2.2 := by decide +kernel

/-- R328 to R333, R366, R378, R389, R415, R345, R403, R424, R438, R355, R386: the control group. -/
theorem test_decode_control : ∀ x ∈ ([
    (0x0A000008, 0x00000000, .bra ⟨false, 0⟩ 0 8),
    (0x0A03FFFC, 0x00000000, .bra ⟨false, 0⟩ 1 0x1FFFC),
    (0x0A390007, 0x00000000, .brs false (.s 12) 7),
    (0x0A3F8003, 0x00000001, .brs false (.lit 1) 3),
    (0x0A40027F, 0x0001B005, .jmpx ⟨false, 0⟩ (.v 4) 0x1B 5),
    (0x0A67BFF4, 0x00000000, .call false (.v 30) 0x3FF4),
    (0x0A800F00, 0x00000000, .ret ⟨false, 0⟩ (.v 30)),
    (0x0ABF8003, 0x00000006, .loop false (.lit 6) 3),
    (0x0AC04005, 0x00000000, .lbrk false 1 5),
    (0x0AE00000, 0x00000000, .exit ⟨false, 0⟩),
    (0x7B000000, 0x00000000, .park ⟨false, 7⟩),
    (0x0B372C7F, 0x64000015, .spawn ⟨false, 0⟩ (.s 4) (.s 0) 12 true 0x15),
    (0x0B403200, 0x00000000, .tret ⟨false, 0⟩ (.s 12)),
    (0x0B400100, 0x00000000, .tret ⟨false, 0⟩ (.v 2)),
    (0x0B600000, 0x00000000, .hret false),
    (0x0B8182FE, 0x00000040, .leafset false true 2 5 (.lit 0x40)),
    (0x0BA37904, 0x00000000, .leafget false 13 (.s 26) 1 0),
    (0x0BC03F00, 0x000000B4, .leafjoin false 0 (.lit 0xB4)),
    (0x0BE0C000, 0x00000000, .leafclr false 3)] : List (Nat × Nat × Instr)),
    decodeTableWord 64 (x.1 + x.2.1 * 2 ^ 32) = some x.2.2 := by decide +kernel

/-- R380, R429, R319, R324, R461, R347, R349, R408: the memory group. -/
theorem test_decode_memory : ∀ x ∈ ([
    (0x8C01417F, 0x00000400, .ld ⟨true, 0⟩ (.v 5) (.v 2) ⟨0, 2, false, 0, false⟩),
    (0x1C37AD7F, 0x00080410, .st ⟨false, 1⟩ (.s 6) (.s 2) ⟨128, 2, false, 0, true⟩),
    (0x3C576F7F, 0x0000C710, .atom ⟨false, 3⟩ (.s 5) (.s 6) ⟨12, 7, true⟩),
    (0x3C658C7F, 0x00000100, .atomr ⟨false, 3⟩ (.v 22) (.v 24) ⟨0, 1, false⟩),
    (0x0C976F00, 0x00000000, .waitc ⟨false, 0⟩ (.s 5) (.s 6)),
    (0x0CA18000, 0x00000000, .fence ⟨false, 0⟩ 6),
    (0x0CC0C482, 0x00000000, .fencex ⟨false, 0⟩ 3 9 2),
    (0x0CE0017F, 0x00100440, .pref ⟨false, 0⟩ (.v 2) ⟨0x100, 2, false, 2, false⟩)] : List (Nat × Nat × Instr)),
    decodeTableWord 64 (x.1 + x.2.1 * 2 ^ 32) = some x.2.2 := by decide +kernel

/-- R358 to R362: the hypothesis group. -/
theorem test_decode_hypothesis : ∀ x ∈ ([
    (0x0D180000, 0x00000000, .hypnew ⟨false, 0⟩ (.s 8)),
    (0x0D207000, 0x00000000, .hypent ⟨false, 0⟩ true (.s 8)),
    (0x0D404000, 0x00000000, .hyplv ⟨false, 0⟩ true),
    (0x0D603001, 0x00000000, .hypres ⟨false, 0⟩ (.s 8) true),
    (0x0D993000, 0x00000000, .hypq ⟨false, 0⟩ (.s 12) (.s 8))] : List (Nat × Nat × Instr)),
    decodeTableWord 64 (x.1 + x.2.1 * 2 ^ 32) = some x.2.2 := by decide +kernel

/-- R373, R410: the latch and queue group. -/
theorem test_decode_latch_and_queue : ∀ x ∈ ([
    (0x0DA02E7E, 0x00000001, .linit ⟨false, 0⟩ false (.s 4) (.lit 1)),
    (0x0DC0415D, 0x00000000, .larv ⟨false, 0⟩ true (.v 2) (.s 5)),
    (0x0DE02F60, 0x00000000, .lexp ⟨false, 0⟩ false (.s 6) (.s 8)),
    (0x0E002E5B, 0x00000000, .lwait ⟨false, 0⟩ false (.s 4) (.s 3)),
    (0x0E39747E, 0x80020102, .qinit ⟨false, 0⟩ (.s 13) (.s 16) (.lit 0x80020102)),
    (0x0E5B3200, 0x00000000, .qacq ⟨false, 0⟩ (.s 20) (.s 12)),
    (0x0E60326C, 0x00000000, .qpub ⟨false, 0⟩ (.s 12) (.s 20)),
    (0x0E9B7200, 0x00000000, .qtake ⟨false, 0⟩ (.s 21) (.s 12)),
    (0x0EA0326D, 0x00000000, .qrel ⟨false, 0⟩ (.s 12) (.s 21)),
    (0x0EDE7200, 0x00000000, .qbind ⟨false, 0⟩ (.q 1) (.s 12))] : List (Nat × Nat × Instr)),
    decodeTableWord 64 (x.1 + x.2.1 * 2 ^ 32) = some x.2.2 := by decide +kernel

/-- R337, R341, R352, R419: the engine group. -/
theorem test_decode_engine : ∀ x ∈ ([
    (0x0EF9357F, 0xA1300000, .cpy ⟨false, 0⟩ (.s 12) (.s 18) ⟨20, 4, true, true, 0⟩),
    (0x0F19BA7F, 0xA2800000, .cpys ⟨false, 0⟩ (.s 14) (.s 28) ⟨20, 10, false, false, 0⟩),
    (0x0F21B07F, 0x21900000, .gath ⟨false, 0⟩ (.v 6) (.s 8) ⟨4, 6, 2, false⟩),
    (0x0F41B07F, 0x21900000, .scat ⟨false, 0⟩ (.v 6) (.s 8) ⟨4, 6, 2, false⟩)] : List (Nat × Nat × Instr)),
    decodeTableWord 64 (x.1 + x.2.1 * 2 ^ 32) = some x.2.2 := by decide +kernel

/-- R63: the matrix group. -/
theorem test_decode_matrix : ∀ x ∈ ([
    (0x0F80327F, 0x0081C000, .mlds ⟨false, 0⟩ (.s 12) 0 0 true 0 14),
    (0x0F80007F, 0x18000000, .mswap ⟨false, 0⟩ 1),
    (0x0F80367F, 0x20FF4000, .mstream ⟨false, 0⟩ (.s 20) 0 0 63 true true 1),
    (0x0F80007F, 0x39000000, .mdrain ⟨false, 0⟩ 9),
    (0x0F80007F, 0x40000000, .mzero ⟨false, 0⟩ 0),
    (0x0F80367F, 0x52200000, .mld ⟨false, 0⟩ (.s 20) 2 1),
    (0x0F80337F, 0x60700000, .mst ⟨false, 0⟩ (.s 14) 0 3 true)] : List (Nat × Nat × Instr)),
    decodeTableWord 64 (x.1 + x.2.1 * 2 ^ 32) = some x.2.2 := by decide +kernel

/-- R64: the system group. -/
theorem test_decode_system : ∀ x ∈ ([
    (0x1FA00000, 0x00000000, .trap ⟨false, 1⟩ 0),
    (0x0FA00001, 0x00000000, .eret false),
    (0x0FB60882, 0x00000000, .sysr false (.s 0) 0x11),
    (0x0FA57003, 0x00000000, .sysw false 0x15 (.s 8)),
    (0x0FA03F04, 0x00000001, .ppoint ⟨false, 0⟩ 1),
    (0x0FB70085, 0x00000000, .clk false (.s 4) true),
    (0x0FB70186, 0x00000000, .pmon false (.s 4) 3),
    (0x0FA00287, 0x00000000, .bkpt ⟨false, 0⟩ 5),
    (0x0FA03F08, 0x000003E8, .sleep false (.lit 1000)),
    (0x0F600000, 0x00000000, .unassignedOpcode 0x0F600000)] : List (Nat × Nat × Instr)),
    decodeTableWord 64 (x.1 + x.2.1 * 2 ^ 32) = some x.2.2 := by decide +kernel
/-! ### Well-formedness: an ill-formed term for each check -/

/-- Illegal function codes (R47, R50, R55 to R63): subcode 2. -/
theorem test_refuses_function_codes : ∀ i ∈ ([
    .scmp ⟨false, 0⟩ 1 6 (.s 0) (.s 0), .vcmp ⟨false, 0⟩ 1 7 (.v 0) (.v 0), .vcmpn ⟨false, 0⟩ 1 6 (.v 0) (.v 0),
    .vfcmp ⟨false, 0⟩ 1 7 (.v 0) (.v 0), .vscan ⟨false, 0⟩ (.v 0) (.v 1) false 11, .vred ⟨false, 0⟩ (.v 0) (.v 1) 15,
    .vsegscan ⟨false, 0⟩ (.v 0) (.v 1) 1 11, .vcvt ⟨false, 0⟩ (.v 0) (.v 1) 7 2 false,
    .vcvt ⟨false, 0⟩ (.v 0) (.v 1) 2 7 false, .vcvt ⟨false, 0⟩ (.v 0) (.v 1) 2 2 false,
    .vpack ⟨false, 0⟩ (.v 0) (.v 4) 2 false, .vunpk ⟨false, 0⟩ (.v 4) (.v 0) 0 false,
    .atom ⟨false, 0⟩ (.v 0) (.v 2) ⟨0, 11, false⟩, .atomr ⟨false, 0⟩ (.v 0) (.v 2) ⟨0, 15, false⟩,
    .mlds ⟨false, 0⟩ (.s 0) 0 6 false 0 0, .mstream ⟨false, 0⟩ (.s 0) 0 5 0 false false 0,
    .mld ⟨false, 0⟩ (.s 0) 0 6, .mst ⟨false, 0⟩ (.s 0) 0 7 false] : List Instr),
    checkFault .program i = some (0x01, 2) ∧ i.wellFormed = false := by decide +kernel

/-- Illegal field values (R54 to R65): subcode 3. -/
theorem test_refuses_field_values : ∀ i ∈ ([
    .vunpk ⟨false, 0⟩ (.v 4) (.v 0) 5 true, .lbrk false 0 0, .lbrk false 5 0, .jmpx ⟨false, 0⟩ (.v 0) 0 0,
    .spawn ⟨false, 0⟩ (.s 0) (.s 2) 2 false 0, .leafget false 1 (.s 0) 3 0,
    .ld ⟨false, 0⟩ (.v 0) (.v 2) ⟨0, 5, false, 0, false⟩, .ld ⟨false, 0⟩ (.v 0) (.v 2) ⟨0, 2, true, 0, false⟩,
    .ld ⟨false, 0⟩ (.v 0) (.v 2) ⟨0, 0, false, 4, false⟩, .st ⟨false, 0⟩ (.v 0) (.v 2) ⟨0, 5, false, 0, false⟩,
    .st ⟨false, 0⟩ (.v 0) (.v 2) ⟨0, 0, true, 0, false⟩, .pref ⟨false, 0⟩ (.v 2) ⟨0, 0, false, 7, false⟩,
    .fence ⟨false, 0⟩ 7, .fencex ⟨false, 0⟩ 7 1 1, .fencex ⟨false, 0⟩ 0 0 1, .fencex ⟨false, 0⟩ 0 1 0,
    .cpy ⟨false, 0⟩ (.s 0) (.s 2) ⟨28, 0, false, false, 0⟩, .cpy ⟨false, 0⟩ (.s 0) (.s 2) ⟨0, 0, false, false, 1⟩,
    .cpys ⟨false, 0⟩ (.s 0) (.s 2) ⟨0, 0, false, true, 0⟩, .gath ⟨false, 0⟩ (.v 0) (.s 2) ⟨0, 0, 5, false⟩,
    .scat ⟨false, 0⟩ (.v 0) (.s 2) ⟨0, 0, 7, false⟩, .mlds ⟨false, 0⟩ (.s 0) 0 3 true 0 2,
    .mlds ⟨false, 0⟩ (.s 0) 0 0 false 28 0, .mlds ⟨false, 0⟩ (.s 0) 0 0 false 0 2,
    .mstream ⟨false, 0⟩ (.s 0) 0 0 0 false false 1, .mst ⟨false, 0⟩ (.s 0) 0 0 true, .mst ⟨false, 0⟩ (.s 0) 0 5 true,
    .ppoint ⟨false, 0⟩ 0x00040000, .sysr false (.s 0) 0x07, .sysw false 0x47 (.s 0)] : List Instr),
    checkFault .program i = some (0x01, 3) ∧ i.wellFormed = false := by decide +kernel

/-- Privilege (R67, R239): subcode 6. -/
theorem test_refuses_privilege :
    (∀ i ∈ ([.eret false, .sysr false (.s 0) 0x40, .sysw false 0x46 (.s 0), .sysw false 0x10 (.s 0),
      .sysw false 0x04 (.s 0)] : List Instr), checkFault .program i = some (0x01, 6)) ∧
    (∀ i ∈ ([.park ⟨false, 0⟩, .hret false] : List Instr), checkFault .supervisor i = some (0x01, 6)) ∧
    checkFault .supervisor (.eret false) = none ∧ checkFault .hinge (.hret false) = none ∧
    checkFault .program (.park ⟨false, 0⟩) = none := by decide +kernel

/-- Masks that may not be written and operands outside their roles (R40, R46): subcode 4. -/
theorem test_refuses_operands : ∀ i ∈ ([
    .scmp ⟨false, 0⟩ 0 0 (.s 0) (.s 0), .vcmp ⟨false, 0⟩ 0 0 (.v 0) (.v 0), .kand false 0 1 1, .knot false 0 1,
    .kset false 0 (.s 0), .kpceq false 0 (.s 0) 1, .spawn ⟨false, 0⟩ (.s 0) (.s 2) 3 true 0, .smov false (.v 0) (.s 0),
    .smov false (.s 0) (.v 0), .smov false .ext (.s 0), .srdv false (.s 0) (.s 1) (.s 2), .swrv false (.s 0) (.s 1) (.s 2),
    .vadd ⟨false, 0⟩ (.s 0) (.v 0) (.v 0), .vadd ⟨false, 0⟩ (.lit 0) (.v 0) (.v 0), .vmad ⟨false, 0⟩ (.q 0) (.v 0) (.v 0),
    .vadd64 ⟨false, 0⟩ (.v 1) (.v 2) (.v 4), .vadd64 ⟨false, 0⟩ (.v 0) (.v 3) (.v 4),
    .vpack ⟨false, 0⟩ (.v 0) (.v 86) 5 false, .ld ⟨false, 0⟩ (.v 86) (.v 0) ⟨0, 4, false, 0, false⟩,
    .ld ⟨false, 0⟩ (.v 0) (.v 1) ⟨0, 2, false, 0, false⟩, .ld ⟨false, 0⟩ (.v 0) (.v 2) ⟨0, 2, false, 0, true⟩,
    .waitc ⟨false, 0⟩ (.s 0) (.s 1), .qinit ⟨false, 0⟩ (.s 0) (.v 0) (.s 2), .qbind ⟨false, 0⟩ (.v 0) (.s 0),
    .call false (.s 0) 0, .ret ⟨false, 0⟩ (.s 0), .clk false (.s 1) false, .mld ⟨false, 0⟩ (.v 0) 0 0] : List Instr),
    checkFault .program i = some (0x01, 4) ∧ i.wellFormedIn .program = false := by decide +kernel

/-- What a mode does not admit (R54, R67, R98, R100): hinge fault, subcode 4. -/
theorem test_refuses_modes :
    (∀ i ∈ ([.hret false, .leafset false false 0 0 (.s 0), .leafclr false 0, .swrv false .lpc (.s 0) (.s 1)] : List Instr),
      checkFault .program i = some (0x03, 4)) ∧
    (∀ i ∈ ([.ld ⟨false, 0⟩ (.s 0) (.v 2) ⟨0, 2, false, 0, false⟩, .sysr false (.s 0) 0x08,
      .swrv false (.v 1) (.s 0) (.s 0)] : List Instr), checkFault .hinge i = some (0x03, 4)) ∧
    checkFault .hinge (.srdv false (.s 0) (.v 1) (.s 0)) = none ∧
    checkFault .hinge (.swrv false .lpc (.s 0) (.s 1)) = none := by decide +kernel

/-- More than one literal is refused; one is not (R35). -/
theorem test_refuses_second_literal :
    (Instr.sadd false (.s 0) (.lit 1) (.lit 2)).wellFormed = false ∧
    (Instr.sadd false (.s 0) (.lit 1) (.s 2)).wellFormed = true ∧
    decode 0 0x0056FF7E 0 = .error .trailing ∧ decode 2 0x0056EDFE 1 = .error .trailing := by
  refine ⟨by decide +kernel, by decide +kernel, rfl, rfl⟩

/-- Zero-required fields and A of MSWAP, MDRAIN and MZERO (R392, R399, R402). -/
theorem test_refuses_reserved_fields :
    decode 0 0x00004000 0 = .error .reserved ∧ decode 0 0x10000000 0 = .error .reserved ∧
    decode 0 0x0F80367F 0x00000001 = .error .reserved ∧ decode 0 0x0F80367F 0x18000000 = .error .operand ∧
    decode 0 0x0F80367F 0x70000000 = .error .function ∧ decode 0 0x0C01ED7F 0x00040111 = .error .reserved :=
  ⟨rfl, rfl, rfl, rfl, rfl, rfl⟩

/-! ### Single instructions, with the spec's own results -/

/-- A booted machine whose wave has all 32 lanes in leaf 0, with virtual 0 to 1 GiB at physical 1 GiB. -/
def base : State := State.reset.withFetchWord 32 0

/-- `s` with scalars set. -/
def scal (s : State) (l : List (Fin 32 × Word)) : State := l.foldl (fun s x => withScalar s x.1 x.2) s

/-- `s` with a vector register holding one value in every lane. -/
def vecs (s : State) (l : List (Fin 88 × Word)) : State :=
  l.foldl (fun s x => withVector s x.1 0xFFFFFFFF fun _ => x.2) s

/-- What a step's next state holds, none where it faults or is refused. -/
def after {α : Type} (o : Host.Outcome State Fault Refusal) (f : State → α) : Option α :=
  match o with
  | .next t => some (f t)
  | _ => none

/-- R417's table: shifts by 4, 31 and 40. -/
theorem test_scalar_shifts :
    let s := scal base [(4, 0xFFFFFF00)]
    let r (i : Instr) : Option Word := after (exec i s) fun t => t.w.r.s[(5 : Fin 32)]
    [4, 31, 40].map (fun n => r (.sshl false (.s 5) (.s 4) (.lit n))) = [some 0xFFFFF000, some 0, some 0] ∧
    [4, 31, 40].map (fun n => r (.sshr false (.s 5) (.s 4) (.lit n))) = [some 0x0FFFFFF0, some 1, some 0] ∧
    [4, 31, 40].map (fun n => r (.ssha false (.s 5) (.s 4) (.lit n))) =
      [some 0xFFFFFFF0, some 0xFFFFFFFF, some 0xFFFFFFFF] := by decide +kernel

/-- R446's table: a = 0x80000000 and b = 2; R448's and R449's examples. -/
theorem test_vector_integer :
    let r (s : State) (i : Instr) : Option Word := after (exec i s) fun t => t.w.r.v[(3 : Fin 88)][(31 : Fin 32)]
    let s := vecs base [(1, 0x80000000), (2, 2)]
    r s (.vmul ⟨false, 0⟩ (.v 3) (.v 1) (.v 2)) = some 0 ∧
    r s (.vmulh ⟨false, 0⟩ (.v 3) (.v 1) (.v 2)) = some 0xFFFFFFFF ∧
    r s (.vmulhn ⟨false, 0⟩ (.v 3) (.v 1) (.v 2)) = some 1 ∧
    r s (.vabs ⟨false, 0⟩ (.v 3) (.v 1)) = some 0x80000000 ∧
    r (vecs base [(7, 0x12345678)]) (.vbfx ⟨false, 0⟩ (.v 3) (.v 7) (.lit 0x0804)) = some 0x67 ∧
    r (vecs base [(9, 0xA)]) (.vbfi ⟨false, 0⟩ (.v 3) (.v 9) (.lit 0x0410)) = some 0x000A0000 := by decide +kernel

/-- R452's example: the fused product keeps 2⁻²⁴ and raises no flag, the separate one loses it and is inexact. -/
theorem test_fused_multiply_add :
    let s := vecs base [(1, 0x3F800800), (2, 0xBF801000), (3, 0xBF801000)]
    after (exec (.vfma ⟨false, 0⟩ (.v 2) (.v 1) (.v 1)) s) (fun t => (t.w.r.v[(2 : Fin 88)][(0 : Fin 32)], t.w.sr.fstat)) =
      some (0x33800000, 0) ∧
    after (exec (.vfmul ⟨false, 0⟩ (.v 4) (.v 1) (.v 1)) s) (fun t =>
      after (exec (.vfadd ⟨false, 0⟩ (.v 5) (.v 4) (.v 3)) t) fun u =>
        (u.w.r.v[(5 : Fin 88)][(0 : Fin 32)], u.w.sr.fstat.toNat != 0)) = some (some (0, true)) := by decide +kernel

/-- R457's example: 1.0, −2.0, 500.0 and +0.0 as E4M3 with saturation, and back. -/
theorem test_pack_and_unpack :
    let s := vecs base [(4, 0x3F800000), (5, 0xC0000000), (6, 0x43FA0000), (7, 0)]
    after (exec (.vpack ⟨false, 0⟩ (.v 9) (.v 4) 5 true) s) (fun t => t.w.r.v[(9 : Fin 88)][(17 : Fin 32)]) =
      some 0x007EC038 ∧
    after (exec (.vunpk ⟨false, 0⟩ (.v 4) (.v 9) 5 false) (vecs base [(9, 0x007EC038)])) (fun t =>
      [4, 5, 6, 7].map fun r : Fin 88 => t.w.r.v[r][(17 : Fin 32)]) =
      some [0x3F800000, 0xC0000000, 0x43E00000, 0] := by decide +kernel

/-- R455's table, and R131: saturate leaves an e5m2 infinity alone where the destination is wider, and clamps it in e4m3. -/
theorem test_vcvt :
    cvt {} 0 2 false 0x40200000 = (2, fInexact) ∧ cvt {} 5 2 false 0x43E88000 = (0x7F, fOverflow ||| fInexact) ∧
      cvt {} 5 2 true 0x43E88000 = (0x7E, fOverflow ||| fInexact) ∧ cvt {} 3 6 false 0x7C = (0x7C00, 0) ∧
      cvt {} 3 6 true 0x7C = (0x7C00, 0) ∧ cvt {} 5 6 true 0xFC = (0xFE, 0) ∧ cvt {} 3 2 true 0x7F800000 = (0x7BFF, 0) := by
  decide +kernel

/-- R460's table: segments begin at lanes 3 and 6, lane 4 is inactive and keeps its value. -/
theorem test_segmented_scan :
    let s0 := withMask (withMask base 5 0x48) 6 0xEF
    let s := withVector s0 1 0xFFFFFFFF fun l => BitVec.ofNat 32 (l + 1)
    after (exec (.vsegscan ⟨false, 6⟩ (.v 2) (.v 1) 5 0) (vecs s [(2, 99)])) (fun t =>
      (List.finRange 8).map fun l => t.w.r.v[(2 : Fin 88)][l.val]) = some [1, 3, 6, 4, 99, 10, 7, 15] := by decide +kernel

/-- R129, R130: −0 is the lesser zero; a NaN compares unordered. -/
theorem test_float_zero_and_nan :
    let s := vecs base [(1, 0x80000000), (2, 0x7FC00000)]
    after (exec (.vfmax ⟨false, 0⟩ (.v 3) (.v 1) (.lit 0)) s) (fun t => t.w.r.v[(3 : Fin 88)][(0 : Fin 32)]) = some 0 ∧
    after (exec (.vfcmp ⟨false, 0⟩ 7 6 (.v 2) (.v 2)) s) (fun t => t.w.r.k[(7 : Fin 16)]) = some 0xFFFFFFFF := by
  decide +kernel

/-- R381, R430: a store and a load of the top byte of a word, sign-extended, little-endian. -/
theorem test_store_then_load :
    let s := scal base [(2, 0x1000), (6, 0x80FF0203)]
    after (exec (.st ⟨false, 0⟩ (.s 6) (.s 2) ⟨0, 2, false, 0, true⟩) s) (fun t =>
      [memGet t.mem 0x40001000, memGet t.mem 0x40001001, memGet t.mem 0x40001002, memGet t.mem 0x40001003]) =
      some [0x03, 0x02, 0xFF, 0x80] ∧
    after (exec (.ld ⟨false, 0⟩ (.v 7) (.s 2) ⟨3, 0, true, 0, true⟩) (physPut s 0x40001000 4 0x80FF0203)) (fun t =>
      t.w.r.v[(7 : Fin 88)][(31 : Fin 32)]) = some 0xFFFFFF80 := by decide +kernel

/-- R320: 32 lanes add 1 to one word; lane 31 reads the sum below it. -/
theorem test_atomic_lane_order :
    let s := vecs (scal base [(2, 0x1000)]) [(1, 1)]
    after (exec (.atomr ⟨false, 0⟩ (.v 1) (.s 2) ⟨0, 0, true⟩) s) (fun t =>
      (t.w.r.v[(1 : Fin 88)][(31 : Fin 32)], memGet t.mem 0x40001000)) = some (31, 32) := by decide +kernel

/-- R329, R94: lanes part; the leaf is suspended, its lanes at their two targets. -/
theorem test_branch_split :
    let s := withMask base 1 0xE
    after (exec (.bra ⟨false, 0⟩ 1 0x1FFFE) { s with w := { s.w with iss := { pc := 0x38, first := 0x38, next := 0x3C } } })
      (fun t => (t.w.leaves[(0 : Fin 4)].pend.map (·.k14), t.w.lpc[(1 : Fin 32)], t.w.lpc[(0 : Fin 32)])) =
      some (some 0xE, 0x34, 0x3C) := by decide +kernel

/-- R259: HYPQ of identifier 0 gives 1. -/
theorem test_hypq_zero :
    after (exec (.hypq ⟨false, 0⟩ (.s 4) (.lit 0)) base) (fun t => t.w.r.s[(4 : Fin 32)]) = some 1 := by decide +kernel

/-- R52, R235: an unassigned opcode is fault 0x01 with subcode 1, its word in %trapinfo2. -/
theorem test_unassigned_opcode :
    after (exec (.unassignedOpcode 0x0F600000) base) (fun t =>
      (t.w.mode, t.w.sr.trapcause, t.w.sr.trapinfo0, t.w.sr.trapinfo2)) =
      some (.supervisor, 0x01, 1, 0x0F600000) := by decide +kernel

/-- R284's example: buckets (1:64:64) and (65:128:128). -/
theorem test_bucket_choice :
    let bs : List Bucket := [{ entry := 1, lo := [1, 1, 1, 1], hi := [64, 1, 1, 1], pad := [64, 1, 1, 1] },
      { entry := 2, lo := [65, 1, 1, 1], hi := [128, 1, 1, 1], pad := [128, 1, 1, 1] }]
    [64, 100, 129].map (fun n => (chooseBucket {} bs #v[n, 1, 1, 1]).map fun k => (k.entry, k.pad[(0 : Fin 4)])) =
      [some (4, 64), some (8, 128), none] := by decide +kernel

/-- R278: a doorbell counts one wake. -/
theorem test_doorbell :
    after (exec (.doorbell 0x2000) base) (fun t => physNat t 0x2014 4) = some 0x80000001 := by decide +kernel

/-- A step fetches, decodes and runs the word at the PC: `smov s4, #1` at slot 0 (R35, R417). -/
theorem test_step_runs_the_word :
    after (step (State.reset.withFetchWord 64 0x0000000100373F00)) (fun t =>
      (t.w.r.s[(4 : Fin 32)], t.w.leaves[(0 : Fin 4)].pc)) = some (1, 8) := by decide +kernel

/-! ### Witnesses: states and operands that meet each statement's hypotheses -/

/-- What a successful check gives. -/
def got {ε α : Type} (d : α) : Except ε α → α
  | .ok a => a
  | .error _ => d

theorem eq_ok {ε α : Type} {e : Except ε α} (d : α) (h : e.isOk = true) : e = .ok (got d e) := by
  cases e with
  | ok _ => rfl
  | error _ => cases h

theorem eq_error {ε α : Type} {e : Except ε α} (h : e.isOk = false) : ∃ x, e = .error x := by
  cases e with
  | ok _ => cases h
  | error x => exact ⟨x, rfl⟩

/-- Does a check find bytes here, in lines that are not poisoned? -/
def fine (s : State) (e : Except Miss Loc) : Bool :=
  match e with
  | .ok x => decide (x.peer = none ∧ x.bad = none ∧ ∀ a ∈ x.pas, homeLine s a ∉ s.poisoned)
  | .error _ => false

/-- The bytes a check finds. -/
def loc (e : Except Miss Loc) : Loc := got ⟨[], [], 0, [], false, [], none, none⟩ e

theorem fine_ok {s : State} {e : Except Miss Loc} (h : fine s e = true) :
    e = .ok (loc e) ∧ (loc e).peer = none ∧ (loc e).bad = none ∧ ∀ a ∈ (loc e).pas, homeLine s a ∉ s.poisoned := by
  cases e with
  | ok x => exact ⟨rfl, of_decide_eq_true h⟩
  | error x => cases h

theorem reaches_of {s : State} {m : Mask} {chk : Fin 32 → Except Miss Loc}
    (h : s.w.iss.redo = false ∧ ∀ l : Fin 32, m.getLsbD l = true → fine s (chk l) = true) :
    Reaches s m chk fun l => loc (chk l) := ⟨h.1, fun l hl => fine_ok (h.2 l hl)⟩

/-- `base` with a queue of class 0 at scratchpad 0x100, one token and one permit of its two slots, and one with neither at
0x120; ports 0 and 1 are bound to the first, ports 2 and 3 to the second. -/
def ported : State :=
  let s := physPut (physPut base 0x021000000100 16 (queueBits ⟨2, 1, 1, 0, 1, 4, 0x200, 0, 0⟩)) 0x021000000120 16
    (queueBits ⟨2, 0, 0, 0, 0, 4, 0x400, 0, 0⟩)
  { s with w := { s.w with ports := #v[0x0400000000000100, 0x0400000000000100, 0x0400000000000120, 0x0400000000000120] } }

/-- The clauses of a lane-wise or cross-lane instruction can all be met: no port; ready ports; a port that is not ready; an
empty effective mask. -/
def FormsMet : Prop :=
  (Operand.v 1).isQ = false ∧ (Operand.lit 3).isQ = false ∧
  (ported.w.eff 0 ≠ 0 ∧ portsReady ported (ported.w.eff 0) (.q 1) [.q 0, .v 2] [.q 0, .v 2] = .ok () ∧
    (∃ s1 x, readVec ported (ported.w.eff 0) (.q 0) = .ok (s1, x) ∧
      ∃ s2 y, readVec s1 (ported.w.eff 0) (.v 2) = .ok (s2, y)) ∧
    portsReady ported (ported.w.eff 0) (.q 1) [.q 0] [.q 0] = .ok () ∧
    portsReady ported (ported.w.eff 0) .lid [.q 0, .v 2] [.q 0, .v 2] = .ok ()) ∧
  ((∃ s', portsReady ported (ported.w.eff 0) (.v 1) [.q 2, .v 2] [.q 2, .v 2] = .error s') ∧
    (∃ s', portsReady ported (ported.w.eff 0) (.q 3) [.v 2] [.v 2] = .error s') ∧
    ∃ s', portsReady ported (ported.w.eff 0) .lid [.q 2, .v 2] [.q 2, .v 2] = .error s') ∧
  base.w.eff 1 = 0

theorem forms_met : FormsMet :=
  ⟨rfl, rfl, ⟨by decide +kernel, eq_ok () (by decide +kernel), ⟨_, _, eq_ok (base, lanes fun _ => 0) (by decide +kernel), _, _,
    rfl⟩, eq_ok () (by decide +kernel), eq_ok () (by decide +kernel)⟩,
    ⟨eq_error (by decide +kernel), eq_error (by decide +kernel), eq_error (by decide +kernel)⟩, by decide +kernel⟩

/-- The last legal condition; a source that is not lpc. -/
theorem witness_ScalarLaneAndMaskResults : (5 : BitVec 3).toNat < 6 ∧ Operand.v 0 ≠ .lpc ∧ Operand.lid ≠ .lpc := by
  decide +kernel

theorem witness_VectorIntegerResults : FormsMet := forms_met

/-- The last pair of registers; VSEL with registers, and with ready ports. -/
theorem witness_BitFieldUnaryPairAndSelectResults :
    FormsMet ∧ (86 : Fin 88).val + 1 < 88 ∧ (Operand.lid).isQ = false := ⟨forms_met, by decide +kernel, rfl⟩

theorem witness_VectorCompareResults : FormsMet ∧ (5 : BitVec 3).toNat < 6 ∧ (6 : BitVec 3).toNat < 7 :=
  ⟨forms_met, by decide +kernel, by decide +kernel⟩

theorem witness_FloatInstructionResults : FormsMet := forms_met

theorem witness_CrossLaneResults : FormsMet := forms_met

theorem witness_IntegerScansFoldInLaneOrder : (8 : BitVec 4).toNat < 9 ∧ (8 : BitVec 4) ≠ 1 ∧ (0 : BitVec 4) ≠ 1 := by
  decide +kernel

/-- The first and last types of elements; a port with a permit, and one with a token. -/
theorem witness_PackAndUnpackResults :
    3 ≤ (3 : BitVec 3).toNat ∧ 3 ≤ (7 : BitVec 3).toNat ∧ ported.w.eff 0 ≠ 0 ∧
    pushReady ported (ported.w.eff 0) (.q 0) [.lit 0] = .ok () ∧
    popReady ported (ported.w.eff 0) [] (.q 0) = .ok () ∧
    ∃ t x, readVec ported (ported.w.eff 0) (.q 0) = .ok (t, x) :=
  ⟨by decide +kernel, by decide +kernel, by decide +kernel, eq_ok () (by decide +kernel), eq_ok () (by decide +kernel),
    _, _, eq_ok (base, lanes fun _ => 0) (by decide +kernel)⟩

/-- The least and the greatest NaN, a number, and the two zeros, without FTZ. -/
theorem witness_FloatSpecialValues :
    0x7F800000 < (0x7F800001 : Word).toNat % 2 ^ 31 ∧ 0x7F800000 < (0xFFFFFFFF : Word).toNat % 2 ^ 31 ∧
    ¬0x7F800000 < (0x7F800000 : Word).toNat % 2 ^ 31 ∧ ({ mode := 0, ftz := false } : Rnd).ftz = false ∧
    (2 : BitVec 3) ≠ 1 ∧ (5 : BitVec 3).toNat < 6 := by decide +kernel

/-- Both infinities are representable. -/
theorem witness_RepresentableValuesRoundToThemselves :
    (0x7F800000 : Word).toNat % 2 ^ 31 ≤ 0x7F800000 ∧ (0xFF800000 : Word).toNat % 2 ^ 31 ≤ 0x7F800000 := by decide +kernel

/-- Each mode, the bounds of the shadows, and the last pairs. -/
theorem witness_OperandValues :
    ({ mode := .hinge } : Wave).mode = .hinge ∧ ({} : Wave).mode ≠ .hinge ∧ (23 : Fin 32).val < 24 ∧
    (24 : Fin 32).val = 24 + (0 : Fin 8).val ∧ (31 : Fin 32).val = 24 + (7 : Fin 8).val ∧ (15 : Fin 16) ≠ 0 ∧
    (86 : Fin 88).val + 1 < 88 ∧ (30 : Fin 32).val + 1 < 32 := by decide +kernel

/-- `ported` in a chain whose first word has popped port 0 already. -/
def stashing : State :=
  { ported with w := { ported.w with iss := { ported.w.iss with popped := [(ported.w.iss.pc, 0, lanes fun _ => 7)] } } }

/-- Port 0 has one token and one permit, port 2 neither; an entry popped before the chain's first word. -/
theorem witness_QueuePortTransfers :
    (ported.w.task = false ∧ portAddr ported.w 0 ≠ 0 ∧
      locateQueue ported (ported.w.eff 0) (portAddr ported.w 0) = .ok 0x021000000100 ∧
      (∀ b ∈ span 0x021000000100 16, homeLine ported b ∉ ported.poisoned) ∧ stashed ported.w 0 = none ∧ NoHazard ported ∧
      let q := readQueue ported 0x021000000100
      q.ccls = 0 ∧ 0 < q.tokens ∧ q.pcls = 0 ∧
      (∃ pas, spadRange ported (ported.w.committed (leaderOf (ported.w.eff 0))) (q.sbase + 32 * q.ssize * q.head) 128 =
        some pas ∧ ∀ b ∈ pas, homeLine ported b ∉ ported.poisoned) ∧
      ∃ pas, spadRange ported (ported.w.committed (leaderOf (ported.w.eff 0))) (q.sbase + 32 * q.ssize * q.tail) 128 =
        some pas) ∧
    (stashing.w.task = false ∧ portAddr stashing.w 0 ≠ 0 ∧
      locateQueue stashing (stashing.w.eff 0) (portAddr stashing.w 0) = .ok 0x021000000100 ∧
      (∀ b ∈ span 0x021000000100 16, homeLine stashing b ∉ stashing.poisoned) ∧ stashed stashing.w 0 = some (lanes fun _ => 7)) ∧
    portAddr ported.w 2 ≠ 0 ∧ locateQueue ported (ported.w.eff 0) (portAddr ported.w 2) = .ok 0x021000000120 ∧
      (∀ b ∈ span 0x021000000120 16, homeLine ported b ∉ ported.poisoned) ∧ stashed ported.w 2 = none ∧
      (let q := readQueue ported 0x021000000120
       q.ccls = 0 ∧ q.tokens = 0 ∧ q.pcls = 0 ∧ q.permits = 0) ∧
      ∀ o ∈ [Operand.v 1, .q 0], popHome ported (ported.w.eff 0) o ≠ some 0x021000000120 := by
  refine ⟨⟨by decide +kernel, by decide +kernel, eq_ok 0 (by decide +kernel), fun _ _ h => absurd h List.not_mem_nil, rfl, .inl (by decide +kernel),
    by decide +kernel, by decide +kernel, by decide +kernel,
    ⟨_, Option.eq_some_of_isSome (by decide +kernel), fun _ _ h => absurd h List.not_mem_nil⟩,
    Option.isSome_iff_exists.mp (by decide +kernel)⟩,
    ⟨rfl, by decide +kernel, eq_ok 0 (by decide +kernel), fun _ _ h => absurd h List.not_mem_nil, by decide +kernel⟩, ?_⟩
  refine ⟨by decide +kernel, eq_ok 0 (by decide +kernel), fun _ _ h => absurd h List.not_mem_nil, rfl, by decide +kernel, by decide +kernel⟩
/-- `base` in its supervisor handler, every lane in its leaf. -/
def supState : State :=
  { base with w := { base.w with mode := .supervisor, sup := { mask := 0xFFFFFFFF }, iss := { agent := .supervisor } } }

/-- `base` in its hinge handler. -/
def hingeState : State := { base with w := { base.w with mode := .hinge, iss := { agent := .handler } } }

/-- A state whose program's loop stack holds `n` entries of every lane. -/
def looped (s : State) (n : Nat) : State :=
  { s with w := { s.w with loops := List.replicate n ⟨0, 16, 2, 0xFFFFFFFF⟩, supLoops := List.replicate n ⟨0, 16, 2, 0xFFFFFFFF⟩ } }

/-- No lane taken; every lane; some, in a leaf and in the supervisor handler; and a scalar of 0 for BRS. -/
theorem witness_BranchResults :
    base.w.eff 0 &&& base.w.maskReg 1 = 0 ∧
    (base.w.eff 0 &&& base.w.maskReg 0 ≠ 0 ∧ issueLanes base.w &&& ~~~(base.w.eff 0 &&& base.w.maskReg 0) = 0) ∧
    (∀ s ∈ [withMask base 1 0xE, withMask supState 1 0xE], s.w.eff 0 &&& s.w.maskReg 1 ≠ 0 ∧
      issueLanes s.w &&& ~~~(s.w.eff 0 &&& s.w.maskReg 1) ≠ 0) ∧
    base.w.iss.agent = .leaf 0 ∧ supState.w.iss.agent = .supervisor ∧ scalarVal base.w (.lit 0) = 0 := by
  decide +kernel

/-- A jump table of two words in the code object: 0x40, then 0x80. -/
def tabled : State := physPut (physPut base 0x40000010 4 0x40) 0x40000014 4 0x80

/-- RET to one target and to two; JMPX to one and to two, by the last index, and by no lane; an index past the end, in
lane 5 first. -/
theorem witness_IndirectBranchResults :
    (issueLanes base.w ≠ 0 ∧ ∀ l : Fin 32, (issueLanes base.w).getLsbD l = true →
      (if (base.w.eff 0).getLsbD l then getV base.w 30 l &&& 0xFFFFFFFC else base.w.iss.next) = 0) ∧
    (let s := withVector base 30 1 fun _ => 0x40
     ∃ l j : Fin 32, (issueLanes s.w).getLsbD l = true ∧ (issueLanes s.w).getLsbD j = true ∧
      getV s.w 30 l &&& 0xFFFFFFFC ≠ getV s.w 30 j &&& 0xFFFFFFFC) ∧
    (let s := withVector tabled 4 1 fun _ => 1
     let g (l : Fin 32) : DWord := codeBase s + BitVec.ofNat 64 (4 * (4 + (getV s.w 4 l).toNat))
     let at_ (l : Fin 32) : Loc := loc (resolve s (s.w.committed l) .fetch (g l) 4)
     let tgt (l : Fin 32) : Word :=
       if (s.w.eff 0).getLsbD l then codeWord s (s.w.committed l) (g l) (at_ l) &&& 0xFFFFFFFC else s.w.iss.next
     (∀ l : Fin 32, (s.w.eff 0).getLsbD l = true → (getV s.w 4 l).toNat < (2 : BitVec 12).toNat ∧
        resolve s (s.w.committed l) .fetch (g l) 4 = .ok (at_ l) ∧ ∀ a ∈ (at_ l).pas, homeLine s a ∉ s.poisoned) ∧
      issueLanes s.w ≠ 0 ∧ s.w.iss.redo = false ∧ tgt 0 ≠ tgt 1) ∧
    (let s := tabled
     let g (l : Fin 32) : DWord := codeBase s + BitVec.ofNat 64 (4 * (4 + (getV s.w 4 l).toNat))
     let tgt (l : Fin 32) : Word :=
       if (s.w.eff 0).getLsbD l then
        codeWord s (s.w.committed l) (g l) (loc (resolve s (s.w.committed l) .fetch (g l) 4)) &&& 0xFFFFFFFC else s.w.iss.next
     s.w.eff 0 ≠ 0 ∧ ∀ l : Fin 32, (issueLanes s.w).getLsbD l = true → tgt l = 0x40) ∧
    base.w.eff 1 = 0 ∧
    (let s := withVector base 4 0x20 fun _ => 2
     let bad : Mask := 0x20
     (∀ j : Fin 32, bad.getLsbD j = true ↔ (s.w.eff 0).getLsbD j = true ∧ (2 : BitVec 12).toNat ≤ (getV s.w 4 j).toNat) ∧
      bad.getLsbD (5 : Fin 32) = true ∧ ∀ j : Fin 32, j < 5 → bad.getLsbD j = false) := by
  have h1 : ∀ l : Fin 32, (getV (withVector tabled 4 1 fun _ => 1).w 4 l).toNat < (2 : BitVec 12).toNat ∧
      fine (withVector tabled 4 1 fun _ => 1) (resolve (withVector tabled 4 1 fun _ => 1)
        ((withVector tabled 4 1 fun _ => 1).w.committed l) .fetch (codeBase (withVector tabled 4 1 fun _ => 1) +
          BitVec.ofNat 64 (4 * (4 + (getV (withVector tabled 4 1 fun _ => 1).w 4 l).toNat))) 4) = true := by decide +kernel
  exact ⟨by decide +kernel, ⟨0, 1, by decide +kernel⟩, ⟨fun l _ => ⟨(h1 l).1, (fine_ok (h1 l).2).1, (fine_ok (h1 l).2).2.2.2⟩,
    by decide +kernel, by decide +kernel, by decide +kernel⟩, by decide +kernel, by decide +kernel, by decide +kernel⟩

/-- No pass; a fifth entry, and a fourth, in a leaf and in the supervisor handler; LBRK by more entries than there are, and
by all of them. -/
theorem witness_LoopResults :
    scalarVal base.w (.lit 0) = 0 ∧ scalarVal base.w (.lit 1) ≠ 0 ∧ 4 ≤ (looped base 4).w.agentLoops.length ∧
    (looped base 3).w.agentLoops.length < 4 ∧ (looped base 3).w.iss.agent = .leaf 0 ∧
    (looped supState 3).w.agentLoops.length < 4 ∧ (looped supState 3).w.iss.agent = .supervisor ∧
    (looped base 3).w.agentLoops.length < (4 : BitVec 3).toNat ∧ (4 : BitVec 3).toNat ≤ (looped base 4).w.agentLoops.length ∧
    (4 : BitVec 3).toNat ≤ (looped supState 4).w.agentLoops.length := by decide +kernel

/-- Some lanes leave; the last ones do. -/
theorem witness_LanesLeave :
    (let s := withMask base 1 0x7FFFFFFF
     s.w.present &&& ~~~(s.w.eff 1 &&& s.w.present) ≠ 0) ∧
    supState.w.present &&& ~~~(supState.w.eff 0 &&& supState.w.present) = 0 ∧
    base.w.present &&& ~~~(base.w.eff 0 &&& base.w.present) = 0 ∧ base.w.id ≠ 0 := by
  decide +kernel

/-- A LEAFSET and a LEAFCLR. -/
theorem witness_LeafTableResults :
    (∃ ch a b, Instr.leafset false true 3 5 (.lit 0x42) = .leafset ch true 3 a b ∧ hingeState.w.maskReg 5 = hingeState.w.maskReg a ∧
      (0x40 : Word) = scalarVal hingeState.w b &&& 0xFFFFFFFC) ∧ ∃ ch, Instr.leafclr true 0 = .leafclr ch 0 :=
  ⟨⟨false, 5, .lit 0x42, by decide +kernel⟩, true, rfl⟩

/-- A state whose leaves have these masks. -/
def leaved (s : State) (a b : Mask) : State :=
  { s with w := { s.w with leaves := #v[{ mask := a }, {}, {}, { mask := b }] } }

/-- Leaves 0 and 3 overlap in lane 31; leaf 3 names an absent lane; and they are apart, with every lane present. -/
theorem witness_HandlerReturn :
    overlapPair (leaved hingeState 0xFFFFFFFF 0x80000000).w = some (0, 3) ∧
    (let s := leaved { hingeState with w := { hingeState.w with absent := 0x80000000 } } 1 0x80000000
     overlapPair s.w = none ∧ absentLeaf s.w = some 3) ∧
    let s := leaved hingeState 0x7FFFFFFF 0x80000000
    (∀ i j : Fin 4, i < j → s.w.leaves[i].mask &&& s.w.leaves[j].mask = 0) ∧
      ∀ i : Fin 4, s.w.leaves[i].mask &&& s.w.absent = 0 := by decide +kernel

/-- Lane l's address pair v2:v3 is 0x1000 + 16 l; the scalar pair s2:s3 is 0x1000. -/
def addressed (s : State) : State :=
  scal (withVector s 2 0xFFFFFFFF fun l => BitVec.ofNat 32 (0x1000 + 16 * l.val)) [(2, 0x1000)]

/-- Four registers, the last four; the handler's narrow load of a shadow and its widest below them; and a port. -/
theorem witness_LoadResults :
    base.w.eff 1 = 0 ∧
    (let s := addressed base
     Reaches s (s.w.eff 0) (fun l => laneChk s (s.w.accessor l) .load (pairVal s.w (.v 2) l + (0 : BitVec 20).signExtend 64) 16)
       (fun l => loc (laneChk s (s.w.accessor l) .load (pairVal s.w (.v 2) l + (0 : BitVec 20).signExtend 64) 16)) ∧
     NoHazard s ∧ s.w.eff 0 ≠ 0) ∧
    (let s := addressed hingeState
     Reaches s 1 (fun _ => laneChk s (s.w.committed 0) .load (pairVal s.w (.s 2) 0 + (0 : BitVec 20).signExtend 64) 16)
       (fun _ => loc (laneChk s (s.w.committed 0) .load (pairVal s.w (.s 2) 0 + (0 : BitVec 20).signExtend 64) 16)) ∧
     NoHazard s ∧ s.w.iss.agent = .handler ∧ (2 : BitVec 3).toNat ≤ 2 ∧ (20 : Fin 32).val + 4 ≤ 24) ∧
    pushReady ported (ported.w.eff 0) (.q 1) [] = .ok () ∧
    (28 : Fin 32).val + 4 ≤ 32 ∧ supState.w.mode ≠ .hinge :=
  ⟨by decide +kernel, ⟨reaches_of (by decide +kernel), by decide +kernel⟩, ⟨reaches_of (by decide +kernel), by decide +kernel⟩,
    eq_ok () (by decide +kernel), by decide +kernel⟩

/-- Plain memory for every lane, with an orphan among them; and a port's entry. -/
theorem witness_StoreResults :
    (let s := { addressed base with w := { (addressed base).w with orphan := 1 } }
     let m := s.w.eff 0 &&& ~~~s.w.orphans
     let chk (l : Fin 32) := laneChk s (s.w.accessor l) .store (pairVal s.w (.v 2) l + (0 : BitVec 20).signExtend 64) 16
     s.w.eff 0 ≠ 0 ∧ (Operand.v 84).isQ = false ∧ NoHazard s ∧ Reaches s m chk (fun l => loc (chk l)) ∧
       ∀ l : Fin 32, m.getLsbD l = true → (loc (chk l)).vers = false) ∧
    (let s := addressed ported
     let m := s.w.eff 0 &&& ~~~s.w.orphans
     let chk (l : Fin 32) := laneChk s (s.w.accessor l) .store (pairVal s.w (.v 2) l + (0 : BitVec 20).signExtend 64) 4
     s.w.iss.agent ≠ .handler ∧ s.w.eff 0 ≠ 0 ∧ NoHazard s ∧ Reaches s m chk (fun l => loc (chk l)) ∧
       popReady s (s.w.eff 0) [] (.q 0) = .ok () ∧ ∃ u q, readVec s (s.w.eff 0) (.q 0) = .ok (u, q) ∧
         let u' : State := { u with w := { u.w with iss := { u.w.iss with
           popped := u.w.iss.popped ++ [(u.w.iss.pc, 0, q)] } } }
         let g (l : Fin 32) : DWord := pairVal s.w (.v 2) l + (0 : BitVec 20).signExtend 64
         let at_ := reached m fun l => loc (chk l)
         ∃ v, storeLanes (podWrites (storeRequests u' s.w.accessor (byLane g at_)) g at_) s.w.accessor
           (fun l => leBytes 4 q[l].toNat) at_ = .ok v) :=
  ⟨⟨by decide +kernel, rfl, by decide +kernel, reaches_of (by decide +kernel), by decide +kernel⟩,
    by decide +kernel, by decide +kernel, by decide +kernel, reaches_of (by decide +kernel),
    eq_ok () (by decide +kernel), _, _, eq_ok (base, lanes fun _ => 0) (by decide +kernel), _, eq_ok base (by decide +kernel)⟩

/-- A context with hypotheses 1, a child of 0, and 2, a child of 1, live, and a version of sector 0x2000080 in slot 1. -/
def treeContext : Context :=
  { placedContext with
    nodes := ((placedContext.nodes.set 1 { st := .live, parent := 0, depth := 1, slots := [1] }).set 2
      { st := .live, parent := 1, depth := 2, slots := [2] })
    vers := [⟨1, 0x2000080, List.replicate 32 7, none, 0⟩], nextVs := 3 }

/-- `base` with that tree, its lanes under hypothesis 0. -/
def tree : State := { base with ctxs := [treeContext] }

theorem witness_VersionedStoreIsIsolated :
    (2 : BitVec 6) ≠ 0 ∧ ctxOf tree 1 = some treeContext ∧ (treeContext.node 2).slots ≠ [] ∧
    (∀ v ∈ treeContext.vers, v.data.length = 32) ∧ (∃ t, versStoreByte tree 1 2 0x40001001 9 = some t) ∧
    (∀ v ∈ treeContext.vers, v.pool = none) ∧ versLines tree (chipletOf 0x40001001) < versCapacity :=
  ⟨by decide +kernel, by decide +kernel, by decide +kernel, by decide +kernel,
    Option.isSome_iff_exists.mp (by decide +kernel), by decide +kernel, by decide +kernel⟩

/-- The cause a check traps with. -/
def trapOf (e : Except Miss Loc) : Option (BitVec 8) :=
  match e with
  | .error (.trap c) => some c
  | _ => none

theorem trapOf_eq {e : Except Miss Loc} {c : BitVec 8} : trapOf e = some c ↔ e = .error (.trap c) := by
  unfold trapOf
  split
  · simp
  · rename_i h
    exact ⟨fun h' => (by cases h'), fun h' => (h c h').elim⟩

/-- Lane 3's address has no entry; those below are fine. -/
def unmapped3 : State := withVector (addressed base) 3 8 fun _ => 0x40

/-- Lane 3 alone fails, with cause 0x10; for an atomic, by its alignment too. -/
theorem witness_AccessFaultsArePrecise :
    unmapped3.w.iss.agent ≠ .handler ∧ (unmapped3.w.eff 0).getLsbD (3 : Fin 32) = true ∧ unmapped3.w.orphans = 0 ∧
    (Operand.v 84).isQ = false ∧
    (∀ k ∈ [AccKind.load, .store, .atomic],
      let chk (j : Fin 32) : Except Miss Loc :=
        laneChk unmapped3 (unmapped3.w.accessor j) k (pairVal unmapped3.w (.v 2) j + (0 : BitVec 20).signExtend 64) 4
      chk 3 = .error (.trap 0x10) ∧ ∀ j : Fin 32, j < 3 → ∀ c, chk j ≠ .error (.trap c)) ∧
    (let s := withVector (addressed base) 2 8 fun _ => 0x1032
     (pairVal s.w (.v 2) 3 + (0 : BitVec 20).signExtend 64).toNat % 4 ≠ 0 ∧
     ∀ j : Fin 32, j < 3 → (pairVal s.w (.v 2) j + (0 : BitVec 20).signExtend 64).toNat % 4 = 0) := by
  refine ⟨by decide +kernel, by decide +kernel, by decide +kernel, rfl, fun k hk => ⟨trapOf_eq.mp ?_, fun j hj c hc => ?_⟩,
    by decide +kernel⟩
  · revert k; decide +kernel
  · have h : trapOf _ = some c := trapOf_eq.mpr hc
    have h0 : ∀ k ∈ [AccKind.load, .store, .atomic], ∀ j : Fin 32, j < 3 → trapOf (laneChk unmapped3 (unmapped3.w.accessor j) k
        (pairVal unmapped3.w (.v 2) j + (0 : BitVec 20).signExtend 64) 4) = none := by decide +kernel
    exact Option.some_ne_none c (h.symm.trans (h0 k hk j hj))

/-- Every lane at a word of its own; and one word for all. -/
theorem witness_AtomicResults :
    base.w.eff 1 = 0 ∧
    (let s := addressed base
     let acc (l : Fin 32) : Accessor := { s.w.accessor l with hyp := 0 }
     let chk (l : Fin 32) := laneChk s (acc l) .atomic (pairVal s.w (.v 2) l + (0 : BitVec 20).signExtend 64) 4
     s.w.iss.agent ≠ .handler ∧ s.w.eff 0 ≠ 0 ∧ NoHazard s ∧
     (∀ l : Fin 32, (s.w.eff 0).getLsbD l = true → (pairVal s.w (.v 2) l + (0 : BitVec 20).signExtend 64).toNat % 4 = 0) ∧
     Reaches s (s.w.eff 0) chk fun l => loc (chk l)) ∧
    let x : Loc := ⟨[0x40001000, 0x40001001, 0x40001002, 0x40001003], [0x30000], 0, [], false, [], none, none⟩
    x.peer = none ∧ x.bad = none ∧ (x.pas.map (route base)).Nodup ∧ (∀ a ∈ x.pas, physKind a ≠ some .view) ∧
      ∀ e ∈ x.entries, ∀ a ∈ x.pas, route base (e + 1) ≠ route base a :=
  ⟨by decide +kernel, ⟨by decide +kernel, by decide +kernel, by decide +kernel, by decide +kernel,
    reaches_of (by decide +kernel)⟩, by decide +kernel⟩

/-- What each clause of WAITC asks, the word at 0x1000 being 0; fences of no cost up to scope 5, and the pod's. -/
theorem witness_WaitPrefetchAndFenceResults :
    base.w.eff 1 = 0 ∧ base.w.eff 0 ≠ 0 ∧ base.w.task = false ∧
    (scalarPair (scal base [(2, 0x1002)]).w (.s 2)).toNat % 4 ≠ 0 ∧ selOf (scalarPair (scal base [(3, 0x0A000000)]).w (.s 2)) = 5 ∧
    selOf (scalarPair (scal base [(3, 0x02000000)]).w (.s 2)) = 1 ∧
    (let s := addressed base
     let g := scalarPair s.w (.s 2)
     let e := resolve s (s.w.committed (leaderOf (s.w.eff 0))) .load g 4
     g.toNat % 4 = 0 ∧ selOf g ≠ 5 ∧ selOf g ≠ 1 ∧ NoHazard s ∧ e = .ok (loc e) ∧ (loc e).ca ≠ 4 ∧
      (∀ b ∈ (loc e).pas, homeLine s b ∉ s.poisoned) ∧ BitVec.ofNat 32 (leNat ((loc e).pas.map (physByte s))) ≠ scalarVal s.w (.lit 1) ∧
      BitVec.ofNat 32 (leNat ((loc e).pas.map (physByte s))) = scalarVal s.w (.lit 0) ∧ s.w.iss.agent = .leaf 0) ∧
    ({ base with w := { base.w with task := true } } : State).w.task = true ∧
    (fenceXfers base (base.w.eff 0) 5 1 = [] ∧ fenceMlds base (base.w.eff 0) 5 1 = [] ∧
      fenceCmds base (base.w.eff 0) 5 1 0 = 0 ∧ fenceCmds base (base.w.eff 0) 5 1 1 = 0 ∧ fencePods base (base.w.eff 0) 5 1 = [] ∧ fencexCost 5 1 1 = 0) ∧
    (5 : BitVec 3).toNat < 6 ∧ fencexCost 6 1 1 ≠ 0 ∧
    let m : Monitor := { addr := 0x40001000, len := 4, wave := base.w.id, leaf := some 0 }
    m.home base ∉ base.coarse ∧ monitorsAt base (m.home base) < monitorCap (m.home base) := by
  have word := (fine_ok (s := addressed base) (e := resolve (addressed base) ((addressed base).w.committed
    (leaderOf ((addressed base).w.eff 0))) .load (scalarPair (addressed base).w (.s 2)) 4) (by decide +kernel)).1
  refine ⟨?_, ?_, ?_, ?_, ?_, ?_, ⟨?_, ?_, ?_, ?_, word, ?_⟩, ?_⟩ <;> decide +kernel

/-- `base` about to spawn `n` tasks with their arguments at `args` and a join record at `join`. -/
def spawning (n args join : Word) : State := scal base [(4, n), (0, args), (12, join)]

/-- The ring of the wave's chiplet and context is full. -/
def fullRing (s : State) : State :=
  { s with rings := [⟨chipOf s.w.core, 1, List.replicate 512 { kdesc := 0, args := 0, join := 0, entry := 0, n := 1 }⟩] }

/-- Nothing to do, thrice; too many tasks; a misaligned base, and record; a full ring; and room, with and without a record. -/
theorem witness_SpawnResults :
    base.w.eff 1 = 0 ∧ ({ base with w := { base.w with orphan := 1 } } : State).w.orphans.getLsbD (leaderOf (base.w.eff 0)) = true ∧
    getS (spawning 0 0 0).w 4 = 0 ∧ base.w.eff 0 ≠ 0 ∧ base.w.orphans.getLsbD (leaderOf (base.w.eff 0)) = false ∧
    2 ^ 20 < (getS (spawning 0x100001 0 0).w 4).toNat ∧
    (let s := spawning 0x100000 0x2020 0
     (getS s.w 4).toNat ≤ 2 ^ 20 ∧ (scalarPair s.w (.s 0)).toNat % 64 ≠ 0) ∧
    (let s := spawning 0x100000 0x2000 0x1004
     (scalarPair s.w (.s 0)).toNat / 2 ^ 57 = 0 ∧ (scalarPair s.w (.s 0)).toNat % 64 = 0 ∧
      (getS s.w 13 ++ getS s.w 12).toNat % 8 ≠ 0) ∧
    (let s := spawning 0x100000 0x2000 0x1000
     let x := resolve s (s.w.committed (leaderOf (s.w.eff 0))) .atomic (getS s.w 13 ++ getS s.w 12) 4
     (getS s.w 13 ++ getS s.w 12).toNat / 2 ^ 57 = 0 ∧ (getS s.w 13 ++ getS s.w 12).toNat % 8 = 0 ∧
      ringFull (fullRing s) (chipOf s.w.core) s.w.ctx = true ∧ ringFull s (chipOf s.w.core) s.w.ctx = false ∧ x = .ok (loc x) ∧
      (∀ b ∈ (loc x).pas, homeLine s b ∉ s.poisoned) ∧ Apart s 1 4 fun _ => loc x) := by
  have join := (fine_ok (s := base) (e := resolve (spawning 0x100000 0x2000 0x1000)
    ((spawning 0x100000 0x2000 0x1000).w.committed (leaderOf ((spawning 0x100000 0x2000 0x1000).w.eff 0))) .atomic
    (getS (spawning 0x100000 0x2000 0x1000).w 13 ++ getS (spawning 0x100000 0x2000 0x1000).w 12) 4) (by decide +kernel)).1
  refine ⟨?_, ?_, ?_, ?_, ?_, ?_, ?_, ?_, ⟨?_, ?_, ?_, ?_, join, ?_, ?_⟩⟩ <;> (try unfold Apart) <;> decide +kernel

/-- A join record at 0x1000 with a count and flags; every lane names it. -/
def joining (count flags : Nat) : State :=
  physPut (physPut (scal base [(12, 0x1000)]) 0x40001000 4 count) 0x40001018 1 flags

/-- No lane; no record; a misaligned record in lane 3; and a count above the arrivals, equal to them, and equal with a
continuation and room in the ring. -/
theorem witness_TaskReturnResults :
    base.w.eff 1 = 0 ∧
    (base.w.eff 0 ≠ 0 ∧ base.w.eff 0 &&& base.w.iss.parked = 0 ∧ base.w.iss.redo = false ∧
      ∀ l : Fin 32, (base.w.eff 0).getLsbD l = true → pairVal base.w (.s 12) l = 0) ∧
    (let s := withVector (addressed base) 2 8 fun _ => 0x1034
     (s.w.eff 0).getLsbD (3 : Fin 32) = true ∧ (pairVal s.w (.v 2) 3).toNat % 8 ≠ 0 ∧ ∀ i : Fin 32, i < 3 →
      (s.w.eff 0).getLsbD i = true → pairVal s.w (.v 2) i ≠ 0 → virtAligned (pairVal s.w (.v 2) i) 8 = true) ∧
    (∀ s ∈ [joining 33 0, joining 32 0, joining 32 1],
      (0x1000 : DWord) ≠ 0 ∧ virtAligned 0x1000 8 = true ∧ (∀ l : Fin 32, pairVal s.w (.s 12) l = 0x1000 ∧
        resolve s (s.w.committed l) .atomic 0x1000 32 = .ok (loc (resolve s (s.w.committed 0) .atomic 0x1000 32))) ∧
      (∀ b ∈ (loc (resolve s (s.w.committed 0) .atomic 0x1000 32)).pas, homeLine s b ∉ s.poisoned) ∧
      Apart s 1 32 (fun _ => loc (resolve s (s.w.committed 0) .atomic 0x1000 32)) ∧
      ringFull s (chipOf s.w.core) s.w.ctx = false) ∧
    let x := (loc (resolve base (base.w.committed 0) .atomic 0x1000 32)).pas
    let count (s : State) : Nat := (wordOf s (x.take 4)).toNat
    let flags (s : State) : Byte := physByte s (x.getD 0x18 0)
    (lanesOf (base.w.eff 0)).length < count (joining 33 0) ∧ (lanesOf (base.w.eff 0)).length = count (joining 32 0) ∧
      (flags (joining 32 0)).getLsbD 0 = false ∧ (flags (joining 32 0)).getLsbD 1 = false ∧
      (lanesOf (base.w.eff 0)).length = count (joining 32 1) ∧ (flags (joining 32 1)).getLsbD 0 = true := by
  have h : ∀ s ∈ [joining 33 0, joining 32 0, joining 32 1], ∀ l : Fin 32,
      fine s (resolve s (s.w.committed l) .atomic 0x1000 32) = true ∧
      loc (resolve s (s.w.committed l) .atomic 0x1000 32) = loc (resolve s (s.w.committed 0) .atomic 0x1000 32) := by
    decide +kernel
  refine ⟨by decide +kernel, by decide +kernel, by decide +kernel, fun s hs => ⟨by decide +kernel, by decide +kernel,
    fun l => ⟨?_, (fine_ok (h s hs l).1).1.trans (congrArg _ (h s hs l).2)⟩, (fine_ok (h s hs 0).1).2.2.2, ?_, ?_⟩,
    by decide +kernel⟩
  · revert l; revert s; decide +kernel
  · revert s; unfold Apart; decide +kernel
  · revert s; decide +kernel

/-- `base` with a latch at scratchpad 0x100 and its generic address in s4:s5, k1 naming two lanes. -/
def latched (l : Latch) : State :=
  physPut (withMask (scal (addressed base) [(4, 0x100), (5, 0x04000000)]) 1 3) 0x021000000100 16 (latchBits l)

/-- An empty mask, the counts at their bounds, two lanes with latches of their own, one latch for all; a task wave at a
latch of another count than 1; latches of another phase, of the phase waited for, and poisoned ones. -/
theorem witness_LatchResults :
    base.w.eff 2 = 0 ∧ (scalarVal base.w (.lit 0)).toNat = 0 ∧ 0xFFFFF < (scalarVal base.w (.lit 0x100000)).toNat ∧
    0 < (scalarVal base.w (.lit 0xFFFFF)).toNat ∧ (scalarVal base.w (.lit 0xFFFFF)).toNat ≤ 0xFFFFF ∧
    (let s := latched ⟨0, false, false, false, 2, 2, 0⟩
     let chk (l : Fin 32) := resolve s (s.w.committed l) .atomic (pairVal s.w (.v 2) l) 16
     s.w.eff 1 ≠ 0 ∧ NoHazard s ∧ (∀ l : Fin 32, (s.w.eff 1).getLsbD l = true → (pairVal s.w (.v 2) l).toNat % 16 = 0 ∧
      selOf (pairVal s.w (.v 2) l) ≠ 5) ∧ Reaches s (s.w.eff 1) chk (fun l => loc (chk l)) ∧
      Apart s (s.w.eff 1) 16 (fun l => loc (chk l)) ∧
      ∀ l : Fin 32, (s.w.eff 1).getLsbD l = true → (latchAt s (loc (chk l)).pas).phase ≠ 1 % 16 ∧
        (latchAt s (loc (chk l)).pas).poison = false) ∧
    (∀ s ∈ [latched ⟨15, false, false, false, 2, 2, 0⟩, latched ⟨0, false, true, false, 2, 2, 0⟩],
      let m : Mask := laneBit (leaderOf (s.w.eff 0))
      let chk (_ : Fin 32) := resolve s (s.w.committed 0) .atomic (pairVal s.w (.s 4) 0) 16
      NoHazard s ∧ (∀ l : Fin 32, m.getLsbD l = true → (pairVal s.w (.s 4) l).toNat % 16 = 0 ∧ selOf (pairVal s.w (.s 4) l) ≠ 5) ∧
      Reaches s m chk (fun l => loc (chk l)) ∧ Apart s m 16 fun l => loc (chk l)) ∧
    (let at_ (s : State) := (loc (resolve s (s.w.committed 0) .atomic (pairVal s.w (.s 4) 0) 16)).pas
     let a := latched ⟨15, false, false, false, 2, 2, 0⟩
     let b := latched ⟨0, false, true, false, 2, 2, 0⟩
     (latchAt a (at_ a)).expArr ≠ 1 ∧ (latchAt a (at_ a)).phase = 31 % 16 ∧ (latchAt b (at_ b)).poison = true ∧
      (latchAt b (at_ b)).phase ≠ 1 % 16) := by
  refine ⟨by decide +kernel, by decide +kernel, by decide +kernel, by decide +kernel, by decide +kernel,
    ⟨by decide +kernel, by decide +kernel, by decide +kernel, reaches_of (by decide +kernel), by unfold Apart; decide +kernel,
      by decide +kernel⟩,
    fun s hs => ⟨?_, ?_, reaches_of ⟨?_, fun l _ => ?_⟩, ?_⟩, by decide +kernel⟩
  · revert s; decide +kernel
  · revert s; decide +kernel
  · revert s; decide +kernel
  · revert s l; decide +kernel
  · revert s; unfold Apart; decide +kernel

/-- `ported` with a queue of other classes and slots of 3 units at 0x140, and one the engines consume at 0x160; s12:s13 names queue `a`. -/
def queued (a : Nat) : State :=
  physPut (scal ported [(12, BitVec.ofNat 32 a), (13, 0x04000000)]) 0x021000000140 48
    (queueBits ⟨2, 1, 0, 0, 0, 3, 0x600, 1, 2⟩ + 2 ^ 256 * queueBits ⟨2, 0, 0, 0, 0, 4, 0x600, 0, 1⟩)

/-- The queues at 0x100 (full), 0x120 (empty), 0x140 (of other classes, slots of 3 units) and 0x160 (the engines consume);
a legal configuration of one slot of one unit; a publication that costs nothing, and one that costs a fence; and an object
that is poisoned. -/
theorem witness_QueueInstructionResults :
    base.w.eff 1 = 0 ∧ base.w.eff 0 ≠ 0 ∧ ({ base with w := { base.w with task := true } } : State).w.task = true ∧
    (∀ a ∈ [0x100, 0x120, 0x140, 0x160],
      locateQueue (queued a) (base.w.eff 0) (scalarPair (queued a).w (.s 12)) = .ok (0x021000000000 + a) ∧
      NoHazard (queued a)) ∧
    (let s := queued 0x100
     let cfg := (scalarVal s.w (.lit 0x01020101)).toNat
     1 ≤ cfg % 2 ^ 8 ∧ 1 ≤ cfg / 2 ^ 24 % 2 ^ 8 ∧ cfg / 2 ^ 8 % 2 ^ 8 ≤ 1 ∧ cfg / 2 ^ 16 % 2 ^ 8 ≤ 2 ∧
      (scalarVal s.w (.lit 0x200)).toNat % 32 = 0 ∧
      (∃ pas, spadRange s (s.w.committed (leaderOf (s.w.eff 0))) 0x200 (1 * 32 * 1) = some pas) ∧
      ∀ x ∈ s.xfers, x.queue.bind (winByte s x.unit x.member ·) ≠ some 0x021000000100) ∧
    (let s := queued 0x100
     let a := readQueue s 0x021000000100
     let b := readQueue s 0x021000000120
     let c := readQueue s 0x021000000140
     let d := readQueue s 0x021000000160
     let cost (q : Queue) (pa : Nat) : Nat := (fenceCost 0 q.consumer (scopeOfAll [.core s.w.core, homeAt s pa])).getD 0
     c.pcls ≠ 0 ∧ c.ccls ≠ 0 ∧ b.pcls = 0 ∧ b.permits = 0 ∧ b.ccls = 0 ∧ b.tokens = 0 ∧ a.pcls = 0 ∧ 0 < a.permits ∧
      a.ccls = 0 ∧ 0 < a.tokens ∧ a.permits + a.tokens = a.slots ∧ a.slots ≤ 2 ∧ ¬b.slots ≤ 1 ∧
      b.permits + b.tokens ≠ b.slots ∧ c.ssize ≠ 4 ∧ a.ssize = 4 ∧ cost b 0x021000000120 = 0 ∧ d.pcls = 0 ∧
      ¬d.slots ≤ 1 ∧ d.permits + d.tokens ≠ d.slots ∧ cost d 0x021000000160 ≠ 0 ∧ s.w.agentLeaf.wait = none) ∧
    (∀ a ∈ [0x100, 0x120, 0x140, 0x160], ∀ x ∈ span (0x021000000000 + a) 16, homeLine (queued a) x ∉ (queued a).poisoned) ∧
    let s := { queued 0x100 with poisoned := [homeLine base 0x021000000100] }
    locateQueue s (s.w.eff 0) (scalarPair s.w (.s 12)) = .ok 0x021000000100 ∧
      NoHazard s ∧ ∃ x ∈ span 0x021000000100 16, homeLine s x ∈ s.poisoned := by
  have home : ∀ a ∈ [0x100, 0x120, 0x140, 0x160],
      (locateQueue (queued a) (base.w.eff 0) (scalarPair (queued a).w (.s 12))).isOk = true ∧
      got 0 (locateQueue (queued a) (base.w.eff 0) (scalarPair (queued a).w (.s 12))) = 0x021000000000 + a ∧
      NoHazard (queued a) := by decide +kernel
  refine ⟨?_, ?_, rfl, fun a ha => ⟨?_, (home a ha).2.2⟩, ⟨?_, ?_, ?_, ?_, ?_, Option.isSome_iff_exists.mp ?_, ?_⟩, ?_, ?_,
    ⟨?_, ?_, 0x021000000100, ?_⟩⟩
  case refine_3 => rw [eq_ok 0 (home a ha).1, (home a ha).2.1]
  all_goals decide +kernel

/-- `tree` with its lanes under a hypothesis. -/
def under (h : BitVec 6) : State := { tree with w := { tree.w with cur := Vector.replicate 32 h } }

/-- A tree of 63 live nodes, and one whose node 1 is at depth 7. -/
def fullContext : Context :=
  { placedContext with nodes := Vector.ofFn fun i => { st := .live, parent := 0, depth := if i = 0 then 0 else 1, slots := [] } }

def deepContext : Context :=
  { placedContext with nodes := placedContext.nodes.set 1 { st := .live, parent := 0, depth := 7, slots := [1] } }

/-- Each clause of the five instructions: empty mask, orphan leader, identifiers 63, 64 and one that is not live, a lane on
and off the path, a full tree, a node at depth 7, room, a leader that a queued refute will orphan, identifiers on the
leader's path and off it, and requests ahead or none. -/
theorem witness_HypothesisInstructions :
    base.w.eff 1 = 0 ∧ base.w.eff 0 ≠ 0 ∧
    ({ base with w := { base.w with orphan := 1 } } : State).w.orphans.getLsbD (leaderOf (base.w.eff 0)) = true ∧
    63 < (scalarVal base.w (.lit 64)).toNat ∧ (scalarVal base.w (.lit 63)).toNat ≤ 63 ∧
    ctxOf tree tree.w.ctx = some treeContext ∧ (3 : BitVec 6) ≠ 0 ∧ ((treeContext.on tree.w.core).node 3).st ≠ .live ∧
    ((treeContext.on tree.w.core).node 2).st = .live ∧
    (∀ j : Fin 32, (under 1).w.hypOf j ∈ hypChain (treeContext.on tree.w.core) 8 2) ∧
    ((under 2).w.hypOf 0 ≠ 0 ∧ (under 2).w.hypOf 0 ∉ hypChain (treeContext.on tree.w.core) 8 1) ∧
    tree.w.orphans.getLsbD (leaderOf (tree.w.eff 0)) = false ∧ treeContext.reqs = [] ∧
    63 ≤ liveCount (aheadOf tree fullContext).c ∧ ((aheadOf tree fullContext).move (tree.w.hypOf 0)).2 = false ∧
    (let y := aheadOf (under 1) deepContext
     let m := y.move ((under 1).w.hypOf 0)
     liveCount y.c < 63 ∧ (y.c.node m.1).depth = 7 ∧ m.2 = false) ∧
    (let c : Context := { treeContext with reqs := [{ wave := 9, leaf := none, leader := 0, op := .refute 1 }] }
     c.reqs ≠ [] ∧ ((aheadOf (under 1) c).move ((under 1).w.hypOf 0)).2 = true) ∧
    (let y := aheadOf (under 1) treeContext
     let cur := (y.move ((under 1).w.hypOf 0)).1
     liveCount y.c < 63 ∧ (y.c.node cur).depth ≠ 7 ∧ (y.c.node 1).st = .live ∧ (1 : BitVec 6) ∈ hypChain y.c 8 cur ∧
      (y.c.node 2).st = .live ∧ (2 : BitVec 6) ∉ hypChain y.c 8 cur) := by decide +kernel

/-- `treeContext` with one request at its slot map. -/
def asking (wave : Nat) (gen : Option Nat) (op : HypOp) : Context :=
  { treeContext with reqs := [{ wave := wave, leaf := some 0, leader := 0, op := op, gen := gen }] }

/-- A confirmation below the top and at the top, and of a node that is not live; a refutation; sweeps of a node that is not
live, of one that took its identifier later, and of every node; a core that has yet to apply a refute, alone and before another; a new node, for an
orphan too; a query; and a freed slot, free and while a refute is under way. -/
theorem witness_HypothesisResolutions :
    base.w.id ≠ 0 ∧ base.w.pending.length < 8 ∧ base.w.ctx = 1 ∧
    (∀ op ∈ [HypOp.confirm 2, .confirm 1, .confirm 3, .refute 1, .new 31, .query 31 2],
      let c := asking base.w.id none op
      ctxOf { base with ctxs := [c] } 1 = some c ∧ c.lag = [] ∧ (c.node 2).st = .live ∧ (c.node 2).parent = 1 ∧
        (c.node 1).st = .live ∧ (c.node 1).parent = 0 ∧ (c.node 3).st ≠ .live ∧
        (∀ i : Fin 64, i ≠ 0 → i < 3 → (c.nodes[i]).st = .live) ∧ base.w.orphan.getLsbD 0 = false ∧
        (∀ x ∈ (c.node 3).slots, x ∉ c.lazy) ∧ nodeVersions c 1 ≠ [] ∧
        ∀ v ∈ nodeVersions c 1, v.data.length = 32 ∧ ∀ j < 32, routeOf { base with ctxs := [c] } (32 * v.sector + j) = none) ∧
    (∀ op ∈ [HypOp.refute 3, .refute 1, .refute 0],
      let c := asking 0 (some 9) op
      ctxOf { base with ctxs := [c] } 1 = some c ∧ c.lag = [] ∧ (c.node 3).st ≠ .live ∧ (c.node 1).st = .live ∧
        (c.node 1).slots.getLast? ≠ some 9) ∧
    (let c : Context := { asking base.w.id none (.refute 1) with lag := [(base.w.core, treeContext.nodes)] }
     ctxOf { base with ctxs := [c] } 1 = some c ∧ c.lag ≠ []) ∧
    (let c : Context := { asking base.w.id none (.refute 1) with
       lag := [(base.w.core, treeContext.nodes), (9, treeContext.nodes)] }
     ctxOf { base with ctxs := [c] } 1 = some c ∧ c.lag.tail ≠ []) ∧
    ({ base with w := { base.w with orphan := 1 } } : State).w.orphan.getLsbD (0 : Fin 32) = true ∧
    7 ∈ ({ treeContext with lazy := [7] } : Context).lazy ∧ 7 ∉ treeContext.lazy ∧ treeContext.lag = [] := by
  refine ⟨by decide +kernel, by decide +kernel, rfl, fun op hop => ?_, fun op hop => ?_, ⟨?_, by decide +kernel⟩,
    ⟨?_, by decide +kernel⟩, by decide +kernel⟩
  · refine ⟨by simp [ctxOf, asking, treeContext, placedContext], ?_⟩
    revert op; decide +kernel
  · refine ⟨by simp [ctxOf, asking, treeContext, placedContext], ?_⟩
    revert op; decide +kernel
  · simp [ctxOf, asking, treeContext, placedContext]
  · simp [ctxOf, asking, treeContext, placedContext]
/-- 64 bytes of a tensor record: base, type, dimensions less one, EXT, STR[1], BOX (R198). -/
def record (at_ dtype rank1 : Nat) (ext : List Nat) (str1 : Nat) (box : List Nat) : List Byte :=
  leBytes 8 at_ ++ leBytes 8 (dtype + 2 ^ 8 * rank1) ++ (ext ++ List.replicate (5 - ext.length) 0).flatMap (leBytes 4) ++
    leBytes 4 str1 ++ List.replicate 12 0 ++ (box ++ List.replicate (5 - box.length) 0).map (BitVec.ofNat 8) ++
    List.replicate 7 0

/-- A record of 32 bytes at virtual 0x1000, its address in s18:s19; slot or scratchpad address 0x200 in s6, latch 0x100 in
s7, queues of engine class at 0x140 and 0x160 in s8 and s9, follow-on 0 parked. -/
def copying : State :=
  let s := scal base [(18, 0x1000), (6, 0x200), (7, 0x100), (8, 0x140), (9, 0x160)]
  let s := physWrite s 0x40001000 (record 0x2000 0 0 [1] 0 [31])
  let s := physPut (physPut s 0x021000000140 16 (queueBits ⟨2, 2, 0, 0, 0, 4, 0x400, 1, 0⟩)) 0x021000000160 16
    (queueBits ⟨2, 1, 1, 0, 1, 4, 0x600, 0, 1⟩)
  { s with w := { s.w with follow := s.w.follow.set 0 { st := .parked } } }

/-- An L1 that keeps no copies gives none. -/
theorem no_copies {s : State} {hits : List L1Line} (h : s.copies = []) (live : LiveCopies s hits) : hits = [] := by
  cases hits with
  | nil => rfl
  | cons c _ => exact absurd (live c (.head _)).1 (by simp [h])

/-- A copy to the scratchpad, with a follow-on; copies through queues; a misaligned record; and a gather of 16-byte
elements. -/
theorem witness_TransferIssue :
    base.w.eff 1 = 0 ∧
    (let s := copying
     let l := leaderOf (s.w.eff 0)
     let win (o n : Nat) : Option (List Nat) := spadRange s (s.w.committed l) o n
     let x := loc (laneChk s (s.w.accessor l) .load (scalarPair s.w (.s 18)) 64)
     let bytes (hits : List L1Line) : List Byte := x.pas.map (hitByte s hits (s.w.accessor l) x)
     let lp := (win 0x100 16).getD []
     s.w.eff 0 ≠ 0 ∧ NoHazard s ∧ (scalarPair s.w (.s 18)).toNat % 64 = 0 ∧
      laneChk s (s.w.accessor l) .load (scalarPair s.w (.s 18)) 64 = .ok x ∧ (x.peer = none ∧ x.bad = none ∧
      (∀ b ∈ x.pas, homeLine s b ∉ s.poisoned) ∧
      (getS s.w 7).toNat % 16 = 0 ∧ win (getS s.w 7).toNat 16 = some lp ∧
      (lp.length = 16 ∧ (lp.map (route s)).Nodup ∧ ∀ y ∈ lp, physKind y ≠ some .view) ∧
      s.w.follow[(0 : Fin 4)].st = .parked) ∧
      ∀ hits, LiveCopies s hits →
        let r := recordOf (bytes hits)
        recordBad (bytes hits) r = 0 ∧ ((getS s.w 6).toNat % 128 = 0 ∧ (win (getS s.w 6).toNat r.boxBytes).isSome) ∧
        ∀ q ∈ [(getS s.w 8).toNat, (getS s.w 9).toNat],
          let qp := (win q 16).getD []
          let o := readQueue s (qp.headD 0)
          q % 16 = 0 ∧ win q 16 = some qp ∧ r.boxBytes ≤ 32 * o.ssize ∧ o.sbase % 32 = 0 ∧
            (win o.sbase (32 * o.ssize * o.slots)).isSome ∧ (o.pcls = 1 ∨ o.ccls = 1)) ∧
    (scalarPair (scal base [(2, 0x1020)]).w (.s 2)).toNat % 64 ≠ 0 ∧
    (let s := copying
     let win (o n : Nat) : Option (List Nat) := spadRange s (s.w.committed (leaderOf (s.w.eff 0))) o n
     selOf (scalarPair s.w (.s 18)) = 0 ∧ (scalarPair s.w (.s 18)).toNat % 16 = 0 ∧ (getS s.w 6).toNat % 32 = 0 ∧
      (win (getS s.w 6).toNat (32 * 16)).isSome ∧ (getS s.w 7).toNat % 16 = 0) := by
  have none_live : ∀ {hits : List L1Line}, LiveCopies copying hits → hits = [] := no_copies (by decide +kernel)
  refine ⟨by decide +kernel, ⟨by decide +kernel, by decide +kernel, by decide +kernel,
    (fine_ok (s := copying) (by decide +kernel)).1, by decide +kernel, fun hits live => ?_⟩, by decide +kernel, by decide +kernel⟩
  cases none_live live
  decide +kernel

theorem elem_step {t : TensorRec} {crd : Vector Word 5} {d : Fin 5} (he : t.ext[d] = 1) (hc : crd[d] = 0) (ht : t.circ = 0)
    (ds : List (Fin 5)) (k a : Nat) : elemSum t crd (d :: ds) k a = some a ∨ elemSum t crd (d :: ds) k a = none ∨
      ∃ k', elemSum t crd (d :: ds) k a = elemSum t crd ds k' a := by
  rw [elemSum]
  simp only [ht, he, hc]
  split
  · exact .inl rfl
  · split
    · exact absurd ‹_› (by simp)
    · split
      · exact .inr (.inl rfl)
      · rename_i h
        refine .inr (.inr ⟨_, congrArg _ ?_⟩)
        have h0 : (BitVec.toInt (0 : Word) + ((k % t.boxN d : Nat) : Int)) = 0 := by
          have z : BitVec.toInt (0 : Word) = 0 := rfl
          have o : ((BitVec.toNat (1 : Word) : Nat) : Int) = 1 := rfl
          simp only [Bool.or_eq_true, decide_eq_true_eq, not_or, z, o] at h ⊢
          omega
        rw [h0]
        simp

/-- Of the records here only element 0 is in range, and it lies at the base. -/
theorem elem_is_base {t : TensorRec} {crd : Vector Word 5} {j : Nat} {g : DWord} (hr : t.rank ≤ 2) (h0 : t.ext[(0 : Fin 5)] = 1)
    (h1 : t.ext[(1 : Fin 5)] = 1 ∨ t.rank = 1) (hc : crd[(0 : Fin 5)] = 0 ∧ crd[(1 : Fin 5)] = 0) (ht : t.circ = 0)
    (h : elemAddr t crd j = some g) : g = t.base := by
  have last : ∀ ds k, 2 ≤ (ds.headD (2 : Fin 5)).val → t.rank ≤ (ds.headD (2 : Fin 5)).val → elemSum t crd ds k 0 = some 0 := by
    intro ds k _ hd
    cases ds with
    | nil => rfl
    | cons d ds => rw [elemSum]; exact if_pos hd
  have key : elemSum t crd (List.finRange 5) j 0 = some 0 ∨ elemSum t crd (List.finRange 5) j 0 = none := by
    rw [show List.finRange 5 = [0, 1, 2, 3, 4] from rfl]
    obtain h' | h' | ⟨k, h'⟩ := elem_step (d := 0) h0 hc.1 ht [1, 2, 3, 4] j 0
    · exact .inl h'
    · exact .inr h'
    · rw [h']
      obtain h1 | h1 := h1
      · obtain h'' | h'' | ⟨k, h''⟩ := elem_step (d := 1) h1 hc.2 ht [2, 3, 4] k 0
        · exact .inl h''
        · exact .inr h''
        · exact .inl (h''.trans (last _ _ (Nat.le_refl 2) hr))
      · rw [elemSum]
        exact .inl (if_pos (by rw [h1]; exact Nat.le_refl 1))
  unfold elemAddr at h
  obtain h' | h' := key
  · rw [h'] at h
    simpa using h.symm
  · rw [h'] at h
    cases h

/-- A transfer of `copying`'s record in flight. -/
def flying (k : XferKind) : Xfer :=
  { id := 9, kind := k, ctx := 1, wave := 3, unit := 2, member := 0, pc := 0, left := [0] }

/-- `copying` with a transfer. -/
def inFlight (x : Xfer) : State := { copying with xfers := [x] }

/-- The record of `copying`. -/
def smallRec : TensorRec := recordOf (record 0x2000 0 0 [1] 0 [31])

/-- Follow-on 0 of the wave has fired for transfer 9; array 0 holds `n` commands. -/
def fired (n : Nat) : State :=
  let s := inFlight { flying .cpy with thn := some 0, left := [] }
  { s with
    w := { s.w with follow := s.w.follow.set 0 { st := .fired } }
    cores := [{ n := 0, arrays := #v[{ queue := List.replicate n ⟨.swap, 3, 2, 0, 0, 0⟩ }, {}] }] }

/-- A sector of a copy, into the scratchpad, of a refuted one and of one that is not. -/
def sectors : List Xfer :=
  let x : Xfer := { flying .cpy with tr := some smallRec, spad := some 0x200, latch := some 0x100 }
  [x, { x with kind := .cpys, orphan := true }, { x with kind := .cpys }]

/-- A sector of a gather or a scatter of three lanes' words, the last of an orphan, two of them at one address. -/
def spread (k : XferKind) : Xfer :=
  { flying k with
    spad := some 0x200, latch := some 0x100, esz := 4
    lanes := [⟨0, 0x2000, 0, false⟩, ⟨1, 0x2000, 0, false⟩, ⟨2, 0x2004, 0, true⟩] }

/-- A permit and none, a token and none; the only sector of each kind of transfer; a packet's sector; and a fired follow-on
before a full and a nearly full array, and of a wave that is stopped. -/
theorem witness_TransferProgress :
    (∀ k ∈ [XferKind.cpy, .cpys], ∀ o ∈ [0x100, 0x120],
      let x : Xfer := { flying k with queue := some o }
      let s := { ported with xfers := [x] }
      s.xfers.find? (fun y => y.id = 9) = some x ∧ x.spad = none ∧
        winByte s x.unit x.member o = some (0x021000000000 + o)) ∧
    (0 < (readQueue ported 0x021000000100).permits ∧ 0 < (readQueue ported 0x021000000100).tokens ∧
      (readQueue ported 0x021000000120).permits = 0 ∧ (readQueue ported 0x021000000120).tokens = 0) ∧
    (∀ x ∈ sectors ++ [spread .gath, spread .scat],
      let s := inFlight x
      let lp := (winBytes s x.unit x.member 0x100 16).getD []
      s.xfers.find? (fun y => y.id = 9) = some x ∧ x.spad = some 0x200 ∧ x.latch = some 0x100 ∧ 0 ∈ x.left ∧ x.queue = none ∧
        x.thn = none ∧ NoHazardOf s x.ctx ∧ xferOut s x = false ∧
        winBytes s x.unit x.member 0x100 16 = some lp ∧ lp.length = 16 ∧ (lp.map (route s)).Nodup ∧
        ∀ b ∈ lp, physKind b ≠ some .view) ∧
    (∀ x ∈ sectors, ∀ kind ∈ [AccKind.load, .store],
      let s := inFlight x
      let pas := (winBytes s x.unit x.member (0x200 + swzOff smallRec.swz.toNat (32 * 0)) 32).getD []
      let lp := (winBytes s x.unit x.member 0x100 16).getD []
      let at_ (g : DWord) : Loc := loc (engineChk s (xferAcc x x.hyp) kind g smallRec.size)
      x.tr = some smallRec ∧ winBytes s x.unit x.member (0x200 + swzOff smallRec.swz.toNat (32 * 0)) 32 = some pas ∧
        (∀ y ∈ pas, ∀ b ∈ lp, route s y ≠ route s b) ∧ elemAddr smallRec x.crd 0 = some 0x2000 ∧
        ∀ j g, elemAddr smallRec x.crd j = some g → engineChk s (xferAcc x x.hyp) kind g smallRec.size = .ok (at_ g) ∧
          (at_ g).pas.length = smallRec.size ∧ (at_ g).vers = false ∧
          (∀ y ∈ (at_ g).pas ++ (at_ g).entries.map (· + 1), ∀ b ∈ lp, route s y ≠ route s b)) ∧
    (∀ k ∈ [XferKind.gath, .scat],
      let x := spread k
      let s := inFlight x
      let lp := (winBytes s x.unit x.member 0x100 16).getD []
      let kind : AccKind := if k = .gath then .load else .store
      let own (l : XferLane) : List Nat := (winBytes s x.unit x.member (0x200 + x.esz * l.lane.val) x.esz).getD []
      (winByte s x.unit x.member 0x200).isSome ∧ (sectorLanes x 0).length = 3 ∧ ∀ l ∈ sectorLanes x 0,
        winBytes s x.unit x.member (0x200 + x.esz * l.lane.val) x.esz = some (own l) ∧
        (∀ y ∈ own l, ∀ b ∈ lp, route s y ≠ route s b) ∧
        let z := engineChk s (xferAcc x l.hyp) kind l.addr x.esz
        z = .ok (loc z) ∧ (loc z).pas.length = x.esz ∧ ∀ i < x.esz,
          let y := engineChk s (xferAcc x l.hyp) kind (l.addr + BitVec.ofNat 64 i) 1
          y = .ok (loc y) ∧ (loc y).vers = false ∧
            ∀ c ∈ (loc y).pas ++ (loc y).entries.map (· + 1), ∀ b ∈ lp, route s c ≠ route s b) ∧
    (let x : Xfer := { flying .packet with wave := 0, src := 0x1000, dst := 0x2000 }
     let s := inFlight x
     let a := engineChk s (xferAcc x 0) .load (x.src + BitVec.ofNat 64 (32 * 0)) 32
     let b := engineChk s (xferAcc x 0) .store (x.dst + BitVec.ofNat 64 (32 * 0)) 32
     s.xfers.find? (fun y => y.id = 9) = some x ∧ x.latch = none ∧ x.queue = none ∧ x.thn = none ∧ 0 ∈ x.left ∧ NoHazardOf s x.ctx ∧
      a = .ok (loc a) ∧ b = .ok (loc b) ∧ (loc a).vers = false ∧ (loc b).vers = false ∧ (loc a).pas.length = 32 ∧
      (loc b).pas.length = 32 ∧ ((loc b).pas.map (route s)).Nodup) ∧
    (∃ r : Residency, r ≠ .resident) ∧ ∀ n ∈ [3, 4],
      let s := fired n
      (∃ x, s.xfers.find? (fun z => z.wave = s.w.id && z.thn = some 0 && z.left = []) = some x ∧ x.kind ≠ .packet) ∧
        s.w.id ≠ 0 ∧ s.w.follow[(0 : Fin 4)].st = .fired ∧ s.w.res = .resident ∧
        (arrayOf s s.w.core s.w.follow[(0 : Fin 4)].arr).queue.length = n := by
  refine ⟨by decide +kernel, by decide +kernel, by decide +kernel,
    fun x hx kind hk => ⟨?_, ?_, ?_, ?_, fun j g hg => ?_⟩,
    fun k hk => ⟨?_, ?_, fun l hl => ⟨?_, ?_, ?_, ?_, fun i hi => ⟨?_, ?_, ?_⟩⟩⟩,
    ⟨by decide +kernel, by decide +kernel, by decide +kernel, by decide +kernel, by decide +kernel, by decide +kernel,
      (fine_ok (s := base) (by decide +kernel)).1, (fine_ok (s := base) (by decide +kernel)).1, by decide +kernel⟩,
    ⟨.stopped, by decide⟩, fun n hn => ⟨⟨{ flying .cpy with thn := some 0, left := [] }, ?_, by decide +kernel⟩, ?_⟩⟩
  iterate 4 (revert x; decide +kernel)
  · have hc : ∀ x ∈ sectors, x.crd = #v[0, 0, 0, 0, 0] := by decide +kernel
    rw [hc x hx] at hg
    cases elem_is_base (by decide +kernel) (by decide +kernel) (.inr (by decide +kernel)) ⟨rfl, rfl⟩
      (by decide +kernel) hg
    have h : ∀ x ∈ sectors, ∀ kind ∈ [AccKind.load, .store],
        fine base (engineChk (inFlight x) (xferAcc x x.hyp) kind smallRec.base smallRec.size) = true ∧
        let z := loc (engineChk (inFlight x) (xferAcc x x.hyp) kind smallRec.base smallRec.size)
        z.pas.length = smallRec.size ∧ z.vers = false ∧ ∀ y ∈ z.pas ++ z.entries.map (· + 1),
          ∀ b ∈ (winBytes (inFlight x) x.unit x.member 0x100 16).getD [], route (inFlight x) y ≠ route (inFlight x) b := by
      decide +kernel
    exact ⟨(fine_ok (h x hx kind hk).1).1, (h x hx kind hk).2⟩
  iterate 2 (revert k; decide +kernel)
  iterate 2 (revert l; revert k; decide +kernel)
  · exact (fine_ok (s := base) (by revert l; revert k; decide +kernel)).1
  · revert l; revert k; decide +kernel
  · exact (fine_ok (s := base) (by revert i; revert l; revert k; decide +kernel)).1
  iterate 2 (revert i; revert l; revert k; decide +kernel)
  · revert n; decide +kernel
  · revert n; decide +kernel
/-- `base` whose array 0 holds `n` commands, with a queue for a stream at scratchpad 0x160, a record for MLDS at 0x1000,
and virtual 1 to 2 GiB in the decoded view. -/
def matrixState (n : Nat) (fmt : BitVec 3) : State :=
  let s := scal base [(18, 0x1000), (6, 0x4000), (9, 0x160)]
  let s := physPut s 0x021000000160 16 (queueBits ⟨2, 1, 1, 0, 1, 4, 0x600, 1, 2⟩)
  let s := physPut s 0x30008 8 0x01000000201F
  let s := physWrite s 0x40001000 (if fmt = 5 then record 0x40000000 4 1 [128, 64] 128 [127, 63]
    else record 0x2000 fmt.toNat 1 [128, 64] 128 [127, 63])
  { s with cores := [{ n := 0, arrays := #v[{ queue := List.replicate n ⟨.zero 0, 3, 2, 0, 0, 0⟩ }, {}] }] }

/-- `base` with an index pattern of elements 0 and 1 for every group at scratchpad 0x4000, its address in s20:s21. -/
def sparse : State :=
  { scal base [(20, 0x4000), (21, 0x04000000)] with mem := (List.range 2048).map fun i => (0x021000004000 + i, 0x44) }

/-- Where every group selects elements 0 and 1 no two of its indices are equal. -/
theorem meta_distinct {bs : List Byte} (hb : ∀ i < 2048, bs.getD i 0 = 0x44) : metaDup bs = none := by
  unfold metaDup
  rw [List.findSome?_eq_none_iff]
  intro n hn
  rw [Option.map_eq_none_iff, List.find?_eq_none]
  intro g hg
  simp only [List.mem_range] at hn hg
  have h : ∀ j < 128, metaIdx bs n j = 68 / 4 ^ (j % 4) % 4 := fun j hj => by
    unfold metaIdx
    rw [hb _ (by omega)]
    rfl
  rw [h _ (by omega), h _ (by omega)]
  obtain h0 | h0 : 2 * g % 4 = 0 ∨ 2 * g % 4 = 2 := by omega
  · rw [h0, show (2 * g + 1) % 4 = 1 by omega]
    decide
  · rw [h0, show (2 * g + 1) % 4 = 3 by omega]
    decide

/-- Its metadata can be read. -/
theorem sparse_reads : ∃ x, readMeta sparse (sparse.w.eff 0) (getS sparse.w 21 ++ getS sparse.w 20) = .ok x := by
  have hl : ∀ i < 2048, route sparse (0x021000004000 + i) = 0x021000004000 + i ∧
      physKind (0x021000004000 + i) ≠ some .view := by decide +kernel
  have hb : ∀ i < 2048, physByte sparse (0x021000004000 + i) = 0x44 := fun i hi => by
    rw [physByte, if_neg (hl i hi).2, plainByte, (hl i hi).1]
    exact memGet_of_mem _ (by decide +kernel) _ _ (List.mem_map.mpr ⟨i, List.mem_range.mpr hi, rfl⟩)
  have hr : ∃ l, resolve sparse (sparse.w.committed (leaderOf (sparse.w.eff 0))) .load
      (getS sparse.w 21 ++ getS sparse.w 20) 2048 = .ok l ∧ l.pas = span 0x021000004000 2048 :=
    ⟨_, eq_ok ⟨[], [], 0, [], false, [], none, none⟩ (by decide +kernel), by decide +kernel⟩
  obtain ⟨l, hr, hp⟩ := hr
  unfold readMeta
  have hd : metaDup ((span 0x021000004000 2048).map (physByte sparse)) = none := meta_distinct fun i hi => by
    simp [span, List.getD_eq_getElem?_getD, List.getElem?_map, List.getElem?_range hi, hb i hi]
  rw [if_neg (by decide +kernel), hr]
  simp only [hp, hd]
  exact ⟨_, rfl⟩

/-- A full queue, and one with room; the largest tile and stream at the end of the allocation, and a stream from a queue;
a follow-on slot taken, and free; metadata; an MLDS behind a swap, behind another, and free, with the first and the last format. -/
theorem witness_MatrixIssue :
    base.w.eff 1 = 0 ∧ base.w.eff 0 ≠ 0 ∧ 4 ≤ (arrayOf (matrixState 4 0) (matrixState 4 0).w.core 0).queue.length ∧
    (arrayOf (matrixState 3 0) (matrixState 3 0).w.core 0).queue.length < 4 ∧
    (let s := matrixState 3 0
     let win (o n : Nat) : Option (List Nat) := spadRange s (s.w.committed (leaderOf (s.w.eff 0))) o n
     let y := arrayOf s s.w.core 0
     let base_ := (scalarVal s.w (.s 6)).toNat
     base_ % 128 = 0 ∧ (win base_ (4096 * mfSize 5)).isSome ∧ (win base_ ((63 + 1) * rowBytes (spAhead y) 3)).isSome ∧
      (scalarVal s.w (.s 9)).toNat % 16 = 0 ∧ win (scalarVal s.w (.s 9)).toNat 16 = some (span 0x021000000160 16) ∧
      (readQueue s 0x021000000160).ccls = 2 ∧
      (0 + 1) * rowBytes (spAhead y) 0 ≤ 32 * (readQueue s 0x021000000160).ssize ∧
      (∃ u m, unitOf s s.w.unit = some u ∧ u.members[s.w.member]? = some m) ∧
      s.w.follow[(3 : Fin 4)].st = .empty ∧
      ({ s with w := { s.w with follow := s.w.follow.set 0 { st := .parked } } } : State).w.follow[(0 : Fin 4)].st ≠ .empty) ∧
    (∃ x, readMeta sparse (sparse.w.eff 0) (getS sparse.w 21 ++ getS sparse.w 20) = .ok x) ∧
    (∃ c ∈ (arrayOf (fired 1) 0 0).queue, c.op = .swap) ∧
    ∀ fmt ∈ [(0 : BitVec 3), 5],
      let s := matrixState 3 fmt
      let l := leaderOf (s.w.eff 0)
      let e := laneChk s (s.w.accessor l) .load (scalarPair s.w (.s 18)) 64
      let bytes (hits : List L1Line) : List Byte := (loc e).pas.map (hitByte s hits (s.w.accessor l) (loc e))
      (∀ c ∈ (arrayOf s s.w.core 0).queue, c.op ≠ .swap) ∧ (arrayOf s s.w.core 0).mlds = none ∧ NoHazard s ∧
      (scalarPair s.w (.s 18)).toNat % 64 = 0 ∧ (e = .ok (loc e) ∧ (loc e).peer = none ∧ (loc e).bad = none ∧
      ∀ b ∈ (loc e).pas, homeLine s b ∉ s.poisoned) ∧ ∀ hits, LiveCopies s hits →
        recordBad (bytes hits) (recordOf (bytes hits)) = 0 ∧ mldsRecOk (recordOf (bytes hits)) fmt = true ∧
        (fmt = 5 → nq4Base s (s.w.eff 0) (scalarPair s.w (.s 18)) (recordOf (bytes hits)) = .ok ()) := by
  have h : ∀ fmt ∈ [(0 : BitVec 3), 5],
      let s := matrixState 3 fmt
      let l := leaderOf (s.w.eff 0)
      let e := laneChk s (s.w.accessor l) .load (scalarPair s.w (.s 18)) 64
      let bs := (loc e).pas.map (hitByte s [] (s.w.accessor l) (loc e))
      (∀ c ∈ (arrayOf s s.w.core 0).queue, c.op ≠ .swap) ∧ (arrayOf s s.w.core 0).mlds = none ∧ NoHazard s ∧
      (scalarPair s.w (.s 18)).toNat % 64 = 0 ∧ fine s e = true ∧ s.copies = [] ∧ recordBad bs (recordOf bs) = 0 ∧
      mldsRecOk (recordOf bs) fmt = true ∧
      (fmt = 5 → (nq4Base s (s.w.eff 0) (scalarPair s.w (.s 18)) (recordOf bs)).isOk = true) := by decide +kernel
  refine ⟨?_, ?_, ?_, ?_, ⟨?_, ?_, ?_, ?_, ?_, ?_, ?_,
    ⟨placedUnit, placedUnit.members.headD { wg := 0, core := 0, base := 0, alloc := 0 }, ?_⟩, ?_⟩,
    sparse_reads, ?_, fun fmt hf => ?last⟩
  case last =>
    obtain ⟨h1, h2, h3, h4, h5, h6, h7, h8, h9⟩ := h fmt hf
    refine ⟨h1, h2, h3, h4, fine_ok h5, fun hits live => ?_⟩
    cases no_copies h6 live
    exact ⟨h7, h8, fun hf => eq_ok () (h9 hf)⟩
  all_goals decide +kernel

/-- Core 0 with one command at the head of array 0, a plane of a format, and partials of `rows` rows. -/
def commanded (op : CmdOp) (fmt : BitVec 3) (rows : Nat) : State :=
  { base with cores := [{ n := 0, arrays := #v[{
      active := { fmt := fmt }, part := { rows := rows }, queue := [⟨op, 3, 2, 0, 0, 0⟩] }, {}] }] }

/-- An MLDS in flight whose one element in range lies at 0x2000. -/
def landing : MldsFlight :=
  { id := 9, leader := 0, unit := 2, wave := 3, ctx := 1, pc := 0, fmt := 0, sp := false
    tr := recordOf (record 0x2000 0 1 [1, 1] 128 [127, 63]), crd := Vector.replicate 5 0, mta := [], hyp := 0 }

/-- Its bytes are 4096 in a row. -/
theorem tile_bytes :
    let pas := (winBytes base 2 0 0x4000 4096).getD []
    winBytes base 2 0 0x4000 4096 = some pas ∧ (pas.map (route base)).IsChain (· < ·) := by decide +kernel

/-- A stream at the head of array 0's queue whose rows come from the queue at scratchpad 0x160, of `n` tokens. -/
def fed (n : Nat) : State :=
  physPut (commanded (.stream 0 64 true 0x160) 0 0) 0x021000000160 16 (queueBits ⟨2, 1, n, 0, 0, 4, 0x600, 1, 2⟩)

/-- Each command at the head of its queue: a swap; a stream of a legal pair and of none, and from a queue with no token and
with one; a drain of no row and of all; a
tile cleared, filled and stored; and an MLDS about to land. -/
theorem witness_MatrixCommands :
    (∀ op ∈ [CmdOp.swap, .stream 0 64 false 0, .drain 15, .zero 0, .load 0 4 0x4000, .store 0 4 true 0x4000],
      ∀ x ∈ [((0 : BitVec 3), 64), (2, 0)],
      let s := commanded op x.1 x.2
      let y := arrayOf s 0 0
      (∃ c q, y.queue = c :: q ∧ c.op = op ∧ s.w.id = c.wave) ∧ s.w.pending.length < 8 ∧ y.mlds = none ∧
      pairOk y.active.fmt 0 = decide (x.1 = 0) ∧ y.part.rows = x.2 ∧ NoHazardOf s (((unitOf s 2).map (·.ctx)).getD 0) ∧
      ∀ u, unitOf s 2 = some u → (ctxOf s u.ctx).any (·.dbg) = false) ∧
    (∀ n ∈ [0, 1],
      let s := fed n
      (arrayOf s 0 0).queue = [⟨.stream 0 64 true 0x160, 3, 2, 0, 0, 0⟩] ∧ pairOk (arrayOf s 0 0).active.fmt 0 = true ∧
      winByte s 2 0 0x160 = some 0x021000000160 ∧ (readQueue s 0x021000000160).tokens = n ∧
      NoHazardOf s (((unitOf s 2).map (·.ctx)).getD 0) ∧ ((span 0x021000000160 16).map (route s)).Nodup ∧
      ∀ b ∈ span 0x021000000160 16, physKind b ≠ some .view) ∧
    (∃ pas, winBytes base 2 0 0x4000 (4096 * mfSize 4) = some pas ∧ (pas.map (route base)).Nodup) ∧
    (let s := { base with cores := [{ n := 0, arrays := #v[{ mlds := some landing }, {}] }] }
     (arrayOf s 0 0).mlds = some landing ∧ NoHazardOf s landing.ctx ∧ elemAddr landing.tr landing.crd 0 = some 0x2000 ∧
      ∀ k g, elemAddr landing.tr landing.crd k = some g →
        engineChk s (mldsAcc landing) .load g (fmtSize landing.fmt) =
          .ok (loc (engineChk s (mldsAcc landing) .load g (fmtSize landing.fmt))) ∧ (landing.fmt = 5 → False)) := by
  refine ⟨fun op hop x hx => ⟨⟨⟨op, 3, 2, 0, 0, 0⟩, [], ?_, rfl, rfl⟩, ?_, ?_, ?_, ?_, ?_, fun u hu => ?_⟩, by decide +kernel, ⟨_, tile_bytes.1, ?_⟩,
    by decide +kernel, by decide +kernel, by decide +kernel, fun k g hg => ⟨?_, by decide +kernel⟩⟩
  iterate 6 (revert op x; decide +kernel)
  · have h : ∀ op ∈ [CmdOp.swap, .stream 0 64 false 0, .drain 15, .zero 0, .load 0 4 0x4000, .store 0 4 true 0x4000],
        ∀ x ∈ [((0 : BitVec 3), 64), (2, 0)], unitOf (commanded op x.1 x.2) 2 = some placedUnit ∧
        (ctxOf (commanded op x.1 x.2) placedUnit.ctx).any (·.dbg) = false := by decide +kernel
    cases (h op hop x hx).1.symm.trans hu
    exact (h op hop x hx).2
  · exact (List.isChain_iff_pairwise.mp tile_bytes.2).imp fun h => Nat.ne_of_lt h
  · cases elem_is_base (by decide +kernel) (by decide +kernel) (.inl (by decide +kernel)) (by decide +kernel)
      (by decide +kernel) hg
    exact (fine_ok (s := base) (by decide +kernel)).1

/-- `base` with its wave changed. -/
def waved (f : Wave → Wave) : State := { base with w := f base.w }

/-- Each mode; an empty mask; the first and last unassigned opcodes; an imprecise fault that waits. -/
theorem witness_TrapsTaken :
    supState.w.mode = .supervisor ∧ base.w.mode ≠ .supervisor ∧ base.w.eff 1 = 0 ∧ base.w.eff 0 ≠ 0 ∧
    (opOf 0x05800000).toNat = 0x2C ∧ (opOf 0x0FFFFFFF).toNat = 0x7F ∧ base.w.id ≠ 0 ∧
    let s := waved fun w => { w with pending := [⟨0x21, 0, 0, 0, 0⟩] }
    waveOf s 3 = some s.w ∧ s.w.mode = .program ∧ s.w.res = .resident ∧ s.w.pending = ⟨0x21, 0, 0, 0, 0⟩ :: [] := by
  decide +kernel

/-- Leaves that overlap; one with an absent lane; apart; and no lane present. -/
theorem witness_TrapReturn :
    ~~~supState.w.absent ≠ 0 ∧ (leaved supState 0xFFFFFFFF 0x80000000).w.leaves[(0 : Fin 4)].mask &&&
      (leaved supState 0xFFFFFFFF 0x80000000).w.leaves[(3 : Fin 4)].mask ≠ 0 ∧
    (let s := leaved { supState with w := { supState.w with absent := 0x80000000 } } 1 0x80000000
     ~~~s.w.absent ≠ 0 ∧ s.w.leaves[(3 : Fin 4)].mask &&& s.w.absent ≠ 0) ∧
    (let s := leaved supState 0x7FFFFFFF 0x80000000
     (∀ i j : Fin 4, i < j → s.w.leaves[i].mask &&& s.w.leaves[j].mask = 0) ∧
      (∀ i : Fin 4, s.w.leaves[i].mask &&& s.w.absent = 0) ∧ ∃ n : Fin 4, s.w.leaves[n].mask.getLsbD 31 = true) ∧
    ~~~({ supState with w := { supState.w with absent := 0xFFFFFFFF } } : State).w.absent = 0 ∧ supState.w.id ≠ 0 := by
  decide +kernel

/-- The first and last numbers a read and a write name, and one that keeps nothing; the first number a handler may not name, one
not listed, one a supervisor's alone, and one only read, in the modes; an operand that is no scalar register; the last words
of discovery. -/
theorem witness_SystemRegisterResults :
    ((0x00 : BitVec 7) = 0x00 ∧ (0x46 : BitVec 7) = 0x46) ∧ (296 ≤ 296 ∧ 11 < 12 ∧ 5 < 6 ∧ 6 < 7) ∧
    (0x47 : BitVec 7).toNat ∉ [0x00, 0x01, 0x02, 0x03, 0x04, 0x05, 0x06, 0x08, 0x09, 0x15, 0x40, 0x41, 0x42, 0x43, 0x44, 0x45,
      0x46] ∧ 6 < (7 : BitVec 7).toNat ∧ Mode.program ≠ .hinge ∧ Mode.supervisor ≠ .hinge ∧
    (0x40 : BitVec 7).toNat ∈ [0x40, 0x41, 0x42, 0x43, 0x44, 0x45, 0x46] ∧
    (0x19 : BitVec 7).toNat ∈ [0x04, 0x05, 0x06, 0x10, 0x11, 0x12, 0x13, 0x14, 0x18, 0x19] ∧ (Operand.s 3 = .s 3) ∧
    ∀ r, Operand.v 0 ≠ .s r := by
  refine ⟨by decide +kernel, by decide +kernel, by decide +kernel, by decide +kernel, by decide, by decide, by decide +kernel,
    by decide +kernel, rfl, fun r h => by cases h⟩

/-- The last pair; counters of an event that is not open, and not counting; SLEEP of 0 and of a cycle; PPOINT in a task wave,
without and with a switch-out wanted and arrays live, in the program, the hinge handler and the supervisor's. -/
theorem witness_TimeAndPreemptionResults :
    (31 : Fin 32).val = (30 : Fin 32).val + 1 ∧ freeEvent ((coreOf base base.w.core).ctl[(0 : Fin 4)].extractLsb' 0 6) = false ∧
    scalarVal base.w (.lit 0) = 0 ∧ scalarVal base.w (.lit 1) ≠ 0 ∧ base.w.eff 1 = 0 ∧
    (waved fun w => { w with task := true }).w.task = true ∧ base.w.eff 0 ≠ 0 ∧ base.w.task = false ∧
    (coreOf base base.w.core).ctl[(0 : Fin 4)].getLsbD 6 = false ∧ unitOf base base.w.unit = some placedUnit ∧ base.w.member = 0 ∧
    (∃ m, placedUnit.members[0]? = some m ∧ placedUnit.preempt = none) ∧
    let m : Member := { wg := 0, core := 0, base := 0x021000000000, alloc := 0x8000, live := true }
    let u : GangUnit := { placedUnit with preempt := some 0, members := [m] }
    u.preempt ≠ none ∧ m.live = true ∧ ∀ mode : Mode, let s := { base with w := { base.w with mode := mode }, units := [u] }
      unitOf s s.w.unit = some u ∧ u.members[s.w.member]? = some m ∧ s.w.id ≠ 0 ∧ s.w.res = .resident ∧ s.w.mode = mode :=
  ⟨by decide +kernel, by decide +kernel, by decide +kernel, by decide +kernel, by decide +kernel, rfl, by decide +kernel,
    by decide +kernel, by decide +kernel, by decide +kernel, by decide +kernel, ⟨_, rfl, rfl⟩, by decide +kernel, rfl,
    fun mode => by cases mode <;> decide +kernel⟩

/-- `base` whose leaf 0 waits, with monitors of its own on 0x40001000, woken or not. -/
def waiting (k : WaitKind) (woken : Bool) : State :=
  { base with
    w := { base.w with leaves := base.w.leaves.set 0 { mask := 0xFFFFFFFF, wait := some ⟨k, 4, 0x40001000⟩ } }
    monitors := [{ addr := 0x40001000, len := 16, wave := 3, leaf := some 0, woken := woken }]
    xfers := [{ flying .packet with left := [] }] }

/-- A fence's wait for parts of transfers, loads of weights, commands, pod accesses and a time. -/
def fencing (xs : List (Nat × Nat)) (ys : List Nat) (m0 m1 : Nat) (pods : List Nat) (ends : Nat) : WaitKind :=
  .fencex xs ys m0 m1 pods ends 6 1 1 1

/-- Every kind of wait: monitors that were woken and none that was; a full ring and one with room; a time still to come,
and come; a fence with a transfer, a load of weights, commands and a pod access still under way, and with all done; an
exchange of 255 and of 256 cycles. -/
theorem witness_WaitsEnd :
    (∀ k ∈ [WaitKind.latch, .queue, .monitor, .spawn, .sleep 0, .sleep 1, fencing [(9, 0)] [] 0 0 [] 0, fencing [(9, 0)] [] 1 0 [] 0,
        fencing [(9, 0)] [8] 0 0 [7] 1, .mov 1 0, .tret 0 [.child { kdesc := 0, args := 0, join := 0, entry := 0, n := 1 }]],
      (3 : Nat) ≠ 0 ∧ (waiting k true).w.mode = .program ∧ waveOf (waiting k true) 3 = some (waiting k true).w ∧
      ((waiting k true).w.leaves[(0 : Fin 4)].wait.map (·.kind)) = some k ∧
      (∀ h ∈ (waiting k true).w.held, h.leaf ≠ 0) ∧ (waiting k true).w.hwait = none ∧ (waiting k true).moved = []) ∧
    (∃ m ∈ (waiting .latch true).monitors, m.wave = 3 ∧ m.leaf = some 0 ∧ m.woken = true) ∧
    (¬∃ m ∈ (waiting .latch false).monitors, m.wave = 3 ∧ m.leaf = some 0 ∧ m.woken = true) ∧
    ringFull (fullRing base) (chipOf base.w.core) 1 = true ∧ ringFull base (chipOf base.w.core) 1 = false ∧
    base.clk.toNat < 1 ∧ 0 ≤ base.clk.toNat ∧
    (∃ i ∈ [((9 : Nat), (0 : Nat))], stillMoving (inFlight (flying .cpy)) i = true) ∧
    (∃ i ∈ [9], stillLoading { base with cores := [{ n := 0, arrays := #v[{ mlds := some landing }, {}] }] } i = true) ∧
    (let s := waiting (fencing [(9, 0)] [9] 0 0 [7] 0) true
     (∀ i ∈ [((9 : Nat), (0 : Nat))], stillMoving s i = false) ∧ (∀ i ∈ [9], stillLoading s i = false) ∧ ∀ i ∈ [7], ∀ p ∈ s.pods, p.id ≠ i) ∧
    ({ base with clk := 255 } : State).clk.toNat < 0 + 256 ∧ 0 + 256 ≤ ({ base with clk := 256 } : State).clk.toNat := by
  decide +kernel

/-- Two events pend, of leaf 1 and the starve slot; the leaf's was raised first. -/
theorem witness_EventDelivery :
    let e : Event := { cause := 1, mask := 0xF, k14 := 3, k15 := 12, pc0 := 4, pc1 := 8, leaf := 1, order := 0 }
    let f : Event := { cause := 4, mask := 0xF0, k14 := 0xF0, pc0 := 4, leaf := 0, order := 1 }
    let s := waved fun w => { w with leaves := w.leaves.set 1 { mask := 0xF, pend := some e }, starve := some f }
    (3 : Nat) ≠ 0 ∧ waveOf s 3 = some s.w ∧ s.w.mode = .program ∧ s.w.res = .resident ∧ s.w.override = false ∧
      s.w.pending = [] ∧ s.w.overrideDue = false ∧ s.w.earliest = some (some 1, e) ∧
      ({ s.w with leaves := base.w.leaves } : Wave).earliest = some (none, f) := by decide +kernel

/-- `base` whose leaf 0 stands at a PC with a join, and a loop entry of a count. -/
def turning (pc join count : Word) (mask orphan : Mask) : State :=
  waved fun w => { w with leaves := w.leaves.set 0 { mask := mask, pc := pc, join := join }, orphan := orphan
                          loops := [⟨0, 0x10, count, 0xFFFFFFFF⟩] }

/-- A leaf that is offered and one that is not; leaf 3 after a placement by the override; a fault that goes ahead. Fresh orphans; a
join; a loop's end with part of its lanes, with all, on the last pass, and inside the body. -/
theorem witness_LeafTurnChecks :
    (∀ s ∈ [turning 8 0xFFFFFFFF 2 0xFFFFFFFF 1, turning 8 8 2 0xFFFFFFFF 0, turning 0x14 0xFFFFFFFF 2 1 0,
        turning 0x14 0xFFFFFFFF 2 0xFFFFFFFF 0, turning 0x14 0xFFFFFFFF 1 0xFFFFFFFF 0, turning 0x10 0xFFFFFFFF 1 0xFFFFFFFF 0],
      waveOf s 3 = some s.w ∧ s.w.mode = .program ∧ s.w.res = .resident ∧ s.w.offered = some 0 ∧ s.w.turnFree = true ∧
        s.w.override = false ∧ s.w.earliest = none ∧ s.w.offered ≠ some 1) ∧
    (let w := (waved fun w => { w with override := true, leaves := w.leaves.set 3 { mask := 1, pc := 8 }, rot := 2 }).w
     w.offered = some 3 ∧ w.turnFree = true ∧ ∀ e q, w.loops = e :: q → w.leaves[(3 : Fin 4)].pc ≠ e.finish + 4) ∧
    (waved fun w => { w with pending := [⟨0x21, 0, 0, 0, 0⟩] }).w.turnFree = false ∧
    (let w := (turning 8 0xFFFFFFFF 2 0xFFFFFFFF 1).w
     w.leaves[(0 : Fin 4)].mask &&& w.orphan &&& ~~~w.notified ≠ 0) ∧
    (let w := (turning 8 8 2 0xFFFFFFFF 0).w
     w.leaves[(0 : Fin 4)].mask &&& w.orphan &&& ~~~w.notified = 0 ∧ w.leaves[(0 : Fin 4)].join.toNat % 4 = 0 ∧
      w.leaves[(0 : Fin 4)].pc = w.leaves[(0 : Fin 4)].join) ∧
    (let w := (turning 0x14 0xFFFFFFFF 2 1 0).w
     ¬(w.leaves[(0 : Fin 4)].join.toNat % 4 = 0 ∧ w.leaves[(0 : Fin 4)].pc = w.leaves[(0 : Fin 4)].join) ∧
      w.leaves[(0 : Fin 4)].pc = 0x10 + 4 ∧ w.leaves[(0 : Fin 4)].mask ≠ 0xFFFFFFFF &&& ~~~w.absent) ∧
    (turning 0x14 0xFFFFFFFF 2 0xFFFFFFFF 0).w.leaves[(0 : Fin 4)].mask = 0xFFFFFFFF &&& ~~~base.w.absent ∧
    (2 : Word) ≠ 1 ∧ (0x10 : Word) ≠ 0x10 + 4 := by
  refine ⟨by decide +kernel, ⟨by decide +kernel, by decide +kernel, fun e q h => ?_⟩, by decide +kernel⟩
  cases (show ([] : List LoopEntry) = e :: q from h)

/-- A program's wave with all lanes parked, their counters at a value. -/
def parked (n : DWord) : State :=
  waved fun w => { w with leaves := Vector.replicate 4 {}, park := Vector.replicate 32 n }

/-- `base`'s handler with its budget spent. -/
def spent : State :=
  { base with w := { base.w with mode := .hinge, sr := { base.w.sr with budget := 16 }, hcount := 16 } }

/-- Counters below and at their limits; no starve event and one; the override due; a spent budget; a wave that waited 32
cycles. -/
theorem witness_PatienceResults :
    (∀ s ∈ [parked 1, parked 131071, parked 131072], waveOf s 3 = some s.w ∧ s.w.idles = true ∧ s.w.mode = .program ∧
      s.w.res = .resident ∧ s.w.override = false ∧ s.w.pending = []) ∧
    (let w := (parked 65536).w
     (w.counts &&& ~~~w.starved &&& maskWhere fun l => w.sr.patience.toNat ≤ w.park[l].toNat) ≠ 0 ∧ w.starve = none) ∧
    (let w := (parked 65535).w
     (w.counts &&& ~~~w.starved &&& maskWhere fun l => w.sr.patience.toNat ≤ w.park[l].toNat) = 0) ∧
    (∃ e, ({ (parked 65536).w with starve := some { cause := 4, mask := 1, k14 := 1, leaf := 0, pc0 := 0, order := 0 } } : Wave).starve =
      some e) ∧
    (parked 131072).w.overrideMask ≠ 0 ∧
    (spent.w.mode = .hinge ∧ spent.w.res = .resident ∧ overBudget (focus spent 3) = true ∧ waveOf spent 3 = some spent.w) ∧
    (let w := (waved fun w => { w with waitCtr := 32 }).w
     32 ≤ w.waitCtr ∧ w.ready = true) :=
  ⟨by decide +kernel, by decide +kernel, by decide +kernel, ⟨_, rfl⟩, by decide +kernel, by decide +kernel, by decide +kernel⟩

/-- `base` with tables from 0x40000 down to two leaf entries of 64 KiB pages, near at 0x50000 and far at 0x50008. -/
def paged : State :=
  { [(0x40000, 0x44001), (0x44000, 0x48001), (0x48000, 0x4C001), (0x4C000, 0x50001), (0x50000, 0x5000201F),
      (0x50008, 0x6001221F)].foldl (fun s (x : Nat × Nat) => physPut s x.1 8 x.2) base with
    ctxs := [{ placedContext with table := 0x40000 }] }

/-- `paged` with an exchange under way, `done` lines of it copied. -/
def exchanging (done : Nat) : State := { paged with exchanges := [⟨0x50000, 0x50008, false, 0, done⟩] }

/-- `exchanging` with a link down and its far frame in host memory. -/
def cutOff : State :=
  { physPut (exchanging 0) 0x50008 8 0x800000000201F with link := { up := false } }

/-- An atomic answered "moved" whose page's entry is `e`, `ofs` into it. -/
def reissuing (e ofs : Nat) : State :=
  { physPut base 0x50000 8 e with moved := [⟨0, 0x50000, ofs, .atomic 0x50000040 0 [1]⟩] }

/-- The ends of the ranges; a line poisoned and one not; serviced lanes; an address where nothing is; requests for a frame under
exchange before their line's copy and after it; an atomic whose entry still has MOV, has it no more, and is not valid; pages
that may be exchanged; an exchange under way and done, and one a link that is down holds. -/
theorem witness_HomeAndPageResults :
    (thereAt base 0x007FFFFFFFF8 = true ∧ laneHome (span 0x007FFFFFFFF8 8) = true ∧
      ∀ b ∈ span 0x007FFFFFFFF8 8, exchangeOf base b = none) ∧
    (∀ n ∈ [4, 8], thereAt base 0x021005FFFFF8 = true ∧ storeHome (span 0x021005FFFFF8 n) = true ∧
      (∀ b ∈ span 0x021005FFFFF8 n, exchangeOf base b = none) ∧ ((span 0x021005FFFFF8 n).map (route base)).Nodup) ∧
    (∀ req ∈ [HomeReq.load 0x50000000 4, .store 0x60010004 [1, 2, 3, 4], .atomic 0x50000040 0 [1]],
      thereAt base (reqAddr req) = true ∧ (∃ b ∈ reqBytes req, exchangeOf (exchanging 0) b ≠ none) ∧
      (∃ b ∈ reqBytes req, exchangeOf (exchanging 1) b ≠ none) ∧
      ((exchangeOf (exchanging 0) (reqAddr req)).any fun y => y.x.done ≤ y.ofs / 128) = true ∧
      ((exchangeOf (exchanging 1) (reqAddr req)).any fun y => y.ofs / 128 < y.x.done) = true) ∧
    (∀ e ∈ [0x5000241F, 0x5000201F, 0x5000201E], let s := reissuing e 0x40
      (3 : Nat) ≠ 0 ∧ waveOf s 3 = some s.w ∧ s.w.core = 0 ∧ physNat s 0x50000 8 = e) ∧
    leafMiss true .atomic false 0x5000201F 0x50000040 = none ∧ thereAt base 0x50000040 = true ∧
    thereAt base 0x008000000000 = false ∧ 5 ∈ ({ base with poisoned := [5] } : State).poisoned ∧ 5 ∉ base.poisoned ∧
    (let s := waved fun w => { w with fparked := 0xFF, faultLf := Vector.replicate 32 2 }
     waveOf s 3 = some s.w ∧ (0xF : Mask) &&& s.w.fparked ≠ 0 ∧ s.w.leaves[(2 : Fin 4)].pend = none ∧
      ∀ l : Fin 32, (0xF : Mask).getLsbD l = true → s.w.fparked.getLsbD l = true ∧ s.w.faultLf[l] = 2) ∧
    (thereAt paged 0x50000 = true ∧ thereAt paged 0x50008 = true ∧ exchangeOk paged 0x50000 0x50008 false = true ∧
      exchangeOk paged 0x50008 0x50000 false = false ∧
      (∀ i < 8, physKind (0x50000 + i) = some .hbm ∧ physKind (0x50008 + i) = some .hbm) ∧
      ((span 0x50000 8 ++ span 0x50008 8).map (route paged)).Nodup) ∧
    (∀ done ∈ [0, 511, 512],
      let s := exchanging done
      let x : Exchange := ⟨0x50000, 0x50008, false, 0, done⟩
      let a := physNat s x.near 8 / 2 ^ 16 % 2 ^ 36 * 2 ^ 16
      let b := physNat s x.far 8 / 2 ^ 16 % 2 ^ 36 * 2 ^ 16
      s.exchanges.find? (fun y => y.near = x.near && y.far = x.far) = some x ∧ linkHolds s [a, b] = false ∧
      memWf s.mem = true ∧ s.stalled = [] ∧ (∀ c ∈ s.ctxs, c.vers = []) ∧ (∀ u ∈ s.units, ∀ m ∈ u.members, m.frames = []) ∧
      a + 2 ^ 16 ≤ b ∧ (min 1 (2 ^ 16 / 128 - x.done) = 0 ↔ done = 512) ∧ (2 ^ 16 ≤ 128 * x.done ↔ done = 512) ∧
      (∀ i < 8, physKind (x.near + i) = some .hbm ∧ physKind (x.far + i) = some .hbm) ∧ x.near + 8 ≤ x.far) ∧
    linkHolds cutOff [physNat cutOff 0x50000 8 / 2 ^ 16 % 2 ^ 36 * 2 ^ 16, physNat cutOff 0x50008 8 / 2 ^ 16 % 2 ^ 36 * 2 ^ 16] =
      true := by
  refine ⟨?_, ?_, ?_, ?_, ?_, ?_, ?_, ?_, ?_, ?_, ?_, ?_, ?_⟩ <;> decide +kernel

/-- A member of `base`'s unit, stopped, of two granules whose image is registered. -/
def stoppedMember : Member :=
  { wg := 0, core := 0, base := 0x021000000000, alloc := 0x1000, frames := [0x40010000, 0x40010800], stopped := true
    image := some 0 }

/-- `base` with its unit changed. -/
def united (f : GangUnit → GangUnit) : State := { base with units := [f placedUnit] }

/-- A context ended and one going on; a unit asked for, out, and neither; a stopped member whose image's pages are there; a live
one at the last cycle of its patience and past it; a unit out with a transfer moving, and with a late latch; a restore; a latch wait with and without
debug mode. -/
theorem witness_ContextAndSwitchResults :
    (ctxOf base 1 = some placedContext ∧ placedContext.ended = none ∧
      ({ placedContext with ended := some 0 } : Context).ended ≠ none) ∧
    (∀ f ∈ [fun u : GangUnit => u, fun u => { u with out := true }, fun u => { u with preempt := some 0 }],
      (united f).units.find? (fun v => v.handle % 65536 = (2 : BitVec 16).toNat) = some (f placedUnit)) ∧
    (let u : GangUnit := { placedUnit with preempt := some 0, members := [stoppedMember] }
     let s := { base with units := [u] }
     let fs := (got [] (allFrames s placedContext u.images)).headD []
     unitOf s u.handle = some u ∧ stoppedMember.exited = false ∧ stoppedMember.live = false ∧
      (∀ w ∈ s.w :: s.others, w.unit = u.handle → w.id ≠ 0 →
        w.mode = .program ∧ (w.res = .stopped ∨ w.res = .resident) ∧ w.savable s = true) ∧
      (∀ l : Fin 32, (placedContext.node s.w.cur[l]).st ≠ .refuted) ∧
      (allFrames s placedContext u.images).isOk = true ∧ got [] (allFrames s placedContext u.images) = [fs] ∧ fs.length = 2 ∧
      (∀ f ∈ fs, f + 2048 ≤ stoppedMember.base) ∧ fs.Pairwise (fun f g => f + 2048 ≤ g) ∧
      base.w.unit = u.handle ∧ base.w.id ≠ 0) ∧
    (∀ n ∈ [3, 4],
      let m : Member := { wg := 0, core := 0, base := 0, alloc := 0x8000, live := true }
      let u : GangUnit := { placedUnit with preempt := some 0, members := [m] }
      let s := { base with units := [u], clk := BitVec.ofNat 64 n, w := { base.w with sr := { base.w.sr with patience := 4 } } }
      unitOf s u.handle = some u ∧ u.members = [m] ∧ m.stopped = false ∧ m.exited = false ∧ s.w.unit = u.handle ∧
        s.w.member = 0 ∧ s.w.id ≠ 0 ∧ s.w.res = .resident ∧ (∀ w ∈ s.others, w.unit ≠ u.handle) ∧
        (s.clk.toNat < 0 + s.w.sr.patience.toNat ↔ n = 3)) ∧
    (let m : Member := { wg := 0, core := 0, base := 0, alloc := 0x8000, image := some 0, late := [0x100] }
     let u : GangUnit := { placedUnit with out := true, members := [m] }
     let s := { base with units := [u] }
     let pas := (winBytes s u.handle 0 0x100 16).getD []
     unitOf s u.handle = some u ∧ (∃ x ∈ [flying .cpy], x.unit = u.handle ∧ x.left ≠ []) ∧
      (∀ x ∈ s.xfers, x.unit = u.handle → x.left = []) ∧ winBytes s u.handle 0 0x100 16 = some pas ∧ pas.length = 16 ∧
      (pas.map (route s)).Nodup ∧ (∀ b ∈ pas, physKind b ≠ some .view) ∧
      s.units.find? (fun v => v.handle % 65536 = (2 : BitVec 16).toNat) = some u ∧ restoreCores s u = some [0] ∧
      restoreCores { s with config := some { bootedConfig with cores := 0 } } u = none ∧
      ctxOf s u.ctx = some placedContext ∧
      (allFrames s placedContext u.images).isOk = true ∧ (regrant s u).isSome = true ∧ (∀ w ∈ s.others, w.id ≠ s.w.id) ∧
      s.w.sr.wave.toNat < 32) ∧
    (∀ c ∈ [placedContext, { placedContext with dbg := true }],
      let s := { waiting .latch false with ctxs := [c] }
      waveOf s 3 = some s.w ∧ s.w.leaves[(0 : Fin 4)].wait = some ⟨.latch, 4, 0x40001000⟩ ∧
        (ctxOf s s.w.ctx).any (·.dbg) = c.dbg ∧ s.w.pending.length < 8) :=
  ⟨by decide +kernel, by decide +kernel, by decide +kernel, by decide +kernel, by decide +kernel, by decide +kernel⟩

/-- A machine with one launch of `n` lanes, `mx` members wide, nothing placed. -/
def launching (n nw : Nat) : State :=
  { base with
    w := {}, units := []
    launches := [{ placedLaunch with
      next := 0, live := 0, lb := none, li := none, nbhd := decide (nw ≠ 1)
      k := { scr := 0x1000, nw := nw, shape := #v[n, 1, 1, 1], pad := #v[n, 1, 1, 1] } }] }

/-- Its launch. -/
def theLaunch (s : State) : Launch := s.launches.headD placedLaunch

/-- The next workgroup finds a core, the second one too; a neighbourhood of two finds a pair; no core is open, or
no room for its grant. -/
theorem witness_PlacementResults :
    (∀ s ∈ [launching 64 1, launching 64 2, { launching 64 1 with hasp := { base.hasp with pexcl := Vector.replicate 12 0xFFFFFFFF } }],
      let l := theLaunch s
      s.launches.find? (fun x => x.id = l.id) = some l ∧ ctxOf s l.ctx = some placedContext ∧ l.held = false ∧
        takeRuns s placedContext l = some { l with lb := some 0, li := some 0 }) ∧
    (let s := launching 64 1
     let l := theLaunch s
     let l' := (takeRuns s placedContext l).getD l
     l.nbhd = false ∧ l.saved = none ∧ l.next ≤ 0 ∧ 0 < l.k.groups ∧ l.k.created 0 ≠ [] ∧ 1 < l.k.groups ∧ l.k.created 1 ≠ [] ∧
      findCore s ((l.k.created 0).map (·.1)) l.k.scr l.k.mx = some 0 ∧
      (allFrames s placedContext [(l'.li.map fun g => g + 0 * (l.k.scr / 2048), l.k.scr)]).isOk = true) ∧
    (let s := launching 64 2
     let l := theLaunch s
     let l' := (takeRuns s placedContext l).getD l
     let waves (k : Nat) : List (Nat × Mask) := if 0 * l.k.members + k < l.k.groups then l.k.created (0 * l.k.members + k) else []
     l.nbhd = true ∧ l.saved = none ∧ l.next = 0 ∧ 0 < (l.k.groups + l.k.members - 1) / max 1 l.k.members ∧ (∃ k < 2, waves k ≠ []) ∧
      (findRect s l.k.nw l.k.nh fun k n => coreTakes s n ((waves k).map (·.1)) l.k.scr l.k.mx).isSome = true ∧
      (allFrames s placedContext ((List.range 2).map fun k =>
        (if 0 * l.k.members + k < l.k.groups then l'.li.map fun g => g + (0 * l.k.members + k) * (l.k.scr / 2048) else none,
          l.k.scr))).isOk = true) ∧
    (let s := launching 64 1
     let l : Launch := { theLaunch s with saved := some [], pscr := 4097 }
     grantBack s ((takeRuns s placedContext l).getD l) = none) ∧
    let s := { launching 64 1 with hasp := { base.hasp with pexcl := Vector.replicate 12 0xFFFFFFFF } }
    findCore s (((theLaunch s).k.created 0).map (·.1)) (theLaunch s).k.scr (theLaunch s).k.mx = none := by decide +kernel

/-- 128 bytes of a kernel descriptor of one wave and one bucket for up to `n` lanes, its neighbourhood `nw` wide (R284). -/
def descriptor (n nw : Nat) : List Byte :=
  leBytes 4 1 ++ leBytes 4 1 ++ leBytes 8 0 ++ leBytes 4 (1 + 2 ^ 8 * nw + 2 ^ 12) ++ leBytes 4 0x1000 ++ leBytes 4 0x10000 ++
    List.replicate 36 0 ++ leBytes 4 0 ++ [1, n, n, 1, 1, 1, 1, 1, 1, 1, 1, 1].flatMap (leBytes 4) ++ List.replicate 12 0

/-- `base` without its wave, a descriptor at 0x2000, a task range of two blocks from 4 on. -/
def tasking : State :=
  { physWrite base 0x40002000 (descriptor 64 1) with
    w := {}, units := [], launches := [], ctxs := [{ placedContext with tbase := 4, tcount := 2 }]
    rings := [⟨0, 1, [{ kdesc := 0x2000, args := 0x3000, join := 0, entry := 1, n := 33 }]⟩] }

/-- More tasks than a wave takes; a member with a wave left, and one that has finished, live and not. -/
theorem witness_TaskWaveAndExitResults :
    (let s := tasking
     let c : Context := { placedContext with tbase := 4, tcount := 2 }
     ctxOf s 1 = some c ∧ (0 : Nat) < 33 ∧ s.rings.all (fun r => r.entries.all fun e => e.spill.isNone) = true ∧
      (match readKernel s 1 0x2000 with
        | .ok _ _ => true
        | _ => false) = true ∧
      taskCore s 0 = some 0 ∧ freeBlock s c = some 4 ∧ (imageFrames s c 4 1).isOk = true) ∧
    (let s := { base with w := {}, others := [placedWave] }
     unitOf s 2 = some placedUnit ∧ placedUnit.out = false ∧ s.w.unit ≠ placedUnit.handle ∧
      ∃ w ∈ s.others, w.unit = placedUnit.handle ∧ w.member = 0) ∧
    ∀ live ∈ [false, true],
      let m : Member := { wg := 0, core := 0, base := 0x021000000000, alloc := 0x1000, live := live, frames := [0x40010000] }
      let u : GangUnit := { placedUnit with members := [m] }
      let s := { base with w := {}, units := [u] }
      unitOf s u.handle = some u ∧ u.members = [m] ∧ u.out = false ∧ m.exited = false ∧ s.w.unit ≠ u.handle ∧
        (∀ w ∈ s.others, w.unit ≠ u.handle) ∧ (∀ x ∈ s.xfers, x.unit ≠ u.handle) ∧ (∀ p ∈ s.pods, p.unit ≠ u.handle) ∧
        (m.live = true → ∀ a : Fin 2, (arrayOf s m.core a).queue = [] ∧ (arrayOf s m.core a).mlds = none) := by
  decide +kernel

/-- A packet of a type with fields, in words (R279). -/
def packet (ty : Nat) (fs : List (Nat × List Word)) (ord : Nat := 0) : List Word :=
  BitVec.ofNat 32 (ty * 2 ^ 20 + (1 + (fs.map fun f => f.2.length + 1).sum) * 2 ^ 8 + ord) ::
    fs.flatMap fun f => BitVec.ofNat 32 (f.1 * 2 ^ 20 + (f.2.length + 1) * 2 ^ 8) :: f.2

/-- The same packet as it is parsed at ring index 0. -/
def parsed (fs : List (Nat × List Word)) (ord : Bool := false) : Packet :=
  { at_ := 0, len := 1 + (fs.map fun f => f.2.length + 1).sum, ord := ord, irq := false
    fields := fs.map fun f => ⟨false, BitVec.ofNat 11 f.1, f.2⟩ }

/-- Slot 0, with the queue whose control block is at 0x1000. -/
def theSlot : Slot := { n := 0, qcb := 0x1000, ctx := 1, cls := 0, mappedAt := 0, idleAt := 0 }

/-- `base` with that queue mapped, a ring of 64 words at virtual 0x4000 that holds some words, and a doorbell counted. -/
def ringed (ws : List Word) : State :=
  let put (s : State) (o n x : Nat) : State := physPut s (0x1000 + o) n x
  let s := physWrite base 0x40004000 (ws.flatMap fun w => leBytes 4 w.toNat)
  let s := put (put (put (put (put s 0x00 8 0x4000) 0x08 4 64) 0x10 4 ws.length) 0x14 4 0x80000001) 0x18 4 2
  { put s 0x1C 2 1 with launches := [], slots := [theSlot] }

/-- May a packet of the slot be taken? -/
def free (s : State) (x : Slot) : Bool :=
  decide (s.slots.find? (fun y => y.n = x.n) = some x ∧ x.drain = 0 ∧ x.wait = none ∧ x.replay = none ∧
    (∀ l ∈ s.launches, l.qcb = x.qcb → l.held = true ∨ l.total ≤ l.next) ∧
    (s.link.up = true ∨ physKind x.qcb ≠ some .host))

theorem takes_of {s : State} {x : Slot} (h : free s x = true) : Takes s x.n x := by
  have h1 := of_decide_eq_true h
  exact h1

/-- Does a packet of a type stand at the head of the slot's ring? -/
def heads (s : State) (x : Slot) (t : Nat) (p : Packet) : Bool :=
  free s x && match headOf (clearPend s x.qcb) x with
  | .packet u (.ok q) => decide (u = t ∧ q = p)
  | _ => false

theorem at_head {s : State} {x : Slot} {t : Nat} {p : Packet} (h : heads s x t p = true) : AtHead s x.n x t p := by
  obtain ⟨h1, h2⟩ := Bool.and_eq_true_iff.mp h
  refine ⟨takes_of h1, ?_⟩
  split at h2
  · next g => obtain ⟨rfl, rfl⟩ := of_decide_eq_true h2; exact g
  · cases h2

/-- Is the ring empty? -/
def bare (s : State) (x : Slot) : Bool :=
  match headOf s x with
  | .empty => true
  | _ => false

theorem empty_of {s : State} {x : Slot} (h : bare s x = true) : headOf s x = .empty := by
  unfold bare at h
  split at h
  · assumption
  · cases h

/-- Does a packet of a type in error stand there? -/
def errs (s : State) (x : Slot) (t c : Nat) : Bool :=
  match headOf s x with
  | .packet u (.error q) => decide (u = t ∧ q = c)
  | _ => false

theorem head_errs {s : State} {x : Slot} {t c : Nat} (h : errs s x t c = true) : headOf s x = .packet t (.error c) := by
  unfold errs at h
  split at h
  · next g => obtain ⟨rfl, rfl⟩ := of_decide_eq_true h; exact g
  · cases h

/-- `ringed` with a seed of the queue still to complete. -/
def unsettled (ws : List Word) : State := { ringed ws with seeds := [⟨9, 0x1000, 0, 1, false⟩] }

/-- NOP with ORD after a seed and with none, and without ORD; an unknown type and a NOP whose header sets a reserved bit; the
greatest error code, with the link up and down; an empty ring; a WAIT for each condition, met and not; a queue that waits. -/
theorem witness_PacketsTaken :
    (AtHead (unsettled (packet 0x00C [] 1)) 0 theSlot 0x00C (parsed [] true) ∧
      ¬Settled (unsettled (packet 0x00C [] 1)) 0x1000) ∧
    (∀ o ∈ [0, 1], AtHead (ringed (packet 0x00C [] o)) 0 theSlot 0x00C (parsed [] (o == 1)) ∧
      Settled (ringed (packet 0x00C [] o)) 0x1000 ∧ PlainQcb (ringed (packet 0x00C [] o)) 0x1000) ∧
    (∀ x ∈ [(0x7FF, 0, 0x21), (0x00C, 4, 0x22)],
      let s := ringed (packet x.1 [] x.2.1)
      Takes s 0 theSlot ∧ headOf s theSlot = .packet x.1 (.error x.2.2) ∧
        headOf (clearPend s 0x1000) theSlot = .packet x.1 (.error x.2.2) ∧ (typeEnabled s x.1 = false ↔ x.1 = 0x7FF) ∧
        field s 0x1000 0x0C 4 ≠ field s 0x1000 0x10 4 ∧
        ∃ h, ringWord s theSlot (field s 0x1000 0x0C 4) = .ok h ∧ h.toNat / 2 ^ 20 = x.1) ∧
    (Takes (ringed []) 0 theSlot ∧ headOf (clearPend (ringed []) 0x1000) theSlot = .empty) ∧
    ((∀ up ∈ [true, false], let s := { ringed [] with link := { up := up } }
      PlainQcb s 0x1000 ∧ s.hasp.trsize = 0 ∧ s.tables = some bootedTables ∧ s.link.up = up) ∧ 0xFFFFFFFF < 2 ^ 32) ∧
    (∀ c ∈ [0, 1, 2], ∀ m ∈ [0, 5],
      let fs : List (Nat × List Word) := [(0x007, [0x1000, 0]), (0x00A, [BitVec.ofNat 32 c]), (0x009, [5])]
      let s := physPut (ringed (packet 0x006 fs)) 0x40001000 4 m
      AtHead s 0 theSlot 0x006 (parsed fs) ∧ Settled s 0x1000 ∧ PlainQcb s 0x1000 ∧ pDWord (parsed fs) 0x007 0 = 0x1000 ∧
        ∃ l, engineChk (clearPend s 0x1000) (frontAcc 1) .load 0x1000 4 = .ok l ∧
          wordOf (clearPend s 0x1000) l.pas = BitVec.ofNat 32 m ∧ homeOf (route s (l.pas.headD 0)) ∉ s.coarse ∧
          monitorsAt s (homeOf (route s (l.pas.headD 0))) < monitorCap (homeOf (route s (l.pas.headD 0)))) ∧
    ∀ m ∈ [0, 5],
      let p := parsed [(0x007, [0x1000, 0]), (0x00A, [0]), (0x009, [5])]
      let x := { theSlot with wait := some p }
      let s := { physPut (ringed []) 0x40001000 4 m with slots := [x] }
      s.slots.find? (fun y => y.n = 0) = some x ∧ x.wait = some p ∧ x.drain = 0 ∧ PlainQcb s 0x1000 ∧
        ∃ l, engineChk s (frontAcc x.ctx) .load (pDWord p 0x007 0) 4 = .ok l ∧
          waitHolds p (wordOf s l.pas) = decide (m = 5) := by
  refine ⟨⟨at_head (x := theSlot) ?_, by unfold Settled; decide +kernel⟩, fun o ho => ⟨?_, ?_, ?_⟩,
    fun x hx => ⟨?_, ?_, ?_, ?_, ?_, ?_⟩, ⟨takes_of (x := theSlot) (by decide +kernel), empty_of (by decide +kernel)⟩, ⟨fun up _ => ⟨?_, rfl, rfl, rfl⟩, by decide⟩,
    fun c hc m hm => ⟨?_, ?_, ?_, ?_, ?_⟩, fun m hm => ⟨?_, rfl, rfl, ?_, ?_⟩⟩
  · decide +kernel
  · have h : ∀ o ∈ [0, 1], heads (ringed (packet 0x00C [] o)) theSlot 0x00C (parsed [] (o == 1)) = true := by decide +kernel
    exact at_head (h o ho)
  · unfold Settled; revert o; decide +kernel
  · unfold PlainQcb; revert o; decide +kernel
  · have h : ∀ x ∈ [(0x7FF, 0, 0x21), (0x00C, 4, 0x22)], free (ringed (packet x.1 [] x.2.1)) theSlot = true := by
      decide +kernel
    exact takes_of (h x hx)
  · have h : ∀ x ∈ [(0x7FF, 0, 0x21), (0x00C, 4, 0x22)], errs (ringed (packet x.1 [] x.2.1)) theSlot x.1 x.2.2 = true := by
      decide +kernel
    exact head_errs (h x hx)
  · have h : ∀ x ∈ [(0x7FF, 0, 0x21), (0x00C, 4, 0x22)],
        errs (clearPend (ringed (packet x.1 [] x.2.1)) 0x1000) theSlot x.1 x.2.2 = true := by decide +kernel
    exact head_errs (h x hx)
  · revert x; decide +kernel
  · revert x; decide +kernel
  · have h : ∀ x ∈ [(0x7FF, 0, 0x21), (0x00C, 4, 0x22)],
        (ringWord (ringed (packet x.1 [] x.2.1)) theSlot (field (ringed (packet x.1 [] x.2.1)) 0x1000 0x0C 4)).isOk = true ∧
        (got 0 (ringWord (ringed (packet x.1 [] x.2.1)) theSlot
          (field (ringed (packet x.1 [] x.2.1)) 0x1000 0x0C 4))).toNat / 2 ^ 20 = x.1 := by decide +kernel
    exact ⟨_, eq_ok 0 (h x hx).1, (h x hx).2⟩
  · unfold PlainQcb; revert up; decide +kernel
  · have h : ∀ c ∈ [0, 1, 2], ∀ m ∈ [0, 5],
        let fs : List (Nat × List Word) := [(0x007, [0x1000, 0]), (0x00A, [BitVec.ofNat 32 c]), (0x009, [5])]
        heads (physPut (ringed (packet 0x006 fs)) 0x40001000 4 m) theSlot 0x006 (parsed fs) = true := by decide +kernel
    exact at_head (h c hc m hm)
  · unfold Settled; revert c m; decide +kernel
  · unfold PlainQcb; revert c m; decide +kernel
  · revert c m; decide +kernel
  · have h : ∀ c ∈ [0, 1, 2], ∀ m ∈ [0, 5],
        let fs : List (Nat × List Word) := [(0x007, [0x1000, 0]), (0x00A, [BitVec.ofNat 32 c]), (0x009, [5])]
        let s := clearPend (physPut (ringed (packet 0x006 fs)) 0x40001000 4 m) 0x1000
        let a := (loc (engineChk s (frontAcc 1) .load 0x1000 4)).pas.headD 0
        let s0 := physPut (ringed (packet 0x006 fs)) 0x40001000 4 m
        fine s (engineChk s (frontAcc 1) .load 0x1000 4) = true ∧
          wordOf s (loc (engineChk s (frontAcc 1) .load 0x1000 4)).pas = BitVec.ofNat 32 m ∧
          homeOf (route s0 a) ∉ s0.coarse ∧ monitorsAt s0 (homeOf (route s0 a)) < monitorCap (homeOf (route s0 a)) := by
      decide +kernel
    exact ⟨_, (fine_ok (h c hc m hm).1).1, (h c hc m hm).2⟩
  · revert m; decide +kernel
  · unfold PlainQcb; revert m; decide +kernel
  · have h : ∀ m ∈ [0, 5],
        let p := parsed [(0x007, [0x1000, 0]), (0x00A, [0]), (0x009, [5])]
        let s := { physPut (ringed []) 0x40001000 4 m with slots := [{ theSlot with wait := some p }] }
        fine s (engineChk s (frontAcc 1) .load (pDWord p 0x007 0) 4) = true ∧
          waitHolds p (wordOf s (loc (engineChk s (frontAcc 1) .load (pDWord p 0x007 0) 4)).pas) = decide (m = 5) := by
      decide +kernel
    exact ⟨_, (fine_ok (h m hm).1).1, (h m hm).2⟩
/-- The packets that store: two words written, a stamp, a value stored, added and ored; for each its type, its fields, how
it reaches memory and the number of its words. -/
def storing : List (Nat × List (Nat × List Word) × AccKind × Nat) :=
  [(0x008, [(0x007, [0x1000, 0]), (0x00B, [7, 8])], .store, 2), (0x009, [(0x007, [0x1000, 0])], .store, 4),
    (0x005, [(0x007, [0x1000, 0]), (0x00A, [0]), (0x009, [9])], .store, 1),
    (0x005, [(0x007, [0x1000, 0]), (0x00A, [1]), (0x009, [9])], .atomic, 1),
    (0x005, [(0x007, [0x1000, 0]), (0x00A, [2]), (0x009, [9])], .atomic, 1)]

/-- Where word `k` of such a packet lies. -/
def storedAt (ws : List Word) (kind : AccKind) (k : Nat) : Except Miss Loc :=
  engineChk (clearPend (ringed ws) 0x1000) (frontAcc 1) kind (0x1000 + BitVec.ofNat 64 (4 * k)) 4

/-- A state whose queue's next packet is of a type, with these fields, and whose second GiB is not present or has no entry. -/
def failing (np : Bool) (x : Nat × List (Nat × List Word)) : State :=
  physPut (ringed (packet x.1 x.2)) 0x30008 8 (if np then 2 ^ 63 else 0)

/-- Packets whose word `k` is the first that cannot be stored to: at the first GiB's end, and behind it. -/
def tooFar : List ((Nat × List (Nat × List Word)) × AccKind × Nat × Nat × Word) :=
  [((0x008, [(0x007, [0x3FFFFFFC, 0]), (0x00B, [7, 8])]), .store, 2, 1, 0x3FFFFFFC),
    ((0x009, [(0x007, [0x40000000, 0])]), .store, 4, 0, 0x40000000),
    ((0x005, [(0x007, [0x40000000, 0]), (0x00A, [0]), (0x009, [9])]), .store, 1, 0, 0x40000000),
    ((0x005, [(0x007, [0x40000000, 0]), (0x00A, [2]), (0x009, [9])]), .atomic, 1, 0, 0x40000000)]

/-- What the check of the address of word `k` of such a packet finds. -/
def failsAt (np : Bool) (x : Nat × List (Nat × List Word)) (kind : AccKind) (g : Word) (k : Nat) : Except Miss Loc :=
  engineChk (clearPend (failing np x) 0x1000) (frontAcc 1) kind (g.setWidth 64 + BitVec.ofNat 64 (4 * k)) 4

/-- The reason a check gives for a recoverable failure. -/
def recovOf (e : Except Miss Loc) : Option (BitVec 2) :=
  match e with
  | .error (.recov r) => some r
  | _ => none

theorem recovOf_eq {e : Except Miss Loc} {r : BitVec 2} (h : recovOf e = some r) : e = .error (.recov r) := by
  unfold recovOf at h
  split at h <;> cases h
  rfl

/-- Every packet that stores, and every one that cannot; a wake; an EDGE with a cost for each pair, and one without for a pair. -/
theorem witness_PacketStores :
    (∀ x ∈ storing,
      let s := ringed (packet x.1 x.2.1)
      let at_ (k : Nat) : Loc := loc (storedAt (packet x.1 x.2.1) x.2.2.1 k)
      AtHead s 0 theSlot x.1 (parsed x.2.1) ∧ Settled s 0x1000 ∧ pDWord (parsed x.2.1) 0x007 0 = 0x1000 ∧
        (x.1 = 0x008 → pField (parsed x.2.1) 0x00B = some [7, 8]) ∧
        (x.2.2.1 = .atomic → ∃ l, storedAt (packet x.1 x.2.1) .load 0 = .ok l ∧ l.pas = (at_ 0).pas) ∧
        ∀ k < x.2.2.2, storedAt (packet x.1 x.2.1) x.2.2.1 k = .ok (at_ k) ∧ (at_ k).vers = false ∧ (at_ k).pas.length = 4 ∧
          ((at_ k).pas.map (route s)).Nodup ∧ (∀ a ∈ (at_ k).pas, physKind a ≠ some .view) ∧ ∀ j < x.2.2.2,
            (∀ e ∈ (at_ j).entries, ∀ a ∈ (at_ k).pas, route s (e + 1) ≠ route s a) ∧
            (j ≠ k → ∀ a ∈ (at_ j).pas, ∀ b ∈ (at_ k).pas, route s a ≠ route s b)) ∧
    (∀ x ∈ tooFar, ∀ np ∈ [true, false],
      let s := failing np x.1
      AtHead s 0 theSlot x.1.1 (parsed x.1.2) ∧ Settled s 0x1000 ∧ pDWord (parsed x.1.2) 0x007 0 = x.2.2.2.2.setWidth 64 ∧
        x.2.2.2.1 < x.2.2.1 ∧ (∀ j < x.2.2.2.1, ∃ l, failsAt np x.1 x.2.1 x.2.2.2.2 j = .ok l) ∧
        ∃ m, failsAt np x.1 x.2.1 x.2.2.2.2 x.2.2.2.1 = .error m ∧ m = if np then .recov 1 else .trap 0x10) ∧
    (let fs : List (Nat × List Word) := [(0x007, [0x1000, 0]), (0x00A, [3]), (0x009, [0])]
     AtHead (ringed (packet 0x005 fs)) 0 theSlot 0x005 (parsed fs) ∧ Settled (ringed (packet 0x005 fs)) 0x1000 ∧
      pWord (parsed fs) 0x00A 0 = 3) ∧
    fenceCost 0 1 0 = none ∧ fenceCost 0 0 4 = some 0 ∧ fenceCost 0 1 4 = some 260 ∧
    ∀ w ∈ [0x30100, 0x30104],
      let fs : List (Nat × List Word) := [(0x00E, [BitVec.ofNat 32 w]), (0x00D, [0x1000, 0, 64, 0])]
      AtHead (ringed (packet 0x004 fs)) 0 theSlot 0x004 (parsed fs) ∧ Settled (ringed (packet 0x004 fs)) 0x1000 ∧
        classesOf (BitVec.ofNat 6 (w / 2 ^ 8)) = [0] ∧ classesOf (BitVec.ofNat 6 (w / 2 ^ 16)) = [0, 1] := by
  refine ⟨fun x hx => ⟨at_head (x := theSlot) ?_, ?_, ?_, ?_, ?_, fun k hk => ⟨eq_ok (α := Loc) ⟨[], [], 0, [], false, [], none, none⟩ ?_, ?_⟩⟩,
    fun x hx np hn => ⟨at_head (x := theSlot) ?_, ?_, ?_, ?_, fun j hj => ?_, _, ?_, rfl⟩,
    ⟨at_head (x := theSlot) ?_, ?_, ?_⟩, by decide, by decide, by decide,
    fun w hw => ⟨at_head (x := theSlot) ?_, ?_, ?_⟩⟩
  · revert x; decide +kernel
  · unfold Settled; revert x; decide +kernel
  · revert x; decide +kernel
  · revert x; decide +kernel
  · have h : ∀ x ∈ storing, x.2.2.1 = .atomic → (storedAt (packet x.1 x.2.1) .load 0).isOk = true ∧
        (loc (storedAt (packet x.1 x.2.1) .load 0)).pas = (loc (storedAt (packet x.1 x.2.1) x.2.2.1 0)).pas := by
      decide +kernel
    exact fun y => ⟨_, eq_ok (α := Loc) ⟨[], [], 0, [], false, [], none, none⟩ (h x hx y).1, (h x hx y).2⟩
  · have h : ∀ x ∈ storing, ∀ k < x.2.2.2, (storedAt (packet x.1 x.2.1) x.2.2.1 k).isOk = true := by decide +kernel
    exact h x hx k hk
  · have h : ∀ x ∈ storing, ∀ k < x.2.2.2,
        let s := ringed (packet x.1 x.2.1)
        let at_ (k : Nat) : Loc := loc (storedAt (packet x.1 x.2.1) x.2.2.1 k)
        (at_ k).vers = false ∧ (at_ k).pas.length = 4 ∧
          ((at_ k).pas.map (route s)).Nodup ∧ (∀ a ∈ (at_ k).pas, physKind a ≠ some .view) ∧ ∀ j < x.2.2.2,
            (∀ e ∈ (at_ j).entries, ∀ a ∈ (at_ k).pas, route s (e + 1) ≠ route s a) ∧
            (j ≠ k → ∀ a ∈ (at_ j).pas, ∀ b ∈ (at_ k).pas, route s a ≠ route s b) := by decide +kernel
    exact h x hx k hk
  · revert np x; decide +kernel
  · unfold Settled; revert np x; decide +kernel
  · revert np x; decide +kernel
  · revert np x; decide +kernel
  · have h : ∀ x ∈ tooFar, ∀ np ∈ [true, false], ∀ j < x.2.2.2.1, (failsAt np x.1 x.2.1 x.2.2.2.2 j).isOk = true := by
      decide +kernel
    exact ⟨_, eq_ok ⟨[], [], 0, [], false, [], none, none⟩ (h x hx np hn j hj)⟩
  · have h : ∀ x ∈ tooFar, recovOf (failsAt true x.1 x.2.1 x.2.2.2.2 x.2.2.2.1) = some 1 ∧
        trapOf (failsAt false x.1 x.2.1 x.2.2.2.2 x.2.2.2.1) = some 0x10 := by decide +kernel
    cases np
    · exact trapOf_eq.mp (h x hx).2
    · exact recovOf_eq (h x hx).1
  · decide +kernel
  · unfold Settled; decide +kernel
  · decide +kernel
  · revert w; decide +kernel
  · unfold Settled; revert w; decide +kernel
  · revert w; decide +kernel
/-- `ringed` with a kernel descriptor of up to 64 lanes at virtual 0x2000, its neighbourhood `nw` wide. -/
def worked (nw : Nat) (ws : List Word) : State := physWrite (ringed ws) 0x40002000 (descriptor 64 nw)

/-- What the descriptor at an address holds. -/
def kernelAt (s : State) (g : DWord) : Kernel × List Bucket :=
  match readKernel s 1 g with
  | .ok k bs => (k, bs)
  | _ => ({}, [])

/-- The fields of a launch of `n` lanes with `m` granules of package scratchpad, and of a seed and a copy. -/
def launchFields (n m : Nat) : List (Nat × List Word) :=
  [(0x001, [0x2000, 0]), (0x002, [BitVec.ofNat 32 n]), (0x004, [BitVec.ofNat 32 m])]

def seedFields : List (Nat × List Word) := [(0x001, [0x2000, 0]), (0x005, [0, 0x3000, 0, 33])]

/-- A launch that is all placed and has completed, and the replay it may be a pass of. -/
def doneLaunch : Launch := { placedLaunch with qcb := 0x1000, next := 1, live := 0 }

def theReplay (n : Nat) : Replay :=
  { qcb := 0x1000, launch := doneLaunch, reps := 4, passes := n, units := [(0x4000, [(0x40001000, 7)])] }

/-- What a launch's step finds: its packet, the descriptor, the buckets, the granules. -/
def launchSeen (ty nw n m : Nat) : Bool :=
  let fs := launchFields n m
  let s := { worked nw (packet ty fs) with launches := [{ placedLaunch with grant := some [0x020000000000] }] }
  let k := kernelAt (clearPend s 0x1000) 0x2000
  let shape : Vector Nat 4 := Vector.ofFn fun j => ((((pField (parsed fs) 0x002).getD []).getD j.val 1).toNat)
  heads s theSlot ty (parsed fs) && decide (readKernel (clearPend s 0x1000) 1 (pDWord (parsed fs) 0x001 0) = .ok k.1 k.2 ∧
    (k.1.nw * k.1.nh ≠ 1 ↔ nw = 2) ∧ (chooseBucket k.1 k.2 shape = none ↔ n = 65) ∧
    ((grantRoom (clearPend s 0x1000) (pWord (parsed fs) 0x004 0).toNat s.launches).isSome = false ↔ m = 4096))

/-- Have the queue's packets all completed? -/
def calm (s : State) (q : Nat) : Bool :=
  decide ((∀ l ∈ s.launches, l.qcb ≠ q) ∧ (∀ x ∈ s.seeds, x.qcb ≠ q) ∧ ∀ x ∈ s.xfers, x.kind = .packet → x.qcb ≠ q)

theorem settled_of {s : State} {q : Nat} (h : calm s q = true) : Settled s q := by
  have h1 := of_decide_eq_true h
  exact h1

/-- A launch of either kind whose descriptor is bad, of a neighbourhood's kernel, with no bucket for its shape, without and
with the granules it asks for. -/
theorem witness_PacketWork :
    (let fs : List (Nat × List Word) := [(0x001, [0x2040, 0])]
     heads (worked 1 (packet 1 fs)) theSlot 1 (parsed fs) = true ∧
      readKernel (clearPend (worked 1 (packet 1 fs)) 0x1000) 1 (pDWord (parsed fs) 0x001 0) = .bad) ∧
    launchSeen 1 2 64 1 = true ∧ launchSeen 1 1 65 1 = true ∧ launchSeen 2 2 64 4096 = true ∧
    launchSeen 1 1 64 1 = true := by decide +kernel

/-- A seed before a full ring and one with room; a copy; a sweep of committed memory, of a live hypothesis, and of one that
is not live; a sweep at the slot map, and one that has been performed; a replay. -/
theorem witness_PacketWork_others :
    (∀ n ∈ [511, 512],
      let s := { worked 1 (packet 3 seedFields) with
        rings := [⟨0, 1, List.replicate n { kdesc := 0x2000, args := 0, join := 0, entry := 0, n := 1 }⟩] }
      heads s theSlot 3 (parsed seedFields) = true ∧
        readKernel (clearPend s 0x1000) 1 (pDWord (parsed seedFields) 0x001 0) =
          .ok (kernelAt (clearPend s 0x1000) 0x2000).1 (kernelAt (clearPend s 0x1000) 0x2000).2 ∧
        (ringFull (clearPend s 0x1000) s.hasp.seed.toFin 1 = true ↔ n = 512) ∧
        ((ringOf s s.hasp.seed.toFin 1).length < dieEntries ↔ n = 511)) ∧
    (let fs : List (Nat × List Word) := [(0x007, [0x1000, 0]), (0x008, [0x2000, 0]), (0x00C, [64])]
     heads (worked 1 (packet 7 fs)) theSlot 7 (parsed fs) = true) ∧
    (∀ h ∈ [0, 2, 3],
      let fs : List (Nat × List Word) := [(0x00F, [BitVec.ofNat 32 h])]
      let s := { worked 1 (packet 0xA fs) with ctxs := [treeContext] }
      heads s theSlot 0xA (parsed fs) = true ∧ calm s 0x1000 = true ∧ ctxOf s 1 = some treeContext ∧
        (pWord (parsed fs) 0x00F 0).setWidth 6 = BitVec.ofNat 6 h ∧
        theSlot.sweep = none ∧
        (h ≠ 0 → ((treeContext.node (BitVec.ofNat 6 h)).st = .live ↔ h ≠ 3))) ∧
    (∀ c ∈ [treeContext, { treeContext with reqs := [{ wave := 0, leaf := none, leader := 0, op := .refute 2, slot := some 0 }] }],
      let fs : List (Nat × List Word) := [(0x00F, [2])]
      let x := { theSlot with sweep := some (parsed fs) }
      let s := { worked 1 (packet 0xA fs) with ctxs := [c], slots := [x] }
      heads s x 0xA (parsed fs) = true ∧ calm s 0x1000 = true ∧ ctxOf s 1 = some c ∧
        ((∃ r ∈ c.reqs, r.slot = some x.n) ↔ c.reqs ≠ [])) ∧
    let fs : List (Nat × List Word) := [(0x001, [0x2000, 0]), (0x010, [4])]
    let s := worked 1 (packet 0xB fs)
    let k := kernelAt (clearPend s 0x1000) 0x2000
    heads s theSlot 0xB (parsed fs) = true ∧ calm s 0x1000 = true ∧ readKernel (clearPend s 0x1000) 1 (pDWord (parsed fs) 0x001 0) = .ok k.1 k.2 ∧
      (chooseBucket k.1 k.2 #v[1, 1, 1, 1]).isSome = true ∧
      (grantRoom (clearPend s 0x1000) (pWord (parsed fs) 0x004 0).toNat s.launches).isSome = true :=
  ⟨by decide +kernel, by decide +kernel, by decide +kernel, by decide +kernel, by decide +kernel⟩

/-- A pass that waits for its launch, one that may run, and one whose hypotheses are being refuted and have been; a launch that completed, of a replay's first pass and of its last
one counted, and of none; a seed and a copy that completed. -/
theorem witness_PacketWork_completions :
    (∀ n ∈ [0, 1, 65534],
      let x := { theSlot with replay := some (theReplay n) }
      let s := { worked 1 [] with slots := [x], launches := if n = 1 then [] else [{ doneLaunch with replay := true }] }
      s.slots.find? (fun y => y.n = 0) = some x ∧ x.replay = some (theReplay n) ∧
        (n = 1 → (∀ l ∈ s.launches, l.qcb ≠ 0x1000) ∧ (theReplay n).launch.pscr = 0 ∧ memWf s.mem = true ∧
          memWf [(0x40001000, 7)] = true ∧ ∀ c ∈ [((0x40001000, 7) : Host.Cell)], c.1 / 0x10000 = 0x4000) ∧
        (n ≠ 1 → s.launches.find? (fun y => y.id = doneLaunch.id) = some { doneLaunch with replay := true } ∧
          doneLaunch.total ≤ doneLaunch.next ∧ s.slots.find? (fun y => y.qcb = 0x1000) = some x ∧ (theReplay n).passes < 65535)) ∧
    (∀ begun ∈ [true, false], ∀ c ∈ [treeContext, { treeContext with reqs := [{
        wave := 0, leaf := none, leader := 0, op := .refute 0, slot := some 0 }] }],
      let r := { theReplay 1 with begun := begun }
      let x := { theSlot with replay := some r }
      let s := { worked 1 [] with slots := [x], launches := [], ctxs := [c] }
      s.slots.find? (fun y => y.n = 0) = some x ∧ x.replay = some r ∧ r.passes ≠ 0 ∧ r.begun = begun ∧
        ctxOf s x.ctx = some c ∧ (sweeping s x = true ↔ c.reqs ≠ []) ∧ r.launch.pscr = 0) ∧
    (let s := { ringed [] with launches := [doneLaunch] }
     s.launches.find? (fun y => y.id = doneLaunch.id) = some doneLaunch ∧ doneLaunch.total ≤ doneLaunch.next ∧
      (∀ y ∈ s.slots, y.qcb = 0x1000 → y.replay = none) ∧ PlainQcb s 0x1000) ∧
    (let s := { ringed [] with seeds := [⟨9, 0x1000, 0, 0, true⟩] }
     s.seeds.find? (fun y => y.id = 9) = some ⟨9, 0x1000, 0, 0, true⟩ ∧ PlainQcb s 0x1000) ∧
    let x : Xfer := { flying .packet with qcb := 0x1000, left := [] }
    let s := { ringed [] with xfers := [x] }
    (∀ l ∈ s.launches, l.id ≠ 9) ∧ (∀ y ∈ s.seeds, y.id ≠ 9) ∧ s.xfers.find? (fun y => y.id = 9) = some x := by
  refine ⟨by decide +kernel, by decide +kernel, ⟨by decide +kernel, by decide +kernel, by decide +kernel, ?_⟩, ⟨by decide +kernel, ?_⟩,
    by decide +kernel⟩
  · unfold PlainQcb; decide +kernel
  · unfold PlainQcb; decide +kernel
/-- Every slot taken by a queue of class 0, the one of slot `n` mapped first, and a minimum of one for class 1; MAPQ names a
ready queue of class 1. -/
def crowded (n : Nat) : State :=
  let s := physPut (ringed []) 0x1018 4 0x11
  { s with
    slots := (List.finRange 256).map fun i =>
      { n := i, qcb := 0x100000 + 0x80 * i.val, ctx := 1, cls := 0, mappedAt := if i.val = n then 0 else 1, idleAt := 0 }
    hasp := { s.hasp with mapq := 0x1000, min := #v[0, 1, 0, 0] } }

/-- A slot that drains with a sweep of the slot map put there by its packet. -/
def swept : Slot := { theSlot with drain := 1, sweep := some (parsed [(0x00F, [2])]) }

/-- A control block where nothing is, one that is mapped, with work and without, draining too, and one that is not; an alarm
before the Hasp. -/
theorem witness_QueueMappingResults :
    thereAt base 0x008000000000 = false ∧
    (∀ xs ∈ [[theSlot], [swept], []], ∀ w ∈ [0, 1],
      let s := { physPut (ringed []) 0x1010 4 w with slots := xs }
      thereAt s 0x1000 = true ∧ s.link.up = true ∧ PlainQcb s 0x1000 ∧ (field s 0x1000 0x0C 4 = field s 0x1000 0x10 4 ↔ w = 0)) ∧
    (let s := { ringed [] with slots := [swept] }
     s.slots.find? (fun y => y.n = 0) = some swept ∧ PlainQcb s 0x1000 ∧ swept.drain ≠ 0 ∧ swept.replay = none ∧
      sweeping s swept = false ∧ linkHolds s [0x1000] = false ∧ swept.sweep = some (parsed [(0x00F, [2])])) ∧
    linkHolds { base with link := { up := false } } [0x8000000000000] = true ∧
    (base.link.up = true ∧ ({ base with link := { up := false } } : State).link.up = false) ∧
    base.hasp.events = [] ∧
    (∀ k ∈ [(8 : BitVec 4), 9], ∃ s : State, s.hasp.trsize = 0 ∧ ∃ e, s.hasp.events = [e] ∧ e.kind = k) ∧
    -- mapping: the front end down, the slot taken, a queue of state 2; a queue idle and one ready
    (base.boot.up = true ∧ State.reset.boot.up = false ∧ (∃ x ∈ (ringed []).slots, x.n = 0) ∧
      field (ringed []) 0x1000 0x18 4 % 8 = 2) ∧
    (∀ st ∈ [0, 1],
      let s0 := physPut (ringed []) 0x1018 4 st
      let s := { s0 with slots := [], ctxs := [], hasp := { s0.hasp with mapq := 0x1000 } }
      let c := boundContext s 0x1000 (field s 0x1000 0x1C 2)
      s.boot.up = true ∧ linkHolds s [0x1000] = false ∧ PlainQcb s 0x1000 ∧
        field s s.hasp.mapq.toNat 0x18 4 % 8 = st ∧ ctxOf s (field s 0x1000 0x1C 2) = none ∧
        wtabOk s c.wtab.toNat = true ∧ dbgRefused s c = false ∧ field s 0x1000 0x08 4 = 2 ^ 6 ∧ s.hasp.trsize = 0) ∧
    -- unmapping: a slot at work, and one that drains, with more to do and without; a launch not begun, one begun
    (∀ d ∈ [0, 1], ∀ w ∈ [0, 1], ∀ n ∈ [0, 1],
      let x := { theSlot with drain := d }
      let l : Launch := { doneLaunch with next := n, k := { doneLaunch.k with shape := #v[64, 1, 1, 1], pad := #v[64, 1, 1, 1] } }
      let s := { physPut (physPut (ringed []) 0x1010 4 w) 0x1014 4 0 with slots := [x], launches := [l] }
      s.slots.find? (fun y => y.n = 0) = some x ∧ x.replay = none ∧ x.wait = none ∧ x.sweep = none ∧ sweeping s x = false ∧
        linkHolds s [0x1000] = false ∧ PlainQcb s 0x1000 ∧ s.hasp.trsize = 0 ∧
        (field s 0x1000 0x10 4 ≠ field s 0x1000 0x0C 4 ↔ w = 1) ∧
        ((s.launches.find? fun l => l.qcb = x.qcb && !l.placed && l.next = 0).isSome = true ↔ n = 0) ∧
        (s.launches.find? fun l => l.qcb = x.qcb && !l.placed).isSome = true) ∧
    (let c : Context := { placedContext with reqs := [{ wave := 0, leaf := none, leader := 0, op := .refute 0, slot := some 0 }] }
     sweeping { ringed [] with ctxs := [c] } theSlot = true) ∧
    -- idle: a queue that waits, one with nothing to do for 4,096 cycles, one with a packet, one busy 4,095 cycles ago, and one
    -- that has not moved for long
    (∀ x ∈ [(4, 0, 0), (2, 0, 4096), (2, 1, 4096), (2, 0, 4095), (2, 1, 2 ^ 30)],
      let s := { physPut (physPut (ringed []) 0x1010 4 x.2.1) 0x1018 4 x.1 with clk := BitVec.ofNat 64 x.2.2 }
      s.slots.find? (fun y => y.n = 0) = some theSlot ∧ (field s 0x1000 0x18 4 % 8 = 4 ↔ x.1 = 4) ∧
        (field s 0x1000 0x0C 4 ≠ field s 0x1000 0x10 4 ↔ x.2.1 = 1) ∧
        (theSlot.idleAt + 4096 ≤ s.clk.toNat ↔ 4096 ≤ x.2.2) ∧ (theSlot.movedAt + 2 ^ 30 ≤ s.clk.toNat ↔ x.2.2 = 2 ^ 30) ∧
        ∀ l ∈ s.launches, l.qcb = 0x1000 → l.held = true ∨ l.total ≤ l.next) := by
  refine ⟨by decide +kernel, ?_, ?_, by decide +kernel, by decide +kernel, rfl, fun k _ =>
    ⟨{ base with hasp := { base.hasp with events := [⟨k, 0, 3, 0⟩] } }, rfl, _, rfl, rfl⟩, by decide +kernel, ?_, ?_,
    by decide +kernel, by decide +kernel⟩ <;> unfold PlainQcb <;> decide +kernel

/-- A ready queue of class 1 finds every slot taken: it reclaims the one mapped longest, which its map names or not. -/
theorem witness_QueueMappingResults_reclaim :
    (∀ n ∈ [0, 255], (reclaimSlot (crowded n) 1).map (fun x => x.n.val) = some n) ∧
    (let s := crowded 7
     s.boot.up = true ∧ linkHolds s [s.hasp.mapq.toNat] = false ∧ field s s.hasp.mapq.toNat 0x18 4 % 8 = 1 ∧ qcbClass s s.hasp.mapq.toNat = 1 ∧ s.hasp.trsize = 0 ∧
      s.slots.Pairwise fun x y => x.n < y.n) := by decide +kernel

/-- A counter and a histogram unit whose counts the spec gives: those of a core at reset; chiplets, cores and stacks in service
and out of it. The temperatures at and around the two thresholds; an alarm crossed; one answered and past, and not yet. -/
theorem witness_DeviceRegisterResults :
    (∀ n ∈ [(0 : Fin 384), 383], (∀ i : Fin 4, countFree (coreOf base n).ctl[i] = false) ∧
      (∀ u : Fin 2, histFree (coreOf base n).hist[u] = false) ∧ (coreMask base).getLsbD n = true) ∧
    (let s := { base with config := some { bootedConfig with cores := 1, hbm := 0xFE } }
     chipletOn s 0 = true ∧ chipletOn s 7 = false ∧ (coreMask s).getLsbD 1 = false ∧
      ∃ c, s.config = some c ∧ c.hbm.getLsbD 0 = false ∧ c.hbm.getLsbD 7 = true) ∧
    (∀ t ∈ [(655, true, false, false), (656, false, true, false), (680, false, true, false), (681, false, false, true)],
      let x : BitVec 12 := BitVec.ofNat 12 t.1
      decide (x.toNat < 656) = t.2.1 ∧ decide (656 ≤ x.toNat ∧ x.toNat ≤ 680) = t.2.2.1 ∧ decide (680 < x.toNat) = t.2.2.2) ∧
    base.thermal[(7 : Fin 8)].alarm.toNat = 680 ∧ (base.thermal[(7 : Fin 8)]).before = none ∧
    let x : Thermal := { base.thermal[(7 : Fin 8)] with before := some 64 }
    x.before = some 64 ∧ 639 + 40 < x.alarm.toNat ∧ x.alarm.toNat ≤ 640 + 40 := by decide +kernel

/-- The last bytes of a range and the first past it; a read and a write of plain memory with a monitor on it and a line of it in
the host's buffer, of the view range and of the registers. -/
theorem witness_HostAccessResults :
    (∀ k ∈ [0, 1, 7], (∀ i < k, thereAt base (0x008000000000 - k + i) = true) ∧ k < max 8 1 ∧
      thereAt base (0x008000000000 - k + k) = false) ∧
    (∀ n ∈ [0, 1, 8], ∀ i < max n 1, thereAt base (0x008000000000 - 8 + i) = true) ∧
    (let s := { base with monitors := [{ addr := 0x40001000, len := 4, wave := 3, leaf := some 0 }]
                          link := { base.link with buf := [(0x40001000 / 128, List.replicate 128 9)] } }
     let bs : List Byte := [1, 2, 3, 4]
     (∀ i < max bs.length 1, thereAt s (0x40001000 + i) = true) ∧ s.link.up = true ∧ bs ≠ [] ∧
      physKind 0x40001000 ≠ some .device ∧ physKind 0x40001000 ≠ some .view ∧
      ((span 0x40001000 bs.length).map (route s)).Nodup ∧
      (∃ c ∈ s.link.buf, c.1 = (0x40001000 + 3) / 128) ∧ (∀ c ∈ base.link.buf, c.1 ≠ 0x40001000 / 128) ∧
      ∃ m ∈ s.monitors, ∃ i < bs.length, route s m.addr ≤ route s (0x40001000 + i) ∧
        route s (0x40001000 + i) < route s m.addr + m.len) ∧
    (physKind 0x030000100000 = some .device ∧ physKind 0x030000200000 = some .device) ∧
    ({ base with link := { base.link with up := false } } : State).link.up = false := by decide +kernel

/-- `base` whose context exports virtual 0x1000 to 0x1FFF. -/
def exporting : State := { base with ctxs := [{ placedContext with pbase := 0x1000, psize := 0x1000 }] }

/-- What a peer's access finds when its page's entry at 0x30000 is `x`: 0 for its bytes, else the service it asks for. -/
def peerFinds (x : Nat) : Option (BitVec 2) :=
  let s := physPut exporting 0x30000 8 x
  match virtAcc s { frontAcc 1 with sup := false } .store 0x1FFC 4 false with
  | .ok _ => some 0
  | .error (.recov r) => some r
  | .error (.trap _) => none

/-- The last bytes of the region and past them; a context that has ended; an address with no page, one paged out, one under
exchange; a leaf that waits for the link, and one that does not; a link down long enough and one cycle less; bytes posted
meanwhile; a context whose queue lies in host memory and one that needs no link. -/
theorem witness_PodAndLinkResults :
    (∀ o ∈ [0xFFC, 0xFFD],
      let c : Context := { placedContext with pbase := 0x1000, psize := 0x1000 }
      exporting.ctxs.find? (fun c => c.asid = 1 && c.ended.isNone) = some c ∧ (c.psize.toNat < o + 4 ↔ o = 0xFFD)) ∧
    (∀ k ∈ [AccKind.store, .atomic],
      let l := virtAcc exporting { frontAcc 1 with sup := false } k 0x1FFC 4 false
      fine exporting l = true ∧ (loc l).vers = false ∧ ((loc l).pas.map (route exporting)).Nodup ∧
        (∀ a ∈ (loc l).pas, physKind a ≠ some .view) ∧ (loc l).pas.length = 4 ∧
        ∀ e ∈ (loc l).entries, ∀ a ∈ (loc l).pas, route exporting (e + 1) ≠ route exporting a) ∧
    (virtAcc exporting { frontAcc 1 with sup := false } .store 0x40000000 4 false).isOk = false ∧
    (peerFinds (2 ^ 63) = some 1 ∧ peerFinds (physNat exporting 0x30000 8 + 2 ^ 10) = some 2) ∧
    (((waiting .link true).w.leaves[(0 : Fin 4)].wait.map (·.kind)) = some .link ∧
      base.w.leaves[(1 : Fin 4)].wait = none) ∧
    (∀ c ∈ ({ base with ctxs := [{ placedContext with ended := some 0 }] } : State).ctxs, c.asid = 1 → c.ended ≠ none) ∧
    (∀ n ∈ [14999999, 15000000],
      let s := { base with link := { base.link with up := false, since := 0 }, clk := BitVec.ofNat 64 n }
      s.link.up = false ∧ (s.link.since + 15000000 ≤ s.clk.toNat ↔ n = 15000000)) ∧
    (let s := { base with link := { up := false, posted := [(0x8000000000000, 5), (0x8000000000001, 6)], late := [(3, 0x1000)] } }
     (s.link.posted.map fun c => route s c.1).Nodup) ∧
    physKind 0x8000000000000 = some .host ∧ needsLink base placedContext = false ∧ base.link.up = true := by decide +kernel
/-- A legal configuration record for stack 0 with every core of its chiplet, in debug mode (R310). -/
def record0 : List Byte :=
  leBytes 4 0x504C4352 ++ leBytes 4 1 ++ leBytes 4 0x3F ++ leBytes 4 1 ++ leBytes 48 0xFFFFFFFFFFFF ++ leBytes 4 1

/-- Legal Strike tables with every packet type enabled (R308). -/
def tables0 : List Byte :=
  leBytes 4 0x534B5442 ++ leBytes 4 1 ++ leBytes 4 0xFFF ++ leBytes 4 0 ++ List.replicate 240 0

/-- A boot not begun and one begun; a record that is legal and one cut short, of which no signature makes a good one; tables
that are legal, an image as long as the Hasp's memory, and an empty one; a leaf left and none; the last quote of a boot.
Whether a signature verifies under Dolyen's key is open (log 12): on a legal record and legal tables the two clauses take a
case each. -/
theorem witness_BootResults :
    (State.reset.boot.on = false ∧ base.boot.on = true) ∧
    (base.link.up = true ∧ ({ base with link := { up := false } } : State).link.up = false) ∧
    (let w (o : Nat) : Nat := leNat ((record0.drop o).take 4)
     let cores := leNat ((record0.drop 0x10).take 48)
     record0.length = 0x44 ∧ w 0 = 0x504C4352 ∧ w 4 = 1 ∧ w 8 / 2 ^ 6 % 4 = 0 ∧ w 8 / 2 ^ 14 = 0 ∧
      w 0xC / 2 ^ 26 = 0 ∧ w 0x40 < 2 ∧ ∀ c < 8, w 0xC / 2 ^ c % 2 = 0 → cores / 2 ^ (48 * c) % 2 ^ 48 = 0) ∧
    (record0.take 0x40).length ≠ 0x44 ∧
    (∀ step ∈ [1, 3],
      let b : Boot := { State.reset.boot with on := true, step := step }
      b.on = true ∧ b.stage = 0) ∧
    (tablesOk tables0 = true ∧ tablesOk [] = false ∧ (List.replicate 0x40000 (0 : Byte)).length ≤ 0x40000) ∧
    (1023 < 1024 ∧ 1024 ≤ 1024 ∧ (List.replicate 32 (0 : Byte)).length = 32) :=
  ⟨by decide +kernel, by decide +kernel, by decide +kernel, by decide +kernel, by decide +kernel,
    ⟨by decide +kernel, by decide +kernel, Nat.le_of_eq List.length_replicate⟩, by decide⟩

/-- `base` in its hinge handler, and in its supervisor handler. -/
def inMode (m : Mode) : State := { base with w := { base.w with mode := m, hpc := 0, sup := { base.w.sup with pc := 0 } } }

/-- Does an agent's fetch at `pc` find a word? -/
def fetches (u : State) (pc word : Word) : Bool :=
  let r := resolve u (u.w.committed (leaderOf u.w.agentMask)) .fetch (codeBase u + pc.zeroExtend 64) 4
  r.isOk && decide ((∀ a ∈ (loc r).pas, homeLine u a ∉ u.poisoned) ∧
    word = codeWord u (u.w.committed (leaderOf u.w.agentMask)) (codeBase u + pc.zeroExtend 64) (loc r))

theorem fetches_word {u : State} {pc word : Word} (h : fetches u pc word = true) : FetchesWord u pc word := by
  obtain ⟨h1, h2⟩ := Bool.and_eq_true_iff.mp h
  obtain ⟨h3, h4⟩ := of_decide_eq_true h2
  exact ⟨loc (resolve u (u.w.committed (leaderOf u.w.agentMask)) .fetch (codeBase u + pc.zeroExtend 64) 4),
    eq_ok _ h1, h3, h4⟩

/-- `base` with a trap word next: the opcode at offset 0 is unassigned. -/
def trapping : State := State.reset.withFetchWord 32 0x0FFFFFFF

/-- An agenda of a step that is no boundary, and of one that is, before a chain that runs and before one that traps; a wave that
idles; a leaf, a handler and a supervisor about to carry out a NOP; a leaf before a word with a trailing one. -/
theorem witness_StepRunsTheDecodedInstruction :
    (({ base with agenda := [.evtPop] } : State).agenda = [.evtPop] ∧ (∀ w n, Instr.evtPop ≠ .leafTurn w n) ∧
      ∀ w, Instr.evtPop ≠ .eventDelivery w ∧ Instr.evtPop ≠ .starvationOverride w ∧ Instr.evtPop ≠ .trapEntry w) ∧
    ((focus { base with agenda := [] } 3).w.id = 3 ∧ precedesBoundary exec (focus base 3) = false ∧
      precedesBoundary exec (focus trapping 3) = true) ∧
    (parked 1).w.idles = true ∧
    (∀ x ∈ [(Agent.leaf 0, Mode.program), (.handler, .hinge), (.supervisor, .supervisor)],
      let s := inMode x.2
      let s0 : State := match x.1 with
        | .handler => { s with w := { s.w with hcount := s.w.hcount + 1 } }
        | _ => s
      s.agenda = [] ∧ pickWave s = some s.w ∧ AgentDue s x.1 0 1 ∧ DecodesAt (issuing s0 x.1 0 0) 0 0 0 (.nop false) ∧
        scoreHolds (issuing s0 x.1 0 0) [⟨0, 0, .nop false, 4⟩] = false) ∧
    let s := State.reset.withFetchWord 64 0x000000010056EDFE
    pickWave s = some s.w ∧ AgentDue s (.leaf 0) 0 1 ∧
      DecodesAt (issuing s (.leaf 0) 0 0) 0 0x0056EDFE 1 (.sadd false (.s 3) (.s 3) (.lit 1)) ∧
      scoreHolds (issuing s (.leaf 0) 0 0) [⟨0, 0x0056EDFE, .sadd false (.s 3) (.s 3) (.lit 1), 8⟩] = false := by
  refine ⟨⟨rfl, fun _ _ => nofun, fun _ => ⟨nofun, nofun, nofun⟩⟩, by decide +kernel,
    by decide +kernel,
    fun x hx => ⟨?_, ?_, ?_, ⟨fetches_word ?_, fun h => absurd h (by decide), ?_⟩, ?_⟩, ?_, ?_,
    ⟨fetches_word ?_, fun _ => fetches_word ?_, ?_⟩, ?_⟩
  · revert x; decide +kernel
  · revert x; decide +kernel
  · unfold AgentDue
    fin_cases hx <;> decide +kernel
  · revert x; decide +kernel
  · revert x; decide +kernel
  · revert x; decide +kernel
  · decide +kernel
  · unfold AgentDue
    decide +kernel
  · decide +kernel
  · decide +kernel
  · decide +kernel
  · decide +kernel

/-- The unassigned words at the ends of their range, and a word of every encoding length. -/
theorem witness_DecodeInvertsEncode :
    (∀ i ∈ [Instr.nop false, .sadd false (.s 31) (.s 0) (.lit 0xFFFFFFFF), .vadd ⟨true, 15⟩ (.v 87) (.v 0) (.v 87),
      .unassignedOpcode 0x05800000, .unassignedOpcode 0x0FFFFFFF], i.wellFormed = true ∧ i.isWord = true) ∧
    (opAssigned (opOf 0x05800000) = false ∨ (opOf 0x05800000 = 0x7D ∧ sysAssigned (bOf 0x05800000) = false)) ∧
    ∀ x ∈ [((0x0056EDFE : Word), (1 : Word), Instr.sadd false (.s 3) (.s 3) (.lit 1)), (0, 0, .nop false)],
      decode 1 x.1 x.2.1 = .ok x.2.2 ∧ x.2.2.wellFormed = true := by decide +kernel

/-- A step that answers a next state from memory in its canonical form. -/
theorem witness_MemoryKeepsCanonicalForm :
    memWf base.mem = true ∧ ∃ t, step { base with agenda := [.evtPop] } = .next t := ⟨by decide +kernel, _, rfl⟩
end

section
/-!
PROOFS. The family of spec/02_encoding.md: what operands give (R33, R43), the bit-field and unary instructions, VADD64 and
VSEL (R447 to R451, R53), and taking faults, with the unassigned opcodes (R235 to R241, R52).
-/

namespace Sys2Proof.Machine

/-! ### What an operand reads (R33, R20, R43) -/

theorem getS_register (w : Wave) (r : Fin 32) (h : ¬(w.mode = .hinge ∧ 24 ≤ r.val)) : getS w r = w.src.s[r] := by
  simp [getS, if_neg h]

theorem getS_shadow (w : Wave) (j : Fin 8) (h : w.mode = .hinge) : getS w (24 + j.val) = w.src.h[j] := by
  simp [getS, h]

theorem setS_shadow (w : Wave) (j : Fin 8) (x : Word) (h : w.mode = .hinge) :
    setS w (24 + j.val) x = { w with r := { w.r with h := w.r.h.set j x } } := by
  simp [setS, h]

/-- Outside hinge mode the shadows are not written. -/
theorem setS_keeps_shadows (w : Wave) (r : Nat) (x : Word) (h : w.mode ≠ .hinge) : (setS w r x).r.h = w.r.h := by
  rw [setS, if_neg fun hc => h hc.1]
  split <;> rfl

/-- Codes 0x70 to 0x77 name s24 to s31. -/
theorem operandOf_shadow (j : Fin 8) (next : Word) :
    operandOf (BitVec.ofNat 7 (0x70 + j.val)) next = .s ⟨24 + j.val, by omega⟩ := by
  have hn : (BitVec.ofNat 7 (0x70 + j.val)).toNat = 0x70 + j.val := by
    rw [BitVec.toNat_ofNat]
    omega
  unfold operandOf
  simp only [hn]
  rw [dif_neg (by omega), dif_pos (by omega)]
  congr 2
  omega

theorem vecVal_lid_toNat (w : Wave) (l : Fin 32) : (vecVal w .lid l).toNat = l.val := by
  have h : vecVal w .lid l = BitVec.ofNat 32 l := rfl
  rw [h, BitVec.toNat_ofNat]
  omega

theorem pairVal_v (w : Wave) (r : Fin 88) (hr : r.val + 1 < 88) (l : Fin 32) :
    pairVal w (.v r) l = w.src.v[r.val + 1][l] ++ w.src.v[r][l] := by
  have h := getV_fin w ⟨r.val + 1, hr⟩ l
  rw [pairVal, getV_fin, h]
  rfl

/-- Settles O12, operand form by operand form. -/
theorem operandValues : Obligations.OperandValues := by
  unfold Obligations.OperandValues
  intro w l src
  have hsrc : src = w.src := by
    simp only [src, Wave.src]
    cases w.iss.snap <;> rfl
  clear_value src
  subst hsrc
  refine ⟨fun r => getV_fin w r l, fun _ => rfl, fun x => ⟨rfl, rfl, rfl⟩, rfl, vecVal_lid_toNat w l,
    fun r hm => getS_register w r fun h => hm h.1, fun r hr => getS_register w r fun h => ?_,
    fun j hm r hr => ?_, fun j next => ⟨_, operandOf_shadow j next, rfl⟩, fun j x => setS_shadow w j x,
    fun hm r x => setS_keeps_shadows w r x hm, fun k hk => if_neg hk, if_pos rfl, fun r hr => pairVal_v w r hr l,
    fun _ _ => rfl⟩
  · omega
  · rw [scalarVal, hr, getS_shadow w j hm]

/-! ### Lane-wise instructions without flags -/

theorem laneOp2_error (s s' : State) (h : Hdr) (d a b : Operand) (f : Wave → Fin 32 → Word → Word → Word × Flags)
    (he : s.w.eff h.gd ≠ 0) (hp : portsReady s (s.w.eff h.gd) d [a, b] [a, b] = .error s') :
    laneOp2 s h d a b f = s' := by
  simp only [laneOp2, if_neg he, hp]

theorem laneOp1_error (s s' : State) (h : Hdr) (d a : Operand) (f : Wave → Fin 32 → Word → Word × Flags)
    (he : s.w.eff h.gd ≠ 0) (hp : portsReady s (s.w.eff h.gd) d [a] [a] = .error s') :
    laneOp1 s h d a f = s' := by
  simp only [laneOp1, if_neg he, hp]

theorem laneOp2_empty (s : State) (h : Hdr) (d a b : Operand) (f : Wave → Fin 32 → Word → Word → Word × Flags)
    (he : s.w.eff h.gd = 0) : laneOp2 s h d a b f = s := if_pos he

theorem laneOp1_empty (s : State) (h : Hdr) (d a : Operand) (f : Wave → Fin 32 → Word → Word × Flags)
    (he : s.w.eff h.gd = 0) : laneOp1 s h d a f = s := if_pos he

/-- A meaning that is the mould of two sources with the value `f`, without flags, gives that value. -/
theorem lanesGive2_of_laneOp2 {mk : Hdr → Operand → Operand → Operand → Instr} {f val : Word → Word → Word → Word}
    (hexec : ∀ h d a b s, exec (mk h d a b) s =
      .next (laneOp2 s h d a b fun w l x y => pureLane (f (getV w (regNum d) l) x y)))
    (hval : ∀ t x y, f t x y = val t x y) : LanesGive2 mk val := by
  obtain rfl : f = val := funext fun t => funext fun x => funext (hval t x)
  refine ⟨fun s h r a b ha hb => ?_, fun s s1 s2 h d a b x y he hp ha hb => ?_, fun s s' h d a b he hp => ?_,
    fun s h d a b he => ?_⟩ <;> rw [hexec]
  · rw [laneOp2_registers s h r a b _ ha hb]
    simp only [pureLane, orFlags_zero, withFlags_zero, regNum_v]
  · rw [laneOp2_ports s s1 s2 h d a b x y _ he hp ha hb]
    simp only [pureLane, orFlags_zero, withFlags_zero]
  · rw [laneOp2_error s s' h d a b _ he hp]
  · rw [laneOp2_empty s h d a b _ he]

/-- So for one source. -/
theorem lanesGive1_of_laneOp1 {mk : Hdr → Operand → Operand → Instr} {f val : Word → Word}
    (hexec : ∀ h d a s, exec (mk h d a) s = .next (laneOp1 s h d a fun _ _ x => pureLane (f x)))
    (hval : ∀ x, f x = val x) : LanesGive1 mk val := by
  obtain rfl : f = val := funext hval
  refine ⟨fun s h r a ha => ?_, fun s s1 h d a x he hp ha => ?_, fun s s' h d a he hp => ?_,
    fun s h d a he => ?_⟩ <;> rw [hexec]
  · rw [laneOp1_registers s h r a _ ha]
    simp only [pureLane, orFlags_zero, withFlags_zero]
  · rw [laneOp1_ports s s1 h d a x _ he hp ha]
    simp only [pureLane, orFlags_zero, withFlags_zero]
  · rw [laneOp1_error s s' h d a _ he hp]
  · rw [laneOp1_empty s h d a _ he]

/-! ### The values of the bit-field and unary instructions (R448, R449) -/

theorem bfPos_eq (y : Word) : bfPos y = y.toNat % 32 := by
  simp [bfPos, BitVec.extractLsb'_toNat]

theorem bfWidth_eq (y : Word) : bfWidth y = min (y.toNat / 2 ^ 8 % 64) (32 - y.toNat % 32) := by
  simp [bfWidth, bfPos_eq, BitVec.extractLsb'_toNat, Nat.shiftRight_eq_div_pow]

/-- The `n` low bits as a word. -/
theorem toNat_lowBits {n : Nat} (hn : n ≤ 32) : (BitVec.ofNat 32 (2 ^ n - 1)).toNat = 2 ^ n - 1 := by
  rw [BitVec.toNat_ofNat, Nat.mod_eq_of_lt]
  have h0 : 0 < 2 ^ n := Nat.two_pow_pos n
  have h1 : 2 ^ n ≤ 2 ^ 32 := Nat.pow_le_pow_right (by decide) hn
  omega

theorem bfWidth_le (y : Word) : bfWidth y ≤ 32 := by
  unfold bfWidth
  omega

theorem bfExtract_eq (x y : Word) :
    bfExtract x y = (x >>> bfPos y) &&& BitVec.ofNat 32 (2 ^ bfWidth y - 1) := by
  apply BitVec.eq_of_toNat_eq
  have hlt : x.toNat / 2 ^ bfPos y % 2 ^ bfWidth y < 2 ^ 32 :=
    Nat.lt_of_le_of_lt (Nat.mod_le _ _) (Nat.lt_of_le_of_lt (Nat.div_le_self _ _) x.isLt)
  rw [bfExtract, BitVec.toNat_and, toNat_lowBits (bfWidth_le y), BitVec.toNat_ushiftRight, Nat.shiftRight_eq_div_pow,
    Nat.and_two_pow_sub_one_eq_mod, BitVec.toNat_ofNat, Nat.mod_eq_of_lt hlt]

theorem bfInsert_eq (t x y : Word) :
    bfInsert t x y = (t &&& ~~~(BitVec.ofNat 32 (2 ^ bfWidth y - 1) <<< bfPos y)) |||
      ((x &&& BitVec.ofNat 32 (2 ^ bfWidth y - 1)) <<< bfPos y) := by
  have hm : BitVec.ofNat 32 ((2 ^ bfWidth y - 1) * 2 ^ bfPos y) = BitVec.ofNat 32 (2 ^ bfWidth y - 1) <<< bfPos y := by
    apply BitVec.eq_of_toNat_eq
    simp [BitVec.toNat_shiftLeft, Nat.shiftLeft_eq, Nat.mul_mod]
  rw [bfInsert, hm, BitVec.shiftLeft_and_distrib]

theorem zero_sub_eq_ofInt (x : Word) : 0 - x = BitVec.ofInt 32 (-x.toInt) := by
  rw [BitVec.ofInt_neg, BitVec.ofInt_toInt]
  exact BitVec.zero_sub x

theorem absW_eq (x : Word) : absW x = BitVec.ofInt 32 x.toInt.natAbs := by
  unfold absW
  split
  case isTrue h =>
    rw [Int.ofNat_natAbs_of_nonpos (Int.le_of_lt h), zero_sub_eq_ofInt]
  case isFalse h =>
    rw [Int.natAbs_of_nonneg (Int.not_lt.mp h), BitVec.ofInt_toInt]

theorem popW_eq (x : Word) : popW x = BitVec.ofNat 32 ((List.finRange 32).countP fun i : Fin 32 => x.getLsbD i) := by
  rw [popW, popCount, lanesOf, List.countP_eq_length_filter]
  rfl

theorem clzW_eq (x : Word) : clzW x = if x = 0 then 32 else BitVec.ofNat 32 (31 - x.toNat.log2) := by
  have h0 : x.toNat = 0 ↔ x = 0 := BitVec.toNat_eq (y := 0) |>.symm
  unfold clzW bitLen
  by_cases h : x = 0
  · rw [if_pos (h0.mpr h), if_pos h]
    rfl
  · rw [if_neg (mt h0.mp h), if_neg h, show 32 - (x.toNat.log2 + 1) = 31 - x.toNat.log2 by omega]

/-! ### VADD64 and VSEL (R447, R451, R53) -/

theorem loWord_add (x y : DWord) : (x + y).loWord = BitVec.ofNat 32 (x.toNat + y.toNat) := by
  apply BitVec.eq_of_toNat_eq
  simp [DWord.loWord, BitVec.extractLsb'_toNat]

theorem hiWord_add (x y : DWord) : (x + y).hiWord = BitVec.ofNat 32 ((x.toNat + y.toNat) / 2 ^ 32) := by
  apply BitVec.eq_of_toNat_eq
  simp only [DWord.hiWord, BitVec.extractLsb'_toNat, BitVec.toNat_add, BitVec.toNat_ofNat, Nat.shiftRight_eq_div_pow]
  omega

theorem exec_vadd64 (s : State) (h : Hdr) (r : Fin 88) (a b : Operand) (hr : r.val + 1 < 88) :
    exec (.vadd64 h (.v r) a b) s = .next (withVector
      (withVector s r (s.w.eff h.gd) fun l => (pairVal s.w a l + pairVal s.w b l).loWord)
      ⟨r.val + 1, hr⟩ (s.w.eff h.gd) fun l => (pairVal s.w a l + pairVal s.w b l).hiWord) := by
  rw [← updW_setV, ← updW_setV]
  rfl

/-- Values outside the mask do not matter. -/
theorem withVector_congr (s : State) (r : Fin 88) {m : Mask} {f g : Fin 32 → Word}
    (hfg : ∀ l : Fin 32, m.getLsbD l = true → f l = g l) : withVector s r m f = withVector s r m g := by
  have h : (fun l : Fin 32 => if m.getLsbD l then f l else s.w.r.v[r][l]) =
      fun l : Fin 32 => if m.getLsbD l then g l else s.w.r.v[r][l] :=
    funext fun l => ite_congr rfl (hfg l) fun _ => rfl
  unfold withVector
  rw [h]

/-- Under no guard the effective mask lies in the agent's. -/
theorem agentMask_of_eff_zero (w : Wave) (l : Fin 32) (h : (w.eff 0).getLsbD l = true) :
    w.agentMask.getLsbD l = true := by
  rw [Wave.eff, if_pos rfl, maskDiff, BitVec.getLsbD_and, Bool.and_eq_true] at h
  exact h.1

/-- The mask by which VSEL chooses. -/
def selMask (w : Wave) (gd : Fin 8) : Mask := if gd = 0 then w.agentMask else w.src.k[gd.val]

theorem exec_vsel (s : State) (h : Hdr) (d a b : Operand) :
    exec (.vsel h d a b) s = .next (laneOp2 s { h with gd := 0 } d a b fun _ l x y =>
      pureLane (if (selMask s.w h.gd).getLsbD l then x else y)) := rfl

theorem selMask_of_eff_zero (w : Wave) (gd : Fin 8) (l : Fin 32) (h : (w.eff 0).getLsbD l = true) :
    (selMask w gd).getLsbD l = true ↔ gd = 0 ∨ w.src.k[gd.val].getLsbD l = true := by
  unfold selMask
  by_cases hg : gd = 0
  · simp only [hg, if_true, agentMask_of_eff_zero w l h, true_or]
  · simp only [hg, if_false, false_or]

/-- Settles O4: each lane-wise instruction is the mould with its value, VADD64 writes the two halves one after the other, and
VSEL is the mould under no guard, in whose lanes an absent guard always chooses A. -/
theorem bitFieldUnaryPairAndSelectResults : Obligations.BitFieldUnaryPairAndSelectResults := by
  unfold Obligations.BitFieldUnaryPairAndSelectResults
  refine ⟨⟨?_, ?_, ?_, ?_, ?_, ?_, ?_⟩, fun s h r a b hr => ?_, fun s h r a b ha hb => ?_,
    fun s s1 s2 h d a b x y he hp ha hb => ?_⟩
  · refine lanesGive2_of_laneOp2 (f := fun _ => bfExtract) (fun _ _ _ _ _ => rfl) fun _ x y => ?_
    rw [bfExtract_eq, bfWidth_eq, bfPos_eq]
  · refine lanesGive2_of_laneOp2 (fun _ _ _ _ _ => rfl) fun t x y => ?_
    rw [bfInsert_eq, bfWidth_eq, bfPos_eq]
  · exact lanesGive1_of_laneOp1 (fun _ _ _ _ => rfl) absW_eq
  · exact lanesGive1_of_laneOp1 (fun _ _ _ _ => rfl) zero_sub_eq_ofInt
  · exact lanesGive1_of_laneOp1 (fun _ _ _ _ => rfl) fun _ => rfl
  · exact lanesGive1_of_laneOp1 (fun _ _ _ _ => rfl) popW_eq
  · exact lanesGive1_of_laneOp1 (fun _ _ _ _ => rfl) clzW_eq
  · rw [exec_vadd64 s h r a b hr]
    simp only [loWord_add, hiWord_add]
  · rw [exec_vsel, laneOp2_registers s _ r a b _ ha hb]
    simp only [pureLane, orFlags_zero, withFlags_zero]
    refine congrArg _ (withVector_congr s r fun l hl => ?_)
    simp only [selMask_of_eff_zero s.w h.gd l hl]
  · rw [exec_vsel, laneOp2_ports s s1 s2 { h with gd := 0 } d a b x y _ he hp ha hb]
    simp only [pureLane, orFlags_zero, withFlags_zero]
    rfl

/-! ### Taking a fault (R235, R238, R240) -/

/-- Where no fault ends the context, the handler's offset is kept for a program and is the chain's first for a hinge handler. -/
theorem enterTrap_of_notSupervisor (w : Wave) (f : FaultRec) (entry : Word) (hm : w.mode ≠ .supervisor) :
    w.enterTrap f entry = { w with
      sr := { w.sr with trapcause := f.cause.zeroExtend 32, trapinfo0 := f.info0, trapinfo1 := f.info1,
                        trapinfo2 := f.info2, trapinfo3 := f.info3 }
      mode := .supervisor
      sup := { mask := ~~~w.absent, pc := entry }
      supLoops := []
      supHinge := w.mode = .hinge
      supFault := w.mode = .hinge && f.cause = 0x03
      hpc := if w.mode = .program then w.hpc else w.iss.first
      hwait := none
      res := if w.res = .stopped then .resident else w.res
      waitCtr := 0
      iss := { w.iss with fault := some f } } := by
  have hpc : (if w.mode = .hinge then w.iss.first else w.hpc) = if w.mode = .program then w.hpc else w.iss.first := by
    cases h : w.mode
    case program => rfl
    case hinge => rfl
    case supervisor => exact absurd h hm
  rw [Wave.enterTrap, hpc]
  rfl

@[simp] theorem pcPast_pc (s : State) : (pcPast s).w.iss.pc = s.w.iss.pc := by
  unfold pcPast
  rw [updW_w]
  cases s.w.iss.agent <;> rfl

theorem exec_trap_empty (s : State) (h : Hdr) (code : BitVec 7) (he : s.w.eff h.gd = 0) :
    exec (.trap h code) s = .next s := congrArg _ (if_pos he)

theorem exec_bkpt_empty (s : State) (h : Hdr) (code : BitVec 7) (he : s.w.eff h.gd = 0) :
    exec (.bkpt h code) s = .next s := congrArg _ (if_pos he)

theorem exec_trap (s : State) (h : Hdr) (code : BitVec 7) (he : s.w.eff h.gd ≠ 0) :
    exec (.trap h code) s =
      .next (takeFault (pcPast s) ⟨0x80 + code.zeroExtend 8, s.w.eff h.gd, s.w.iss.pc, 0, 0⟩) := by
  refine congrArg _ ((if_neg he).trans ?_)
  rw [fault, pcPast_pc]

theorem exec_bkpt (s : State) (h : Hdr) (code : BitVec 7) (he : s.w.eff h.gd ≠ 0) :
    exec (.bkpt h code) s =
      .next (takeFault (pcPast s) ⟨0x0B, code.zeroExtend 32, s.w.iss.pc, s.w.eff h.gd, 0⟩) := by
  refine congrArg _ ((if_neg he).trans ?_)
  rw [fault, pcPast_pc]

theorem trapCause_eq (code : BitVec 7) : (0x80 : BitVec 8) + code.zeroExtend 8 = BitVec.ofNat 8 (0x80 + code.toNat) := by
  apply BitVec.eq_of_toNat_eq
  simp

/-! ### Unassigned opcodes (R52) -/

/-- The opcodes of R52's list, exhausted over the 128 codes. -/
theorem opAssigned_of_unassigned (op : BitVec 7) (h : op.toNat ∈ [0x2C, 0x2D, 0x2E, 0x2F, 0x3B, 0x3C, 0x3D, 0x3E, 0x3F, 0x4B,
    0x4C, 0x4D, 0x4E, 0x4F, 0x7B, 0x7E, 0x7F]) : opAssigned op = false := by
  revert op
  decide

theorem decode_of_opAssigned_false (slot : Nat) (w next : Word) (h : opAssigned (opOf w) = false) :
    decode slot w next = .ok (.unassignedOpcode w) := by
  simp [decode, h]

theorem opOf_toNat (w : Word) : (opOf w).toNat = w.toNat / 2 ^ 21 % 2 ^ 7 := by
  rw [opOf, BitVec.extractLsb'_toNat, Nat.shiftRight_eq_div_pow]

theorem opOf_eq_iff (w : Word) (op : BitVec 7) : opOf w = op ↔ w.toNat / 2 ^ 21 % 2 ^ 7 = op.toNat := by
  rw [BitVec.toNat_eq, opOf_toNat]

theorem exec_unassignedOpcode (s : State) (word : Word) :
    exec (.unassignedOpcode word) s = .next (takeFault s
      ⟨0x01, if word.toNat / 2 ^ 21 % 2 ^ 7 = 0x7D then 2 else 1, s.w.iss.pc, word, s.w.iss.first⟩) := by
  have h : (if opOf word = 0x7D then (2 : Word) else 1) = if word.toNat / 2 ^ 21 % 2 ^ 7 = 0x7D then 2 else 1 :=
    if_congr (opOf_eq_iff word 0x7D) rfl rfl
  rw [← h]
  rfl

/-! ### The rows of a wave (R237, R241) -/

/-- Bringing a wave to issue changes neither memory nor contexts. -/
theorem focus_frame (s : State) (id : Nat) :
    focus s id = { s with w := (focus s id).w, others := (focus s id).others } := by
  unfold focus
  split
  · rfl
  · split <;> rfl

theorem focus_w {s : State} {id : Nat} {w : Wave} (h : waveOf s id = some w) : (focus s id).w = w := by
  unfold waveOf at h
  unfold focus
  by_cases hid : s.w.id = id
  · rw [if_pos hid] at h ⊢
    exact Option.some.inj h
  · rw [if_neg hid] at h ⊢
    rw [h]

theorem onWave_of_waveOf {s : State} {id : Nat} {w : Wave} (hid : id ≠ 0) (h : waveOf s id = some w) (f : State → State) :
    onWave s id f = f (focus s id) := by
  simp [onWave, hid, h]

/-- The earliest imprecise fault is taken, and counted on the core's monitors. -/
theorem takePending_cons (s : State) (f : FaultRec) (q : List FaultRec) (hp : s.w.pending = f :: q) :
    ∃ cs, takePending s = { takeFault { s with w := { s.w with pending := q } } f with cores := cs } := by
  unfold takePending
  rw [hp]
  exact ⟨_, bump_frame _ _ _ _⟩

theorem exec_trapEntry {s : State} {id : Nat} {w : Wave} (hid : id ≠ 0) (hw : waveOf s id = some w)
    (hm : w.mode = .program) (hr : w.res = .resident) :
    exec (.trapEntry id) s = .next (takePending (focus s id)) := by
  refine congrArg _ ((onWave_of_waveOf hid hw _).trans ?_)
  simp only [focus_w hw, hm, hr, decide_true, Bool.and_self, if_true]

theorem trapEntry_takes_earliest {s : State} {id : Nat} {w : Wave} {f : FaultRec} {q : List FaultRec} (hid : id ≠ 0)
    (hw : waveOf s id = some w) (hm : w.mode = .program) (hr : w.res = .resident) (hp : w.pending = f :: q) :
    ∃ t, exec (.trapEntry id) s = .next t ∧ t.w = (takeFault { s with w := { w with pending := q } } f).w ∧
      t.mem = s.mem ∧ t.ctxs = s.ctxs := by
  obtain rfl := (focus_w hw).symm
  obtain ⟨cs, ht⟩ := takePending_cons (focus s id) f q hp
  have hn (u : State) (hu : u.w = { (focus s id).w with pending := q }) : u.w.mode ≠ .supervisor := by
    rw [hu, hm]
    decide
  refine ⟨_, exec_trapEntry hid hw hm hr, ?_⟩
  rw [ht, takeFault_program _ f (hn _ rfl), takeFault_program _ f (hn _ rfl), focus_frame s id]
  exact ⟨rfl, rfl, rfl⟩

theorem exec_registerFileEccError {s : State} {id : Nat} {w : Wave} (hid : id ≠ 0) (hw : waveOf s id = some w) :
    exec (.registerFileEccError id) s = .next (endContext s w.ctx 0x21 0 w.core) := by
  refine Eq.trans (b := execRegisterFileEccError id s) rfl ?_
  simp only [execRegisterFileEccError, hw, if_neg hid]

/-- Settles O36: from what `takeFault` does in and outside supervisor mode, and what each instruction and row hands to it. -/
theorem trapsTaken : Obligations.TrapsTaken := by
  unfold Obligations.TrapsTaken
  refine ⟨fun s f => ⟨takeFault_supervisor s f, fun hm => ?_⟩, ?_, fun slot word next h => ?_, exec_unassignedOpcode,
    fun s id w f q => trapEntry_takes_earliest, fun s id w => exec_registerFileEccError⟩
  · rw [takeFault_program s f hm, enterTrap_of_notSupervisor _ f _ hm, trapEntryOf]
    cases ctxOf s s.w.ctx <;> rfl
  · intro s h code e past
    refine ⟨fun he => ⟨exec_trap_empty s h code he, exec_bkpt_empty s h code he⟩, fun he => ?_⟩
    have hpast : past = pcPast s := by
      simp only [past, pcPast, updW]
      cases s.w.iss.agent <;> rfl
    rw [exec_trap s h code he, exec_bkpt s h code he, hpast, trapCause_eq, BitVec.ofNat_toNat]
    exact ⟨rfl, rfl⟩
  · exact decode_of_opAssigned_false slot word next (opAssigned_of_unassigned _ h)

end Sys2Proof.Machine
end
